-- ==== Sys2Proof/Word.lean ====
section
/-! DEFINITION. The words of the block: bytes, 16-bit samples, 32-bit registers, and the XR values (00_scope.md R16 to
R18). -/

namespace Sys2Proof

/-- One byte at the host port (20_memory.md R84). -/
abbrev Byte := BitVec 8

/-- One 16-bit element of IBUF or OBUF (20_memory.md R80). -/
abbrev Half := BitVec 16

/-- A command word, a register of the REG space, a word of an EVT or FRM record (00_scope.md R16). -/
abbrev Word := BitVec 32

/-- XR (00_scope.md R18): the exact rationals together with one extra element NaN. It is not a floating-point type. -/
inductive XR where
  /-- The element NaN. -/
  | nan
  /-- An exact rational. -/
  | val (q : Rat)
deriving DecidableEq, Repr, Inhabited

end Sys2Proof
end

