-- ==== Sys2Proof/Syntax.lean ====
section
/-! DEFINITION. The sixteen commands of the opcode map (30_encoding.md R112), one constructor each, with the
argument that the command word carries. -/

namespace Sys2Proof

/-- The commands. `frame` is the frame index of R116; `rderr` is the capture-read-error flag of R117. -/
inductive Instr where
  | nop
  | clear
  | sweep
  | twoph
  | ttone
  | clipchk
  | extract
  | fsync
  | fit (frame : Nat)
  | xint (frame : Nat)
  | resist
  | temp
  | decode (rderr : Bool)
  | sdecode (rderr : Bool)
  | pres1 (rderr : Bool)
  | pres2 (rderr : Bool)
deriving DecidableEq, Repr

end Sys2Proof
end

