-- ==== Sys2Proof/WellFormed.lean ====
section
/-! DEFINITION. Which terms of Instr are commands the encoding can carry: a frame index fits the 8 bits of ARG
(30_encoding.md R116). -/

namespace Sys2Proof

/-- The one check of the syntax: the frame index of FIT and XINT is `0 .. 255` (R116). -/
def Instr.wf : Instr → Bool
  | .fit f => decide (f < 256)
  | .xint f => decide (f < 256)
  | .nop | .clear | .sweep | .twoph | .ttone | .clipchk | .extract | .fsync | .resist | .temp => true
  | .decode _ | .sdecode _ | .pres1 _ | .pres2 _ => true

end Sys2Proof
end

