-- ==== Sys2Proof/Decode.lean ====
section
/-! DEFINITION. The decoder, total on every 32-bit word, rejecting by name (30_encoding.md R110 to R117), and after it
the encoder. The decoder is the opcode map itself: a list of rows, each with its match and its mask. -/

namespace Sys2Proof

/-- Why a command word is illegal (30_encoding.md R114). -/
inductive DecodeError where
  /-- `w[31:16]` is not zero. -/
  | reservedBits
  /-- `OP` is none of the sixteen values of the map. -/
  | unknownOp
  /-- The command takes no argument and `ARG` is not zero. -/
  | argNotZero
  /-- The command takes RDERR in `ARG[0]` and `ARG[7:1]` is not zero. -/
  | rderrHighBits
deriving DecidableEq, Repr

/-- How a command uses ARG (R112). -/
inductive ArgUse where
  /-- ARG must be zero. -/
  | none
  /-- ARG is a frame index. -/
  | frame
  /-- `ARG[0]` is RDERR, `ARG[7:1]` must be zero. -/
  | rderr
deriving DecidableEq, Repr

/-- The field OP, `w[7:0]` (R110). -/
def opField (w : Word) : Byte := w.extractLsb' 0 8
/-- The field ARG, `w[15:8]` (R110). -/
def argField (w : Word) : Byte := w.extractLsb' 8 8
/-- The reserved field, `w[31:16]` (R110). -/
def reservedField (w : Word) : Half := w.extractLsb' 16 16
/-- ARG as a frame index (R116). -/
def argFrame (w : Word) : Nat := (argField w).toNat
/-- ARG as RDERR (R117): bit 8 of the word. -/
def argRderr (w : Word) : Bool := w.getLsbD 8

/-- One row of the opcode map (R112). -/
structure OpRow where
  /-- The row's match. -/
  pattern : Word
  /-- The row's mask. -/
  mask : Word
  /-- The row's use of ARG. -/
  arg : ArgUse
  /-- The command that a word of this row stands for. -/
  make : Word → Instr

/-- The opcode map of R112, in its order. -/
def opcodeMap : List OpRow := [
  ⟨0x00000000, 0xFFFFFFFF, .none, fun _ => .nop⟩,
  ⟨0x00000001, 0xFFFFFFFF, .none, fun _ => .clear⟩,
  ⟨0x00000010, 0xFFFFFFFF, .none, fun _ => .sweep⟩,
  ⟨0x00000011, 0xFFFFFFFF, .none, fun _ => .twoph⟩,
  ⟨0x00000012, 0xFFFFFFFF, .none, fun _ => .ttone⟩,
  ⟨0x00000020, 0xFFFFFFFF, .none, fun _ => .clipchk⟩,
  ⟨0x00000021, 0xFFFFFFFF, .none, fun _ => .extract⟩,
  ⟨0x00000022, 0xFFFFFFFF, .none, fun _ => .fsync⟩,
  ⟨0x00000023, 0xFFFF00FF, .frame, fun w => .fit (argFrame w)⟩,
  ⟨0x00000024, 0xFFFF00FF, .frame, fun w => .xint (argFrame w)⟩,
  ⟨0x00000025, 0xFFFFFFFF, .none, fun _ => .resist⟩,
  ⟨0x00000026, 0xFFFFFFFF, .none, fun _ => .temp⟩,
  ⟨0x00000030, 0xFFFFFEFF, .rderr, fun w => .decode (argRderr w)⟩,
  ⟨0x00000031, 0xFFFFFEFF, .rderr, fun w => .sdecode (argRderr w)⟩,
  ⟨0x00000040, 0xFFFFFEFF, .rderr, fun w => .pres1 (argRderr w)⟩,
  ⟨0x00000041, 0xFFFFFEFF, .rderr, fun w => .pres2 (argRderr w)⟩]

/-- A word selects a row exactly when `w & mask = match` (R112). -/
def OpRow.selects (r : OpRow) (w : Word) : Bool := w &&& r.mask == r.pattern

/-- The name under which a word that selects no row is rejected (R114). -/
def rejection (w : Word) : DecodeError :=
  if reservedField w ≠ 0 then .reservedBits
  else match opcodeMap.find? (fun r => opField r.pattern == opField w) with
    | Option.none => .unknownOp
    | some r => if r.arg = .rderr then .rderrHighBits else .argNotZero

/-- Decoding (R113): the one row of the map that the word selects, or the name of what is wrong. -/
def decodeWord (w : Word) : Except DecodeError Instr :=
  match opcodeMap.find? (·.selects w) with
  | some r => .ok (r.make w)
  | Option.none => .error (rejection w)

/-- A word from its four bytes, the byte at the lowest address in bits 7:0 (20_memory.md R84). -/
def wordOfBytes (b0 b1 b2 b3 : Byte) : Word := b3 ++ b2 ++ b1 ++ b0

/-- The four bytes of a word, lowest address first (R84). -/
def bytesOfWord (w : Word) : List Byte :=
  [w.extractLsb' 0 8, w.extractLsb' 8 8, w.extractLsb' 16 8, w.extractLsb' 24 8]

/-- Decoding of a command as the bytes the host writes to CMD, lowest address first; fewer or more than four bytes are
no command word (20_memory.md R85). -/
def decodeBytes : List Byte → Option Instr
  | [b0, b1, b2, b3] => (decodeWord (wordOfBytes b0 b1 b2 b3)).toOption
  | _ => Option.none

/-! ## The encoder -/

/-- `OP | (arg << 8)` (30_encoding.md R120). -/
def commandWord (op arg : Nat) : Word := BitVec.ofNat 32 (op + 256 * arg)

/-- RDERR as the value of ARG (R117). -/
def rderrArg (rderr : Bool) : Nat := if rderr then 1 else 0

/-- The command word of a command (R112). -/
def encode : Instr → Word
  | .nop => commandWord 0x00 0
  | .clear => commandWord 0x01 0
  | .sweep => commandWord 0x10 0
  | .twoph => commandWord 0x11 0
  | .ttone => commandWord 0x12 0
  | .clipchk => commandWord 0x20 0
  | .extract => commandWord 0x21 0
  | .fsync => commandWord 0x22 0
  | .fit f => commandWord 0x23 f
  | .xint f => commandWord 0x24 f
  | .resist => commandWord 0x25 0
  | .temp => commandWord 0x26 0
  | .decode e => commandWord 0x30 (rderrArg e)
  | .sdecode e => commandWord 0x31 (rderrArg e)
  | .pres1 e => commandWord 0x40 (rderrArg e)
  | .pres2 e => commandWord 0x41 (rderrArg e)

/-- The instruction the decoder reads from an instruction whose bits are `w`, of which the table gives `nbits`: the bits
above `nbits` are 0, and the word goes to the decoder as its four bytes. -/
def decodeTableWord (nbits w : Nat) : Option Instr :=
  decodeBytes (bytesOfWord (BitVec.ofNat 32 (w % 2 ^ nbits)))

end Sys2Proof
end

