-- ==== Sys2Proof/Config.lean ====
section
/-! DEFINITION. What is fixed for the machine and is not state (10_state.md R30): the hardwired constants (00_scope.md
R9 to R13), the open parameters (R14), and the free values of the model, which no proof can see into. -/

namespace Sys2Proof.Config

/-! ## Hardwired constants (R9 to R12) -/

/-- SAMPLE_RATE, samples per second. -/
def sampleRate : Nat := 44100
/-- FREQUENCY, Hz. -/
def frequency : Nat := 1000
/-- PERIODS_PER_CELL. -/
def periodsPerCell : Nat := 10
/-- NUMBER_OF_CELLS. -/
def numberOfCells : Nat := 10
/-- SYNC_CELL_INDEX. -/
def syncCellIndex : Nat := 9
/-- REFERENCE_AMPLITUDE. -/
def referenceAmplitude : Rat := 1 / 2
/-- UPPER_AMPLITUDE. -/
def upperAmplitude : Rat := 9 / 10
/-- LOWER_AMPLITUDE. -/
def lowerAmplitude : Rat := 1 / 10
/-- CLIPPING_THRESHOLD. -/
def clippingThreshold : Int := 32000
/-- MIN_TEMP, degrees Celsius. -/
def minTemp : Rat := -40
/-- TEMPERATURE_INTERVAL. -/
def temperatureInterval : Rat := 1
/-- REF_RESISTANCE. -/
def refResistance : Rat := 100
/-- MAX_AMPLITUDE. -/
def maxAmplitude : Rat := 32767

/-- SAMPLES_PER_CELL, the value 441 of the formula of R10 (90_conflicts.md C1). -/
def samplesPerCell : Nat := sampleRate * periodsPerCell / frequency
/-- SAMPLES_PER_FRAME (R10). -/
def samplesPerFrame : Nat := (numberOfCells - 1) * samplesPerCell
/-- QUARTER_PERIOD (R11). -/
def quarterPeriod : Nat := samplesPerCell / periodsPerCell / 4

/-- CLIP_LIMIT. -/
def clipLimit : Nat := 10
/-- MIN_SPAN. -/
def minSpan : Nat := 3
/-- SYNC_TARGET. -/
def syncTarget : Nat := periodsPerCell * 4
/-- SYNC_TOL. -/
def syncTol : Nat := 3
/-- EDGE_DROP_MIN. -/
def edgeDropMin : Nat := 3
/-- XCORR_OFFSET. -/
def xcorrOffset : Rat := 1 / 18
/-- XCORR_SCALE. -/
def xcorrScale : Rat := 1 - 1 / 9
/-- TRIM_THRESHOLD. -/
def trimThreshold : Nat := 1000
/-- WIN_NUM. -/
def winNum : Nat := 3
/-- WIN_DEN. -/
def winDen : Nat := 8
/-- WIN_OFF_NUM. -/
def winOffNum : Nat := 1
/-- WIN_OFF_DEN. -/
def winOffDen : Nat := 20
/-- SIMPLE_SCALE. -/
def simpleScale : Rat := 100

/-! ## Capacities at the values of R13 (log 11) -/

/-- IBUF_MAX, samples. -/
def ibufMax : Nat := 32768
/-- OBUF_MAX, 16-bit words. -/
def obufMax : Nat := 65536
/-- EVT_MAX, events. -/
def evtMax : Nat := 65536
/-- FRM_MAX, frames. -/
def frmMax : Nat := 256
/-- VOL_DEN. -/
def volDen : Nat := 10000

/-! ## The byte address map (20_memory.md R82) -/

/-- Number of registers of the REG space. -/
def regCount : Nat := 34
/-- Base of IBUF. -/
def ibufBase : Nat := 0x00010000
/-- Base of OBUF. -/
def obufBase : Nat := 0x00040000
/-- Base of EVT. -/
def evtBase : Nat := 0x00100000
/-- Base of FRM. -/
def frmBase : Nat := 0x00200000
/-- Base of XI. -/
def xiBase : Nat := 0x00210000
/-- First address beyond IBUF. -/
def ibufEnd : Nat := ibufBase + 2 * ibufMax
/-- First address beyond OBUF. -/
def obufEnd : Nat := obufBase + 2 * obufMax
/-- First address beyond EVT. -/
def evtEnd : Nat := evtBase + 16 * evtMax
/-- First address beyond FRM. -/
def frmEnd : Nat := frmBase + 64 * frmMax
/-- First address beyond XI. -/
def xiEnd : Nat := xiBase + 4 * frmMax

/-! ## Open parameters (R14)

Each is an opaque constant, or built from one so that the constraint of R14 holds of every value it can take and every
value that meets the constraint can be taken (log 9, log 10). -/

/-- The constraint of R14 on NTC_TABLE and NTC_LEN: at least 67 entries, positive, strictly decreasing, entry 65 is 100,
the last entry is 2522/1000. -/
abbrev NtcLegal (t : List Rat) : Prop :=
  67 ≤ t.length ∧ (∀ x ∈ t, 0 < x) ∧ t.Pairwise (· > ·) ∧ t[65]? = some 100 ∧ t.getLast? = some (2522 / 1000)

/-- Any list of rationals at all: nothing constrains it. -/
opaque ntcCandidate : List Rat

/-- A list that meets the constraint of R14. It stands only where `ntcCandidate` does not, so that `ntcTable` is legal
whatever `ntcCandidate` is; it is no claim about the hardware's table (log 9). -/
def ntcStandIn : List Rat := (List.range 66).map (fun i => 165 - (i : Rat)) ++ [2522 / 1000]

/-- NTC_TABLE: every list that meets the constraint of R14 is a possible value. Its length is NTC_LEN. -/
def ntcTable : List Rat := if NtcLegal ntcCandidate then ntcCandidate else ntcStandIn

/-- One less than CUT_SAMPLES_COUNT: any natural number. -/
opaque cutSamplesBelow : Nat
/-- CUT_SAMPLES_COUNT: any integer from 1 up. -/
def cutSamplesCount : Nat := cutSamplesBelow + 1
/-- SILENCE_THRESHOLD: any non-negative integer. -/
opaque silenceThreshold : Nat
/-- One less than the numerator of TONE_TO_SILENCE_RATIO. -/
opaque ratioNumBelow : Nat
/-- One less than the denominator of TONE_TO_SILENCE_RATIO. -/
opaque ratioDenBelow : Nat
/-- The numerator rn of TONE_TO_SILENCE_RATIO (46_presence.md R287): any integer from 1 up. -/
def ratioNum : Nat := ratioNumBelow + 1
/-- The denominator rd of TONE_TO_SILENCE_RATIO: any integer from 1 up. -/
def ratioDen : Nat := ratioDenBelow + 1

/-! ## Free values

Values the spec leaves unspecified. The first argument is a draw, a number that State counts up, so that two
occasions never share a value; the second says which register, element or address. -/

/-- An unspecified 32-bit word (60_exceptions.md R313, 20_memory.md R86, 70_reset_and_hazards.md R350). -/
opaque freeWord : Nat → Nat → Word
/-- An unspecified XR value (R313). -/
opaque freeXR : Nat → Nat → XR
/-- An unspecified bit (R313). -/
opaque freeBit : Nat → Bool
/-- The unspecified content of a byte of IBUF, OBUF, EVT or FRM that nothing has written since the draw named
(70_reset_and_hazards.md R343). -/
opaque unwrittenByte : Nat → Nat → Byte
/-- What the host reads at an IBUF element that is not in the buffer (70_reset_and_hazards.md R343), for a draw, the byte address
and the half the element holds: any half, the one it holds among them (log 5). -/
opaque outsideBuffer : Nat → Nat → Half → Half
/-- Whether a sample whose two candidate roundings differ takes the upper one (log 8). The arguments are the phase
`k mod SAMPLE_RATE` and the amplitude. -/
opaque roundsUp : Nat → Rat → Bool

end Sys2Proof.Config
end

