-- ==== Sys2Proof/Machine/State.lean ====
section
/-! DEFINITION. The state of the block (10_state.md R30), as plain data: 34 registers (CTRL holds nothing, R34), the five
memories, the host's agenda, and the counters that name free values. -/

namespace Sys2Proof.Machine

/-- The presence detector's state (10_state.md R39). -/
inductive PState where
  /-- 0: no presence run since reset or CLEAR. -/
  | idle
  /-- 1: phase 1 found silence. -/
  | armed
  /-- 2: concluded not detected. -/
  | absent
  /-- 3: concluded detected. -/
  | present
deriving DecidableEq, Repr

/-- The fault codes of STATUS.FAULT other than 0 (60_exceptions.md R311). A fault of the block is a NEXT state that holds
one of these; it is not an outcome of the step. -/
inductive FaultCode where
  /-- 1. -/
  | illegalCmd
  /-- 2. -/
  | badOperand
  /-- 3. -/
  | capacity
  /-- 4. -/
  | numeric
  /-- 5. -/
  | captureFailure
deriving DecidableEq, Repr

/-- The values of REG.ERROR (10_state.md R38). -/
inductive ErrorKind where
  /-- 0. -/
  | none
  /-- 1. -/
  | clippingDetected
  /-- 2. -/
  | noFramesFound
  /-- 3. -/
  | captureFailure
  /-- 4: in the numbering, written by no command. -/
  | undeterminedTemperature
deriving DecidableEq, Repr

/-- The width of a host access in bits. Only 16 and 32 are ever legal (20_memory.md R85). -/
inductive Width where
  | w8
  | w16
  | w32
deriving DecidableEq, Repr

/-- One host access at a byte address (20_memory.md R82). -/
inductive Access where
  /-- The host writes the low bits of `data`. -/
  | write (addr : Word) (width : Width) (data : Word)
  /-- The host reads. -/
  | read (addr : Word) (width : Width)
deriving DecidableEq, Repr

/-- One entry of the agenda: what happens next around the block (log 1). -/
inductive Event where
  /-- A host access (00_scope.md R27). -/
  | access (a : Access)
  /-- The moment at which the running command, if there is one, completes (00_scope.md R28). -/
  | completion
  /-- A hardware reset (70_reset_and_hazards.md R340). -/
  | hardwareReset
deriving DecidableEq, Repr

/-- The bytes of IBUF, OBUF, EVT and FRM that something has written, by byte address. -/
abbrev Memory := List Host.Cell

/-- The state. Unless a line says otherwise the field is the register of its name (10_state.md R31). -/
structure State where
  /-- CMD (R32): the last accepted command word; while `busy`, the word of the running command (log 2). -/
  cmd : Word
  /-- STATUS.BUSY (R33). -/
  busy : Bool
  /-- STATUS.DONE. -/
  done : Bool
  /-- STATUS.HAZ. -/
  haz : Bool
  /-- STATUS.UT. -/
  ut : Bool
  /-- STATUS.PSTATE, from which STATUS.DET is computed (R33, R39). -/
  pstate : PState
  /-- STATUS.FAULT; `none` is 0. -/
  fault : Option FaultCode
  ilen : Word
  olen : Word
  ncells : Word
  ppcell : Word
  syncidx : Word
  freq : Word
  refvol : Word
  maxvol : Word
  minvol : Word
  dur : Word
  tonevol : Word
  ecnt : Word
  fcnt : Word
  synccnt : Word
  fstart : Word
  fend : Word
  clipcnt : Word
  slope : XR
  intercept : XR
  xmed : XR
  cancamp : XR
  resistance : XR
  temperature : XR
  nframes : Word
  error : ErrorKind
  silence : Word
  tonelvl : Word
  /-- LEFTAMP, an i32 in two's complement. -/
  leftamp : Word
  /-- RIGHTAMP, an i32 in two's complement. -/
  rightamp : Word
  trimstart : Word
  trimend : Word
  /-- The bytes of IBUF, OBUF, EVT and FRM that something has written (R40 to R45; log 3). -/
  mem : Memory
  /-- XI (R47). -/
  xi : Vector XR Config.frmMax
  /-- The model's own: the draw that names the unspecified bytes of IBUF (log 3). -/
  ibufEpoch : Nat
  /-- The model's own: the same for OBUF. -/
  obufEpoch : Nat
  /-- The model's own: the same for EVT. -/
  evtEpoch : Nat
  /-- The model's own: the same for FRM. -/
  frmEpoch : Nat
  /-- The model's own: the next draw of free values (log 4, log 5). -/
  draws : Nat
  /-- The model's own: the word the host's last read returned (log 12). -/
  rdata : Word
  /-- The model's own: what is still to happen around the block, first first (log 1). -/
  agenda : List Event
deriving DecidableEq, Repr

/-- The reasons for which a step could stop the machine. There is none: every fault of the spec is a next state with a
code in STATUS.FAULT (60_exceptions.md R310, R313), so no step of this machine answers `Outcome.fault`. Safe: nothing
is raised. -/
inductive Fault where
deriving DecidableEq, Repr

/-- The reasons for which an instruction could be given no meaning. -/
inductive Refusal where
  /-- Raised by an arm of `exec` for an instruction that has no meaning in the model; no arm does. Safe: the model stops
  where the hardware goes on. -/
  | notModelled (mnemonic : String)
deriving DecidableEq, Repr

/-- The state after hardware reset (70_reset_and_hazards.md R340, 10_state.md R51). IBUF, OBUF, EVT and FRM hold no
written byte: their contents are unspecified (R343). -/
def State.reset : State where
  cmd := 0
  busy := false
  done := false
  haz := false
  ut := false
  pstate := .idle
  fault := none
  ilen := 0
  olen := 0
  ncells := 10
  ppcell := 10
  syncidx := 9
  freq := 1000
  refvol := 5000
  maxvol := 9000
  minvol := 1000
  dur := 0
  tonevol := 5000
  ecnt := 0
  fcnt := 0
  synccnt := 0
  fstart := 0
  fend := 0
  clipcnt := 0
  slope := .nan
  intercept := .nan
  xmed := .nan
  cancamp := .nan
  resistance := .nan
  temperature := .nan
  nframes := 0
  error := .none
  silence := 0
  tonelvl := 0
  leftamp := 0
  rightamp := 0
  trimstart := 0
  trimend := 0
  mem := []
  xi := Vector.replicate Config.frmMax .nan
  ibufEpoch := 0
  obufEpoch := 0
  evtEpoch := 0
  frmEpoch := 0
  draws := 1
  rdata := 0
  agenda := []

end Sys2Proof.Machine
end

