-- ==== Sys2Proof/Machine/Flags.lean ====
section
/-! DEFINITION. The fields of STATUS (10_state.md R33, R39, R50) and the numbers of the enumerations at the host port.
The block has no arithmetic flags (R50). -/

namespace Sys2Proof.Machine

/-- The two bits PSTATE (10_state.md R39). -/
def PState.number : PState → Nat
  | .idle => 0
  | .armed => 1
  | .absent => 2
  | .present => 3

/-- The byte FAULT (60_exceptions.md R311). -/
def FaultCode.number : FaultCode → Nat
  | .illegalCmd => 1
  | .badOperand => 2
  | .capacity => 3
  | .numeric => 4
  | .captureFailure => 5

/-- The number of a result error (10_state.md R38). -/
def ErrorKind.number : ErrorKind → Nat
  | .none => 0
  | .clippingDetected => 1
  | .noFramesFound => 2
  | .captureFailure => 3
  | .undeterminedTemperature => 4

/-- STATUS.DET: 1 exactly when PSTATE is 3 (R33). -/
def State.det (s : State) : Bool := s.pstate = .present

/-- STATUS.FAULT as a number, 0 for no fault (R311). -/
def State.faultNumber (s : State) : Nat := (s.fault.map FaultCode.number).getD 0

/-- The word a read of STATUS returns (R33): BUSY, DONE, HAZ, UT, DET in bits 0 to 4, PSTATE in bits 6:5, bit 7 zero,
FAULT in bits 15:8, bits 31:16 zero. -/
def State.statusWord (s : State) : Word :=
  BitVec.ofNat 32 (s.busy.toNat + 2 * s.done.toNat + 4 * s.haz.toNat + 8 * s.ut.toNat + 16 * s.det.toNat
    + 32 * s.pstate.number + 256 * s.faultNumber)

/-- The flags at completion (00_scope.md R28): BUSY cleared, DONE set. -/
def State.complete (s : State) : State := { s with busy := false, done := true }

/-- STATUS.UT as TEMP, DECODE and SDECODE write it: 1 exactly when TEMPERATURE is NaN (R33). -/
def State.reportTemperature (t : XR) (s : State) : State :=
  { s with temperature := t, ut := decide (t = .nan) }

end Sys2Proof.Machine
end

