-- ==== Sys2Proof/Machine/Ops.lean ====
section
/-! DEFINITION. The operations that the meanings share: bytes and records of the memories (20_memory.md R82 to R84), taking
a fault and the return from it (60_exceptions.md R310 to R314, 70_reset_and_hazards.md R340, R341), result errors (R318), and the
clear of the scratch state (45_decode.md R256). -/

namespace Sys2Proof.Machine

/-! ## Memory as a list of written bytes -/

/-- The byte written at an address, if any. -/
def Memory.get : Memory → Nat → Option Byte
  | [], _ => none
  | (k, b) :: m, a => if k = a then some b else Memory.get m a

/-- The cells of consecutive bytes from an address up. -/
def cellsFrom (a : Nat) : List Byte → Memory
  | [] => []
  | b :: bs => (a, b) :: cellsFrom (a + 1) bs

/-- Write consecutive bytes from an address up. -/
def Memory.put (m : Memory) (a : Nat) (bs : List Byte) : Memory :=
  m.filter (·.1 < a) ++ cellsFrom a bs ++ m.filter (a + bs.length ≤ ·.1)

/-- Take out every byte at an address from `lo` up and below `hi`. -/
def Memory.erase (m : Memory) (lo hi : Nat) : Memory :=
  m.filter (fun c => c.1 < lo || hi ≤ c.1)

/-- The byte addresses of IBUF, OBUF, EVT and FRM (20_memory.md R82). -/
abbrev memoryAddress (a : Nat) : Prop :=
  (Config.ibufBase ≤ a ∧ a < Config.ibufEnd) ∨ (Config.obufBase ≤ a ∧ a < Config.obufEnd)
    ∨ (Config.evtBase ≤ a ∧ a < Config.evtEnd) ∨ (Config.frmBase ≤ a ∧ a < Config.frmEnd)

/-- The canonical form: addresses strictly rising, each an address of one of the four memories. A byte that is not listed
holds no written value, so no entry equals what an unlisted address holds. -/
abbrev Memory.wf (m : Memory) : Prop :=
  m.Pairwise (fun x y => x.1 < y.1) ∧ ∀ c ∈ m, memoryAddress c.1

/-- The memories whose bytes can be unspecified (70_reset_and_hazards.md R343). -/
inductive Space where
  | ibuf
  | obuf
  | evt
  | frm
deriving DecidableEq, Repr

/-- The draw that names what an unwritten byte at an address holds (log 3). -/
def State.epochAt (s : State) (a : Nat) : Nat :=
  if a < Config.ibufEnd then s.ibufEpoch
  else if a < Config.obufEnd then s.obufEpoch
  else if a < Config.evtEnd then s.evtEpoch
  else s.frmEpoch

/-- The byte a memory holds at an address: the one written last, or an unspecified one (R343). -/
def State.memByte (s : State) (a : Nat) : Byte :=
  (s.mem.get a).getD (Config.unwrittenByte (s.epochAt a) a)

/-- The 16-bit element at a byte address, little-endian (R84). -/
def State.memHalf (s : State) (a : Nat) : Half := s.memByte (a + 1) ++ s.memByte a

/-- The 32-bit word at a byte address, little-endian (R84). -/
def State.memWord (s : State) (a : Nat) : Word :=
  wordOfBytes (s.memByte a) (s.memByte (a + 1)) (s.memByte (a + 2)) (s.memByte (a + 3))

/-- The two bytes of a 16-bit element, lowest address first (R84). -/
def bytesOfHalf (h : Half) : List Byte := [h.extractLsb' 0 8, h.extractLsb' 8 8]

/-- Write consecutive bytes. -/
def State.putBytes (a : Nat) (bs : List Byte) (s : State) : State := { s with mem := s.mem.put a bs }

/-- The contents of a memory become unspecified, under the current draw (R343). -/
def State.forgetSpace (s : State) : Space → State
  | .ibuf => { s with mem := s.mem.erase Config.ibufBase Config.ibufEnd, ibufEpoch := s.draws }
  | .obuf => { s with mem := s.mem.erase Config.obufBase Config.obufEnd, obufEpoch := s.draws }
  | .evt => { s with mem := s.mem.erase Config.evtBase Config.evtEnd, evtEpoch := s.draws }
  | .frm => { s with mem := s.mem.erase Config.frmBase Config.frmEnd, frmEpoch := s.draws }

/-- The contents of several memories become unspecified, and the draw is used up. -/
def State.forgetSpaces (s : State) (l : List Space) : State :=
  { l.foldl State.forgetSpace s with draws := s.draws + 1 }

/-! ## The elements of the memories (20_memory.md R83) -/

/-- `IBUF[i]` as a 16-bit word. -/
def State.ibufHalf (s : State) (i : Nat) : Half := s.memHalf (Config.ibufBase + 2 * i)

/-- `IBUF[i]` as an i16 (10_state.md R40). -/
def State.ibufSample (s : State) (i : Nat) : Int := (s.ibufHalf i).toInt

/-- `OBUF[i]` as a 16-bit word. -/
def State.obufHalf (s : State) (i : Nat) : Half := s.memHalf (Config.obufBase + 2 * i)

/-- `OBUF[i]` as an i16 (10_state.md R41). -/
def State.obufSample (s : State) (i : Nat) : Int := (s.obufHalf i).toInt

/-- The kind of an event (10_state.md R42). -/
inductive SampleKind where
  | zero
  | max
  | min
deriving DecidableEq, Repr

/-- The code of a kind (R42). -/
def SampleKind.number : SampleKind → Nat
  | .zero => 0
  | .max => 1
  | .min => 2

/-- The kind a stored word stands for; the words above 2 never occur (R42; log 14). -/
def SampleKind.ofWord (w : Word) : SampleKind :=
  if w = 0 then .zero else if w = 1 then .max else .min

/-- One record of EVT, the source's Sample (R42). -/
structure Sample where
  amplitude : Int
  bufferIndex : Nat
  delta : Nat
  kind : SampleKind
deriving DecidableEq, Repr

/-- One cell of a frame record (R45). -/
structure CalCell where
  amplitude : Int
  index : Nat
deriving DecidableEq, Repr

/-- Word `j` of EVT record `p` (20_memory.md R83). -/
def State.evtWord (s : State) (p j : Nat) : Word := s.memWord (Config.evtBase + 16 * p + 4 * j)

/-- Word `j` of FRM record `f` (R83). -/
def State.frmWord (s : State) (f j : Nat) : Word := s.memWord (Config.frmBase + 64 * f + 4 * j)

/-- `EVT[p]`. -/
def State.sampleAt (s : State) (p : Nat) : Sample where
  amplitude := (s.evtWord p 0).toInt
  bufferIndex := (s.evtWord p 1).toNat
  delta := (s.evtWord p 2).toNat
  kind := .ofWord (s.evtWord p 3)

/-- The valid events, `EVT[0 .. ECNT-1]` (R42). -/
def State.samples (s : State) : List Sample := (List.range s.ecnt.toNat).map s.sampleAt

/-- `FRM[f].cell[c]`. -/
def State.cellAt (s : State) (f c : Nat) : CalCell where
  amplitude := (s.frmWord f (2 * c)).toInt
  index := (s.frmWord f (2 * c + 1)).toNat

/-- The eight cells of `FRM[f]` (R45). -/
def State.frameAt (s : State) (f : Nat) : List CalCell :=
  (List.range (Config.numberOfCells - 2)).map (s.cellAt f)

/-- `XI[f]`; there is no element beyond FRM_MAX (R47). -/
def State.xiAt (s : State) (f : Nat) : XR := s.xi[f]?.getD .nan

/-- The sixteen bytes of an EVT record (20_memory.md R83). -/
def Sample.bytes (x : Sample) : List Byte :=
  bytesOfWord (BitVec.ofInt 32 x.amplitude) ++ bytesOfWord (BitVec.ofNat 32 x.bufferIndex)
    ++ bytesOfWord (BitVec.ofNat 32 x.delta) ++ bytesOfWord (BitVec.ofNat 32 x.kind.number)

/-- The eight bytes of a cell of an FRM record (R83). -/
def CalCell.bytes (c : CalCell) : List Byte :=
  bytesOfWord (BitVec.ofInt 32 c.amplitude) ++ bytesOfWord (BitVec.ofNat 32 c.index)

/-- The event list becomes `l`: `EVT[0 ..]` and ECNT; records beyond keep their bytes (41_sample_extractor.md R177). -/
def State.putSamples (l : List Sample) (s : State) : State :=
  { s with mem := s.mem.put Config.evtBase (l.flatMap Sample.bytes), ecnt := BitVec.ofNat 32 l.length }

/-- The frame list becomes `l`: `FRM[0 ..]` and FCNT (42_frame_sync_cells.md R190). -/
def State.putFrames (l : List (List CalCell)) (s : State) : State :=
  { s with
    mem := s.mem.put Config.frmBase (l.flatMap (·.flatMap CalCell.bytes)), fcnt := BitVec.ofNat 32 l.length }

/-- The output becomes `l`: `OBUF[0 ..]` and OLEN; words beyond keep their contents (40_synthesizer.md R140). -/
def State.putOutput (l : List Int) (s : State) : State :=
  { s with
    mem := s.mem.put Config.obufBase (l.flatMap (fun v => bytesOfHalf (BitVec.ofInt 16 v)))
    olen := BitVec.ofNat 32 l.length }

/-- `XI[f] <- v`. -/
def State.putXi (f : Nat) (v : XR) (s : State) : State := { s with xi := s.xi.setIfInBounds f v }

/-- Every element of XI becomes NaN (10_state.md R47). -/
def State.clearXi (s : State) : State := { s with xi := Vector.replicate Config.frmMax .nan }

/-! ## Clear-before-use -/

/-- `clear_scratch()` (45_decode.md R256). -/
def State.clearScratch (s : State) : State :=
  { s with
    xi := Vector.replicate Config.frmMax .nan
    ecnt := 0, fcnt := 0, synccnt := 0, fstart := 0, fend := 0, clipcnt := 0
    slope := .nan, intercept := .nan, xmed := .nan, cancamp := .nan
    leftamp := 0, rightamp := 0, trimstart := 0, trimend := 0
    temperature := .nan, resistance := .nan, nframes := 0, error := .none, ut := true }

/-! ## Taking a fault, and a result error -/

/-- `raise Fault(code)` (60_exceptions.md R313): the command completes and the code is held. With nothing else this is
the fault of a check that precedes every write. -/
def State.raiseFault (code : FaultCode) (s : State) : State :=
  { s with busy := false, done := true, fault := some code }

/-- The unspecified value of ERROR after a late fault: one of the codes 0 to 3, since 4 is written by no command and 5
and above never occur (10_state.md R38; log 4). -/
def freeError (d : Nat) : ErrorKind :=
  match (Config.freeWord d 27).toNat % 4 with
  | 0 => .none
  | 1 => .clippingDetected
  | 2 => .noFramesFound
  | _ => .captureFailure

/-- What a late fault leaves unspecified (R313): the scratch state of 10_state.md R48, registers 24 to 27, UT, SILENCE and
TONELVL. Each becomes a free value; the second argument of a draw is the register's number. -/
def State.unspecify (s : State) : State :=
  let d := s.draws
  { s with
    mem := (s.mem.erase Config.evtBase Config.evtEnd).erase Config.frmBase Config.frmEnd
    evtEpoch := d, frmEpoch := d, draws := d + 1
    xi := Vector.ofFn (fun i => Config.freeXR d (Config.xiBase + i))
    ecnt := Config.freeWord d 14, fcnt := Config.freeWord d 15, synccnt := Config.freeWord d 16
    fstart := Config.freeWord d 17, fend := Config.freeWord d 18, clipcnt := Config.freeWord d 19
    slope := Config.freeXR d 20, intercept := Config.freeXR d 21, xmed := Config.freeXR d 22
    cancamp := Config.freeXR d 23, resistance := Config.freeXR d 24, temperature := Config.freeXR d 25
    nframes := Config.freeWord d 26, error := freeError d
    silence := Config.freeWord d 28, tonelvl := Config.freeWord d 29
    leftamp := Config.freeWord d 30, rightamp := Config.freeWord d 31
    trimstart := Config.freeWord d 32, trimend := Config.freeWord d 33
    ut := Config.freeBit d }

/-- A fault raised after a command began to write (R313). -/
def State.raiseLateFault (code : FaultCode) (s : State) : State := s.unspecify.raiseFault code

/-- The fault of a decode whose buffer the host reported unreadable (60_exceptions.md R315): a late fault, after which
ERROR is 3. -/
def State.raiseCaptureFailure (s : State) : State :=
  { s.raiseLateFault .captureFailure with error := .captureFailure }

/-- `fail Error(kind)` (60_exceptions.md R318). -/
def State.failError (kind : ErrorKind) (s : State) : State :=
  { s with
    busy := false, done := true
    temperature := .nan, resistance := .nan, nframes := 0, error := kind, ut := true }

/-! ## Reset, the only return from a fault -/

/-- The memories that a command writes (20_memory.md R81), which are unspecified when a soft reset abandons it
(70_reset_and_hazards.md R343). XI is not listed: reset makes it NaN. -/
def writtenSpaces : Instr → List Space
  | .sweep | .twoph | .ttone => [.obuf]
  | .extract | .sdecode _ => [.evt]
  | .fsync => [.frm]
  | .decode _ => [.evt, .frm]
  | .nop | .clear | .clipchk | .fit _ | .xint _ | .resist | .temp | .pres1 _ | .pres2 _ => []

/-- The command that runs: the accepted word, decoded, while BUSY is 1 (20_memory.md R96). -/
def State.running (s : State) : Option Instr :=
  if s.busy then (decodeWord s.cmd).toOption else none

/-- The memories that a reset of this state abandons to unspecified contents (R343). -/
def State.abandoned (s : State) : List Space := (s.running.map writtenSpaces).getD []

/-- Soft reset (70_reset_and_hazards.md R341, R343): every register and XI as after hardware reset; IBUF, OBUF, EVT and
FRM unchanged, but for the memories of an abandoned command. -/
def State.softReset (s : State) : State :=
  let kept := s.forgetSpaces s.abandoned
  { State.reset with
    mem := kept.mem, ibufEpoch := kept.ibufEpoch, obufEpoch := kept.obufEpoch, evtEpoch := kept.evtEpoch
    frmEpoch := kept.frmEpoch, draws := kept.draws, rdata := s.rdata, agenda := s.agenda }

/-- Hardware reset (R340, R343): the reset state, with new unspecified contents of the four memories. What the host has
read and what is still to come are the host's, and stay. -/
def State.hardwareReset (s : State) : State :=
  { State.reset with
    ibufEpoch := s.draws, obufEpoch := s.draws, evtEpoch := s.draws, frmEpoch := s.draws
    draws := s.draws + 1, rdata := s.rdata, agenda := s.agenda }

end Sys2Proof.Machine
end

