-- ==== Sys2Proof/Machine/Control.lean ====
section
/-! DEFINITION. The control commands: NOP, CLEAR (47_control.md). -/

namespace Sys2Proof.Machine

/-- NOP (47_control.md R300): completion and nothing else. -/
def execNop (s : State) : Host.Outcome State Fault Refusal := .next s.complete

/-- The presence detector back to IDLE (R301). -/
def State.resetPresence (s : State) : State := { s with pstate := .idle, silence := 0, tonelvl := 0 }

/-- CLEAR (R301): the scratch and result state, and the presence detector back to IDLE. -/
def execClear (s : State) : Host.Outcome State Fault Refusal :=
  .next s.clearScratch.resetPresence.complete

end Sys2Proof.Machine
end

