-- ==== Sys2Proof/Machine/Operands.lean ====
section
/-! DEFINITION. The operand forms (30_encoding.md R116 to R119), the checks on them (60_exceptions.md R312), and the numeric
functions of 00_scope.md R19, R20 and R24. -/

namespace Sys2Proof.Machine

/-- `neg(v)`: zero is not negative (00_scope.md R19). -/
def neg (v : Int) : Bool := v < 0

/-- `mag(v)`, so `mag(-32768)` is 32768 (R19). -/
def mag (v : Int) : Nat := v.natAbs

/-- `sat16(v)` (R19). -/
def sat16 (v : Int) : Int := max (-32768) (min v 32767)

/-- `rhu(x)`, round half up (R20). -/
def rhu (x : Rat) : Int := (x + 1 / 2).floor

/-- `median(list)`: the element at position `floor(n/2)` of the ascending sort; none of an empty list (R24). -/
def median {α : Type} [LinearOrder α] (l : List α) : Option α :=
  (l.insertionSort (· ≤ ·))[l.length / 2]?

/-- A volume operand as the fraction `k / VOL_DEN` (30_encoding.md R118). -/
def volume (k : Word) : Rat := (k.toNat : Rat) / (Config.volDen : Rat)

/-- A volume operand is legal from 0 to VOL_DEN (R118). -/
def volumeOk (k : Word) : Bool := k.toNat ≤ Config.volDen

/-- ILEN fits the capacity of IBUF (60_exceptions.md R312). -/
def State.ilenOk (s : State) : Bool := s.ilen.toNat ≤ Config.ibufMax

/-- The buffer, `IBUF[0 .. ILEN-1]` (10_state.md R40). -/
def State.buffer (s : State) : List Int := (List.range s.ilen.toNat).map s.ibufSample

/-- The frame index of FIT and XINT names a valid frame (30_encoding.md R116). -/
def State.frameOk (s : State) (f : Nat) : Bool := f < s.fcnt.toNat

/-- The BAD_OPERAND checks of SWEEP, all passed (40_synthesizer.md R142). -/
def State.sweepOperandsOk (s : State) : Bool :=
  s.freq.toNat ≠ 0 && s.ppcell.toNat ≠ 0 && 3 ≤ s.ncells.toNat && s.syncidx.toNat < s.ncells.toNat
    && volumeOk s.refvol && volumeOk s.maxvol && volumeOk s.minvol
    && Config.sampleRate * s.ppcell.toNat % s.freq.toNat = 0

/-- `samplesPerCell` of SWEEP: `SAMPLE_RATE * ppc / f`, exact where the checks pass (40_synthesizer.md R143). -/
def State.sweepSpc (s : State) : Nat := Config.sampleRate * s.ppcell.toNat / s.freq.toNat

/-- The CAPACITY check of SWEEP, passed (R142). -/
def State.sweepFits (s : State) : Bool := 2 * s.ncells.toNat * s.sweepSpc ≤ Config.obufMax

/-- The BAD_OPERAND checks of TWOPH and TTONE, all passed (40_synthesizer.md R153). -/
def State.toneOperandsOk (s : State) : Bool := s.freq.toNat ≠ 0 && volumeOk s.tonevol

/-- The CAPACITY check of TWOPH and TTONE, passed (R153). -/
def State.toneFits (s : State) : Bool := 2 * s.dur.toNat ≤ Config.obufMax

end Sys2Proof.Machine
end

