-- ==== Sys2Proof/Machine/Calibrator.lean ====
section
/-! DEFINITION. The calibrator: FIT, XINT, RESIST (43_calibrator.md). All arithmetic is exact. -/

namespace Sys2Proof.Machine

/-- The abscissa of a cell: the centre of its bucket, the half exact (43_calibrator.md R221). -/
def abscissa (c : CalCell) : Rat :=
  (c.index : Rat) * (Config.samplesPerCell : Rat) + (Config.samplesPerCell : Rat) / 2

/-- The sum of a list of rationals. -/
def total (l : List Rat) : Rat := l.foldr (· + ·) 0

/-- The least-squares slope and intercept over the cells of a frame (R220). -/
def fitLine (cells : List CalCell) : Rat × Rat :=
  let n : Rat := (cells.length : Rat)
  let sx := total (cells.map abscissa)
  let sy := total (cells.map fun c => (c.amplitude : Rat))
  let sxy := total (cells.map fun c => abscissa c * (c.amplitude : Rat))
  let sxx := total (cells.map fun c => abscissa c * abscissa c)
  let a := (n * sxy - sx * sy) / (n * sxx - sx * sx)
  (a, (sy - a * sx) / n)

/-- SLOPE and INTERCEPT of frame `f` (R220). -/
def State.fitFrame (s : State) (f : Nat) : State :=
  let line := fitLine (s.frameAt f)
  { s with slope := .val line.1, intercept := .val line.2 }

/-- The corrected intersection of a line (R224). -/
def intersection (slope intercept : Rat) : Rat :=
  (-intercept / slope / (Config.samplesPerFrame : Rat) - Config.xcorrOffset) / Config.xcorrScale

/-- The rationals of a list of XR values, where none is NaN. -/
def allRational : List XR → Option (List Rat)
  | [] => some []
  | .nan :: _ => none
  | .val q :: rest => (allRational rest).map (q :: ·)

/-- The intersections of the valid frames, `XI[0 .. FCNT-1]`, where all are computed (R228). -/
def State.intersections (s : State) : Option (List Rat) :=
  allRational ((List.range s.fcnt.toNat).map s.xiAt)

/-- The cancellation amplitude of a median intersection (R228). -/
def cancellation (t : Rat) : Rat :=
  Config.upperAmplitude - t * (Config.upperAmplitude - Config.lowerAmplitude)

/-- XMED, CANCAMP and RESISTANCE of a median intersection (R228). -/
def State.combine (s : State) (t : Rat) : State :=
  { s with
    xmed := .val t
    cancamp := .val (cancellation t)
    resistance := .val (cancellation t / Config.referenceAmplitude * Config.refResistance) }

/-- The median of the intersections; none when there is no frame or one intersection is NaN (R228). -/
def State.medianIntersection (s : State) : Option Rat := s.intersections.bind median

/-- FIT (R220). -/
def execFit (frame : Nat) (s : State) : Host.Outcome State Fault Refusal :=
  .next
    (if !s.frameOk frame then s.raiseFault .badOperand
    else (s.fitFrame frame).complete)

/-- XINT (R224), with its checks in the order of R225. -/
def execXint (frame : Nat) (s : State) : Host.Outcome State Fault Refusal :=
  .next
    (if !s.frameOk frame then s.raiseFault .badOperand
    else match s.slope, s.intercept with
      | .val a, .val b =>
        if a = 0 then s.raiseFault .numeric else (s.putXi frame (.val (intersection a b))).complete
      | _, _ => s.raiseFault .badOperand)

/-- RESIST (R228). -/
def execResist (s : State) : Host.Outcome State Fault Refusal :=
  .next
    (match s.medianIntersection with
    | none => s.raiseFault .badOperand
    | some t => (s.combine t).complete)

end Sys2Proof.Machine
end

