-- ==== Sys2Proof/Machine/Extract.lean ====
section
/-! DEFINITION. The sample extractor: EXTRACT (41_sample_extractor.md). -/

namespace Sys2Proof.Machine

/-- The first greatest magnitude of a scan (41_sample_extractor.md R175): the value and the index kept so far, then the
samples from index `i` on; only a strictly greater magnitude replaces what is kept. -/
def firstGreatest (best : Int) (p : Nat) : Nat → List Int → Int × Nat
  | _, [] => (best, p)
  | i, v :: rest =>
    if mag best < mag v then firstGreatest v i (i + 1) rest else firstGreatest best p (i + 1) rest

/-- The extremum event of a span of samples that begins at index `prev` (R175, R176). -/
def extremum (prev : Nat) : List Int → List Sample
  | [] => []
  | b :: rest =>
    let g := firstGreatest b prev (prev + 1) rest
    [{ amplitude := g.1, bufferIndex := g.2, delta := g.2 - prev, kind := if 0 ≤ g.1 then .max else .min }]

/-- The event of a crossing at index `i` (R172). -/
def crossing (prev i : Nat) (v : Int) : Sample :=
  { amplitude := v, bufferIndex := i, delta := i - prev, kind := .zero }

/-- The single pass of R170 over the samples from index `i` on: `prev` and `seen` as in the pseudocode, `last` the sample
at `i - 1`, `span` the samples from `prev` to `i - 1`, the latest first. -/
def extractFrom (prev : Nat) (seen : Bool) (i : Nat) (last : Int) (span : List Int) : List Int → List Sample
  | [] => []
  | v :: rest =>
    if neg last != neg v then
      (if seen && decide (Config.minSpan ≤ i - prev) then extremum prev span.reverse else [])
        ++ crossing prev i v :: extractFrom i true (i + 1) v [v] rest
    else extractFrom prev seen (i + 1) v (v :: span) rest

/-- The events that `extract(buf, len)` emits (R170). -/
def extractEvents : List Int → List Sample
  | [] => []
  | b :: rest => extractFrom 0 false 1 b [b] rest

/-- `extract` of a buffer into EVT and ECNT; `none` where an emit finds EVT full (R178). -/
def State.extractInto (s : State) (buf : List Int) : Option State :=
  let l := extractEvents buf
  if l.length ≤ Config.evtMax then some (s.putSamples l) else none

/-- EXTRACT (R170). -/
def execExtract (s : State) : Host.Outcome State Fault Refusal :=
  .next
    (if !s.ilenOk then s.raiseFault .badOperand
    else match s.extractInto s.buffer with
      | none => s.raiseLateFault .capacity
      | some t => t.complete)

end Sys2Proof.Machine
end

