-- ==== Sys2Proof/Machine/FrameSync.lean ====
section
/-! DEFINITION. The frame synchronizer and the cell extractor: FSYNC (42_frame_sync_cells.md). -/

namespace Sys2Proof.Machine

/-! ## Frame detection -/

/-- The state machine of R191, with the event positions of the frames it has completed, first first. -/
structure SyncState where
  syncCount : Nat
  frameStart : Nat
  frameEnd : Nat
  spans : List (Nat × Nat)
deriving DecidableEq, Repr

/-- The start (42_frame_sync_cells.md R191). -/
def SyncState.start : SyncState := { syncCount := 0, frameStart := 0, frameEnd := 0, spans := [] }

/-- The sync test (R193): the distance rounds to one quarter period. -/
def isSync (delta : Nat) : Bool :=
  (2 * delta + Config.quarterPeriod) / (2 * Config.quarterPeriod) = 1

/-- A marker of `n` sync crossings is accepted (R195). -/
def markerAccepted (n : Nat) : Bool := ((n : Int) - (Config.syncTarget : Int)).natAbs < Config.syncTol

/-- One event at position `p` (R192, R194, R195). -/
def SyncState.advance (st : SyncState) (x : Sample) (p : Nat) : SyncState :=
  if x.kind ≠ .zero then st
  else if isSync x.delta then
    { st with
      syncCount := st.syncCount + 1
      frameEnd := if st.frameStart ≠ 0 ∧ st.frameEnd = 0 then p else st.frameEnd }
  else
    { syncCount := 0
      frameStart := if markerAccepted st.syncCount then p else st.frameStart
      frameEnd := 0
      spans :=
        if markerAccepted st.syncCount ∧ st.frameEnd ≠ 0 then st.spans ++ [(st.frameStart, st.frameEnd)]
        else st.spans }

/-- The state machine over events from position `p` on. -/
def SyncState.over (st : SyncState) (p : Nat) : List Sample → SyncState
  | [] => st
  | x :: rest => (st.advance x p).over (p + 1) rest

/-! ## Cell extraction -/

/-- The bucket of a rebased index (R199). -/
def bucketOf (x : Nat) : Nat :=
  if x = 0 then 0 else (x + (Config.samplesPerCell - 1)) / Config.samplesPerCell - 1

/-- The capped magnitude of an extremum (R201). -/
def cellMagnitude (amplitude : Int) : Nat := min (mag amplitude) 32767

/-- The capped magnitudes of the extrema of bucket `k` among the events of a frame, in their order (R199 to R201). -/
def bucket (base : Nat) (events : List Sample) (k : Nat) : List Nat :=
  (events.filter fun x => decide (x.kind ≠ .zero) && decide (bucketOf (x.bufferIndex - base) = k)).map
    fun x => cellMagnitude x.amplitude

/-- A bucket of more than EDGE_DROP_MIN points loses its first and its last (R201). -/
def trimEdges (l : List Nat) : List Nat :=
  if Config.edgeDropMin < l.length then l.tail.dropLast else l

/-- A cell's amplitude before the sign correction (R201). -/
def cellAmplitude (points : List Nat) : Nat := (median (trimEdges points)).getD 0

/-- The amplitudes of the nine cells before the sign correction (R201). -/
def rawAmplitudes (base : Nat) (events : List Sample) : List Nat :=
  (List.range (Config.numberOfCells - 1)).map fun k => cellAmplitude (bucket base events k)

/-- The least index whose amplitude is the minimum over all (R202). -/
def minimumCell (amps : List Nat) : Nat := amps.findIdx fun a => amps.all fun b => a ≤ b

/-- The frame record of nine amplitudes: negated from the minimum cell on, the minimum cell removed (R203, R204). -/
def correctedCells (amps : List Nat) : List CalCell :=
  let mi := minimumCell amps
  ((List.range amps.length).filter (· ≠ mi)).map fun k =>
    { amplitude := if k < mi then (amps.getD k 0 : Int) else -(amps.getD k 0 : Int), index := k }

/-- The events at positions `fs .. fe` (R198). -/
def frameEvents (events : List Sample) (fs fe : Nat) : List Sample := (events.drop fs).take (fe + 1 - fs)

/-- The base of a frame: the `bufferIndex` of its first event (R198). -/
def frameBase (events : List Sample) (fs : Nat) : Nat := (events[fs]?.map (·.bufferIndex)).getD 0

/-- `cells(fs, fe)` (R198). -/
def frameCells (events : List Sample) (fs fe : Nat) : List CalCell :=
  correctedCells (rawAmplitudes (frameBase events fs) (frameEvents events fs fe))

/-! ## The command -/

/-- SYNCCNT, FSTART and FEND of the state machine (R190). -/
def State.putSync (st : SyncState) (s : State) : State :=
  { s with
    synccnt := BitVec.ofNat 32 st.syncCount
    fstart := BitVec.ofNat 32 st.frameStart
    fend := BitVec.ofNat 32 st.frameEnd }

/-- `fsync()` (R190): FRM, FCNT, XI and the three registers; `none` where an emitted frame finds FRM full (R207). -/
def State.synchronize (s : State) : Option State :=
  let events := s.samples
  let st := SyncState.start.over 0 events
  if st.spans.length ≤ Config.frmMax then
    some ((s.clearXi.putFrames (st.spans.map fun p => frameCells events p.1 p.2)).putSync st)
  else none

/-- FSYNC (R190). -/
def execFsync (s : State) : Host.Outcome State Fault Refusal :=
  .next
    (match s.synchronize with
    | none => s.raiseLateFault .capacity
    | some t => t.complete)

end Sys2Proof.Machine
end

