-- ==== Sys2Proof/Machine/Thermistor.lean ====
section
/-! DEFINITION. The thermistor table: TEMP (44_thermistor.md). -/

namespace Sys2Proof.Machine

/-- The scan of 44_thermistor.md R240 from the entry after `prev` on, where `prev` is entry `j`: at the first entry below
the resistance, the interpolation of R242; at the end of the table, NaN (R243). -/
def scanTable (r : Rat) (prev : Rat) (j : Nat) : List Rat → XR
  | [] => .nan
  | t :: rest =>
    if t < r then
      .val (Config.minTemp + (j : Rat) * Config.temperatureInterval
        + (r - prev) / (t - prev) * Config.temperatureInterval)
    else scanTable r t (j + 1) rest

/-- `temperatureFor(R)` over a table (R240). -/
def temperatureFor (table : List Rat) : XR → XR
  | .nan => .nan
  | .val r =>
    match table with
    | [] => .nan
    | t :: rest => scanTable r t 0 rest

/-- TEMPERATURE and UT of the resistance in RESISTANCE (R240). -/
def State.lookUp (s : State) : State :=
  s.reportTemperature (temperatureFor Config.ntcTable s.resistance)

/-- TEMP (R240). -/
def execTemp (s : State) : Host.Outcome State Fault Refusal := .next s.lookUp.complete

end Sys2Proof.Machine
end

