-- ==== Sys2Proof/Machine/Decoders.lean ====
section
/-! DEFINITION. The clipping check and the two decoders: CLIPCHK, DECODE, SDECODE (45_decode.md). The decoders are
composed of the stages of the other files. -/

namespace Sys2Proof.Machine

/-! ## The clipping check -/

/-- `clipcount`: the samples above CLIPPING_THRESHOLD as signed integers (45_decode.md R251). -/
def clipCount (buf : List Int) : Nat := (buf.filter fun v => Config.clippingThreshold < v).length

/-- CLIPCNT of the buffer (R251). -/
def State.countClipping (s : State) : State := { s with clipcnt := BitVec.ofNat 32 (clipCount s.buffer) }

/-- CLIPCHK (R251). -/
def execClipchk (s : State) : Host.Outcome State Fault Refusal :=
  .next (if !s.ilenOk then s.raiseFault .badOperand else s.countClipping.complete)

/-! ## DECODE -/

/-- Step 3 of DECODE for the frames of a list: the line of each, then its intersection; `none` at a frame of slope zero
(R253, R258). -/
def State.calibrateFrames (s : State) : List Nat → Option State
  | [] => some s
  | f :: rest =>
    let line := fitLine (s.frameAt f)
    if line.1 = 0 then none
    else ((s.fitFrame f).putXi f (.val (intersection line.1 line.2))).calibrateFrames rest

/-- The end of a successful decode: temperature, frame count, no error (R253, R257). -/
def State.report (s : State) (nframes : Word) : State :=
  let t := temperatureFor Config.ntcTable s.resistance
  { s with temperature := t, ut := decide (t = .nan), nframes := nframes, error := .none }

/-- DECODE after the clipping check, from the state `c` that holds CLIPCNT; `s` is the state at issue, to which a late fault
goes back for what it does not leave unspecified (R253, R313). -/
def State.decodeFrames (s c : State) : State :=
  match c.extractInto c.buffer with
  | none => s.raiseLateFault .capacity
  | some e =>
    match e.synchronize with
    | none => s.raiseLateFault .capacity
    | some y =>
      if y.fcnt = 0 then y.failError .noFramesFound
      else
        match y.calibrateFrames (List.range y.fcnt.toNat) with
        | none => s.raiseLateFault .numeric
        | some x =>
          match x.medianIntersection with
          | none => s.raiseLateFault .badOperand -- never: every frame's intersection has just been written
          | some t => ((x.combine t).report x.fcnt).complete

/-- DECODE (R253), its checks in the order of R254. -/
def execDecode (rderr : Bool) (s : State) : Host.Outcome State Fault Refusal :=
  .next
    (if !s.ilenOk then s.raiseFault .badOperand
    else if rderr then s.raiseCaptureFailure
    else
      let c := s.clearScratch.countClipping
      if Config.clipLimit < c.clipcnt.toNat then c.failError .clippingDetected
      else s.decodeFrames c)

/-! ## SDECODE -/

/-- A sample is above TRIM_THRESHOLD in magnitude (R263). -/
def isLoud (v : Int) : Bool := Config.trimThreshold < mag v

/-- The first and the last index of the trimmed region (R263). -/
def trimRegion (buf : List Int) : Option (Nat × Nat) :=
  match buf.findIdx? isLoud, buf.reverse.findIdx? isLoud with
  | some a, some b => some (a, buf.length - 1 - b)
  | _, _ => none

/-- `n` samples from index `i` on. -/
def window (buf : List Int) (i n : Nat) : List Int := (buf.drop i).take n

/-- The length of each window of a region of `t` samples (R264). -/
def windowLength (t : Nat) : Nat := Config.winNum * t / Config.winDen

/-- The offset of each window of a region of `t` samples (R264). -/
def windowOffset (t : Nat) : Nat := Config.winOffNum * t / Config.winOffDen

/-- The left window of the region `a .. e` (R264). -/
def leftWindow (buf : List Int) (a e : Nat) : List Int :=
  let t := e - a + 1
  window buf (a + windowOffset t) (windowLength t)

/-- The right window of the region `a .. e` (R264). -/
def rightWindow (buf : List Int) (a e : Nat) : List Int :=
  let t := e - a + 1
  window buf (e + 1 - windowOffset t - windowLength t) (windowLength t)

/-- The signed extrema of an event list: `+amplitude` of a Max, `−amplitude` of a Min (R265). -/
def signedExtrema (events : List Sample) : List Int :=
  events.filterMap fun x =>
    match x.kind with
    | .zero => none
    | .max => some x.amplitude
    | .min => some (-x.amplitude)

/-- TRIMSTART and TRIMEND of a region (R263). -/
def State.putTrim (s : State) (a e : Nat) : State :=
  { s with trimstart := BitVec.ofNat 32 a, trimend := BitVec.ofNat 32 e }

/-- LEFTAMP, RIGHTAMP and RESISTANCE of the two amplitudes (R265, R266). -/
def State.putAmplitudes (s : State) (l r : Int) : State :=
  { s with
    leftamp := BitVec.ofInt 32 l
    rightamp := BitVec.ofInt 32 r
    resistance := .val ((r : Rat) / (l : Rat) * Config.simpleScale) }

/-- SDECODE with a trimmed region, from the cleared state `c`; `s` is the state at issue (R262, R264 to R267). -/
def State.decodeWindows (s c : State) (a e : Nat) : State :=
  let left := extractEvents (leftWindow s.buffer a e)
  let right := extractEvents (rightWindow s.buffer a e)
  let x := ((c.putTrim a e).putSamples left).putSamples right
  match median (signedExtrema left), median (signedExtrema right) with
  | some l, some r =>
    if l = 0 then s.raiseLateFault .numeric
    else
      ((x.putAmplitudes l r).report 0).complete
  | _, _ => x.failError .noFramesFound

/-- SDECODE (R262). -/
def execSdecode (rderr : Bool) (s : State) : Host.Outcome State Fault Refusal :=
  .next
    (if !s.ilenOk then s.raiseFault .badOperand
    else if rderr then s.raiseCaptureFailure
    else
      match trimRegion s.buffer with
      | none => s.clearScratch.failError .noFramesFound
      | some p => s.decodeWindows s.clearScratch p.1 p.2)

end Sys2Proof.Machine
end

