-- ==== Sys2Proof/Machine/Presence.lean ====
section
/-! DEFINITION. The presence detector: PRES1, PRES2 (46_presence.md), in the ratio variant, the only one the block has
(R288). -/

namespace Sys2Proof.Machine

/-- `level(buf, n)` with `c` for CUT_SAMPLES_COUNT (46_presence.md R280); none where it is not defined. -/
def trimmedLevel (c : Nat) (buf : List Int) : Option Nat :=
  if c < 1 ∨ buf.length < c then none
  else ((buf.map mag).insertionSort (· ≤ ·))[buf.length - c]?

/-- The level of the buffer (R280). -/
def State.level (s : State) : Option Nat := trimmedLevel Config.cutSamplesCount s.buffer

/-- The comparison of R287, in the product form. -/
def toneDetected (toneLevel silenceLevel : Nat) : Bool :=
  Config.ratioNum * silenceLevel < toneLevel * Config.ratioDen

/-- What PRES1 writes: the silence level, no tone level yet, and the detector's state (R281). -/
def State.putSilence (v : Nat) (p : PState) (s : State) : State :=
  { s with silence := BitVec.ofNat 32 v, tonelvl := 0, pstate := p }

/-- What PRES2 writes: the tone level and the detector's state (R284). -/
def State.putTone (v : Nat) (p : PState) (s : State) : State :=
  { s with tonelvl := BitVec.ofNat 32 v, pstate := p }

/-- What PRES2 writes when the capture could not be read (R282). -/
def State.putAbsent (s : State) : State := { s with pstate := .absent }

/-- PRES1 (R281, R282). -/
def execPres1 (rderr : Bool) (s : State) : Host.Outcome State Fault Refusal :=
  .next
    (if !s.ilenOk then s.raiseFault .badOperand
    else if rderr then (s.putSilence 0 .absent).complete
    else
      match s.level with
      | none => s.raiseLateFault .badOperand
      | some v => (s.putSilence v (if Config.silenceThreshold ≤ v then .absent else .armed)).complete)

/-- PRES2 (R284, R285, R282). -/
def execPres2 (rderr : Bool) (s : State) : Host.Outcome State Fault Refusal :=
  .next
    (if s.pstate ≠ .armed then s.complete
    else if !s.ilenOk then s.raiseFault .badOperand
    else if rderr then s.putAbsent.complete
    else
      match s.level with
      | none => s.raiseLateFault .badOperand
      | some v => (s.putTone v (if toneDetected v s.silence.toNat then .present else .absent)).complete)

end Sys2Proof.Machine
end

