-- ==== Sys2Proof/Machine/Sine.lean ====
section
/-! DEFINITION. The sine of 00_scope.md R15 and R26 at its default, the exact real sine, and the sample `tone(k, amp)` of
R25. The sine is held as an enclosure by rationals: exact where the sine is rational (R26), else a Taylor polynomial
with an error bound of 1/10^20. A sample is the one integer that both ends of the enclosure round to; where the two
ends round differently the sample is free between them (log 8). -/

namespace Sys2Proof.Machine

/-- A lower bound of π, below it by less than 1/10^20. -/
def piLower : Rat := 314159265358979323846 / 10 ^ 20

/-- The error bound of the enclosure. -/
def sineError : Rat := 1 / 10 ^ 20

/-- The nested form of the sine's Taylor polynomial over `y = x²`: `1 − y/((2k)(2k+1)) · (1 − …)`, `n` levels deep. -/
def sineTail (y : Rat) : Nat → Nat → Rat
  | 0, _ => 1
  | n + 1, k => 1 - y / ((2 * k * (2 * k + 1) : Nat) : Rat) * sineTail y n (k + 1)

/-- The Taylor polynomial of the sine of degree 27. -/
def sinePoly (x : Rat) : Rat := x * sineTail (x * x) 13 1

/-- A quarter of the sample rate: the phases of a quarter turn. -/
def quarterTurn : Nat := Config.sampleRate / 4

/-- An enclosure of `sin(2π·t/SAMPLE_RATE)` for `t` from 0 to a quarter turn: exact at 0, at a twelfth of a turn (1/2) and
at a quarter turn (1), the rational sines there (R26). -/
def quarterSine (t : Nat) : Rat × Rat :=
  if t = 0 then (0, 0)
  else if 3 * t = quarterTurn then (1 / 2, 1 / 2)
  else if t = quarterTurn then (1, 1)
  else
    let p := sinePoly (2 * piLower * (t : Rat) / (Config.sampleRate : Rat))
    (p - sineError, p + sineError)

/-- The enclosure of the sine with its sign turned. -/
def negateBounds (b : Rat × Rat) : Rat × Rat := (-b.2, -b.1)

/-- An enclosure of `sinturn(r, SAMPLE_RATE)` for a phase `r` below SAMPLE_RATE, by the quarter turn it lies in. -/
def sineBounds (r : Nat) : Rat × Rat :=
  match r / quarterTurn with
  | 0 => quarterSine (r % quarterTurn)
  | 1 => quarterSine (quarterTurn - r % quarterTurn)
  | 2 => negateBounds (quarterSine (r % quarterTurn))
  | _ => negateBounds (quarterSine (quarterTurn - r % quarterTurn))

/-- The phase `k mod SAMPLE_RATE`, from 0 up also for negative `k` (R25). -/
def phase (k : Int) : Nat := (k % (Config.sampleRate : Int)).toNat

/-- The two candidate roundings of `sinturn(k, SAMPLE_RATE) * amp`, lower first. -/
def toneCandidates (k : Int) (amp : Rat) : Int × Int :=
  let b := sineBounds (phase k)
  (rhu (b.1 * amp), rhu (b.2 * amp))

/-- `tone(k, amp)` (R25). -/
def tone (k : Int) (amp : Rat) : Int :=
  let c := toneCandidates k amp
  sat16 (if c.1 = c.2 then c.1 else if Config.roundsUp (phase k) amp then c.2 else c.1)

end Sys2Proof.Machine
end

