-- ==== Sys2Proof/Machine/Synth.lean ====
section
/-! DEFINITION. The waveform synthesizer: SWEEP, TWOPH, TTONE (40_synthesizer.md). -/

namespace Sys2Proof.Machine

/-- `k / VOL_DEN * MAX_AMPLITUDE` of a volume (30_encoding.md R118). -/
def peak (v : Rat) : Rat := v * Config.maxAmplitude

/-- The rank of a non-sync cell among the non-sync cells (40_synthesizer.md R145). -/
def sweepRank (sync c : Nat) : Nat := if c < sync then c else c - 1

/-- The volume step (R144). -/
def State.sweepStep (s : State) : Rat :=
  (volume s.maxvol - volume s.minvol) / ((s.ncells.toNat : Rat) - 2)

/-- The left channel's volume in a non-sync cell (R145). -/
def State.sweepVolume (s : State) (c : Nat) : Rat :=
  volume s.maxvol - (sweepRank s.syncidx.toNat c : Rat) * s.sweepStep

/-- The left sample at position `m` of cell `c` (R145, R147). -/
def State.sweepLeft (s : State) (c m : Nat) : Int :=
  if c = s.syncidx.toNat then tone (-2 * s.freq.toNat * m) (peak (volume s.refvol))
  else tone (s.freq.toNat * m) (peak (s.sweepVolume c))

/-- The right sample at position `m` of cell `c` (R146, R147). -/
def State.sweepRight (s : State) (c m : Nat) : Int :=
  if c = s.syncidx.toNat then tone (-2 * s.freq.toNat * m) (peak (volume s.refvol))
  else tone (-(s.freq.toNat * m)) (peak (volume s.refvol))

/-- The words of OBUF that SWEEP writes: cell by cell, frame by frame, left before right (R140, R141). -/
def State.sweepWords (s : State) : List Int :=
  (List.range s.ncells.toNat).flatMap fun c =>
    (List.range s.sweepSpc).flatMap fun m => [s.sweepLeft c m, s.sweepRight c m]

/-- The tone sample of stereo frame `n` of TWOPH and TTONE (R152, R156). -/
def State.toneSample (s : State) (n : Nat) : Int := tone (s.freq.toNat * n) (peak (volume s.tonevol))

/-- The words that TWOPH writes: the tone on the left for the first `floor(N/2)` frames, then on the right (R152). -/
def State.twophWords (s : State) : List Int :=
  (List.range s.dur.toNat).flatMap fun n =>
    if n < s.dur.toNat / 2 then [s.toneSample n, 0] else [0, s.toneSample n]

/-- The words that TTONE writes: the tone on both channels (R156). -/
def State.ttoneWords (s : State) : List Int :=
  (List.range s.dur.toNat).flatMap fun n => [s.toneSample n, s.toneSample n]

/-- The checks of TWOPH and TTONE in their order, then the output (R153). -/
def State.emitTone (s : State) (words : List Int) : State :=
  if !s.toneOperandsOk then s.raiseFault .badOperand
  else if !s.toneFits then s.raiseFault .capacity
  else (s.putOutput words).complete

/-- SWEEP (R141, R142). -/
def execSweep (s : State) : Host.Outcome State Fault Refusal :=
  .next
    (if !s.sweepOperandsOk then s.raiseFault .badOperand
    else if !s.sweepFits then s.raiseFault .capacity
    else (s.putOutput s.sweepWords).complete)

/-- TWOPH (R152). -/
def execTwoph (s : State) : Host.Outcome State Fault Refusal := .next (s.emitTone s.twophWords)

/-- TTONE (R156). -/
def execTtone (s : State) : Host.Outcome State Fault Refusal := .next (s.emitTone s.ttoneWords)

end Sys2Proof.Machine
end

