-- ==== Sys2Proof/Machine/Dispatch.lean ====
section
/-! DEFINITION. The one match over the commands: each arm is one call of the command's meaning. -/

namespace Sys2Proof.Machine

/-- The completion of a command (00_scope.md R28): the state at completion as a function of the state at issue. -/
def exec (i : Instr) (s : State) : Host.Outcome State Fault Refusal :=
  match i with
  | .nop => Sys2Proof.Machine.execNop s
  | .clear => Sys2Proof.Machine.execClear s
  | .sweep => Sys2Proof.Machine.execSweep s
  | .twoph => Sys2Proof.Machine.execTwoph s
  | .ttone => Sys2Proof.Machine.execTtone s
  | .clipchk => Sys2Proof.Machine.execClipchk s
  | .extract => Sys2Proof.Machine.execExtract s
  | .fsync => Sys2Proof.Machine.execFsync s
  | .fit frame => Sys2Proof.Machine.execFit frame s
  | .xint frame => Sys2Proof.Machine.execXint frame s
  | .resist => Sys2Proof.Machine.execResist s
  | .temp => Sys2Proof.Machine.execTemp s
  | .decode rderr => Sys2Proof.Machine.execDecode rderr s
  | .sdecode rderr => Sys2Proof.Machine.execSdecode rderr s
  | .pres1 rderr => Sys2Proof.Machine.execPres1 rderr s
  | .pres2 rderr => Sys2Proof.Machine.execPres2 rderr s

end Sys2Proof.Machine
end

