-- ==== Sys2Proof/Machine/Binary32.lean ====
section
/-! DEFINITION. The host-port image of XR values: `rnd32` (10_state.md R36) and the exact value of a written word (R37). -/

namespace Sys2Proof.Machine

/-- `n / d` rounded to the nearest integer, ties to the even one. -/
def roundHalfEven (n d : Nat) : Nat :=
  let f := n / d
  let r := n % d
  if 2 * r < d then f else if d < 2 * r then f + 1 else if f % 2 = 0 then f else f + 1

/-- `2^e ≤ n / d`, in integers. -/
def powerBelow (e : Int) (n d : Nat) : Bool := 2 ^ e.toNat * d ≤ n * 2 ^ (-e).toNat

/-- The exponent of `n / d`: the greatest `e` with `2^e ≤ n / d`, for positive `n` and `d`. -/
def binaryExponent (n d : Nat) : Int :=
  let e : Int := (Nat.log2 n : Int) - (Nat.log2 d : Int)
  if powerBelow e n d then e else e - 1

/-- The exponent and fraction fields, as one number, of the binary32 pattern nearest to `n / d > 0` (R36). With the
exponent `e` kept at -126 or above, the significand is `n / d · 2^(23 − e)` rounded; adding it to `(e + 126) · 2^23` carries
into the exponent where it rounds up to `2^24`, leaves subnormals with exponent field 0, and a sum at or above the
pattern of infinity is infinity. -/
def magnitudeBits (n d : Nat) : Nat :=
  let e := max (-126) (binaryExponent n d)
  let shift := 23 - e
  let m := roundHalfEven (n * 2 ^ shift.toNat) (d * 2 ^ (-shift).toNat)
  min 0x7F800000 ((e + 126).toNat * 2 ^ 23 + m)

/-- `rnd32(v)` (R36). -/
def rnd32 : XR → Word
  | .nan => 0x7FC00000
  | .val q =>
    if q = 0 then 0
    else BitVec.ofNat 32 ((if q < 0 then 0x80000000 else 0) + magnitudeBits q.num.natAbs q.den)

/-- The value a host write of `w` to RESISTANCE stores (R37): the exact value of a finite pattern, NaN for an infinity or
a NaN, 0 for negative zero. -/
def exactValue (w : Word) : XR :=
  let fraction := w.toNat % 2 ^ 23
  let exponent := w.toNat / 2 ^ 23 % 256
  if exponent = 255 then .nan
  else
    let m : Nat := if exponent = 0 then 2 * fraction else (2 ^ 23 + fraction) * 2 ^ exponent
    let q : Rat := (m : Rat) / ((2 ^ 150 : Nat) : Rat)
    .val (if w.getLsbD 31 then -q else q)

end Sys2Proof.Machine
end

