-- ==== Sys2Proof/Machine/Port.lean ====
section
/-! DEFINITION. The host port: the registers as the host reads and writes them (10_state.md R31 to R37), the byte address map
and the legal accesses (20_memory.md R82 to R89), issue (30_encoding.md R111), and the busy hazard (70_reset_and_hazards.md R350). -/

namespace Sys2Proof.Machine

/-! ## The register space (R31) -/

/-- The word a host read of register `n` returns while the block is idle (R31); CTRL reads 0 (R34), an XR register through
`rnd32` (R36). There is no register above 33. -/
def State.readRegister (s : State) : Nat → Word
  | 0 => s.cmd
  | 1 => s.statusWord
  | 2 => 0
  | 3 => s.ilen
  | 4 => s.olen
  | 5 => s.ncells
  | 6 => s.ppcell
  | 7 => s.syncidx
  | 8 => s.freq
  | 9 => s.refvol
  | 10 => s.maxvol
  | 11 => s.minvol
  | 12 => s.dur
  | 13 => s.tonevol
  | 14 => s.ecnt
  | 15 => s.fcnt
  | 16 => s.synccnt
  | 17 => s.fstart
  | 18 => s.fend
  | 19 => s.clipcnt
  | 20 => rnd32 s.slope
  | 21 => rnd32 s.intercept
  | 22 => rnd32 s.xmed
  | 23 => rnd32 s.cancamp
  | 24 => rnd32 s.resistance
  | 25 => rnd32 s.temperature
  | 26 => s.nframes
  | 27 => BitVec.ofNat 32 s.error.number
  | 28 => s.silence
  | 29 => s.tonelvl
  | 30 => s.leftamp
  | 31 => s.rightamp
  | 32 => s.trimstart
  | 33 => s.trimend
  | _ => 0

/-- The acceptance of a legal command word (30_encoding.md R111 case 3). The draw is used up: what the host reads at elements
that are not valid may be different after the command (log 5). -/
def State.accept (w : Word) (s : State) : State :=
  { s with cmd := w, done := false, busy := true, draws := s.draws + 1 }

/-- Issue of a command word at an idle block (30_encoding.md R111 cases 2 and 3): a faulted block drops it; otherwise it is
accepted and decoded, and an illegal word completes at once with the fault (R114; log 17). -/
def State.issue (w : Word) (s : State) : State :=
  if s.fault.isSome then s
  else
    match decodeWord w with
    | .ok _ => s.accept w
    | .error _ => { s with cmd := w }.raiseFault .illegalCmd

/-- A host write of a word to register `n` of an idle block (R31, R88, R89): CMD issues, CTRL resets when bit 0 is set, the
operand registers and ILEN store, RESISTANCE stores the exact value (R37), every other register is read-only. -/
def State.writeRegister (s : State) (n : Nat) (w : Word) : State :=
  match n with
  | 0 => s.issue w
  | 2 => if w.getLsbD 0 then s.softReset else s
  | 3 => { s with ilen := w }
  | 5 => { s with ncells := w }
  | 6 => { s with ppcell := w }
  | 7 => { s with syncidx := w }
  | 8 => { s with freq := w }
  | 9 => { s with refvol := w }
  | 10 => { s with maxvol := w }
  | 11 => { s with minvol := w }
  | 12 => { s with dur := w }
  | 13 => { s with tonevol := w }
  | 24 => { s with resistance := exactValue w }
  | _ => s

/-! ## The byte address map (20_memory.md R82, R83, R85) -/

/-- What a legal host access reaches. -/
inductive Target where
  /-- Register `n`. -/
  | reg (n : Nat)
  /-- Element `i` of IBUF, 16 bits. -/
  | ibuf (i : Nat)
  /-- Elements `i` and `i + 1` of IBUF, 32 bits. -/
  | ibufPair (i : Nat)
  /-- Element `i` of OBUF, 16 bits. -/
  | obuf (i : Nat)
  /-- Elements `i` and `i + 1` of OBUF, 32 bits. -/
  | obufPair (i : Nat)
  /-- Word `j` of EVT record `p`. -/
  | evt (p j : Nat)
  /-- Word `j` of FRM record `f`. -/
  | frm (f j : Nat)
  /-- Element `f` of XI. -/
  | xi (f : Nat)
deriving DecidableEq, Repr

/-- What an access of a width at a byte address reaches; none for an illegal access: misaligned, of a width R85 does not
list, unmapped, or beyond a space (R86). -/
def target (a : Nat) (width : Width) : Option Target :=
  match width with
  | .w8 => none
  | .w16 =>
    if a % 2 ≠ 0 then none
    else if Config.ibufBase ≤ a ∧ a < Config.ibufEnd then some (.ibuf ((a - Config.ibufBase) / 2))
    else if Config.obufBase ≤ a ∧ a < Config.obufEnd then some (.obuf ((a - Config.obufBase) / 2))
    else none
  | .w32 =>
    if a % 4 ≠ 0 then none
    else if a < 4 * Config.regCount then some (.reg (a / 4))
    else if Config.ibufBase ≤ a ∧ a < Config.ibufEnd then some (.ibufPair ((a - Config.ibufBase) / 2))
    else if Config.obufBase ≤ a ∧ a < Config.obufEnd then some (.obufPair ((a - Config.obufBase) / 2))
    else if Config.evtBase ≤ a ∧ a < Config.evtEnd then
      some (.evt ((a - Config.evtBase) / 16) ((a - Config.evtBase) % 16 / 4))
    else if Config.frmBase ≤ a ∧ a < Config.frmEnd then
      some (.frm ((a - Config.frmBase) / 64) ((a - Config.frmBase) % 64 / 4))
    else if Config.xiBase ≤ a ∧ a < Config.xiEnd then some (.xi ((a - Config.xiBase) / 4))
    else none

/-! ## Host writes -/

/-- A write to a target of an idle block (R88, R89): REG and IBUF are written, the other spaces are read-only. -/
def State.writeTarget (s : State) (t : Target) (data : Word) : State :=
  match t with
  | .reg n => s.writeRegister n data
  | .ibuf i => s.putBytes (Config.ibufBase + 2 * i) (bytesOfHalf (data.extractLsb' 0 16))
  | .ibufPair i => s.putBytes (Config.ibufBase + 2 * i) (bytesOfWord data)
  | .obuf _ | .obufPair _ | .evt _ _ | .frm _ _ | .xi _ => s

/-- The one write that a busy block does not drop: CTRL with SRST set (70_reset_and_hazards.md R341, R350). -/
def isSoftReset (t : Target) (data : Word) : Bool := t = .reg 2 && data.getLsbD 0

/-- A host write (R86, R88, R350): an illegal one is dropped and changes nothing; while the block is busy every legal one but
a soft reset is dropped and sets HAZ. -/
def State.hostWrite (s : State) (addr : Word) (width : Width) (data : Word) : State :=
  match target addr.toNat width with
  | none => s
  | some t => if s.busy && !isSoftReset t data then { s with haz := true } else s.writeTarget t data

/-! ## Host reads -/

/-- The unspecified word of a read that returns any value, under the current draw. While the block is idle no read uses up the
draw, so the same read returns the same word again (20_memory.md R88; log 5). -/
def State.freeRead (s : State) (a : Nat) : Word := Config.freeWord s.draws a

/-- The bits of a width. -/
def Width.bits : Width → Nat
  | .w8 => 8
  | .w16 => 16
  | .w32 => 32

/-- The unspecified word of an access that has no specified value as a whole, named apart for each address and width. -/
def State.freeAccess (s : State) (addr : Word) (width : Width) : Word := s.freeRead (2 ^ 32 * width.bits + addr.toNat)

/-- One element of IBUF as the host reads it: an element that is not in the buffer returns an unspecified value
(70_reset_and_hazards.md R343, 93_implementation_defined.md U3; log 5). -/
def State.ibufRead (s : State) (i : Nat) : Half :=
  if i < s.ilen.toNat then s.ibufHalf i
  else Config.outsideBuffer s.draws (Config.ibufBase + 2 * i) (s.ibufHalf i)

/-- One element of OBUF as the host reads it: an element that is not valid returns an unspecified value (10_state.md R51). -/
def State.obufRead (s : State) (i : Nat) : Half :=
  if i < s.olen.toNat then s.obufHalf i
  else (s.freeRead (Config.obufBase + 2 * i)).extractLsb' 0 16

/-- The value of a read of a target of an idle block (20_memory.md R83, R92, 10_state.md R51; log 5). A 16-bit element is returned in the low
half. -/
def State.readTarget (s : State) (t : Target) : Word :=
  match t with
  | .reg n => s.readRegister n
  | .ibuf i => (s.ibufRead i).setWidth 32
  | .ibufPair i => s.ibufRead (i + 1) ++ s.ibufRead i
  | .obuf i => (s.obufRead i).setWidth 32
  | .obufPair i => s.obufRead (i + 1) ++ s.obufRead i
  | .evt p j => if p < s.ecnt.toNat then s.evtWord p j else s.freeRead (Config.evtBase + 16 * p + 4 * j)
  | .frm f j => if f < s.fcnt.toNat then s.frmWord f j else s.freeRead (Config.frmBase + 64 * f + 4 * j)
  | .xi f => rnd32 (s.xiAt f)

/-- The value of a host read: while the block is busy only STATUS is specified (R350); an illegal read returns any value
(R86). -/
def State.hostReadValue (s : State) (addr : Word) (width : Width) : Word :=
  match target addr.toNat width with
  | none => s.freeAccess addr width
  | some t => if s.busy && t ≠ .reg 1 then s.freeAccess addr width else s.readTarget t

/-- A host read (R88): the value goes to the host, here to `rdata`; nothing of the block changes. Reading an idle block again
returns the same value; a read of a busy block uses up the draw, so that two of them need not agree (R350). -/
def State.hostRead (s : State) (addr : Word) (width : Width) : State :=
  { s with rdata := s.hostReadValue addr width, draws := if s.busy then s.draws + 1 else s.draws }

/-- One host access. -/
def State.hostAccess (s : State) : Access → State
  | .write addr width data => s.hostWrite addr width data
  | .read addr width => s.hostRead addr width

/-- The host writes CMD at byte address 0 (R31, R82). -/
def writeCmd (w : Word) : Access := .write 0 .w32 w

/-- The accepted word laid down where the next step takes its command from: the state just after an idle block accepted the
word (R111), with its completion as the next thing to happen (log 1). -/
def State.withCommand (s : State) (w : Word) : State :=
  { s.accept w with fault := none, agenda := .completion :: s.agenda }

end Sys2Proof.Machine
end

