-- ==== Sys2Proof/Machine/Step.lean ====
section
/-! DEFINITION. One step: the next entry of the agenda, or, when the agenda is empty, the completion of the running command
(log 1). -/

namespace Sys2Proof.Machine

/-- The completion of the running command: the word that was accepted is decoded and its command executed (00_scope.md R28,
20_memory.md R96). Nothing happens when no command runs (R92). An accepted word always decodes; a busy state whose word does
not, which no run reaches, completes with the fault of an illegal word. -/
def completion (s : State) : Host.Outcome State Fault Refusal :=
  if s.busy then
    match s.running with
    | some i => exec i s
    | none => .next (s.raiseFault .illegalCmd)
  else .next s

/-- One step. -/
def step (s : State) : Host.Outcome State Fault Refusal :=
  match s.agenda with
  | [] => completion s
  | .access a :: rest => .next ({ s with agenda := rest }.hostAccess a)
  | .completion :: rest => completion { s with agenda := rest }
  | .hardwareReset :: rest => .next { s with agenda := rest }.hardwareReset

/-- The state whose next step runs the command word of the low `nbits` bits of `w`: the host has written that word to CMD and
the block has accepted it (30_encoding.md R111; log 1). -/
def State.withFetchWord (s : State) (nbits w : Nat) : State := s.withCommand (BitVec.ofNat 32 (w % 2 ^ nbits))

end Sys2Proof.Machine
end

