-- ==== Sys2Proof/Safety.lean ====
section
/-! DEFINITION. The terms the statements use: what a step keeps, what a safe run is, the invariants of the block, and the
second descriptions that the meanings are held against. -/

namespace Sys2Proof.Machine

/-! ## Runs -/

/-- The block accepts a command word: idle and not faulted (30_encoding.md R111). -/
def State.accepts (s : State) : Bool := !s.busy && s.fault.isNone

/-- The states a run passes through: `t` is reached from `s` by steps that each answer a next state. -/
inductive Reaches : State → State → Prop where
  | refl (s : State) : Reaches s s
  | step {s t u : State} : Reaches s t → step t = .next u → Reaches s u

/-- A run is safe when no state it passes through holds a fault of the block. -/
def SafeRun (s : State) : Prop := ∀ t, Reaches s t → t.fault = none

/-- The commands of a list completed one after the other. -/
def runCommands : List Instr → State → Option State
  | [], s => some s
  | i :: rest, s =>
    match exec i s with
    | .next t => runCommands rest t
    | .fault _ => none
    | .refused _ => none

/-- An entry of the agenda that resets the block: a hardware reset, or a host write to CTRL with SRST set
(70_reset_and_hazards.md R340, R341). -/
def Event.isReset : Event → Bool
  | .hardwareReset => true
  | .access (.write addr width data) => decide (addr = 8) && decide (width = .w32) && data.getLsbD 0
  | .access (.read _ _) => false
  | .completion => false

/-- No reset is the next thing to happen. -/
def State.noResetNext (s : State) : Prop := ∀ e ∈ s.agenda.head?, e.isReset = false

/-! ## What is kept -/

/-- Every byte of the four memories is kept. -/
def State.keepsBytes (s t : State) : Prop := ∀ a, t.memByte a = s.memByte a

/-- Every byte outside the addresses from `lo` up and below `hi` is kept. -/
def State.keepsBytesOutside (s t : State) (lo hi : Nat) : Prop :=
  ∀ a, a < lo ∨ hi ≤ a → t.memByte a = s.memByte a

/-- Every byte at the addresses from `lo` up and below `hi` is kept. -/
def State.keepsBytesIn (s t : State) (lo hi : Nat) : Prop := ∀ a, lo ≤ a → a < hi → t.memByte a = s.memByte a

/-- What no command writes: CMD, HAZ, ILEN, the operand registers, IBUF, and what is outside the block (10_state.md R35, R40,
R50). -/
def State.keepsHostState (s t : State) : Prop :=
  t.cmd = s.cmd ∧ t.haz = s.haz ∧ t.ilen = s.ilen ∧ t.ncells = s.ncells ∧ t.ppcell = s.ppcell ∧ t.syncidx = s.syncidx
    ∧ t.freq = s.freq ∧ t.refvol = s.refvol ∧ t.maxvol = s.maxvol ∧ t.minvol = s.minvol ∧ t.dur = s.dur
    ∧ t.tonevol = s.tonevol ∧ t.rdata = s.rdata ∧ t.agenda = s.agenda
    ∧ s.keepsBytesIn t Config.ibufBase Config.ibufEnd

/-- The output memory and its count are kept. -/
def State.keepsOutput (s t : State) : Prop := t.olen = s.olen ∧ s.keepsBytesIn t Config.obufBase Config.obufEnd

/-! ## Which commands write what (10_state.md R39, R41, R50; 20_memory.md R81; 70_reset_and_hazards.md R353) -/

/-- The commands that write OBUF and OLEN. -/
def writesOutput : Instr → Bool
  | .sweep | .twoph | .ttone => true
  | .nop | .clear | .clipchk | .extract | .fsync | .fit _ | .xint _ | .resist | .temp | .decode _ | .sdecode _ | .pres1 _ | .pres2 _ => false

/-- The commands that write ECNT. -/
def writesEvents : Instr → Bool
  | .extract | .decode _ | .sdecode _ | .clear => true
  | .nop | .sweep | .twoph | .ttone | .clipchk | .fsync | .fit _ | .xint _ | .resist | .temp | .pres1 _ | .pres2 _ => false

/-- The commands that write FCNT. -/
def writesFrames : Instr → Bool
  | .fsync | .decode _ | .sdecode _ | .clear => true
  | .nop | .sweep | .twoph | .ttone | .clipchk | .extract | .fit _ | .xint _ | .resist | .temp | .pres1 _ | .pres2 _ => false

/-- The commands that write XI. -/
def writesIntersections : Instr → Bool
  | .fsync | .xint _ | .decode _ | .sdecode _ | .clear => true
  | .nop | .sweep | .twoph | .ttone | .clipchk | .extract | .fit _ | .resist | .temp | .pres1 _ | .pres2 _ => false

/-- The commands that write TEMPERATURE and UT. -/
def writesTemperature : Instr → Bool
  | .temp | .decode _ | .sdecode _ | .clear => true
  | .nop | .sweep | .twoph | .ttone | .clipchk | .extract | .fsync | .fit _ | .xint _ | .resist | .pres1 _ | .pres2 _ => false

/-- The commands that write RESISTANCE. -/
def writesResistance : Instr → Bool
  | .resist | .decode _ | .sdecode _ | .clear => true
  | .nop | .sweep | .twoph | .ttone | .clipchk | .extract | .fsync | .fit _ | .xint _ | .temp | .pres1 _ | .pres2 _ => false

/-- The commands that write NFRAMES and ERROR. -/
def writesOutcome : Instr → Bool
  | .decode _ | .sdecode _ | .clear => true
  | .nop | .sweep | .twoph | .ttone | .clipchk | .extract | .fsync | .fit _ | .xint _ | .resist | .temp | .pres1 _ | .pres2 _ => false

/-- The commands that write PSTATE, SILENCE and TONELVL. -/
def writesPresence : Instr → Bool
  | .pres1 _ | .pres2 _ | .clear => true
  | .nop | .sweep | .twoph | .ttone | .clipchk | .extract | .fsync | .fit _ | .xint _ | .resist | .temp | .decode _ | .sdecode _ => false

/-- The commands that write SYNCCNT, FSTART and FEND. -/
def writesSync : Instr → Bool
  | .fsync | .decode _ | .sdecode _ | .clear => true
  | .nop | .sweep | .twoph | .ttone | .clipchk | .extract | .fit _ | .xint _ | .resist | .temp | .pres1 _ | .pres2 _ => false

/-- The commands that write CLIPCNT. -/
def writesClipCount : Instr → Bool
  | .clipchk | .decode _ | .sdecode _ | .clear => true
  | .nop | .sweep | .twoph | .ttone | .extract | .fsync | .fit _ | .xint _ | .resist | .temp | .pres1 _ | .pres2 _ => false

/-- The commands that write SLOPE and INTERCEPT. -/
def writesTrendline : Instr → Bool
  | .fit _ | .decode _ | .sdecode _ | .clear => true
  | .nop | .sweep | .twoph | .ttone | .clipchk | .extract | .fsync | .xint _ | .resist | .temp | .pres1 _ | .pres2 _ => false

/-- The commands that write XMED and CANCAMP. -/
def writesMedian : Instr → Bool
  | .resist | .decode _ | .sdecode _ | .clear => true
  | .nop | .sweep | .twoph | .ttone | .clipchk | .extract | .fsync | .fit _ | .xint _ | .temp | .pres1 _ | .pres2 _ => false

/-- The commands that write LEFTAMP, RIGHTAMP, TRIMSTART and TRIMEND. -/
def writesWindows : Instr → Bool
  | .decode _ | .sdecode _ | .clear => true
  | .nop | .sweep | .twoph | .ttone | .clipchk | .extract | .fsync | .fit _ | .xint _ | .resist | .temp | .pres1 _ | .pres2 _ => false

/-- The commands that read IBUF. -/
def readsInput : Instr → Bool
  | .clipchk | .extract | .decode _ | .sdecode _ | .pres1 _ | .pres2 _ => true
  | .nop | .clear | .sweep | .twoph | .ttone | .fsync | .fit _ | .xint _ | .resist | .temp => false

/-- The commands all of whose faults come from checks before every write (60_exceptions.md R313). -/
def faultsEarly : Instr → Bool
  | .sweep | .twoph | .ttone | .fit _ | .xint _ | .resist => true
  | .nop | .clear | .clipchk | .extract | .fsync | .temp | .decode _ | .sdecode _ | .pres1 _ | .pres2 _ => false

/-! ## The host port -/

/-- The words that the 34 registers read after reset (10_state.md R31, 70_reset_and_hazards.md R340), in order of number. -/
def resetWords : List Word :=
  [0, 0, 0, 0, 0, 10, 10, 9, 1000, 5000, 9000, 1000, 0, 5000, 0, 0, 0, 0, 0, 0,
    0x7FC00000, 0x7FC00000, 0x7FC00000, 0x7FC00000, 0x7FC00000, 0x7FC00000, 0, 0, 0, 0, 0, 0, 0, 0]

/-- The numbers of the operand registers (10_state.md R35). -/
def operandNumbers : List Nat := [3, 5, 6, 7, 8, 9, 10, 11, 12, 13]

/-- A target that the host cannot write (20_memory.md R89). -/
def Target.readOnly : Target → Bool
  | .reg n => decide (n = 1) || decide (n = 4) || (decide (14 ≤ n) && decide (n ≤ 33) && decide (n ≠ 24))
  | .ibuf _ | .ibufPair _ => false
  | .obuf _ | .obufPair _ | .evt _ _ | .frm _ _ | .xi _ => true

/-- A target whose read value the spec fixes while the block is idle (10_state.md R51, 70_reset_and_hazards.md
R343). -/
def State.specified (s : State) : Target → Bool
  | .reg _ | .xi _ => true
  | .ibuf i => decide (i < s.ilen.toNat)
  | .ibufPair i => decide (i + 1 < s.ilen.toNat)
  | .obuf i => decide (i < s.olen.toNat)
  | .obufPair i => decide (i + 1 < s.olen.toNat)
  | .evt p _ => decide (p < s.ecnt.toNat)
  | .frm f _ => decide (f < s.fcnt.toNat)

/-- A finite binary32 pattern: the exponent field is not 255 (10_state.md R36). -/
def finitePattern (w : Word) : Prop := w.extractLsb' 23 8 ≠ 255

/-- The exact value of a finite binary32 pattern: sign, exponent field biased by 127, 23 fraction bits (R36). -/
def patternValue (w : Word) : Rat :=
  (if w.getLsbD 31 then -1 else 1)
    * (if (w.extractLsb' 23 8).toNat = 0 then ((w.extractLsb' 0 23).toNat : Rat) * (2 : Rat) ^ (-149 : Int)
      else (2 ^ 23 + (w.extractLsb' 0 23).toNat : Rat)
        * (2 : Rat) ^ (((w.extractLsb' 23 8).toNat : Int) - 150))

/-! ## Invariants -/

/-- The written bytes are in the canonical form. -/
def State.memoryOk (s : State) : Prop := s.mem.wf

/-- While BUSY is 1, DONE is 0, FAULT is 0, and CMD holds a legal word (30_encoding.md R111, 10_state.md R33). -/
def State.protocolOk (s : State) : Prop :=
  s.busy = true → s.done = false ∧ s.fault = none ∧ ∃ i, decodeWord s.cmd = .ok i

/-- The counts fit their memories; ECNT and FCNT are unspecified while a fault is held (60_exceptions.md R313). -/
def State.countsOk (s : State) : Prop :=
  s.olen.toNat ≤ Config.obufMax
    ∧ (s.fault = none → s.ecnt.toNat ≤ Config.evtMax ∧ s.fcnt.toNat ≤ Config.frmMax)

/-- A frame record (10_state.md R45, R46): eight cells, indices rising within 0 to 8, amplitudes within ±32767. -/
def FrameRecord (cells : List CalCell) : Prop :=
  cells.length = 8 ∧ cells.Pairwise (fun c d => c.index < d.index)
    ∧ ∀ c ∈ cells, c.index ≤ 8 ∧ -32767 ≤ c.amplitude ∧ c.amplitude ≤ 32767

/-- Every valid record of FRM is a frame record. -/
def State.framesOk (s : State) : Prop :=
  s.fault = none → ∀ f, f < s.fcnt.toNat → FrameRecord (s.frameAt f)

/-- The order of an event list (10_state.md R44): it begins with a Zero, no two extrema are adjacent, `bufferIndex` never
decreases, and strictly increases along the Zero events. -/
def EventOrder (l : List Sample) : Prop :=
  (∀ x ∈ l.head?, x.kind = .zero)
    ∧ l.IsChain (fun x y => x.kind = .zero ∨ y.kind = .zero)
    ∧ l.Pairwise (fun x y => x.bufferIndex ≤ y.bufferIndex)
    ∧ (l.filter (fun x => decide (x.kind = .zero))).Pairwise (fun x y => x.bufferIndex < y.bufferIndex)

/-- The valid events are in order. -/
def State.eventsOk (s : State) : Prop := s.fault = none → EventOrder s.samples

/-- The presence detector's state agrees with its levels (46_presence.md R283, R286). -/
def State.presenceOk (s : State) : Prop :=
  s.fault = none →
    (s.pstate = .armed → s.silence.toNat < Config.silenceThreshold)
      ∧ (s.pstate = .present → toneDetected s.tonelvl.toNat s.silence.toNat = true)

/-- The counts fit, and the valid events and frames are as the spec says. -/
def State.recordsOk (s : State) : Prop := s.countsOk ∧ s.eventsOk ∧ s.framesOk

/-- ERROR never holds code 4, and UT is 1 only while TEMPERATURE is NaN (10_state.md R33, R38). -/
def State.resultOk (s : State) : Prop :=
  s.error ≠ .undeterminedTemperature ∧ (s.fault = none → s.ut = true → s.temperature = .nan)

/-! ## Second descriptions -/

/-- The indices at which the sign differs from the sample before (41_sample_extractor.md R171). -/
def crossingsOf (buf : List Int) : List Nat :=
  (List.range buf.length).filter fun i => decide (0 < i) && (neg (buf.getD (i - 1) 0) != neg (buf.getD i 0))

/-- The least index of the samples `prev .. i-1` whose magnitude is the greatest of theirs (R173, R175). -/
def peakIndex (buf : List Int) (prev i : Nat) : Nat :=
  ((List.range' prev (i - prev)).find? fun p =>
    (List.range' prev (i - prev)).all fun j => decide (mag (buf.getD j 0) ≤ mag (buf.getD p 0))).getD prev

/-- The events of a crossing at `i` whose predecessor is at `prev`: the extremum of a span of 3 or more, then the Zero
event (R172, R173, R176). -/
def eventsOfSpan (buf : List Int) (prev i : Nat) : List Sample :=
  let p := peakIndex buf prev i
  (if 3 ≤ i - prev then
    [{ amplitude := buf.getD p 0, bufferIndex := p, delta := p - prev,
       kind := if 0 ≤ buf.getD p 0 then .max else .min }]
  else [])
    ++ [{ amplitude := buf.getD i 0, bufferIndex := i, delta := i - prev, kind := .zero }]

/-- The events of a buffer, crossing by crossing: the first crossing has no span before it and measures its distance from
index 0 (R172, R174). -/
def eventsOfCrossings (buf : List Int) : List Sample :=
  match crossingsOf buf with
  | [] => []
  | i :: rest =>
    { amplitude := buf.getD i 0, bufferIndex := i, delta := i, kind := .zero }
      :: ((i :: rest).zip rest).flatMap fun p => eventsOfSpan buf p.1 p.2

/-- The number of elements of a list that satisfy a test. -/
def tally {α : Type} (l : List α) (p : α → Bool) : Nat := (l.filter p).length

/-- `v` is the element at position `r` of the ascending sort of `l`: it is in `l`, at most `r` elements are below it, and more
than `r` are not above it. -/
def IsAtRank {α : Type} [LinearOrder α] (l : List α) (r : Nat) (v : α) : Prop :=
  v ∈ l ∧ tally l (fun x => decide (x < v)) ≤ r ∧ r < tally l (fun x => decide (x ≤ v))

/-- The capped magnitudes of cell `k` of the frame that spans the event positions `fs .. fe`, in their order, position by position:
the extrema whose `bufferIndex`, counted from that of event `fs`, is at most 441 for cell 0, above `441·k` and at most
`441·(k+1)` for the others (42_frame_sync_cells.md R198 to R201). -/
def cellPoints (events : List Sample) (fs fe k : Nat) : List Nat :=
  (List.range' fs (fe + 1 - fs)).filterMap fun p =>
    match events[fs]?, events[p]? with
    | some first, some x =>
      if x.kind ≠ .zero ∧ (k = 0 ∨ first.bufferIndex + 441 * k < x.bufferIndex)
          ∧ x.bufferIndex ≤ first.bufferIndex + 441 * (k + 1) then
        some (min x.amplitude.natAbs 32767)
      else none
    | _, _ => none

/-- The frames that the frame synchronizer and the cell extractor make of an event list, as lists (42_frame_sync_cells.md
R190). -/
def framesOf (events : List Sample) : List (List CalCell) :=
  (SyncState.start.over 0 events).spans.map fun p => frameCells events p.1 p.2

/-- The intersections of frames (43_calibrator.md R220, R224). -/
def intersectionsOf (frames : List (List CalCell)) : List Rat :=
  frames.map fun cells => intersection (fitLine cells).1 (fitLine cells).2

/-- The samples of the trimmed region's two windows, and whether both have an extremum, as SDECODE checks them
(45_decode.md R264, R267). -/
def windowAmplitudes (buf : List Int) : Option (Int × Int) :=
  match trimRegion buf with
  | none => none
  | some (a, e) =>
    match median (signedExtrema (extractEvents (leftWindow buf a e))),
      median (signedExtrema (extractEvents (rightWindow buf a e))) with
    | some l, some r => some (l, r)
    | _, _ => none

/-- The fault table of 60_exceptions.md R312, command by command, the conditions in the table's order; the rows of CAPACITY that
the table calls impossible with the default capacities are left out. -/
def faultTable (i : Instr) (s : State) : Option FaultCode :=
  match i with
  | .nop | .clear | .temp => none
  | .sweep =>
    if s.freq = 0 ∨ s.ppcell = 0 ∨ s.ncells.toNat < 3 ∨ s.ncells.toNat ≤ s.syncidx.toNat ∨ 10000 < s.refvol.toNat
        ∨ 10000 < s.maxvol.toNat ∨ 10000 < s.minvol.toNat ∨ ¬ s.freq.toNat ∣ 44100 * s.ppcell.toNat then
      some .badOperand
    else if 65536 < 2 * s.ncells.toNat * (44100 * s.ppcell.toNat / s.freq.toNat) then some .capacity
    else none
  | .twoph | .ttone =>
    if s.freq = 0 ∨ 10000 < s.tonevol.toNat then some .badOperand
    else if 65536 < 2 * s.dur.toNat then some .capacity
    else none
  | .clipchk | .extract => if 32768 < s.ilen.toNat then some .badOperand else none
  | .fsync => if 256 < (framesOf s.samples).length then some .capacity else none
  | .fit f => if s.fcnt.toNat ≤ f then some .badOperand else none
  | .xint f =>
    if s.fcnt.toNat ≤ f ∨ s.slope = .nan ∨ s.intercept = .nan then some .badOperand
    else if s.slope = .val 0 then some .numeric
    else none
  | .resist =>
    if s.fcnt = 0 ∨ .nan ∈ (List.range s.fcnt.toNat).map s.xiAt then some .badOperand else none
  | .decode e =>
    if 32768 < s.ilen.toNat then some .badOperand
    else if e then some .captureFailure
    else if 10 < tally s.buffer (fun v => decide (32000 < v)) then none
    else if ∃ cells ∈ framesOf (extractEvents s.buffer), (fitLine cells).1 = 0 then some .numeric
    else none
  | .sdecode e =>
    if 32768 < s.ilen.toNat then some .badOperand
    else if e then some .captureFailure
    else if (windowAmplitudes s.buffer).map (·.1) = some 0 then some .numeric
    else none
  | .pres1 e =>
    if 32768 < s.ilen.toNat then some .badOperand
    else if e then none
    else if s.ilen.toNat < Config.cutSamplesCount then some .badOperand
    else none
  | .pres2 e =>
    if s.pstate ≠ .armed then none
    else if 32768 < s.ilen.toNat then some .badOperand
    else if e then none
    else if s.ilen.toNat < Config.cutSamplesCount then some .badOperand
    else none

end Sys2Proof.Machine
end

