-- ==== Sys2Proof/Certificates/Slice0/Obligations.lean ====
section
/-! DEFINITION. The statements for the provers. Each docstring says which sentence of spec/ the statement formalises. A frame
is said by the shape `t = { s with … }`: every field that is not named is the field of `s`; `mem := t.mem` hands the
memories over to the byte clauses beside it. -/

open Sys2Proof Sys2Proof.Machine

/-! ## The encoding -/

/-- Every well-formed command is read back from its command word, and from the word's four bytes (30_encoding.md R110,
R112). -/
def Obligations.DecodeOfEncode : Prop :=
  ∀ i : Instr, i.wf = true → decodeWord (encode i) = .ok i ∧ decodeBytes (bytesOfWord (encode i)) = some i

/-- A word that decodes is the word of the command it decodes to: each command has one word (R112, R114). -/
def Obligations.EncodeOfDecode : Prop :=
  ∀ (w : Word) (i : Instr), decodeWord w = .ok i → i.wf = true ∧ encode i = w

/-- Decoding is by the table of R112 alone: at most one row matches, a word that matches a row decodes by that row, and a
word that matches none is illegal (R113). -/
def Obligations.DecoderFollowsTable : Prop :=
  opcodeMap.map (fun r => (r.pattern, r.mask))
      = [(0x00000000, 0xFFFFFFFF), (0x00000001, 0xFFFFFFFF), (0x00000010, 0xFFFFFFFF), (0x00000011, 0xFFFFFFFF),
         (0x00000012, 0xFFFFFFFF), (0x00000020, 0xFFFFFFFF), (0x00000021, 0xFFFFFFFF), (0x00000022, 0xFFFFFFFF),
         (0x00000023, 0xFFFF00FF), (0x00000024, 0xFFFF00FF), (0x00000025, 0xFFFFFFFF), (0x00000026, 0xFFFFFFFF),
         (0x00000030, 0xFFFFFEFF), (0x00000031, 0xFFFFFEFF), (0x00000040, 0xFFFFFEFF), (0x00000041, 0xFFFFFEFF)]
    ∧ ∀ w : Word,
      opcodeMap.Pairwise (fun a b => ¬ (w &&& a.mask = a.pattern ∧ w &&& b.mask = b.pattern))
        ∧ (∀ r ∈ opcodeMap, w &&& r.mask = r.pattern → decodeWord w = .ok (r.make w))
        ∧ ((∀ r ∈ opcodeMap, w &&& r.mask ≠ r.pattern) → ∃ e, decodeWord w = .error e)

/-- Which words are illegal, what an illegal word does, and that no word but NOP's is a no-operation (R114; that
one host write both issues and completes an illegal word is the model's reading, log 17). -/
def Obligations.IllegalWordsRaiseTheFault : Prop :=
  (∀ w : Word, (∃ e, decodeWord w = .error e) ↔
    reservedField w ≠ 0
      ∨ opField w ∉ [0x00, 0x01, 0x10, 0x11, 0x12, 0x20, 0x21, 0x22, 0x23, 0x24, 0x25, 0x26, 0x30, 0x31, 0x40, 0x41]
      ∨ opField w ∈ [0x00, 0x01, 0x10, 0x11, 0x12, 0x20, 0x21, 0x22, 0x25, 0x26] ∧ argField w ≠ 0
      ∨ opField w ∈ [0x30, 0x31, 0x40, 0x41] ∧ (argField w).extractLsb' 1 7 ≠ 0)
    ∧ (∀ w : Word, decodeWord w = .ok .nop ↔ w = 0)
    ∧ ∀ (s : State) (w : Word), s.accepts = true → (∃ e, decodeWord w = .error e) →
      s.hostWrite 0 .w32 w = { s with cmd := w, busy := false, done := true, fault := some .illegalCmd }

/-- A few words written out from R112 decode to their commands, and a few words of R114 to their rejections. -/
def Obligations.SampleWordsDecode : Prop :=
  decodeWord 0x00000010 = .ok .sweep ∧ decodeWord 0x0000FF23 = .ok (.fit 255) ∧ decodeWord 0x00000124 = .ok (.xint 1)
    ∧ decodeWord 0x00000130 = .ok (.decode true) ∧ decodeWord 0x00000041 = .ok (.pres2 false)
    ∧ decodeWord 0x00010010 = .error .reservedBits ∧ decodeWord 0x00000002 = .error .unknownOp
    ∧ decodeWord 0x00000110 = .error .argNotZero ∧ decodeWord 0x00000230 = .error .rderrHighBits

/-! ## Steps, issue, faults, hazards, reset -/

/-- A step that completes the running command is `exec` of the command that the accepted word decodes to, whether the
completion is an entry of the agenda or the agenda is empty; the next step after `withFetchWord` is one (00_scope.md R28,
20_memory.md R96; the agenda and the draws are the model's, log 1 and log 5). -/
def Obligations.StepRunsTheDecodedCommand : Prop :=
  (∀ (s : State) (i : Instr), s.busy = true → decodeWord s.cmd = .ok i →
    (s.agenda = [] → step s = exec i s)
      ∧ ∀ rest, s.agenda = .completion :: rest → step s = exec i { s with agenda := rest })
    ∧ ∀ (s : State) (w : Word) (i : Instr), decodeWord w = .ok i →
      step (s.withFetchWord 32 w.toNat)
        = exec i { s with cmd := w, busy := true, done := false, fault := none, draws := s.draws + 1 }

/-- Every step and every command answers a next state: no step stops the machine, and every command terminates
(60_exceptions.md R310, 70_reset_and_hazards.md R355). -/
def Obligations.EveryStepAnswers : Prop :=
  (∀ s : State, ∃ t, step s = .next t) ∧ ∀ (i : Instr) (s : State), ∃ t, exec i s = .next t

/-- A host write of a word to CMD, by the first case that applies: busy, faulted, accepted and legal, accepted and illegal;
and the accepted legal word is the command that completes (30_encoding.md R111; that an illegal word issues and completes in one
event is the model's, log 17, and so are the agenda, log 1, and the draws, log 5). -/
def Obligations.IssueFollowsTheCases : Prop :=
  ∀ (s : State) (w : Word) (rest : List Event), s.agenda = .access (.write 0 .w32 w) :: rest →
    (s.busy = true → step s = .next { s with haz := true, agenda := rest })
      ∧ (s.busy = false → s.fault ≠ none → step s = .next { s with agenda := rest })
      ∧ (s.busy = false → s.fault = none →
        (∀ i, decodeWord w = .ok i →
          step s = .next { s with cmd := w, done := false, busy := true, draws := s.draws + 1, agenda := rest }
            ∧ ∀ later, rest = .completion :: later →
              step { s with cmd := w, done := false, busy := true, draws := s.draws + 1, agenda := rest }
                = exec i { s with cmd := w, done := false, busy := true, draws := s.draws + 1, agenda := later })
        ∧ ((∀ i, decodeWord w ≠ .ok i) →
          step s = .next
            { s with cmd := w, done := true, busy := false, fault := some .illegalCmd, agenda := rest }))

/-- While a fault is held a write to CMD changes nothing and nothing runs, other accesses work as usual, and the fault stays
until a reset (60_exceptions.md R314). -/
def Obligations.FaultHoldsUntilReset : Prop :=
  ∀ (s : State) (c : FaultCode), s.protocolOk → s.fault = some c →
    (∀ w, s.hostWrite 0 .w32 w = s)
      ∧ (∀ t, step s = .next t → s.noResetNext →
        t.fault = some c ∧ t.cmd = s.cmd ∧ t.busy = false ∧ t.done = s.done ∧ t.haz = s.haz)
      ∧ (∀ t e rest, step s = .next t → s.agenda = e :: rest → e.isReset = true → t.fault = none ∧ t.accepts = true)
      ∧ (∀ addr width data, target addr.toNat width ≠ some (.reg 0) →
        (Event.access (.write addr width data)).isReset = false →
        s.hostWrite addr width data
          = { ({ s with fault := none } : State).hostWrite addr width data with fault := some c })
      ∧ ∀ addr width, target addr.toNat width ≠ some (.reg 1) →
        s.hostReadValue addr width = ({ s with fault := none } : State).hostReadValue addr width

/-- While the block is busy every host write but a soft reset is dropped and sets HAZ, STATUS reads BUSY 1 and DONE 0, no
access but a reset changes anything of the block but HAZ, and HAZ stays until a reset (70_reset_and_hazards.md R350; that a
dropped write to a read-only target sets HAZ too is the model's, log 7). -/
def Obligations.BusyBlockDropsWrites : Prop :=
  ∀ s : State, s.protocolOk →
    (s.busy = true →
      (∀ addr width data t, target addr.toNat width = some t → ¬ (t = .reg 2 ∧ data.getLsbD 0 = true) →
        s.hostWrite addr width data = { s with haz := true })
      ∧ (s.hostReadValue 4 .w32).getLsbD 0 = true ∧ (s.hostReadValue 4 .w32).getLsbD 1 = false
      ∧ ∀ t a rest, s.agenda = .access a :: rest → s.noResetNext → step s = .next t →
        t = { s with haz := t.haz, rdata := t.rdata, draws := t.draws, agenda := rest })
      ∧ ∀ t, s.haz = true → s.noResetNext → step s = .next t → t.haz = true

/-- Soft reset: at once and whatever BUSY and FAULT hold, every register and XI as after hardware reset; a command that was
running is abandoned (70_reset_and_hazards.md R341). -/
def Obligations.SoftResetRestoresTheRegisters : Prop :=
  ∀ (s : State) (data : Word) (rest : List Event), s.agenda = .access (.write 8 .w32 data) :: rest →
    data.getLsbD 0 = true →
    ∃ t, step s = .next t
      ∧ (∀ n, n < 34 → t.readRegister n = resetWords.getD n 0)
      ∧ (∀ x ∈ [t.slope, t.intercept, t.xmed, t.cancamp, t.resistance, t.temperature], x = .nan)
      ∧ (∀ f, f < 256 → t.xiAt f = .nan)
      ∧ t.busy = false ∧ t.done = false ∧ t.fault = none ∧ t.agenda = rest

/-- What soft reset does to the memories: unchanged, but for those that an abandoned command writes (70_reset_and_hazards.md
R343; that an abandoned CLEAR, which 20_memory.md R81 calls emptying EVT and FRM, writes no byte of them and so leaves them
unchanged is the model's reading, log 16). -/
def Obligations.SoftResetKeepsTheMemories : Prop :=
  ∀ (s t : State) (data : Word) (rest : List Event), s.agenda = .access (.write 8 .w32 data) :: rest →
    data.getLsbD 0 = true → step s = .next t →
    s.keepsBytesIn t Config.ibufBase Config.ibufEnd
      ∧ (s.busy = false → s.keepsBytes t)
      ∧ ∀ i, s.busy = true → decodeWord s.cmd = .ok i →
        (i ∉ [.sweep, .twoph, .ttone] → s.keepsBytesIn t Config.obufBase Config.obufEnd)
          ∧ (i ∉ [.extract, .decode false, .decode true, .sdecode false, .sdecode true] →
            s.keepsBytesIn t Config.evtBase Config.evtEnd)
          ∧ (i ∉ [.fsync, .decode false, .decode true] → s.keepsBytesIn t Config.frmBase Config.frmEnd)

/-- Hardware reset brings the block from any state to its initial state, and that is the state a run begins in
(70_reset_and_hazards.md R340). -/
def Obligations.HardwareResetFromAnyState : Prop :=
  (∀ (s : State) (rest : List Event), s.agenda = .hardwareReset :: rest →
    ∃ t, step s = .next t
      ∧ (∀ n, n < 34 → t.readRegister n = resetWords.getD n 0)
      ∧ (∀ x ∈ [t.slope, t.intercept, t.xmed, t.cancamp, t.resistance, t.temperature], x = .nan)
      ∧ (∀ f, f < 256 → t.xiAt f = .nan) ∧ t.accepts = true)
    ∧ (∀ n, n < 34 → State.reset.readRegister n = resetWords.getD n 0)
    ∧ (∀ x ∈ [State.reset.slope, State.reset.intercept, State.reset.xmed, State.reset.cancamp, State.reset.resistance,
        State.reset.temperature], x = .nan)
    ∧ (∀ f, f < 256 → State.reset.xiAt f = .nan) ∧ State.reset.accepts = true

/-! ## The host port -/

/-- The legal accesses are exactly those of R85 over the map of R82, and a 32-bit access to IBUF or OBUF carries two adjacent
elements, the one of lower index in bits 15:0 (20_memory.md R85). -/
def Obligations.LegalAccesses : Prop :=
  (∀ (a : Nat) (width : Width), target a width ≠ none ↔
    width = .w32 ∧ a % 4 = 0
        ∧ (a < 0x88 ∨ 0x00010000 ≤ a ∧ a < 0x00020000 ∨ 0x00040000 ≤ a ∧ a < 0x00060000
          ∨ 0x00100000 ≤ a ∧ a < 0x00200000 ∨ 0x00200000 ≤ a ∧ a < 0x00204000 ∨ 0x00210000 ≤ a ∧ a < 0x00210400)
      ∨ width = .w16 ∧ a % 2 = 0 ∧ (0x00010000 ≤ a ∧ a < 0x00020000 ∨ 0x00040000 ≤ a ∧ a < 0x00060000))
    ∧ ∀ (s : State) (k : Nat), s.busy = false →
      (2 * k + 1 < s.ilen.toNat → k < 16384 →
          s.hostReadValue (BitVec.ofNat 32 (0x00010000 + 4 * k)) .w32 = s.ibufHalf (2 * k + 1) ++ s.ibufHalf (2 * k))
        ∧ (2 * k + 1 < s.olen.toNat → k < 32768 →
          s.hostReadValue (BitVec.ofNat 32 (0x00040000 + 4 * k)) .w32 = s.obufHalf (2 * k + 1) ++ s.obufHalf (2 * k))

/-- The byte address of every element, and what a read there returns while the block is idle: the registers in the order of the
table, the four words of a valid event, the two words of each cell of a valid frame, the samples, and XI through `rnd32`
(20_memory.md R83, 10_state.md R31). -/
def Obligations.ElementAddresses : Prop :=
  (∀ n, n < 34 → target (4 * n) .w32 = some (.reg n))
    ∧ (∀ i, i < 32768 → target (0x00010000 + 2 * i) .w16 = some (.ibuf i))
    ∧ (∀ i, i < 65536 → target (0x00040000 + 2 * i) .w16 = some (.obuf i))
    ∧ (∀ p j, p < 65536 → j < 4 → target (0x00100000 + 16 * p + 4 * j) .w32 = some (.evt p j))
    ∧ (∀ f j, f < 256 → j < 16 → target (0x00200000 + 64 * f + 4 * j) .w32 = some (.frm f j))
    ∧ (∀ f, f < 256 → target (0x00210000 + 4 * f) .w32 = some (.xi f))
    ∧ ∀ s : State, s.busy = false →
      (List.range 34).map (fun n => s.hostReadValue (BitVec.ofNat 32 (4 * n)) .w32)
          = [s.cmd, s.statusWord, 0, s.ilen, s.olen, s.ncells, s.ppcell, s.syncidx, s.freq, s.refvol, s.maxvol, s.minvol,
            s.dur, s.tonevol, s.ecnt, s.fcnt, s.synccnt, s.fstart, s.fend, s.clipcnt, rnd32 s.slope, rnd32 s.intercept,
            rnd32 s.xmed, rnd32 s.cancamp, rnd32 s.resistance, rnd32 s.temperature, s.nframes,
            (match s.error with
              | .none => 0 | .clippingDetected => 1 | .noFramesFound => 2 | .captureFailure => 3
              | .undeterminedTemperature => 4),
            s.silence, s.tonelvl, s.leftamp, s.rightamp, s.trimstart, s.trimend]
        ∧ (∀ i, i < 32768 → i < s.ilen.toNat →
          ((s.hostReadValue (BitVec.ofNat 32 (0x00010000 + 2 * i)) .w16).extractLsb' 0 16).toInt = s.ibufSample i)
        ∧ (∀ i, i < 65536 → i < s.olen.toNat →
          ((s.hostReadValue (BitVec.ofNat 32 (0x00040000 + 2 * i)) .w16).extractLsb' 0 16).toInt = s.obufSample i)
        ∧ (∀ p x, p < 65536 → s.samples[p]? = some x →
          (s.hostReadValue (BitVec.ofNat 32 (0x00100000 + 16 * p)) .w32).toInt = x.amplitude
            ∧ (s.hostReadValue (BitVec.ofNat 32 (0x00100000 + 16 * p + 4)) .w32).toNat = x.bufferIndex
            ∧ (s.hostReadValue (BitVec.ofNat 32 (0x00100000 + 16 * p + 8)) .w32).toNat = x.delta
            ∧ ∀ k, k = s.hostReadValue (BitVec.ofNat 32 (0x00100000 + 16 * p + 12)) .w32 →
              (k = 0 ↔ x.kind = .zero) ∧ (k = 1 ↔ x.kind = .max) ∧ (k = 2 → x.kind = .min))
        ∧ (∀ f c x, f < 256 → f < s.fcnt.toNat → (s.frameAt f)[c]? = some x →
          (s.hostReadValue (BitVec.ofNat 32 (0x00200000 + 64 * f + 8 * c)) .w32).toInt = x.amplitude
            ∧ (s.hostReadValue (BitVec.ofNat 32 (0x00200000 + 64 * f + 8 * c + 4)) .w32).toNat = x.index)
        ∧ ∀ f, f < 256 → s.hostReadValue (BitVec.ofNat 32 (0x00210000 + 4 * f)) .w32 = rnd32 (s.xiAt f)

/-- Accesses that change nothing of the block: reads, illegal writes, writes to read-only targets, writes to CTRL without
SRST; every read of an idle block answers the same when it is made again; and what is specified is no free value: it does not
depend on the draw (20_memory.md R86, R88, R89, 10_state.md R34, R51; `rdata` and `draws` are the model's own, log 5 and
log 12; that an illegal write to a busy block leaves HAZ is the model's reading, log 6). -/
def Obligations.AccessesWithoutEffect : Prop :=
  ∀ (s : State) (addr : Word) (width : Width),
    s.hostAccess (.read addr width)
        = { s with rdata := s.hostReadValue addr width, draws := if s.busy then s.draws + 1 else s.draws }
      ∧ (target addr.toNat width = none → ∀ data, s.hostAccess (.write addr width data) = s)
      ∧ (s.busy = false →
        (s.hostAccess (.read addr width)).hostReadValue addr width = s.hostReadValue addr width
        ∧ (∀ t, target addr.toNat width = some t →
          (t.readOnly = true → ∀ data, s.hostAccess (.write addr width data) = s)
            ∧ (s.specified t = true →
              ∀ d, ({ s with draws := d } : State).hostReadValue addr width = s.hostReadValue addr width))
        ∧ ∀ data : Word, data.getLsbD 0 = false → s.hostAccess (.write 8 .w32 data) = s)

/-- A host write to IBUF of an idle block: little-endian bytes, the element read back, every other byte and everything else
unchanged (20_memory.md R84, R85, R92); the host reads it back where it is in the buffer. -/
def Obligations.InputWritesReadBack : Prop :=
  ∀ (s : State) (data : Word), s.busy = false →
    (∀ i, i < 32768 → ∀ a t, a = 0x00010000 + 2 * i → t = s.hostWrite (BitVec.ofNat 32 a) .w16 data →
      t = { s with mem := t.mem } ∧ t.ibufHalf i = data.extractLsb' 0 16
        ∧ t.memByte a = data.extractLsb' 0 8 ∧ t.memByte (a + 1) = data.extractLsb' 8 8
        ∧ (i < s.ilen.toNat → t.hostReadValue (BitVec.ofNat 32 a) .w16 = (data.extractLsb' 0 16).setWidth 32)
        ∧ s.keepsBytesOutside t a (a + 2))
      ∧ ∀ k, k < 16384 → ∀ a t, a = 0x00010000 + 4 * k → t = s.hostWrite (BitVec.ofNat 32 a) .w32 data →
        t = { s with mem := t.mem } ∧ t.ibufHalf (2 * k) = data.extractLsb' 0 16
          ∧ t.ibufHalf (2 * k + 1) = data.extractLsb' 16 16
          ∧ (2 * k + 1 < s.ilen.toNat → t.hostReadValue (BitVec.ofNat 32 a) .w32 = data)
          ∧ s.keepsBytesOutside t a (a + 4)

/-- Each operand register holds any value the host writes, no command writes it, and registers 5 to 11 reset to the source's
sweep constants (10_state.md R35). -/
def Obligations.OperandRegistersHold : Prop :=
  (∀ (s t : State) (n : Nat) (w : Word), s.busy = false → n ∈ operandNumbers →
    t = s.hostWrite (BitVec.ofNat 32 (4 * n)) .w32 w →
    t.readRegister n = w ∧ (∀ m, m ≠ n → t.readRegister m = s.readRegister m)
      ∧ s = { t with
        ilen := s.ilen, ncells := s.ncells, ppcell := s.ppcell, syncidx := s.syncidx, freq := s.freq, refvol := s.refvol
        maxvol := s.maxvol, minvol := s.minvol, dur := s.dur, tonevol := s.tonevol })
    ∧ (∀ (i : Instr) (s t : State), exec i s = .next t →
      ∀ n ∈ operandNumbers, t.readRegister n = s.readRegister n)
    ∧ State.reset.ncells.toNat = Config.numberOfCells ∧ State.reset.ppcell.toNat = Config.periodsPerCell
    ∧ State.reset.syncidx.toNat = Config.syncCellIndex ∧ State.reset.freq.toNat = Config.frequency
    ∧ volume State.reset.refvol = Config.referenceAmplitude ∧ volume State.reset.maxvol = Config.upperAmplitude
    ∧ volume State.reset.minvol = Config.lowerAmplitude

/-- A host write to RESISTANCE stores the exact value of a finite binary32 pattern, NaN for an infinity or a NaN, and 0 for
negative zero; nothing else changes, and no other XR register is written by the host (10_state.md R37). The word is read back,
for every finite pattern but negative zero. -/
def Obligations.ResistanceWritesStoreExactly : Prop :=
  ∀ (s : State) (w : Word), s.busy = false →
    (finitePattern w → s.hostWrite 0x60 .w32 w = { s with resistance := .val (patternValue w) })
      ∧ (¬ finitePattern w → s.hostWrite 0x60 .w32 w = { s with resistance := .nan })
      ∧ s.hostWrite 0x60 .w32 0x80000000 = { s with resistance := .val 0 }
      ∧ (∀ n ∈ [20, 21, 22, 23, 25], s.hostWrite (BitVec.ofNat 32 (4 * n)) .w32 w = s)
      ∧ (finitePattern w → w ≠ 0x80000000 → (s.hostWrite 0x60 .w32 w).hostReadValue 0x60 .w32 = w)

/-- A read of an XR register is `rnd32` of its value, and `rnd32` is the nearest binary32 pattern, ties to the even
significand, magnitudes at or above 2^128 − 2^103 to infinity, NaN to 0x7FC00000, 0 to 0 (10_state.md R36; the sign of
a negative value that rounds to zero is the model's, log 13). -/
def Obligations.RoundingIsNearestTiesToEven : Prop :=
  (∀ s : State, s.readRegister 20 = rnd32 s.slope ∧ s.readRegister 21 = rnd32 s.intercept
      ∧ s.readRegister 22 = rnd32 s.xmed ∧ s.readRegister 23 = rnd32 s.cancamp
      ∧ s.readRegister 24 = rnd32 s.resistance ∧ s.readRegister 25 = rnd32 s.temperature)
    ∧ rnd32 .nan = 0x7FC00000 ∧ rnd32 (.val 0) = 0x00000000
    ∧ ∀ q : Rat, q ≠ 0 →
      (2 ^ 128 - 2 ^ 103 ≤ |q| → rnd32 (.val q) = if q < 0 then 0xFF800000 else 0x7F800000)
        ∧ (|q| < 2 ^ 128 - 2 ^ 103 →
          finitePattern (rnd32 (.val q)) ∧ (rnd32 (.val q)).getLsbD 31 = decide (q < 0)
            ∧ ∀ p, finitePattern p →
              |q - patternValue (rnd32 (.val q))| ≤ |q - patternValue p|
                ∧ (|q - patternValue (rnd32 (.val q))| = |q - patternValue p| →
                  patternValue p ≠ patternValue (rnd32 (.val q)) → (rnd32 (.val q)).getLsbD 0 = false))

/-- The fields of the word that a read of STATUS returns, with the numbers of PSTATE and FAULT, and the numbers that a read of
ERROR returns (10_state.md R33, R38, R39, 60_exceptions.md R311). -/
def Obligations.StatusWordFields : Prop :=
  ∀ (s : State) (w : Word), w = s.readRegister 1 →
    w.getLsbD 0 = s.busy ∧ w.getLsbD 1 = s.done ∧ w.getLsbD 2 = s.haz ∧ w.getLsbD 3 = s.ut
      ∧ w.getLsbD 4 = decide (s.pstate = .present) ∧ w.getLsbD 7 = false ∧ w.extractLsb' 16 16 = 0
      ∧ w.extractLsb' 5 2 = (match s.pstate with | .idle => 0 | .armed => 1 | .absent => 2 | .present => 3)
      ∧ w.extractLsb' 8 8 = (match s.fault with
        | none => 0 | some .illegalCmd => 1 | some .badOperand => 2 | some .capacity => 3 | some .numeric => 4
        | some .captureFailure => 5)
      ∧ s.readRegister 27 = (match s.error with
        | .none => 0 | .clippingDetected => 1 | .noFramesFound => 2 | .captureFailure => 3 | .undeterminedTemperature => 4)

/-! ## What every command keeps -/

/-- No command writes CMD, HAZ, ILEN, an operand register or IBUF, and every command ends with BUSY 0 and DONE 1
(10_state.md R35, R40, R50, 00_scope.md R28). -/
def Obligations.CommandsKeepTheHostsState : Prop :=
  ∀ (i : Instr) (s t : State), exec i s = .next t → s.keepsHostState t ∧ t.busy = false ∧ t.done = true

/-- Each piece of state is written only by the commands that the spec names as writing it, where no fault is raised
(10_state.md R39, R41, R50, 20_memory.md R81, 70_reset_and_hazards.md R353). -/
def Obligations.OnlyTheNamedCommandsWrite : Prop :=
  ∀ (i : Instr) (s t : State), exec i s = .next t →
    (writesOutput i = false → s.keepsOutput t)
      ∧ (writesPresence i = false → t.pstate = s.pstate)
      ∧ (t.fault = none →
        (writesPresence i = false → t.silence = s.silence ∧ t.tonelvl = s.tonelvl)
          ∧ (writesTemperature i = false → t.temperature = s.temperature ∧ t.ut = s.ut)
          ∧ (writesResistance i = false → t.resistance = s.resistance)
          ∧ (writesOutcome i = false → t.nframes = s.nframes ∧ t.error = s.error)
          ∧ (writesEvents i = false → t.ecnt = s.ecnt ∧ s.keepsBytesIn t Config.evtBase Config.evtEnd)
          ∧ (writesFrames i = false → t.fcnt = s.fcnt ∧ s.keepsBytesIn t Config.frmBase Config.frmEnd)
          ∧ (writesIntersections i = false → t.xi = s.xi)
          ∧ (writesSync i = false → t.synccnt = s.synccnt ∧ t.fstart = s.fstart ∧ t.fend = s.fend)
          ∧ (writesClipCount i = false → t.clipcnt = s.clipcnt)
          ∧ (writesTrendline i = false → t.slope = s.slope ∧ t.intercept = s.intercept)
          ∧ (writesMedian i = false → t.xmed = s.xmed ∧ t.cancamp = s.cancamp)
          ∧ (writesWindows i = false → t.leftamp = s.leftamp ∧ t.rightamp = s.rightamp ∧ t.trimstart = s.trimstart
            ∧ t.trimend = s.trimend))

/-- A command raises exactly the fault of the first condition of its rows of the table that holds (60_exceptions.md R312): the
row of FSYNC's CAPACITY is kept, those of EXTRACT's and DECODE's, which no state meets with the default capacities, have no
condition. -/
def Obligations.FaultsFollowTheTable : Prop :=
  ∀ (i : Instr) (s t : State), s.fault = none → exec i s = .next t → t.fault = faultTable i s

/-- What a fault leaves exactly as it was (60_exceptions.md R313; that one host write both issues and completes an illegal word is
the model's reading, log 17). -/
def Obligations.FaultEffect : Prop :=
  (∀ (i : Instr) (s t : State) (c : FaultCode), s.fault = none → exec i s = .next t → t.fault = some c →
    t.busy = false ∧ t.done = true ∧ s.keepsHostState t ∧ s.keepsOutput t ∧ t.pstate = s.pstate ∧ t.det = s.det
      ∧ (c = .captureFailure → t.error = .captureFailure)
      ∧ (faultsEarly i = true ∨ readsInput i = true ∧ 32768 < s.ilen.toNat →
        t = { s with busy := false, done := true, fault := some c }))
    ∧ ∀ (s : State) (w : Word), s.accepts = true → (∀ i, decodeWord w ≠ .ok i) →
      s.hostWrite 0 .w32 w = { s with cmd := w, busy := false, done := true, fault := some .illegalCmd }

/-! ## Control commands -/

/-- NOP has no effect other than issue and completion; a faulted block drops it (47_control.md R300; `draws` is
the model's own, log 5). -/
def Obligations.NopOnlyIssuesAndCompletes : Prop :=
  (∀ s : State, exec .nop s = .next { s with busy := false, done := true })
    ∧ (∀ (s : State) (rest : List Event), s.accepts = true →
      s.agenda = .access (.write 0 .w32 0x00000000) :: .completion :: rest →
      ∃ u, step s = .next u ∧ u.busy = true ∧ u.done = false
        ∧ step u = .next { s with cmd := 0, done := true, draws := s.draws + 1, agenda := rest })
    ∧ (∀ s : State, s.busy = false → s.fault ≠ none → s.hostWrite 0 .w32 0x00000000 = s)
    ∧ ∃ t, exec .nop State.reset = .next t ∧ t.readRegister 1 = 0x00000002

/-- CLEAR writes the scratch and result state, the presence state, and nothing else (47_control.md R301, R302). -/
def Obligations.ClearEmptiesTheScratchState : Prop :=
  decodeWord 0x00000001 = .ok .clear
  ∧ ∀ s : State, ∃ t, exec .clear s = .next t
    ∧ t = { s with
      busy := false, done := true, ut := true, pstate := .idle, silence := 0, tonelvl := 0
      ecnt := 0, fcnt := 0, synccnt := 0, fstart := 0, fend := 0, clipcnt := 0
      slope := .nan, intercept := .nan, xmed := .nan, cancamp := .nan, resistance := .nan, temperature := .nan
      nframes := 0, error := .none, leftamp := 0, rightamp := 0, trimstart := 0, trimend := 0, xi := t.xi }
    ∧ (∀ f, f < 256 → t.xiAt f = .nan)
    ∧ ∀ n, 14 ≤ n → n < 34 → t.readRegister n = resetWords.getD n 0

/-! ## Synthesizer -/

/-- SWEEP with legal operands: the words it writes, cell by cell and frame by frame, OLEN, and its frame
(40_synthesizer.md R141, R143 to R147). -/
def Obligations.SweepWritesTheSweep : Prop :=
  ∀ (s : State) (nCells ppc sync f spc : Nat) (ref mx mn : Rat),
    nCells = s.ncells.toNat → ppc = s.ppcell.toNat → sync = s.syncidx.toNat → f = s.freq.toNat →
    ref = (s.refvol.toNat : Rat) / 10000 → mx = (s.maxvol.toNat : Rat) / 10000 → mn = (s.minvol.toNat : Rat) / 10000 →
    f ≠ 0 → ppc ≠ 0 → 3 ≤ nCells → sync < nCells → ref ≤ 1 → mx ≤ 1 → mn ≤ 1 → f * spc = 44100 * ppc →
    2 * nCells * spc ≤ 65536 →
    ∃ t, exec .sweep s = .next t
      ∧ t = { s with busy := false, done := true, olen := BitVec.ofNat 32 (2 * nCells * spc), mem := t.mem }
      ∧ s.keepsBytesOutside t Config.obufBase (Config.obufBase + 2 * (2 * nCells * spc))
      ∧ ∀ c m n, c < nCells → m < spc → n = c * spc + m →
        (c = sync → t.obufSample (2 * n) = tone (-2 * f * m) (ref * 32767)
          ∧ t.obufSample (2 * n + 1) = tone (-2 * f * m) (ref * 32767))
        ∧ (c ≠ sync → ∀ j, j = (if c < sync then c else c - 1) →
          t.obufSample (2 * n) = tone (f * m) ((mx - j * ((mx - mn) / (nCells - 2))) * 32767)
            ∧ t.obufSample (2 * n + 1) = tone (-(f * m)) (ref * 32767))

/-- TWOPH with legal operands: the tone on the left for the first half of the frames, then on the right; OLEN and the frame
(40_synthesizer.md R152). -/
def Obligations.TwophWritesTheTone : Prop :=
  decodeWord 0x00000011 = .ok .twoph
  ∧ ∀ (s : State) (N f : Nat) (v : Rat), N = s.dur.toNat → f = s.freq.toNat → v = (s.tonevol.toNat : Rat) / 10000 →
    f ≠ 0 → v ≤ 1 → 2 * N ≤ 65536 →
    ∃ t, exec .twoph s = .next t
      ∧ t = { s with busy := false, done := true, olen := BitVec.ofNat 32 (2 * N), mem := t.mem }
      ∧ s.keepsBytesOutside t Config.obufBase (Config.obufBase + 2 * (2 * N))
      ∧ ∀ n, n < N →
        (n < N / 2 → t.obufSample (2 * n) = tone (f * n) (v * 32767) ∧ t.obufSample (2 * n + 1) = 0)
          ∧ (N / 2 ≤ n → t.obufSample (2 * n) = 0 ∧ t.obufSample (2 * n + 1) = tone (f * n) (v * 32767))

/-- TTONE with legal operands: the tone on both channels; OLEN and the frame (40_synthesizer.md R156). -/
def Obligations.TtoneWritesTheTone : Prop :=
  decodeWord 0x00000012 = .ok .ttone
  ∧ ∀ (s : State) (N f : Nat) (v : Rat), N = s.dur.toNat → f = s.freq.toNat → v = (s.tonevol.toNat : Rat) / 10000 →
    f ≠ 0 → v ≤ 1 → 2 * N ≤ 65536 →
    ∃ t, exec .ttone s = .next t
      ∧ t = { s with busy := false, done := true, olen := BitVec.ofNat 32 (2 * N), mem := t.mem }
      ∧ s.keepsBytesOutside t Config.obufBase (Config.obufBase + 2 * (2 * N))
      ∧ ∀ n, n < N →
        t.obufSample (2 * n) = tone (f * n) (v * 32767) ∧ t.obufSample (2 * n + 1) = tone (f * n) (v * 32767)

/-- A synthesized sample against the exact real sine: the two candidates of the model's enclosure bound the round-half-up of
the exact product and differ by at most 1; where they agree the sample is that rounding (00_scope.md R25, R26; where they
differ the model leaves the choice free, log 8). -/
def Obligations.ToneIsTheRoundedSine : Prop :=
  ∀ (k : Int) (amp : Rat), 0 ≤ amp → amp ≤ 32767 →
    (toneCandidates k amp).1 ≤ ⌊Real.sin (2 * Real.pi * k / 44100) * amp + 1 / 2⌋
      ∧ ⌊Real.sin (2 * Real.pi * k / 44100) * amp + 1 / 2⌋ ≤ (toneCandidates k amp).2
      ∧ (toneCandidates k amp).2 ≤ (toneCandidates k amp).1 + 1
      ∧ ((toneCandidates k amp).1 = (toneCandidates k amp).2 →
        tone k amp = ⌊Real.sin (2 * Real.pi * k / 44100) * amp + 1 / 2⌋)
      ∧ (tone k amp = (toneCandidates k amp).1 ∨ tone k amp = (toneCandidates k amp).2)

/-- The range of the samples, and their exact values where the sine is 0, 1 or -1: no sample is below -32767 or above 32767
(40_synthesizer.md R158, 00_scope.md R26). -/
def Obligations.ToneRangeAndExactPhases : Prop :=
  ∀ (k : Int) (amp : Rat), 0 ≤ amp → amp ≤ 32767 →
    -32767 ≤ tone k amp ∧ tone k amp ≤ 32767
      ∧ (2 * k % 44100 = 0 → tone k amp = 0)
      ∧ (4 * k % (4 * 44100) = 44100 → tone k amp = ⌊amp + 1 / 2⌋)
      ∧ (4 * k % (4 * 44100) = 3 * 44100 → tone k amp = ⌊-amp + 1 / 2⌋)

/-! ## Sample extractor -/

/-- EXTRACT: the event list of the buffer into EVT and ECNT, with the kinds' numbers, nothing else; BAD_OPERAND before any
write when ILEN exceeds IBUF_MAX (41_sample_extractor.md R170, 10_state.md R42). -/
def Obligations.ExtractWritesTheEvents : Prop :=
  decodeWord 0x00000021 = .ok .extract
  ∧ ∀ s : State,
    (s.ilen.toNat ≤ 32768 → ∃ t, exec .extract s = .next t
      ∧ t = { s with
        busy := false, done := true, ecnt := BitVec.ofNat 32 (extractEvents s.buffer).length, mem := t.mem }
      ∧ t.samples = extractEvents s.buffer
      ∧ (∀ p x, (extractEvents s.buffer)[p]? = some x →
        t.hostReadValue (BitVec.ofNat 32 (0x00100000 + 16 * p + 12)) .w32
          = (match x.kind with | .zero => 0 | .max => 1 | .min => 2))
      ∧ s.keepsBytesOutside t Config.evtBase (Config.evtBase + 16 * (extractEvents s.buffer).length))
    ∧ (32768 < s.ilen.toNat →
      exec .extract s = .next { s with busy := false, done := true, fault := some .badOperand })

/-- The single pass emits, crossing by crossing, the extremum of the span it closes, where the span has 3 samples or more, and
then the Zero event (41_sample_extractor.md R171 to R176). -/
def Obligations.ExtractionIsCrossingByCrossing : Prop :=
  ∀ buf : List Int, extractEvents buf = eventsOfCrossings buf

/-- The order of an event list (10_state.md R44). -/
def Obligations.ExtractedEventsAreInOrder : Prop := ∀ buf : List Int, EventOrder (extractEvents buf)

/-! ## Frame synchronizer and cells -/

/-- FSYNC: the frames of the valid events into FRM and FCNT, the state machine's registers, every XI element NaN, nothing else
(42_frame_sync_cells.md R190). -/
def Obligations.FsyncWritesTheFrames : Prop :=
  decodeWord 0x00000022 = .ok .fsync
  ∧ ∀ (s : State) (st : SyncState), st = SyncState.start.over 0 s.samples → st.spans.length ≤ 256 →
    ∃ t, exec .fsync s = .next t
      ∧ t = { s with
        busy := false, done := true, fcnt := BitVec.ofNat 32 st.spans.length
        synccnt := BitVec.ofNat 32 st.syncCount, fstart := BitVec.ofNat 32 st.frameStart
        fend := BitVec.ofNat 32 st.frameEnd, xi := t.xi, mem := t.mem }
      ∧ (∀ f, f < 256 → t.xiAt f = .nan)
      ∧ (∀ f (h : f < st.spans.length), t.frameAt f = frameCells s.samples st.spans[f].1 st.spans[f].2)
      ∧ s.keepsBytesOutside t Config.frmBase (Config.frmBase + 64 * st.spans.length)

/-- The state machine: it starts with all three at 0, it takes the events in their order, each with its position, and on one event:
extrema are skipped; a crossing at a distance of 6 to 16 counts and marks a tentative end
once; every other crossing accepts a marker of 38 to 42 or rejects it, and resets (42_frame_sync_cells.md R191
to R195). -/
def Obligations.SyncMachineTransitions : Prop :=
  (∀ d, isSync d = decide ((2 * d + 11) / 22 = 1)) ∧ (∀ d, isSync d = true ↔ 6 ≤ d ∧ d ≤ 16)
    ∧ SyncState.start = { syncCount := 0, frameStart := 0, frameEnd := 0, spans := [] }
    ∧ (∀ (st : SyncState) (p : Nat) (events : List Sample),
      st.over p events = (events.zipIdx p).foldl (fun st y => st.advance y.1 y.2) st)
    ∧ ∀ (st : SyncState) (x : Sample) (p : Nat),
      (x.kind ≠ .zero → st.advance x p = st)
        ∧ (x.kind = .zero → 6 ≤ x.delta → x.delta ≤ 16 →
          st.advance x p = { st with
            syncCount := st.syncCount + 1
            frameEnd := if st.frameStart ≠ 0 ∧ st.frameEnd = 0 then p else st.frameEnd })
        ∧ (x.kind = .zero → x.delta < 6 ∨ 16 < x.delta →
          (st.advance x p).syncCount = 0 ∧ (st.advance x p).frameEnd = 0
            ∧ (38 ≤ st.syncCount → st.syncCount ≤ 42 → (st.advance x p).frameStart = p
              ∧ (st.frameEnd ≠ 0 → (st.advance x p).spans = st.spans ++ [(st.frameStart, st.frameEnd)])
              ∧ (st.frameEnd = 0 → (st.advance x p).spans = st.spans))
            ∧ (st.syncCount < 38 ∨ 42 < st.syncCount →
              (st.advance x p).frameStart = st.frameStart ∧ (st.advance x p).spans = st.spans))

/-- The cells of a frame: the record is made of the nine amplitudes of the points of the event positions `fs .. fe`, rebased
to event `fs` and cut into cells (`cellPoints`), points beyond the ninth discarded; the buckets are the ranges of R199, which
never decrease, and a cell's amplitude is 0 for an empty bucket, else the element at position `floor(n/2)` of the `n` kept
points, where a bucket of 4 or more loses its first and its last (42_frame_sync_cells.md R198 to R201, 00_scope.md R24). -/
def Obligations.BucketsAndCellAmplitudes : Prop :=
  (∀ (events : List Sample) (fs fe : Nat),
    frameCells events fs fe = correctedCells ((List.range 9).map fun k => cellAmplitude (cellPoints events fs fe k)))
    ∧ (∀ x, bucketOf x = 0 ↔ x ≤ 441) ∧ (∀ x k, 1 ≤ k → (bucketOf x = k ↔ 441 * k < x ∧ x ≤ 441 * (k + 1)))
    ∧ (∀ x y, x ≤ y → bucketOf x ≤ bucketOf y)
    ∧ (∀ v : Int, cellMagnitude v = min v.natAbs 32767) ∧ cellAmplitude [] = 0
    ∧ (∀ l : List Nat, l ≠ [] → l.length ≤ 3 → IsAtRank l (l.length / 2) (cellAmplitude l))
    ∧ ∀ (a b : Nat) (l : List Nat), 2 ≤ l.length →
      IsAtRank l (l.length / 2) (cellAmplitude (a :: (l ++ [b])))

/-- The frame record of nine amplitudes: the first least is found, the cells from it on are negated, and it is taken out, each
other cell keeping its index (42_frame_sync_cells.md R202, R203, R204). -/
def Obligations.FrameRecordShape : Prop :=
  ∀ (base : Nat) (events : List Sample) (raw : List Nat), raw = rawAmplitudes base events →
    raw.length = 9 ∧ (∀ v ∈ raw, v ≤ 32767) ∧ FrameRecord (correctedCells raw)
      ∧ ∃ mi, mi < 9
        ∧ (∀ k, k < 9 → raw.getD mi 0 ≤ raw.getD k 0) ∧ (∀ k, k < mi → raw.getD mi 0 < raw.getD k 0)
        ∧ ∀ c, c < 8 → (correctedCells raw)[c]? = some
          (if c < mi then { amplitude := (raw.getD c 0 : Int), index := c }
          else { amplitude := -(raw.getD (c + 1) 0 : Int), index := c + 1 })

/-- A buffer of `len` samples has at most `len - 1` crossings and gives at most `2 * (len - 1)` events, so EVT never
overflows; each frame needs 229 samples, so IBUF_MAX samples give at most 143 frames and FRM cannot overflow
(41_sample_extractor.md R178, 42_frame_sync_cells.md R207). -/
def Obligations.CapacityBounds : Prop :=
  ∀ buf : List Int,
    (crossingsOf buf).length ≤ buf.length - 1 ∧ (extractEvents buf).length ≤ 2 * (buf.length - 1)
      ∧ 229 * (framesOf (extractEvents buf)).length ≤ buf.length
      ∧ (buf.length ≤ 32768 →
        (extractEvents buf).length < 65536 ∧ (framesOf (extractEvents buf)).length ≤ 143)

/-! ## Calibrator and thermistor -/

/-- FIT: the least-squares slope and intercept of the eight cells of the frame, nothing else; BAD_OPERAND for a frame that is
not valid (43_calibrator.md R220, R221). -/
def Obligations.FitWritesTheTrendline : Prop :=
  (∀ f, f < 256 → decodeWord (BitVec.ofNat 32 (0x23 + 256 * f)) = .ok (.fit f))
  ∧ ∀ (s : State) (f : Nat) (x y : Nat → Rat) (Sx Sy Sxy Sxx a : Rat),
    (∀ c, x c = ((s.cellAt f c).index : Rat) * 441 + 441 / 2) → (∀ c, y c = ((s.cellAt f c).amplitude : Rat)) →
    Sx = ∑ c ∈ Finset.range 8, x c → Sy = ∑ c ∈ Finset.range 8, y c →
    Sxy = ∑ c ∈ Finset.range 8, x c * y c → Sxx = ∑ c ∈ Finset.range 8, x c ^ 2 →
    a = (8 * Sxy - Sx * Sy) / (8 * Sxx - Sx ^ 2) →
    (f < s.fcnt.toNat → exec (.fit f) s
      = .next { s with busy := false, done := true, slope := .val a, intercept := .val ((Sy - a * Sx) / 8) })
      ∧ (s.fcnt.toNat ≤ f →
        exec (.fit f) s = .next { s with busy := false, done := true, fault := some .badOperand })

/-- On a frame record the denominator is positive, the line solves the normal equations, and the slope is zero exactly when
`n·Sxy = Sx·Sy` (43_calibrator.md R222). -/
def Obligations.FitIsLeastSquares : Prop :=
  ∀ (cells : List CalCell) (n Sx Sy Sxy Sxx a b : Rat), FrameRecord cells → n = 8 →
    Sx = (cells.map abscissa).sum → Sy = (cells.map fun c => (c.amplitude : Rat)).sum →
    Sxy = (cells.map fun c => abscissa c * (c.amplitude : Rat)).sum → Sxx = (cells.map fun c => abscissa c ^ 2).sum →
    (a, b) = fitLine cells →
    0 < n * Sxx - Sx ^ 2
      ∧ (cells.map fun c => (c.amplitude : Rat) - (a * abscissa c + b)).sum = 0
      ∧ (cells.map fun c => abscissa c * ((c.amplitude : Rat) - (a * abscissa c + b))).sum = 0
      ∧ (a = 0 ↔ n * Sxy = Sx * Sy)

/-- XINT: the corrected intersection of the line in SLOPE and INTERCEPT into XI, nothing else; its faults in their order; and a
line that is zero at the centre of cell `k` gives `k / 8` (43_calibrator.md R224, R225, R226). -/
def Obligations.XintWritesTheIntersection : Prop :=
  (∀ f, f < 256 → decodeWord (BitVec.ofNat 32 (0x24 + 256 * f)) = .ok (.xint f))
    ∧ (∀ (s : State) (f : Nat) (a b : Rat), f < s.fcnt.toNat → f < 256 → s.slope = .val a → s.intercept = .val b → a ≠ 0 →
    ∃ t, exec (.xint f) s = .next t ∧ t = { s with busy := false, done := true, xi := t.xi }
      ∧ t.xiAt f = .val ((-b / a / 3969 - 1 / 18) / (8 / 9)) ∧ ∀ g, g ≠ f → t.xiAt g = s.xiAt g)
    ∧ (∀ (s : State) (f : Nat), s.fcnt.toNat ≤ f ∨ s.slope = .nan ∨ s.intercept = .nan →
      exec (.xint f) s = .next { s with busy := false, done := true, fault := some .badOperand })
    ∧ (∀ (s : State) (f : Nat) (b : Rat), f < s.fcnt.toNat → s.slope = .val 0 → s.intercept = .val b →
      exec (.xint f) s = .next { s with busy := false, done := true, fault := some .numeric })
    ∧ ∀ (k : Nat) (a : Rat), a ≠ 0 → intersection a (-(a * (441 * k + 441 / 2))) = k / 8

/-- RESIST: the median of the intersections of all frames, the cancellation amplitude and the resistance, nothing else;
BAD_OPERAND without a frame or with an intersection that is NaN (43_calibrator.md R228). -/
def Obligations.ResistWritesTheResistance : Prop :=
  decodeWord 0x00000025 = .ok .resist
    ∧ (∀ (s : State) (xs : List Rat), xs ≠ [] → (List.range s.fcnt.toNat).map s.xiAt = xs.map XR.val →
    ∃ t, IsAtRank xs (xs.length / 2) t
      ∧ exec .resist s = .next { s with
        busy := false, done := true, xmed := .val t, cancamp := .val (9 / 10 - t * (9 / 10 - 1 / 10))
        resistance := .val (180 - 160 * t) })
    ∧ ∀ s : State, (s.fcnt = 0 ∨ ∃ f, f < s.fcnt.toNat ∧ s.xiAt f = .nan) →
      exec .resist s = .next { s with busy := false, done := true, fault := some .badOperand }

/-- TEMP: the interpolation at the first entry from index 1 that is below the resistance, NaN where there is none or the
resistance is NaN; UT 1 exactly for NaN; nothing else (44_thermistor.md R240). -/
def Obligations.TempWritesTheTemperature : Prop :=
  decodeWord 0x00000026 = .ok .temp
  ∧ ∀ (s : State) (T : List Rat), T = Config.ntcTable →
    (s.resistance = .nan →
      exec .temp s = .next { s with busy := false, done := true, temperature := .nan, ut := true })
    ∧ (∀ R, s.resistance = .val R → (∀ i, 1 ≤ i → i < T.length → R ≤ T.getD i 0) →
      exec .temp s = .next { s with busy := false, done := true, temperature := .nan, ut := true })
    ∧ ∀ R i, s.resistance = .val R → 1 ≤ i → i < T.length → T.getD i 0 < R →
      (∀ j, 1 ≤ j → j < i → R ≤ T.getD j 0) →
      exec .temp s = .next { s with
        busy := false, done := true, ut := false
        temperature := .val ((-40 + ((i : Rat) - 1) * 1)
          + (R - T.getD (i - 1) 0) / (T.getD i 0 - T.getD (i - 1) 0) * 1) }

/-- The ends of the table and its exact entries, for every table that meets the constraint of 00_scope.md R14 (44_thermistor.md
R243, R245, R246). -/
def Obligations.TemperatureCornerCases : Prop :=
  ∀ T : List Rat, Config.NtcLegal T →
    (∀ R : Rat, temperatureFor T (.val R) = .nan ↔ R ≤ 2522 / 1000)
      ∧ (∀ R : Rat, T.getD 0 0 < R → ∃ v, v < -40 ∧ temperatureFor T (.val R) = .val v
        ∧ v = -40 + (R - T.getD 0 0) / (T.getD 1 0 - T.getD 0 0))
      ∧ temperatureFor T (.val (T.getD 0 0)) = .val (-40)
      ∧ (∀ k, 1 ≤ k → k + 2 ≤ T.length → temperatureFor T (.val (T.getD k 0)) = .val (-40 + k))
      ∧ temperatureFor T (.val 100) = .val 25

/-! ## Clipping check and decoders -/

/-- CLIPCHK counts the samples above 32000 as signed integers, nothing else; BAD_OPERAND when ILEN exceeds IBUF_MAX
(45_decode.md R251). -/
def Obligations.ClipchkCounts : Prop :=
  decodeWord 0x00000020 = .ok .clipchk
  ∧ ∀ s : State,
    (s.ilen.toNat ≤ 32768 → ∃ t, exec .clipchk s = .next t
      ∧ t = { s with busy := false, done := true, clipcnt := t.clipcnt }
      ∧ t.clipcnt.toNat = tally (List.range s.ilen.toNat) (fun i => decide (32000 < s.ibufSample i)))
    ∧ (32768 < s.ilen.toNat →
      exec .clipchk s = .next { s with busy := false, done := true, fault := some .badOperand })

/-- A successful DECODE: the events, frames and intersections of the buffer, the line of the last frame, the median and what
follows from it, and its frame (45_decode.md R253, R257). -/
def Obligations.DecodeSucceeds : Prop :=
  ∀ (s : State) (events : List Sample) (st : SyncState) (frames : List (List CalCell)) (last : List CalCell),
    s.ilen.toNat ≤ 32768 → tally s.buffer (fun v => decide (32000 < v)) ≤ 10 →
    events = extractEvents s.buffer → st = SyncState.start.over 0 events → frames = framesOf events →
    (∀ cells ∈ frames, (fitLine cells).1 ≠ 0) → frames.getLast? = some last →
    ∃ t m, exec (.decode false) s = .next t
      ∧ IsAtRank (intersectionsOf frames) (frames.length / 2) m
      ∧ t.samples = events ∧ (∀ f (h : f < frames.length), t.frameAt f = frames[f])
      ∧ (∀ f (h : f < frames.length), t.xiAt f = .val (intersection (fitLine frames[f]).1 (fitLine frames[f]).2))
      ∧ (∀ f, frames.length ≤ f → t.xiAt f = .nan)
      ∧ s.keepsBytesIn t Config.ibufBase Config.ibufEnd ∧ s.keepsBytesIn t Config.obufBase Config.obufEnd
      ∧ t = { s with
        busy := false, done := true, ut := decide (t.temperature = .nan), ecnt := BitVec.ofNat 32 events.length
        fcnt := BitVec.ofNat 32 frames.length, synccnt := BitVec.ofNat 32 st.syncCount
        fstart := BitVec.ofNat 32 st.frameStart, fend := BitVec.ofNat 32 st.frameEnd
        clipcnt := BitVec.ofNat 32 (tally s.buffer (fun v => decide (32000 < v)))
        slope := .val (fitLine last).1, intercept := .val (fitLine last).2
        xmed := .val m, cancamp := .val (9 / 10 - m * (9 / 10 - 1 / 10)), resistance := .val (180 - 160 * m)
        temperature := temperatureFor Config.ntcTable (.val (180 - 160 * m))
        nframes := BitVec.ofNat 32 frames.length, error := .none
        leftamp := 0, rightamp := 0, trimstart := 0, trimend := 0, xi := t.xi, mem := t.mem }

/-- The per-buffer failures of DECODE, more than 10 clipped samples and no frame, and the capture failure (45_decode.md R254,
R255, 60_exceptions.md R315, R318). -/
def Obligations.DecodeFailures : Prop :=
  ∀ (s : State) (events : List Sample) (st : SyncState) (clipped : Nat), s.ilen.toNat ≤ 32768 →
    clipped = tally s.buffer (fun v => decide (32000 < v)) → events = extractEvents s.buffer →
    st = SyncState.start.over 0 events →
    (10 < clipped → ∃ t, exec (.decode false) s = .next t
      ∧ (∀ f, f < 256 → t.xiAt f = .nan)
      ∧ t = { s with
        busy := false, done := true, ut := true, ecnt := 0, fcnt := 0, synccnt := 0, fstart := 0, fend := 0
        clipcnt := BitVec.ofNat 32 clipped, slope := .nan, intercept := .nan, xmed := .nan, cancamp := .nan
        resistance := .nan, temperature := .nan, nframes := 0, error := .clippingDetected
        leftamp := 0, rightamp := 0, trimstart := 0, trimend := 0, xi := t.xi })
    ∧ (clipped ≤ 10 → st.spans = [] → ∃ t, exec (.decode false) s = .next t
      ∧ (∀ f, f < 256 → t.xiAt f = .nan) ∧ t.samples = events
      ∧ s.keepsBytesOutside t Config.evtBase (Config.evtBase + 16 * events.length)
      ∧ t = { s with
        busy := false, done := true, ut := true, ecnt := BitVec.ofNat 32 events.length, fcnt := 0
        synccnt := BitVec.ofNat 32 st.syncCount, fstart := BitVec.ofNat 32 st.frameStart
        fend := BitVec.ofNat 32 st.frameEnd, clipcnt := BitVec.ofNat 32 clipped
        slope := .nan, intercept := .nan, xmed := .nan, cancamp := .nan
        resistance := .nan, temperature := .nan, nframes := 0, error := .noFramesFound
        leftamp := 0, rightamp := 0, trimstart := 0, trimend := 0, xi := t.xi, mem := t.mem })
    ∧ ∃ t, exec (.decode true) s = .next t ∧ t.fault = some .captureFailure ∧ t.error = .captureFailure
      ∧ s.keepsHostState t ∧ s.keepsOutput t ∧ t.pstate = s.pstate

/-- Where DECODE succeeds, CLEAR, EXTRACT, FSYNC, FIT and XINT of every frame, RESIST and TEMP by hand leave the same state, but
for CLIPCNT, NFRAMES and the presence state that CLEAR resets (47_control.md R303). -/
def Obligations.DecodeEqualsTheStages : Prop :=
  ∀ s d : State, s.fault = none → exec (.decode false) s = .next d → d.fault = none → d.error = .none →
    ∃ r, runCommands
        ([.clear, .extract, .fsync] ++ (List.range d.fcnt.toNat).flatMap (fun f => [.fit f, .xint f])
          ++ [.resist, .temp]) s = some r
      ∧ d = { r with
        clipcnt := d.clipcnt, nframes := d.nframes, pstate := s.pstate, silence := s.silence, tonelvl := s.tonelvl }

/-- The result of a decode depends on IBUF, ILEN and ARG alone: two states that agree on the buffer give the same fault, and
where none is raised the same results, events, frames and intersections (45_decode.md R256). -/
def Obligations.DecodeDependsOnTheBufferAlone : Prop :=
  ∀ (i : Instr) (s s' t t' : State), i ∈ [.decode false, .decode true, .sdecode false, .sdecode true] →
    s.fault = none → s'.fault = none → s'.ilen = s.ilen → (∀ k, k < s.ilen.toNat → s'.ibufHalf k = s.ibufHalf k) →
    exec i s = .next t → exec i s' = .next t' →
    t'.fault = t.fault
      ∧ (t.fault = none →
        t'.temperature = t.temperature ∧ t'.resistance = t.resistance ∧ t'.nframes = t.nframes ∧ t'.error = t.error
          ∧ t'.ut = t.ut ∧ t'.slope = t.slope ∧ t'.intercept = t.intercept ∧ t'.xmed = t.xmed ∧ t'.cancamp = t.cancamp
          ∧ t'.ecnt = t.ecnt ∧ t'.fcnt = t.fcnt ∧ t'.synccnt = t.synccnt ∧ t'.fstart = t.fstart ∧ t'.fend = t.fend
          ∧ t'.clipcnt = t.clipcnt ∧ t'.leftamp = t.leftamp ∧ t'.rightamp = t.rightamp ∧ t'.trimstart = t.trimstart
          ∧ t'.trimend = t.trimend ∧ t'.xi = t.xi ∧ t'.samples = t.samples
          ∧ ∀ f, f < t.fcnt.toNat → t'.frameAt f = t.frameAt f)

/-- A successful SDECODE: the trimmed region, its two windows, the medians of their signed extrema, the resistance and the
temperature, and its frame (45_decode.md R262 to R266). -/
def Obligations.SdecodeSucceeds : Prop :=
  ∀ (s : State) (a e T W off : Nat) (left right : List Sample) (l r : Int), s.ilen.toNat ≤ 32768 →
    a ≤ e → e < s.ilen.toNat → 1000 < (s.ibufSample a).natAbs → 1000 < (s.ibufSample e).natAbs →
    (∀ i, i < s.ilen.toNat → i < a ∨ e < i → (s.ibufSample i).natAbs ≤ 1000) →
    T = e - a + 1 → W = 3 * T / 8 → off = T / 20 →
    left = extractEvents ((List.range W).map fun j => s.ibufSample (a + off + j)) →
    right = extractEvents ((List.range W).map fun j => s.ibufSample (e + 1 - off - W + j)) →
    IsAtRank (signedExtrema left) ((signedExtrema left).length / 2) l →
    IsAtRank (signedExtrema right) ((signedExtrema right).length / 2) r → l ≠ 0 →
    ∃ t, exec (.sdecode false) s = .next t ∧ t.samples = right
      ∧ t.leftamp.toInt = l ∧ t.rightamp.toInt = r ∧ (∀ f, f < 256 → t.xiAt f = .nan)
      ∧ s.keepsBytesOutside t Config.evtBase Config.evtEnd
      ∧ t = { s with
        busy := false, done := true, ut := decide (t.temperature = .nan), ecnt := BitVec.ofNat 32 right.length
        fcnt := 0, synccnt := 0, fstart := 0, fend := 0, clipcnt := 0
        slope := .nan, intercept := .nan, xmed := .nan, cancamp := .nan
        resistance := .val ((r : Rat) / (l : Rat) * 100)
        temperature := temperatureFor Config.ntcTable (.val ((r : Rat) / (l : Rat) * 100))
        nframes := 0, error := .none, leftamp := t.leftamp, rightamp := t.rightamp
        trimstart := BitVec.ofNat 32 a, trimend := BitVec.ofNat 32 e, xi := t.xi, mem := t.mem }

/-- The failures of SDECODE: nothing above the trim threshold, a window without an extremum, a left amplitude of zero, and the
capture failure (45_decode.md R262, R267). -/
def Obligations.SdecodeFailures : Prop :=
  (∀ s : State, s.ilen.toNat ≤ 32768 → (∀ v ∈ s.buffer, v.natAbs ≤ 1000) →
    ∃ t, exec (.sdecode false) s = .next t ∧ (∀ f, f < 256 → t.xiAt f = .nan)
      ∧ t = { s with
        busy := false, done := true, ut := true, ecnt := 0, fcnt := 0, synccnt := 0, fstart := 0, fend := 0, clipcnt := 0
        slope := .nan, intercept := .nan, xmed := .nan, cancamp := .nan, resistance := .nan, temperature := .nan
        nframes := 0, error := .noFramesFound, leftamp := 0, rightamp := 0, trimstart := 0, trimend := 0, xi := t.xi })
    ∧ (∀ (s : State) (a e : Nat) (right : List Sample), s.ilen.toNat ≤ 32768 → trimRegion s.buffer = some (a, e) →
      right = extractEvents (rightWindow s.buffer a e) →
      (signedExtrema (extractEvents (leftWindow s.buffer a e)) = [] ∨ signedExtrema right = []) →
      ∃ t, exec (.sdecode false) s = .next t ∧ (∀ f, f < 256 → t.xiAt f = .nan) ∧ t.samples = right
        ∧ s.keepsBytesOutside t Config.evtBase Config.evtEnd
        ∧ t = { s with
          busy := false, done := true, ut := true, ecnt := BitVec.ofNat 32 right.length, fcnt := 0, synccnt := 0
          fstart := 0, fend := 0, clipcnt := 0, slope := .nan, intercept := .nan, xmed := .nan, cancamp := .nan
          resistance := .nan, temperature := .nan, nframes := 0, error := .noFramesFound, leftamp := 0, rightamp := 0
          trimstart := BitVec.ofNat 32 a, trimend := BitVec.ofNat 32 e, xi := t.xi, mem := t.mem })
    ∧ (∀ (s : State) (r : Int), s.ilen.toNat ≤ 32768 → windowAmplitudes s.buffer = some (0, r) →
      ∃ t, exec (.sdecode false) s = .next t ∧ t.fault = some .numeric ∧ s.keepsHostState t ∧ s.keepsOutput t
        ∧ t.pstate = s.pstate)
    ∧ ∀ s : State, s.ilen.toNat ≤ 32768 →
      ∃ t, exec (.sdecode true) s = .next t ∧ t.fault = some .captureFailure ∧ t.error = .captureFailure
        ∧ s.keepsHostState t ∧ s.keepsOutput t ∧ t.pstate = s.pstate

/-- The windows lie inside the trimmed region and never overlap (45_decode.md R264). -/
def Obligations.WindowsNeverOverlap : Prop :=
  ∀ (buf : List Int) (a e T : Nat), a ≤ e → e < buf.length → T = e - a + 1 →
    windowLength T = 3 * T / 8 ∧ windowOffset T = T / 20
      ∧ 40 * (windowOffset T + windowLength T) ≤ 17 * T
      ∧ a + windowOffset T + windowLength T ≤ e + 1 - windowOffset T - windowLength T
      ∧ (leftWindow buf a e).length = windowLength T ∧ (rightWindow buf a e).length = windowLength T
      ∧ ∀ j, j < windowLength T →
        (leftWindow buf a e)[j]? = buf[a + windowOffset T + j]?
          ∧ (rightWindow buf a e)[j]? = buf[e + 1 - windowOffset T - windowLength T + j]?

/-! ## Presence detector -/

/-- PRES1: the level, the detector's state and DET; a read error concludes not detected; its faults (46_presence.md R280, R281,
R283). -/
def Obligations.Pres1MeasuresSilence : Prop :=
  ∀ s : State,
    (s.ilen.toNat ≤ 32768 →
      exec (.pres1 true) s
          = .next { s with busy := false, done := true, silence := 0, tonelvl := 0, pstate := .absent }
        ∧ (∀ v, Config.cutSamplesCount ≤ s.ilen.toNat →
          IsAtRank (s.buffer.map Int.natAbs) (s.ilen.toNat - Config.cutSamplesCount) v →
          v ≤ 32768 ∧ exec (.pres1 false) s = .next { s with
            busy := false, done := true, silence := BitVec.ofNat 32 v, tonelvl := 0
            pstate := if Config.silenceThreshold ≤ v then .absent else .armed })
        ∧ (s.ilen.toNat < Config.cutSamplesCount →
          ∃ t, exec (.pres1 false) s = .next t ∧ t.fault = some .badOperand ∧ t.pstate = s.pstate))
    ∧ (32768 < s.ilen.toNat → ∀ e,
      exec (.pres1 e) s = .next { s with busy := false, done := true, fault := some .badOperand })

/-- PRES2: nothing unless armed; else the level against the ratio, in the product form; a read error concludes not detected;
its faults (46_presence.md R284 to R287). -/
def Obligations.Pres2MeasuresTheTone : Prop :=
  ∀ s : State,
    (s.pstate ≠ .armed → ∀ e, exec (.pres2 e) s = .next { s with busy := false, done := true })
    ∧ (s.pstate = .armed → s.ilen.toNat ≤ 32768 →
      exec (.pres2 true) s = .next { s with busy := false, done := true, pstate := .absent }
        ∧ (∀ v, Config.cutSamplesCount ≤ s.ilen.toNat →
          IsAtRank (s.buffer.map Int.natAbs) (s.ilen.toNat - Config.cutSamplesCount) v →
          v ≤ 32768 ∧ exec (.pres2 false) s = .next { s with
            busy := false, done := true, tonelvl := BitVec.ofNat 32 v
            pstate := if Config.ratioNum * s.silence.toNat < v * Config.ratioDen then .present else .absent })
        ∧ (s.ilen.toNat < Config.cutSamplesCount →
          ∃ t, exec (.pres2 false) s = .next t ∧ t.fault = some .badOperand ∧ t.pstate = s.pstate))
    ∧ (s.pstate = .armed → 32768 < s.ilen.toNat → ∀ e,
      exec (.pres2 e) s = .next { s with busy := false, done := true, fault := some .badOperand })

/-! ## Invariants -/

/-- Every step keeps the canonical form of the written bytes (the model's own, log 3). -/
def Obligations.StepKeepsMemoryForm : Prop := ∀ s t : State, s.memoryOk → step s = .next t → t.memoryOk

/-- Every step keeps: the counts fit, and while no fault is held the valid events are in order and the valid frames are frame
records (10_state.md R44, R45, R46). -/
def Obligations.StepKeepsRecords : Prop := ∀ s t : State, s.recordsOk → step s = .next t → t.recordsOk

/-- Every step keeps: while BUSY is 1, DONE is 0, FAULT is 0 and CMD holds a legal word; ERROR never holds code 4; and while no
fault is held the presence state agrees with its levels and UT is 1 only while TEMPERATURE is NaN (30_encoding.md R111,
10_state.md R33, R38, 46_presence.md R283, R286; that ERROR is not 4 after a late fault, where R313 leaves it unspecified, is the
model's choice, log 4). -/
def Obligations.StepKeepsProtocolAndConclusions : Prop :=
  ∀ s t : State, s.protocolOk ∧ s.presenceOk ∧ s.resultOk → step s = .next t →
    t.protocolOk ∧ t.presenceOk ∧ t.resultOk

/-- The reset state meets every invariant. -/
def Obligations.ResetMeetsTheInvariants : Prop :=
  State.reset.memoryOk ∧ State.reset.protocolOk ∧ State.reset.recordsOk ∧ State.reset.presenceOk ∧ State.reset.resultOk
end

