-- ==== Sys2Proof/Laws/Config.lean ====
section
/-! SUPPORT. The open parameters meet the constraints of 00_scope.md R14, whatever values they take. -/

namespace Sys2Proof.Config

theorem ntcStandIn_legal : NtcLegal ntcStandIn := by decide +kernel

/-- NTC_TABLE meets the constraint of R14. -/
theorem ntcTable_legal : NtcLegal ntcTable := by
  unfold ntcTable
  split
  · assumption
  · exact ntcStandIn_legal

theorem cutSamplesCount_pos : 1 ≤ cutSamplesCount := by unfold cutSamplesCount; omega
theorem ratioNum_pos : 1 ≤ ratioNum := by unfold ratioNum; omega
theorem ratioDen_pos : 1 ≤ ratioDen := by unfold ratioDen; omega

/-- An entry of the table is above every later one. -/
theorem ntcTable_decreasing {i j : Nat} (hij : i < j) (hj : j < ntcTable.length) :
    ntcTable.getD j 0 < ntcTable.getD i 0 := by
  have hi : i < ntcTable.length := by omega
  simp only [List.getD_eq_getElem?_getD, List.getElem?_eq_getElem hi, List.getElem?_eq_getElem hj, Option.getD_some]
  exact List.pairwise_iff_getElem.mp ntcTable_legal.2.2.1 i j hi hj hij

theorem ntcTable_sixtyfive : ntcTable.getD 65 0 = 100 := by
  rw [List.getD_eq_getElem?_getD, ntcTable_legal.2.2.2.1]; rfl

theorem ntcTable_last : ntcTable.getD (ntcTable.length - 1) 0 = 2522 / 1000 := by
  have := ntcTable_legal.2.2.2.2
  rw [List.getLast?_eq_getElem?] at this
  rw [List.getD_eq_getElem?_getD, this]; rfl

end Sys2Proof.Config
end

