-- ==== Sys2Proof/Laws/Lists.lean ====
section
/-! SUPPORT. The rank statistics: what `median` and the trimmed level take out of a list, and that they are the only value at their
rank. -/

namespace Sys2Proof.Machine

variable {α : Type}

/-! ## Counting -/

theorem tally_eq_countP (l : List α) (p : α → Bool) : tally l p = l.countP p := (List.countP_eq_length_filter).symm

theorem tally_perm {l m : List α} (h : l.Perm m) (p : α → Bool) : tally l p = tally m p := by
  simp only [tally_eq_countP]; exact h.countP_eq p

theorem tally_append (l m : List α) (p : α → Bool) : tally (l ++ m) p = tally l p + tally m p := by
  simp [tally]

theorem tally_le_length (l : List α) (p : α → Bool) : tally l p ≤ l.length := List.length_filter_le _ _

/-- A stronger test holds of fewer elements. -/
theorem tally_mono (l : List α) {p q : α → Bool} (h : ∀ x, p x = true → q x = true) : tally l p ≤ tally l q := by
  simp only [tally_eq_countP]; exact List.countP_mono_left fun x _ => h x

theorem tally_eq_zero {l : List α} {p : α → Bool} (h : ∀ x ∈ l, p x = false) : tally l p = 0 := by
  simp only [tally, List.length_eq_zero_iff, List.filter_eq_nil_iff]
  intro x hx; simp [h x hx]

theorem tally_eq_length {l : List α} {p : α → Bool} (h : ∀ x ∈ l, p x = true) : tally l p = l.length := by
  simp only [tally, List.filter_eq_self.mpr h]

/-! ## The element at a rank -/

variable [LinearOrder α]

theorem IsAtRank.perm {l m : List α} (h : l.Perm m) {r : Nat} {v : α} (hv : IsAtRank l r v) : IsAtRank m r v := by
  obtain ⟨h1, h2, h3⟩ := hv
  exact ⟨h.mem_iff.mp h1, by rwa [← tally_perm h], by rwa [← tally_perm h]⟩

/-- An ascending list holds at each position the element of that rank. -/
theorem isAtRank_of_sorted {l : List α} (hs : l.Pairwise (· ≤ ·)) {r : Nat} (hr : r < l.length) :
    IsAtRank l r l[r] := by
  have hsplit : l = l.take r ++ l[r] :: l.drop (r + 1) := by simp
  have hlow : ∀ x ∈ l.take r, x ≤ l[r] := by
    intro x hx
    obtain ⟨i, hi, rfl⟩ := List.mem_take_iff_getElem.mp hx
    exact List.pairwise_iff_getElem.mp hs i r (by omega) hr (by omega)
  have hhigh : ∀ x ∈ l.drop (r + 1), l[r] ≤ x := by
    intro x hx
    obtain ⟨i, hi, rfl⟩ := List.mem_drop_iff_getElem.mp hx
    exact List.pairwise_iff_getElem.mp hs r _ hr (by omega) (by omega)
  refine ⟨List.getElem_mem hr, ?_, ?_⟩
  · generalize l[r] = v at *
    rw [hsplit, tally_append]
    have h0 : tally (v :: l.drop (r + 1)) (fun x => decide (x < v)) = 0 :=
      tally_eq_zero fun x hx => by
        rcases List.mem_cons.mp hx with rfl | hx
        · simp
        · simpa using hhigh x hx
    have := tally_le_length (l.take r) (fun x => decide (x < v))
    rw [List.length_take] at this; omega
  · generalize l[r] = v at *
    rw [hsplit, show l.take r ++ v :: l.drop (r + 1) = (l.take r ++ [v]) ++ l.drop (r + 1) by simp, tally_append]
    have h1 : tally (l.take r ++ [v]) (fun x => decide (x ≤ v)) = (l.take r ++ [v]).length :=
      tally_eq_length fun x hx => by
        rcases List.mem_append.mp hx with hx | hx
        · simpa using hlow x hx
        · simp only [List.mem_singleton] at hx; simp [hx]
    rw [h1]; simp; omega

/-- The ascending sort of a list holds at each position the element of that rank. -/
theorem isAtRank_sort (l : List α) {r : Nat} (hr : r < l.length) :
    ∃ v, (l.insertionSort (· ≤ ·))[r]? = some v ∧ IsAtRank l r v := by
  have hp := l.perm_insertionSort (· ≤ ·)
  have hr' : r < (l.insertionSort (· ≤ ·)).length := by rw [hp.length_eq]; exact hr
  exact ⟨_, List.getElem?_eq_getElem hr', (isAtRank_of_sorted (l.pairwise_insertionSort (· ≤ ·)) hr').perm hp⟩

/-- There is one element at a rank. -/
theorem IsAtRank.unique {l : List α} {r : Nat} {v w : α} (hv : IsAtRank l r v) (hw : IsAtRank l r w) : v = w := by
  have aux : ∀ {a b : α}, IsAtRank l r a → IsAtRank l r b → ¬ a < b := by
    intro a b ha hb hab
    have : tally l (fun x => decide (x ≤ a)) ≤ tally l (fun x => decide (x < b)) :=
      tally_mono l fun x hx => by simp only [decide_eq_true_eq] at *; exact lt_of_le_of_lt hx hab
    have h1 := ha.2.2; have h2 := hb.2.1; omega
  exact le_antisymm (not_lt.mp (aux hw hv)) (not_lt.mp (aux hv hw))

/-- The position of a rank in the ascending sort. -/
theorem sort_getElem?_iff (l : List α) {r : Nat} (hr : r < l.length) (v : α) :
    (l.insertionSort (· ≤ ·))[r]? = some v ↔ IsAtRank l r v := by
  obtain ⟨w, hw, hrank⟩ := isAtRank_sort l hr
  constructor
  · intro h; rw [hw] at h; cases h; exact hrank
  · intro h; rw [hw, hrank.unique h]

/-- `median` takes the element at position `floor(n/2)`, and only an empty list has none (00_scope.md R24). -/
theorem median_eq_some_iff (l : List α) (v : α) : median l = some v ↔ l ≠ [] ∧ IsAtRank l (l.length / 2) v := by
  cases l with
  | nil => simp [median]
  | cons a l =>
    have : (a :: l).length / 2 < (a :: l).length := Nat.div_lt_self (by simp) (by decide)
    simp only [ne_eq, reduceCtorEq, not_false_eq_true, true_and]
    exact sort_getElem?_iff _ this v

theorem median_isSome {l : List α} (h : l ≠ []) : ∃ v, median l = some v ∧ IsAtRank l (l.length / 2) v := by
  have : l.length / 2 < l.length := Nat.div_lt_self (List.length_pos_of_ne_nil h) (by decide)
  exact isAtRank_sort l this

theorem median_eq_none_iff (l : List α) : median l = none ↔ l = [] := by
  constructor
  · intro h; by_contra hl; obtain ⟨v, hv, -⟩ := median_isSome hl; rw [h] at hv; cases hv
  · rintro rfl; rfl

theorem median_mem {l : List α} {v : α} (h : median l = some v) : v ∈ l := ((median_eq_some_iff l v).mp h).2.1

/-- The trimmed level is the magnitude at position `n - c`, and is defined exactly for `1 ≤ c ≤ n` (46_presence.md R280). -/
theorem trimmedLevel_eq_some_iff (c : Nat) (buf : List Int) (v : Nat) :
    trimmedLevel c buf = some v ↔ 1 ≤ c ∧ c ≤ buf.length ∧ IsAtRank (buf.map mag) (buf.length - c) v := by
  unfold trimmedLevel
  split
  · rename_i h
    constructor
    · intro h; cases h
    · rintro ⟨h1, h2, -⟩; omega
  · rename_i h
    rw [sort_getElem?_iff (buf.map mag) (by rw [List.length_map]; omega)]
    constructor
    · intro hv; exact ⟨by omega, by omega, hv⟩
    · intro hv; exact hv.2.2

theorem trimmedLevel_eq_none_iff (c : Nat) (buf : List Int) :
    trimmedLevel c buf = none ↔ c < 1 ∨ buf.length < c := by
  constructor
  · intro h
    by_contra hc
    obtain ⟨v, hv, hr⟩ := isAtRank_sort (buf.map mag) (r := buf.length - c) (by rw [List.length_map]; omega)
    have := (trimmedLevel_eq_some_iff c buf v).mpr ⟨by omega, by omega, hr⟩
    rw [h] at this; cases this
  · intro h; simp only [trimmedLevel, if_pos h]

end Sys2Proof.Machine
end

