-- ==== Sys2Proof/Laws/Operands.lean ====
section
/-! SUPPORT. What each operand check and each test of the meanings says, in the numbers of the spec. -/

namespace Sys2Proof.Machine

theorem word_eq_zero_iff (w : Word) : w = 0 ↔ w.toNat = 0 := by
  constructor
  · rintro rfl; rfl
  · exact fun h => BitVec.eq_of_toNat_eq h

theorem volumeOk_iff (k : Word) : volumeOk k = true ↔ k.toNat ≤ 10000 := by
  unfold volumeOk; rw [decide_eq_true_eq]; rfl

theorem ilenOk_iff (s : State) : s.ilenOk = true ↔ s.ilen.toNat ≤ 32768 := by
  unfold State.ilenOk; rw [decide_eq_true_eq]; rfl

theorem frameOk_iff (s : State) (f : Nat) : s.frameOk f = true ↔ f < s.fcnt.toNat := by
  unfold State.frameOk; rw [decide_eq_true_eq]

theorem sweepOperandsOk_iff (s : State) : s.sweepOperandsOk = true ↔
    s.freq.toNat ≠ 0 ∧ s.ppcell.toNat ≠ 0 ∧ 3 ≤ s.ncells.toNat ∧ s.syncidx.toNat < s.ncells.toNat
      ∧ s.refvol.toNat ≤ 10000 ∧ s.maxvol.toNat ≤ 10000 ∧ s.minvol.toNat ≤ 10000
      ∧ 44100 * s.ppcell.toNat % s.freq.toNat = 0 := by
  simp only [State.sweepOperandsOk, Bool.and_eq_true, decide_eq_true_eq, volumeOk_iff, and_assoc]
  rfl

theorem sweepFits_iff (s : State) :
    s.sweepFits = true ↔ 2 * s.ncells.toNat * (44100 * s.ppcell.toNat / s.freq.toNat) ≤ 65536 := by
  unfold State.sweepFits; rw [decide_eq_true_eq]; rfl

theorem toneOperandsOk_iff (s : State) :
    s.toneOperandsOk = true ↔ s.freq.toNat ≠ 0 ∧ s.tonevol.toNat ≤ 10000 := by
  simp only [State.toneOperandsOk, Bool.and_eq_true, decide_eq_true_eq, volumeOk_iff]

theorem toneFits_iff (s : State) : s.toneFits = true ↔ 2 * s.dur.toNat ≤ 65536 := by
  unfold State.toneFits; rw [decide_eq_true_eq]; rfl

/-- The sync test (42_frame_sync_cells.md R193). -/
theorem isSync_iff (d : Nat) : isSync d = true ↔ 6 ≤ d ∧ d ≤ 16 := by
  unfold isSync; rw [decide_eq_true_eq, show Config.quarterPeriod = 11 from rfl]; omega

/-- The acceptance of a marker (42_frame_sync_cells.md R195). -/
theorem markerAccepted_iff (n : Nat) : markerAccepted n = true ↔ 38 ≤ n ∧ n ≤ 42 := by
  unfold markerAccepted
  rw [decide_eq_true_eq, show Config.syncTarget = 40 from rfl, show Config.syncTol = 3 from rfl]; omega

/-- The bucket of a rebased index (42_frame_sync_cells.md R199). -/
theorem bucketOf_eq (x : Nat) : bucketOf x = if x = 0 then 0 else (x + 440) / 441 - 1 := rfl

theorem isLoud_iff (v : Int) : isLoud v = true ↔ 1000 < v.natAbs := by
  unfold isLoud; rw [decide_eq_true_eq]; rfl

theorem accepts_iff (s : State) : s.accepts = true ↔ s.busy = false ∧ s.fault = none := by
  simp [State.accepts]

end Sys2Proof.Machine
end

