-- ==== Sys2Proof/Laws/Extract.lean ====
section
/-! SUPPORT. What the sample extractor can emit: the scan for the extremum, the length of an event list, the range of its fields,
and the distances of its Zero events. -/

namespace Sys2Proof.Machine

/-! ## The scan for the first greatest magnitude -/

/-- The scan keeps one of the samples, at an index of theirs, and none is greater in magnitude. -/
theorem firstGreatest_spec (best : Int) (p i : Nat) (l : List Int) (hp : p < i) :
    (firstGreatest best p i l).1 ∈ best :: l ∧ p ≤ (firstGreatest best p i l).2
      ∧ (firstGreatest best p i l).2 < i + l.length
      ∧ ∀ v ∈ best :: l, mag v ≤ mag (firstGreatest best p i l).1 := by
  induction l generalizing best p i with
  | nil => simp [firstGreatest]; omega
  | cons v l ih =>
    simp only [firstGreatest]
    split
    · rename_i h
      obtain ⟨h1, h2, h3, h4⟩ := ih v i (i + 1) (by omega)
      refine ⟨List.mem_cons_of_mem _ h1, by omega, by simp only [List.length_cons]; omega, ?_⟩
      intro x hx
      rcases List.mem_cons.mp hx with rfl | hx
      · exact le_trans (Nat.le_of_lt h) (h4 v (by simp))
      · exact h4 x hx
    · rename_i h
      obtain ⟨h1, h2, h3, h4⟩ := ih best p (i + 1) (by omega)
      refine ⟨?_, h2, by simp only [List.length_cons]; omega, ?_⟩
      · rcases List.mem_cons.mp h1 with h1 | h1
        · rw [h1]; simp
        · exact List.mem_cons_of_mem _ (List.mem_cons_of_mem _ h1)
      · intro x hx
        rcases List.mem_cons.mp hx with rfl | hx
        · exact h4 x (by simp)
        rcases List.mem_cons.mp hx with rfl | hx
        · exact le_trans (Nat.le_of_not_lt h) (h4 best (by simp))
        · exact h4 x (List.mem_cons_of_mem _ hx)

/-- The extremum of a span: at most one event, of kind Max or Min, inside the span. -/
theorem extremum_spec (prev : Nat) (span : List Int) :
    (extremum prev span).length ≤ 1 ∧ ∀ x ∈ extremum prev span, x.kind ≠ .zero ∧ prev ≤ x.bufferIndex
      ∧ x.bufferIndex < prev + span.length ∧ x.delta = x.bufferIndex - prev ∧ x.amplitude ∈ span
      ∧ (∀ v ∈ span, mag v ≤ mag x.amplitude) ∧ (x.kind = .max ↔ 0 ≤ x.amplitude) := by
  cases span with
  | nil => simp [extremum]
  | cons b rest =>
    obtain ⟨h1, h2, h3, h4⟩ := firstGreatest_spec b prev (prev + 1) rest (by omega)
    refine ⟨by simp [extremum], ?_⟩
    intro x hx
    simp only [extremum, List.mem_singleton] at hx
    subst hx
    refine ⟨?_, h2, by simp only [List.length_cons]; omega, rfl, h1, h4, ?_⟩
    · simp only; split <;> simp
    · simp only
      split
      · rename_i h; simp [h]
      · rename_i h; simp [h]

/-! ## The whole pass -/

/-- Each Zero event of a list lies after the one before it, and its `delta` is the distance (10_state.md R43). -/
def ZeroChain : Nat → List Sample → Prop
  | _, [] => True
  | prev, x :: l =>
    if x.kind = .zero then prev < x.bufferIndex ∧ x.delta = x.bufferIndex - prev ∧ ZeroChain x.bufferIndex l
    else ZeroChain prev l

theorem ZeroChain.append_extrema {prev : Nat} {m l : List Sample} (hm : ∀ x ∈ m, x.kind ≠ .zero)
    (hl : ZeroChain prev l) : ZeroChain prev (m ++ l) := by
  induction m with
  | nil => exact hl
  | cons x m ih =>
    simp only [List.cons_append, ZeroChain, if_neg (hm x (by simp))]
    exact ih fun y hy => hm y (by simp [hy])

/-- What the pass emits from index `i` on. -/
theorem extractFrom_spec (rest : List Int) : ∀ (prev : Nat) (seen : Bool) (i : Nat) (last : Int) (span : List Int),
    prev < i → span.length = i - prev →
    (extractFrom prev seen i last span rest).length ≤ 2 * rest.length
      ∧ ZeroChain prev (extractFrom prev seen i last span rest)
      ∧ ∀ x ∈ extractFrom prev seen i last span rest,
        x.bufferIndex < i + rest.length ∧ x.delta ≤ x.bufferIndex ∧ (x.amplitude ∈ span ∨ x.amplitude ∈ rest) := by
  induction rest with
  | nil => intro prev seen i last span _ _; simp [extractFrom, ZeroChain]
  | cons v rest ih =>
    intro prev seen i last span hp hs
    simp only [extractFrom]
    split
    · obtain ⟨h1, h2, h3⟩ := ih i true (i + 1) v [v] (by omega) (by simp)
      have hext : ∀ x ∈ (if seen && decide (Config.minSpan ≤ i - prev) then extremum prev span.reverse else []),
          x.kind ≠ .zero ∧ x.bufferIndex < i ∧ x.delta ≤ x.bufferIndex ∧ x.amplitude ∈ span := by
        intro x hx
        split at hx
        · obtain ⟨-, he⟩ := extremum_spec prev span.reverse
          obtain ⟨e1, e2, e3, e4, e5, -⟩ := he x hx
          rw [List.length_reverse, hs] at e3
          exact ⟨e1, by omega, by omega, List.mem_reverse.mp e5⟩
        · simp at hx
      have hlen : (if seen && decide (Config.minSpan ≤ i - prev) then extremum prev span.reverse else []).length
          ≤ 1 := by
        split
        · exact (extremum_spec prev span.reverse).1
        · simp
      refine ⟨?_, ?_, ?_⟩
      · simp only [List.length_append, List.length_cons]; omega
      · refine ZeroChain.append_extrema (fun x hx => (hext x hx).1) ?_
        simp only [ZeroChain, crossing, if_true]
        exact ⟨hp, trivial, h2⟩
      · intro x hx
        simp only [List.length_cons]
        rcases List.mem_append.mp hx with hx | hx
        · obtain ⟨-, e2, e3, e4⟩ := hext x hx
          exact ⟨by omega, e3, .inl e4⟩
        rcases List.mem_cons.mp hx with rfl | hx
        · exact ⟨by simp only [crossing]; omega, Nat.sub_le _ _, .inr (by simp [crossing])⟩
        · obtain ⟨e1, e2, e3⟩ := h3 x hx
          refine ⟨by omega, e2, .inr ?_⟩
          rcases e3 with e3 | e3
          · simp only [List.mem_singleton] at e3; simp [e3]
          · simp [e3]
    · obtain ⟨h1, h2, h3⟩ := ih prev seen (i + 1) v (v :: span) (by omega) (by simp only [List.length_cons]; omega)
      refine ⟨by simp only [List.length_cons]; omega, h2, ?_⟩
      intro x hx
      obtain ⟨e1, e2, e3⟩ := h3 x hx
      refine ⟨by simp only [List.length_cons]; omega, e2, ?_⟩
      rcases e3 with e3 | e3
      · rcases List.mem_cons.mp e3 with rfl | e3
        · exact .inr (by simp)
        · exact .inl e3
      · exact .inr (by simp [e3])

/-- What an extraction emits: at most two events for each sample but the first, chained Zero events, and fields that come from
the buffer. -/
theorem extractEvents_spec (buf : List Int) :
    (extractEvents buf).length ≤ 2 * (buf.length - 1) ∧ ZeroChain 0 (extractEvents buf)
      ∧ ∀ x ∈ extractEvents buf, x.bufferIndex < buf.length ∧ x.delta ≤ x.bufferIndex ∧ x.amplitude ∈ buf := by
  cases buf with
  | nil => simp [extractEvents, ZeroChain]
  | cons b rest =>
    obtain ⟨h1, h2, h3⟩ := extractFrom_spec rest 0 false 1 b [b] (by omega) (by simp)
    refine ⟨by simpa [extractEvents] using h1, h2, ?_⟩
    intro x hx
    obtain ⟨e1, e2, e3⟩ := h3 x hx
    refine ⟨by simp only [List.length_cons]; omega, e2, ?_⟩
    rcases e3 with e3 | e3
    · simp only [List.mem_singleton] at e3; simp [e3]
    · simp [e3]

/-- The samples of a buffer of 16-bit elements. -/
abbrev IsI16 (v : Int) : Prop := -32768 ≤ v ∧ v ≤ 32767

theorem toInt_isI16 (h : Half) : IsI16 h.toInt := by
  have h1 := h.le_toInt; have h2 := h.toInt_lt; constructor <;> omega

theorem State.buffer_isI16 (s : State) : ∀ v ∈ s.buffer, IsI16 v := by
  intro v hv
  simp only [State.buffer, List.mem_map] at hv
  obtain ⟨i, -, rfl⟩ := hv
  exact toInt_isI16 _

theorem State.buffer_length (s : State) : s.buffer.length = s.ilen.toNat := by simp [State.buffer]

/-! ## Frames need samples (42_frame_sync_cells.md R207) -/

/-- Over chained events every frame costs 229 samples and every sync crossing 6. -/
theorem SyncState.over_cost (l : List Sample) : ∀ (st : SyncState) (p prev : Nat), ZeroChain prev l →
    229 * st.spans.length + 6 * st.syncCount ≤ prev →
    ∃ b, (b = prev ∨ ∃ x ∈ l, x.bufferIndex = b) ∧ 229 * (st.over p l).spans.length ≤ b := by
  induction l with
  | nil => intro st p prev _ h; exact ⟨prev, .inl rfl, by simp only [SyncState.over]; omega⟩
  | cons x l ih =>
    intro st p prev hc h
    simp only [SyncState.over]
    by_cases hx : x.kind = .zero
    · simp only [ZeroChain, if_pos hx] at hc
      obtain ⟨c1, c2, c3⟩ := hc
      have key : 229 * (st.advance x p).spans.length + 6 * (st.advance x p).syncCount ≤ x.bufferIndex := by
        simp only [SyncState.advance, ne_eq, hx, not_true_eq_false, if_false]
        by_cases hs : isSync x.delta = true
        · rw [if_pos hs]
          have := (isSync_iff _).mp hs
          simp only; omega
        · rw [if_neg hs]
          simp only
          split
          · rename_i hm
            have := (markerAccepted_iff _).mp hm.1
            simp only [List.length_append, List.length_singleton]; omega
          · omega
      obtain ⟨b, hb, hle⟩ := ih (st.advance x p) (p + 1) x.bufferIndex c3 key
      refine ⟨b, ?_, hle⟩
      rcases hb with rfl | ⟨y, hy, rfl⟩
      · exact .inr ⟨x, by simp, rfl⟩
      · exact .inr ⟨y, by simp [hy], rfl⟩
    · simp only [ZeroChain, if_neg hx] at hc
      have : st.advance x p = st := by simp [SyncState.advance, hx]
      rw [this]
      obtain ⟨b, hb, hle⟩ := ih st (p + 1) prev hc h
      refine ⟨b, ?_, hle⟩
      rcases hb with rfl | ⟨y, hy, rfl⟩
      · exact .inl rfl
      · exact .inr ⟨y, by simp [hy], rfl⟩

end Sys2Proof.Machine
end

