-- ==== Sys2Proof/Laws/State.lean ====
section
/-! SUPPORT. The small lemmas of the state's updates: what each leaves in each field, true by definition. -/

namespace Sys2Proof.Machine.State

variable (s : State)

/-! ## forgetSpace and forgetSpaces -/

@[simp] theorem forgetSpace_cmd (p : Space) : (s.forgetSpace p).cmd = s.cmd := by cases p <;> rfl
@[simp] theorem forgetSpace_busy (p : Space) : (s.forgetSpace p).busy = s.busy := by cases p <;> rfl
@[simp] theorem forgetSpace_done (p : Space) : (s.forgetSpace p).done = s.done := by cases p <;> rfl
@[simp] theorem forgetSpace_haz (p : Space) : (s.forgetSpace p).haz = s.haz := by cases p <;> rfl
@[simp] theorem forgetSpace_ut (p : Space) : (s.forgetSpace p).ut = s.ut := by cases p <;> rfl
@[simp] theorem forgetSpace_pstate (p : Space) : (s.forgetSpace p).pstate = s.pstate := by cases p <;> rfl
@[simp] theorem forgetSpace_fault (p : Space) : (s.forgetSpace p).fault = s.fault := by cases p <;> rfl
@[simp] theorem forgetSpace_ilen (p : Space) : (s.forgetSpace p).ilen = s.ilen := by cases p <;> rfl
@[simp] theorem forgetSpace_olen (p : Space) : (s.forgetSpace p).olen = s.olen := by cases p <;> rfl
@[simp] theorem forgetSpace_ncells (p : Space) : (s.forgetSpace p).ncells = s.ncells := by cases p <;> rfl
@[simp] theorem forgetSpace_ppcell (p : Space) : (s.forgetSpace p).ppcell = s.ppcell := by cases p <;> rfl
@[simp] theorem forgetSpace_syncidx (p : Space) : (s.forgetSpace p).syncidx = s.syncidx := by cases p <;> rfl
@[simp] theorem forgetSpace_freq (p : Space) : (s.forgetSpace p).freq = s.freq := by cases p <;> rfl
@[simp] theorem forgetSpace_refvol (p : Space) : (s.forgetSpace p).refvol = s.refvol := by cases p <;> rfl
@[simp] theorem forgetSpace_maxvol (p : Space) : (s.forgetSpace p).maxvol = s.maxvol := by cases p <;> rfl
@[simp] theorem forgetSpace_minvol (p : Space) : (s.forgetSpace p).minvol = s.minvol := by cases p <;> rfl
@[simp] theorem forgetSpace_dur (p : Space) : (s.forgetSpace p).dur = s.dur := by cases p <;> rfl
@[simp] theorem forgetSpace_tonevol (p : Space) : (s.forgetSpace p).tonevol = s.tonevol := by cases p <;> rfl
@[simp] theorem forgetSpace_ecnt (p : Space) : (s.forgetSpace p).ecnt = s.ecnt := by cases p <;> rfl
@[simp] theorem forgetSpace_fcnt (p : Space) : (s.forgetSpace p).fcnt = s.fcnt := by cases p <;> rfl
@[simp] theorem forgetSpace_synccnt (p : Space) : (s.forgetSpace p).synccnt = s.synccnt := by cases p <;> rfl
@[simp] theorem forgetSpace_fstart (p : Space) : (s.forgetSpace p).fstart = s.fstart := by cases p <;> rfl
@[simp] theorem forgetSpace_fend (p : Space) : (s.forgetSpace p).fend = s.fend := by cases p <;> rfl
@[simp] theorem forgetSpace_clipcnt (p : Space) : (s.forgetSpace p).clipcnt = s.clipcnt := by cases p <;> rfl
@[simp] theorem forgetSpace_slope (p : Space) : (s.forgetSpace p).slope = s.slope := by cases p <;> rfl
@[simp] theorem forgetSpace_intercept (p : Space) : (s.forgetSpace p).intercept = s.intercept := by cases p <;> rfl
@[simp] theorem forgetSpace_xmed (p : Space) : (s.forgetSpace p).xmed = s.xmed := by cases p <;> rfl
@[simp] theorem forgetSpace_cancamp (p : Space) : (s.forgetSpace p).cancamp = s.cancamp := by cases p <;> rfl
@[simp] theorem forgetSpace_resistance (p : Space) : (s.forgetSpace p).resistance = s.resistance := by cases p <;> rfl
@[simp] theorem forgetSpace_temperature (p : Space) : (s.forgetSpace p).temperature = s.temperature := by cases p <;> rfl
@[simp] theorem forgetSpace_nframes (p : Space) : (s.forgetSpace p).nframes = s.nframes := by cases p <;> rfl
@[simp] theorem forgetSpace_error (p : Space) : (s.forgetSpace p).error = s.error := by cases p <;> rfl
@[simp] theorem forgetSpace_silence (p : Space) : (s.forgetSpace p).silence = s.silence := by cases p <;> rfl
@[simp] theorem forgetSpace_tonelvl (p : Space) : (s.forgetSpace p).tonelvl = s.tonelvl := by cases p <;> rfl
@[simp] theorem forgetSpace_leftamp (p : Space) : (s.forgetSpace p).leftamp = s.leftamp := by cases p <;> rfl
@[simp] theorem forgetSpace_rightamp (p : Space) : (s.forgetSpace p).rightamp = s.rightamp := by cases p <;> rfl
@[simp] theorem forgetSpace_trimstart (p : Space) : (s.forgetSpace p).trimstart = s.trimstart := by cases p <;> rfl
@[simp] theorem forgetSpace_trimend (p : Space) : (s.forgetSpace p).trimend = s.trimend := by cases p <;> rfl
@[simp] theorem forgetSpace_xi (p : Space) : (s.forgetSpace p).xi = s.xi := by cases p <;> rfl
@[simp] theorem forgetSpace_rdata (p : Space) : (s.forgetSpace p).rdata = s.rdata := by cases p <;> rfl
@[simp] theorem forgetSpace_agenda (p : Space) : (s.forgetSpace p).agenda = s.agenda := by cases p <;> rfl
@[simp] theorem forgetSpace_draws (p : Space) : (s.forgetSpace p).draws = s.draws := by cases p <;> rfl

/-- A field that no single forgetting changes is changed by none of several. -/
theorem foldl_forgetSpace_field {α : Type} (g : State → α) (h : ∀ (s : State) (p : Space), g (s.forgetSpace p) = g s) :
    ∀ (l : List Space) (s : State), g (l.foldl State.forgetSpace s) = g s
  | [], _ => rfl
  | p :: l, s => (foldl_forgetSpace_field g h l (s.forgetSpace p)).trans (h s p)

@[simp] theorem forgetSpaces_cmd (l : List Space) : (s.forgetSpaces l).cmd = s.cmd :=
  foldl_forgetSpace_field (·.cmd) (fun s p => s.forgetSpace_cmd p) l s
@[simp] theorem forgetSpaces_busy (l : List Space) : (s.forgetSpaces l).busy = s.busy :=
  foldl_forgetSpace_field (·.busy) (fun s p => s.forgetSpace_busy p) l s
@[simp] theorem forgetSpaces_done (l : List Space) : (s.forgetSpaces l).done = s.done :=
  foldl_forgetSpace_field (·.done) (fun s p => s.forgetSpace_done p) l s
@[simp] theorem forgetSpaces_haz (l : List Space) : (s.forgetSpaces l).haz = s.haz :=
  foldl_forgetSpace_field (·.haz) (fun s p => s.forgetSpace_haz p) l s
@[simp] theorem forgetSpaces_ut (l : List Space) : (s.forgetSpaces l).ut = s.ut :=
  foldl_forgetSpace_field (·.ut) (fun s p => s.forgetSpace_ut p) l s
@[simp] theorem forgetSpaces_pstate (l : List Space) : (s.forgetSpaces l).pstate = s.pstate :=
  foldl_forgetSpace_field (·.pstate) (fun s p => s.forgetSpace_pstate p) l s
@[simp] theorem forgetSpaces_fault (l : List Space) : (s.forgetSpaces l).fault = s.fault :=
  foldl_forgetSpace_field (·.fault) (fun s p => s.forgetSpace_fault p) l s
@[simp] theorem forgetSpaces_ilen (l : List Space) : (s.forgetSpaces l).ilen = s.ilen :=
  foldl_forgetSpace_field (·.ilen) (fun s p => s.forgetSpace_ilen p) l s
@[simp] theorem forgetSpaces_olen (l : List Space) : (s.forgetSpaces l).olen = s.olen :=
  foldl_forgetSpace_field (·.olen) (fun s p => s.forgetSpace_olen p) l s
@[simp] theorem forgetSpaces_ncells (l : List Space) : (s.forgetSpaces l).ncells = s.ncells :=
  foldl_forgetSpace_field (·.ncells) (fun s p => s.forgetSpace_ncells p) l s
@[simp] theorem forgetSpaces_ppcell (l : List Space) : (s.forgetSpaces l).ppcell = s.ppcell :=
  foldl_forgetSpace_field (·.ppcell) (fun s p => s.forgetSpace_ppcell p) l s
@[simp] theorem forgetSpaces_syncidx (l : List Space) : (s.forgetSpaces l).syncidx = s.syncidx :=
  foldl_forgetSpace_field (·.syncidx) (fun s p => s.forgetSpace_syncidx p) l s
@[simp] theorem forgetSpaces_freq (l : List Space) : (s.forgetSpaces l).freq = s.freq :=
  foldl_forgetSpace_field (·.freq) (fun s p => s.forgetSpace_freq p) l s
@[simp] theorem forgetSpaces_refvol (l : List Space) : (s.forgetSpaces l).refvol = s.refvol :=
  foldl_forgetSpace_field (·.refvol) (fun s p => s.forgetSpace_refvol p) l s
@[simp] theorem forgetSpaces_maxvol (l : List Space) : (s.forgetSpaces l).maxvol = s.maxvol :=
  foldl_forgetSpace_field (·.maxvol) (fun s p => s.forgetSpace_maxvol p) l s
@[simp] theorem forgetSpaces_minvol (l : List Space) : (s.forgetSpaces l).minvol = s.minvol :=
  foldl_forgetSpace_field (·.minvol) (fun s p => s.forgetSpace_minvol p) l s
@[simp] theorem forgetSpaces_dur (l : List Space) : (s.forgetSpaces l).dur = s.dur :=
  foldl_forgetSpace_field (·.dur) (fun s p => s.forgetSpace_dur p) l s
@[simp] theorem forgetSpaces_tonevol (l : List Space) : (s.forgetSpaces l).tonevol = s.tonevol :=
  foldl_forgetSpace_field (·.tonevol) (fun s p => s.forgetSpace_tonevol p) l s
@[simp] theorem forgetSpaces_ecnt (l : List Space) : (s.forgetSpaces l).ecnt = s.ecnt :=
  foldl_forgetSpace_field (·.ecnt) (fun s p => s.forgetSpace_ecnt p) l s
@[simp] theorem forgetSpaces_fcnt (l : List Space) : (s.forgetSpaces l).fcnt = s.fcnt :=
  foldl_forgetSpace_field (·.fcnt) (fun s p => s.forgetSpace_fcnt p) l s
@[simp] theorem forgetSpaces_synccnt (l : List Space) : (s.forgetSpaces l).synccnt = s.synccnt :=
  foldl_forgetSpace_field (·.synccnt) (fun s p => s.forgetSpace_synccnt p) l s
@[simp] theorem forgetSpaces_fstart (l : List Space) : (s.forgetSpaces l).fstart = s.fstart :=
  foldl_forgetSpace_field (·.fstart) (fun s p => s.forgetSpace_fstart p) l s
@[simp] theorem forgetSpaces_fend (l : List Space) : (s.forgetSpaces l).fend = s.fend :=
  foldl_forgetSpace_field (·.fend) (fun s p => s.forgetSpace_fend p) l s
@[simp] theorem forgetSpaces_clipcnt (l : List Space) : (s.forgetSpaces l).clipcnt = s.clipcnt :=
  foldl_forgetSpace_field (·.clipcnt) (fun s p => s.forgetSpace_clipcnt p) l s
@[simp] theorem forgetSpaces_slope (l : List Space) : (s.forgetSpaces l).slope = s.slope :=
  foldl_forgetSpace_field (·.slope) (fun s p => s.forgetSpace_slope p) l s
@[simp] theorem forgetSpaces_intercept (l : List Space) : (s.forgetSpaces l).intercept = s.intercept :=
  foldl_forgetSpace_field (·.intercept) (fun s p => s.forgetSpace_intercept p) l s
@[simp] theorem forgetSpaces_xmed (l : List Space) : (s.forgetSpaces l).xmed = s.xmed :=
  foldl_forgetSpace_field (·.xmed) (fun s p => s.forgetSpace_xmed p) l s
@[simp] theorem forgetSpaces_cancamp (l : List Space) : (s.forgetSpaces l).cancamp = s.cancamp :=
  foldl_forgetSpace_field (·.cancamp) (fun s p => s.forgetSpace_cancamp p) l s
@[simp] theorem forgetSpaces_resistance (l : List Space) : (s.forgetSpaces l).resistance = s.resistance :=
  foldl_forgetSpace_field (·.resistance) (fun s p => s.forgetSpace_resistance p) l s
@[simp] theorem forgetSpaces_temperature (l : List Space) : (s.forgetSpaces l).temperature = s.temperature :=
  foldl_forgetSpace_field (·.temperature) (fun s p => s.forgetSpace_temperature p) l s
@[simp] theorem forgetSpaces_nframes (l : List Space) : (s.forgetSpaces l).nframes = s.nframes :=
  foldl_forgetSpace_field (·.nframes) (fun s p => s.forgetSpace_nframes p) l s
@[simp] theorem forgetSpaces_error (l : List Space) : (s.forgetSpaces l).error = s.error :=
  foldl_forgetSpace_field (·.error) (fun s p => s.forgetSpace_error p) l s
@[simp] theorem forgetSpaces_silence (l : List Space) : (s.forgetSpaces l).silence = s.silence :=
  foldl_forgetSpace_field (·.silence) (fun s p => s.forgetSpace_silence p) l s
@[simp] theorem forgetSpaces_tonelvl (l : List Space) : (s.forgetSpaces l).tonelvl = s.tonelvl :=
  foldl_forgetSpace_field (·.tonelvl) (fun s p => s.forgetSpace_tonelvl p) l s
@[simp] theorem forgetSpaces_leftamp (l : List Space) : (s.forgetSpaces l).leftamp = s.leftamp :=
  foldl_forgetSpace_field (·.leftamp) (fun s p => s.forgetSpace_leftamp p) l s
@[simp] theorem forgetSpaces_rightamp (l : List Space) : (s.forgetSpaces l).rightamp = s.rightamp :=
  foldl_forgetSpace_field (·.rightamp) (fun s p => s.forgetSpace_rightamp p) l s
@[simp] theorem forgetSpaces_trimstart (l : List Space) : (s.forgetSpaces l).trimstart = s.trimstart :=
  foldl_forgetSpace_field (·.trimstart) (fun s p => s.forgetSpace_trimstart p) l s
@[simp] theorem forgetSpaces_trimend (l : List Space) : (s.forgetSpaces l).trimend = s.trimend :=
  foldl_forgetSpace_field (·.trimend) (fun s p => s.forgetSpace_trimend p) l s
@[simp] theorem forgetSpaces_xi (l : List Space) : (s.forgetSpaces l).xi = s.xi :=
  foldl_forgetSpace_field (·.xi) (fun s p => s.forgetSpace_xi p) l s
@[simp] theorem forgetSpaces_rdata (l : List Space) : (s.forgetSpaces l).rdata = s.rdata :=
  foldl_forgetSpace_field (·.rdata) (fun s p => s.forgetSpace_rdata p) l s
@[simp] theorem forgetSpaces_agenda (l : List Space) : (s.forgetSpaces l).agenda = s.agenda :=
  foldl_forgetSpace_field (·.agenda) (fun s p => s.forgetSpace_agenda p) l s
@[simp] theorem forgetSpaces_draws (l : List Space) : (s.forgetSpaces l).draws = s.draws + 1 := rfl

/-! ## complete -/

@[simp] theorem complete_cmd : (s.complete).cmd = s.cmd := rfl
@[simp] theorem complete_busy : (s.complete).busy = false := rfl
@[simp] theorem complete_done : (s.complete).done = true := rfl
@[simp] theorem complete_haz : (s.complete).haz = s.haz := rfl
@[simp] theorem complete_ut : (s.complete).ut = s.ut := rfl
@[simp] theorem complete_pstate : (s.complete).pstate = s.pstate := rfl
@[simp] theorem complete_fault : (s.complete).fault = s.fault := rfl
@[simp] theorem complete_ilen : (s.complete).ilen = s.ilen := rfl
@[simp] theorem complete_olen : (s.complete).olen = s.olen := rfl
@[simp] theorem complete_ncells : (s.complete).ncells = s.ncells := rfl
@[simp] theorem complete_ppcell : (s.complete).ppcell = s.ppcell := rfl
@[simp] theorem complete_syncidx : (s.complete).syncidx = s.syncidx := rfl
@[simp] theorem complete_freq : (s.complete).freq = s.freq := rfl
@[simp] theorem complete_refvol : (s.complete).refvol = s.refvol := rfl
@[simp] theorem complete_maxvol : (s.complete).maxvol = s.maxvol := rfl
@[simp] theorem complete_minvol : (s.complete).minvol = s.minvol := rfl
@[simp] theorem complete_dur : (s.complete).dur = s.dur := rfl
@[simp] theorem complete_tonevol : (s.complete).tonevol = s.tonevol := rfl
@[simp] theorem complete_ecnt : (s.complete).ecnt = s.ecnt := rfl
@[simp] theorem complete_fcnt : (s.complete).fcnt = s.fcnt := rfl
@[simp] theorem complete_synccnt : (s.complete).synccnt = s.synccnt := rfl
@[simp] theorem complete_fstart : (s.complete).fstart = s.fstart := rfl
@[simp] theorem complete_fend : (s.complete).fend = s.fend := rfl
@[simp] theorem complete_clipcnt : (s.complete).clipcnt = s.clipcnt := rfl
@[simp] theorem complete_slope : (s.complete).slope = s.slope := rfl
@[simp] theorem complete_intercept : (s.complete).intercept = s.intercept := rfl
@[simp] theorem complete_xmed : (s.complete).xmed = s.xmed := rfl
@[simp] theorem complete_cancamp : (s.complete).cancamp = s.cancamp := rfl
@[simp] theorem complete_resistance : (s.complete).resistance = s.resistance := rfl
@[simp] theorem complete_temperature : (s.complete).temperature = s.temperature := rfl
@[simp] theorem complete_nframes : (s.complete).nframes = s.nframes := rfl
@[simp] theorem complete_error : (s.complete).error = s.error := rfl
@[simp] theorem complete_silence : (s.complete).silence = s.silence := rfl
@[simp] theorem complete_tonelvl : (s.complete).tonelvl = s.tonelvl := rfl
@[simp] theorem complete_leftamp : (s.complete).leftamp = s.leftamp := rfl
@[simp] theorem complete_rightamp : (s.complete).rightamp = s.rightamp := rfl
@[simp] theorem complete_trimstart : (s.complete).trimstart = s.trimstart := rfl
@[simp] theorem complete_trimend : (s.complete).trimend = s.trimend := rfl
@[simp] theorem complete_mem : (s.complete).mem = s.mem := rfl
@[simp] theorem complete_xi : (s.complete).xi = s.xi := rfl
@[simp] theorem complete_ibufEpoch : (s.complete).ibufEpoch = s.ibufEpoch := rfl
@[simp] theorem complete_obufEpoch : (s.complete).obufEpoch = s.obufEpoch := rfl
@[simp] theorem complete_evtEpoch : (s.complete).evtEpoch = s.evtEpoch := rfl
@[simp] theorem complete_frmEpoch : (s.complete).frmEpoch = s.frmEpoch := rfl
@[simp] theorem complete_draws : (s.complete).draws = s.draws := rfl
@[simp] theorem complete_rdata : (s.complete).rdata = s.rdata := rfl
@[simp] theorem complete_agenda : (s.complete).agenda = s.agenda := rfl

/-! ## reportTemperature -/

@[simp] theorem reportTemperature_cmd (t : XR) : (s.reportTemperature t).cmd = s.cmd := rfl
@[simp] theorem reportTemperature_busy (t : XR) : (s.reportTemperature t).busy = s.busy := rfl
@[simp] theorem reportTemperature_done (t : XR) : (s.reportTemperature t).done = s.done := rfl
@[simp] theorem reportTemperature_haz (t : XR) : (s.reportTemperature t).haz = s.haz := rfl
@[simp] theorem reportTemperature_ut (t : XR) : (s.reportTemperature t).ut = decide (t = .nan) := rfl
@[simp] theorem reportTemperature_pstate (t : XR) : (s.reportTemperature t).pstate = s.pstate := rfl
@[simp] theorem reportTemperature_fault (t : XR) : (s.reportTemperature t).fault = s.fault := rfl
@[simp] theorem reportTemperature_ilen (t : XR) : (s.reportTemperature t).ilen = s.ilen := rfl
@[simp] theorem reportTemperature_olen (t : XR) : (s.reportTemperature t).olen = s.olen := rfl
@[simp] theorem reportTemperature_ncells (t : XR) : (s.reportTemperature t).ncells = s.ncells := rfl
@[simp] theorem reportTemperature_ppcell (t : XR) : (s.reportTemperature t).ppcell = s.ppcell := rfl
@[simp] theorem reportTemperature_syncidx (t : XR) : (s.reportTemperature t).syncidx = s.syncidx := rfl
@[simp] theorem reportTemperature_freq (t : XR) : (s.reportTemperature t).freq = s.freq := rfl
@[simp] theorem reportTemperature_refvol (t : XR) : (s.reportTemperature t).refvol = s.refvol := rfl
@[simp] theorem reportTemperature_maxvol (t : XR) : (s.reportTemperature t).maxvol = s.maxvol := rfl
@[simp] theorem reportTemperature_minvol (t : XR) : (s.reportTemperature t).minvol = s.minvol := rfl
@[simp] theorem reportTemperature_dur (t : XR) : (s.reportTemperature t).dur = s.dur := rfl
@[simp] theorem reportTemperature_tonevol (t : XR) : (s.reportTemperature t).tonevol = s.tonevol := rfl
@[simp] theorem reportTemperature_ecnt (t : XR) : (s.reportTemperature t).ecnt = s.ecnt := rfl
@[simp] theorem reportTemperature_fcnt (t : XR) : (s.reportTemperature t).fcnt = s.fcnt := rfl
@[simp] theorem reportTemperature_synccnt (t : XR) : (s.reportTemperature t).synccnt = s.synccnt := rfl
@[simp] theorem reportTemperature_fstart (t : XR) : (s.reportTemperature t).fstart = s.fstart := rfl
@[simp] theorem reportTemperature_fend (t : XR) : (s.reportTemperature t).fend = s.fend := rfl
@[simp] theorem reportTemperature_clipcnt (t : XR) : (s.reportTemperature t).clipcnt = s.clipcnt := rfl
@[simp] theorem reportTemperature_slope (t : XR) : (s.reportTemperature t).slope = s.slope := rfl
@[simp] theorem reportTemperature_intercept (t : XR) : (s.reportTemperature t).intercept = s.intercept := rfl
@[simp] theorem reportTemperature_xmed (t : XR) : (s.reportTemperature t).xmed = s.xmed := rfl
@[simp] theorem reportTemperature_cancamp (t : XR) : (s.reportTemperature t).cancamp = s.cancamp := rfl
@[simp] theorem reportTemperature_resistance (t : XR) : (s.reportTemperature t).resistance = s.resistance := rfl
@[simp] theorem reportTemperature_temperature (t : XR) : (s.reportTemperature t).temperature = t := rfl
@[simp] theorem reportTemperature_nframes (t : XR) : (s.reportTemperature t).nframes = s.nframes := rfl
@[simp] theorem reportTemperature_error (t : XR) : (s.reportTemperature t).error = s.error := rfl
@[simp] theorem reportTemperature_silence (t : XR) : (s.reportTemperature t).silence = s.silence := rfl
@[simp] theorem reportTemperature_tonelvl (t : XR) : (s.reportTemperature t).tonelvl = s.tonelvl := rfl
@[simp] theorem reportTemperature_leftamp (t : XR) : (s.reportTemperature t).leftamp = s.leftamp := rfl
@[simp] theorem reportTemperature_rightamp (t : XR) : (s.reportTemperature t).rightamp = s.rightamp := rfl
@[simp] theorem reportTemperature_trimstart (t : XR) : (s.reportTemperature t).trimstart = s.trimstart := rfl
@[simp] theorem reportTemperature_trimend (t : XR) : (s.reportTemperature t).trimend = s.trimend := rfl
@[simp] theorem reportTemperature_mem (t : XR) : (s.reportTemperature t).mem = s.mem := rfl
@[simp] theorem reportTemperature_xi (t : XR) : (s.reportTemperature t).xi = s.xi := rfl
@[simp] theorem reportTemperature_ibufEpoch (t : XR) : (s.reportTemperature t).ibufEpoch = s.ibufEpoch := rfl
@[simp] theorem reportTemperature_obufEpoch (t : XR) : (s.reportTemperature t).obufEpoch = s.obufEpoch := rfl
@[simp] theorem reportTemperature_evtEpoch (t : XR) : (s.reportTemperature t).evtEpoch = s.evtEpoch := rfl
@[simp] theorem reportTemperature_frmEpoch (t : XR) : (s.reportTemperature t).frmEpoch = s.frmEpoch := rfl
@[simp] theorem reportTemperature_draws (t : XR) : (s.reportTemperature t).draws = s.draws := rfl
@[simp] theorem reportTemperature_rdata (t : XR) : (s.reportTemperature t).rdata = s.rdata := rfl
@[simp] theorem reportTemperature_agenda (t : XR) : (s.reportTemperature t).agenda = s.agenda := rfl

/-! ## putBytes -/

@[simp] theorem putBytes_cmd (a : Nat) (bs : List Byte) : (s.putBytes a bs).cmd = s.cmd := rfl
@[simp] theorem putBytes_busy (a : Nat) (bs : List Byte) : (s.putBytes a bs).busy = s.busy := rfl
@[simp] theorem putBytes_done (a : Nat) (bs : List Byte) : (s.putBytes a bs).done = s.done := rfl
@[simp] theorem putBytes_haz (a : Nat) (bs : List Byte) : (s.putBytes a bs).haz = s.haz := rfl
@[simp] theorem putBytes_ut (a : Nat) (bs : List Byte) : (s.putBytes a bs).ut = s.ut := rfl
@[simp] theorem putBytes_pstate (a : Nat) (bs : List Byte) : (s.putBytes a bs).pstate = s.pstate := rfl
@[simp] theorem putBytes_fault (a : Nat) (bs : List Byte) : (s.putBytes a bs).fault = s.fault := rfl
@[simp] theorem putBytes_ilen (a : Nat) (bs : List Byte) : (s.putBytes a bs).ilen = s.ilen := rfl
@[simp] theorem putBytes_olen (a : Nat) (bs : List Byte) : (s.putBytes a bs).olen = s.olen := rfl
@[simp] theorem putBytes_ncells (a : Nat) (bs : List Byte) : (s.putBytes a bs).ncells = s.ncells := rfl
@[simp] theorem putBytes_ppcell (a : Nat) (bs : List Byte) : (s.putBytes a bs).ppcell = s.ppcell := rfl
@[simp] theorem putBytes_syncidx (a : Nat) (bs : List Byte) : (s.putBytes a bs).syncidx = s.syncidx := rfl
@[simp] theorem putBytes_freq (a : Nat) (bs : List Byte) : (s.putBytes a bs).freq = s.freq := rfl
@[simp] theorem putBytes_refvol (a : Nat) (bs : List Byte) : (s.putBytes a bs).refvol = s.refvol := rfl
@[simp] theorem putBytes_maxvol (a : Nat) (bs : List Byte) : (s.putBytes a bs).maxvol = s.maxvol := rfl
@[simp] theorem putBytes_minvol (a : Nat) (bs : List Byte) : (s.putBytes a bs).minvol = s.minvol := rfl
@[simp] theorem putBytes_dur (a : Nat) (bs : List Byte) : (s.putBytes a bs).dur = s.dur := rfl
@[simp] theorem putBytes_tonevol (a : Nat) (bs : List Byte) : (s.putBytes a bs).tonevol = s.tonevol := rfl
@[simp] theorem putBytes_ecnt (a : Nat) (bs : List Byte) : (s.putBytes a bs).ecnt = s.ecnt := rfl
@[simp] theorem putBytes_fcnt (a : Nat) (bs : List Byte) : (s.putBytes a bs).fcnt = s.fcnt := rfl
@[simp] theorem putBytes_synccnt (a : Nat) (bs : List Byte) : (s.putBytes a bs).synccnt = s.synccnt := rfl
@[simp] theorem putBytes_fstart (a : Nat) (bs : List Byte) : (s.putBytes a bs).fstart = s.fstart := rfl
@[simp] theorem putBytes_fend (a : Nat) (bs : List Byte) : (s.putBytes a bs).fend = s.fend := rfl
@[simp] theorem putBytes_clipcnt (a : Nat) (bs : List Byte) : (s.putBytes a bs).clipcnt = s.clipcnt := rfl
@[simp] theorem putBytes_slope (a : Nat) (bs : List Byte) : (s.putBytes a bs).slope = s.slope := rfl
@[simp] theorem putBytes_intercept (a : Nat) (bs : List Byte) : (s.putBytes a bs).intercept = s.intercept := rfl
@[simp] theorem putBytes_xmed (a : Nat) (bs : List Byte) : (s.putBytes a bs).xmed = s.xmed := rfl
@[simp] theorem putBytes_cancamp (a : Nat) (bs : List Byte) : (s.putBytes a bs).cancamp = s.cancamp := rfl
@[simp] theorem putBytes_resistance (a : Nat) (bs : List Byte) : (s.putBytes a bs).resistance = s.resistance := rfl
@[simp] theorem putBytes_temperature (a : Nat) (bs : List Byte) : (s.putBytes a bs).temperature = s.temperature := rfl
@[simp] theorem putBytes_nframes (a : Nat) (bs : List Byte) : (s.putBytes a bs).nframes = s.nframes := rfl
@[simp] theorem putBytes_error (a : Nat) (bs : List Byte) : (s.putBytes a bs).error = s.error := rfl
@[simp] theorem putBytes_silence (a : Nat) (bs : List Byte) : (s.putBytes a bs).silence = s.silence := rfl
@[simp] theorem putBytes_tonelvl (a : Nat) (bs : List Byte) : (s.putBytes a bs).tonelvl = s.tonelvl := rfl
@[simp] theorem putBytes_leftamp (a : Nat) (bs : List Byte) : (s.putBytes a bs).leftamp = s.leftamp := rfl
@[simp] theorem putBytes_rightamp (a : Nat) (bs : List Byte) : (s.putBytes a bs).rightamp = s.rightamp := rfl
@[simp] theorem putBytes_trimstart (a : Nat) (bs : List Byte) : (s.putBytes a bs).trimstart = s.trimstart := rfl
@[simp] theorem putBytes_trimend (a : Nat) (bs : List Byte) : (s.putBytes a bs).trimend = s.trimend := rfl
@[simp] theorem putBytes_mem (a : Nat) (bs : List Byte) : (s.putBytes a bs).mem = s.mem.put a bs := rfl
@[simp] theorem putBytes_xi (a : Nat) (bs : List Byte) : (s.putBytes a bs).xi = s.xi := rfl
@[simp] theorem putBytes_ibufEpoch (a : Nat) (bs : List Byte) : (s.putBytes a bs).ibufEpoch = s.ibufEpoch := rfl
@[simp] theorem putBytes_obufEpoch (a : Nat) (bs : List Byte) : (s.putBytes a bs).obufEpoch = s.obufEpoch := rfl
@[simp] theorem putBytes_evtEpoch (a : Nat) (bs : List Byte) : (s.putBytes a bs).evtEpoch = s.evtEpoch := rfl
@[simp] theorem putBytes_frmEpoch (a : Nat) (bs : List Byte) : (s.putBytes a bs).frmEpoch = s.frmEpoch := rfl
@[simp] theorem putBytes_draws (a : Nat) (bs : List Byte) : (s.putBytes a bs).draws = s.draws := rfl
@[simp] theorem putBytes_rdata (a : Nat) (bs : List Byte) : (s.putBytes a bs).rdata = s.rdata := rfl
@[simp] theorem putBytes_agenda (a : Nat) (bs : List Byte) : (s.putBytes a bs).agenda = s.agenda := rfl

/-! ## putSamples -/

@[simp] theorem putSamples_cmd (l : List Sample) : (s.putSamples l).cmd = s.cmd := rfl
@[simp] theorem putSamples_busy (l : List Sample) : (s.putSamples l).busy = s.busy := rfl
@[simp] theorem putSamples_done (l : List Sample) : (s.putSamples l).done = s.done := rfl
@[simp] theorem putSamples_haz (l : List Sample) : (s.putSamples l).haz = s.haz := rfl
@[simp] theorem putSamples_ut (l : List Sample) : (s.putSamples l).ut = s.ut := rfl
@[simp] theorem putSamples_pstate (l : List Sample) : (s.putSamples l).pstate = s.pstate := rfl
@[simp] theorem putSamples_fault (l : List Sample) : (s.putSamples l).fault = s.fault := rfl
@[simp] theorem putSamples_ilen (l : List Sample) : (s.putSamples l).ilen = s.ilen := rfl
@[simp] theorem putSamples_olen (l : List Sample) : (s.putSamples l).olen = s.olen := rfl
@[simp] theorem putSamples_ncells (l : List Sample) : (s.putSamples l).ncells = s.ncells := rfl
@[simp] theorem putSamples_ppcell (l : List Sample) : (s.putSamples l).ppcell = s.ppcell := rfl
@[simp] theorem putSamples_syncidx (l : List Sample) : (s.putSamples l).syncidx = s.syncidx := rfl
@[simp] theorem putSamples_freq (l : List Sample) : (s.putSamples l).freq = s.freq := rfl
@[simp] theorem putSamples_refvol (l : List Sample) : (s.putSamples l).refvol = s.refvol := rfl
@[simp] theorem putSamples_maxvol (l : List Sample) : (s.putSamples l).maxvol = s.maxvol := rfl
@[simp] theorem putSamples_minvol (l : List Sample) : (s.putSamples l).minvol = s.minvol := rfl
@[simp] theorem putSamples_dur (l : List Sample) : (s.putSamples l).dur = s.dur := rfl
@[simp] theorem putSamples_tonevol (l : List Sample) : (s.putSamples l).tonevol = s.tonevol := rfl
@[simp] theorem putSamples_ecnt (l : List Sample) : (s.putSamples l).ecnt = BitVec.ofNat 32 l.length := rfl
@[simp] theorem putSamples_fcnt (l : List Sample) : (s.putSamples l).fcnt = s.fcnt := rfl
@[simp] theorem putSamples_synccnt (l : List Sample) : (s.putSamples l).synccnt = s.synccnt := rfl
@[simp] theorem putSamples_fstart (l : List Sample) : (s.putSamples l).fstart = s.fstart := rfl
@[simp] theorem putSamples_fend (l : List Sample) : (s.putSamples l).fend = s.fend := rfl
@[simp] theorem putSamples_clipcnt (l : List Sample) : (s.putSamples l).clipcnt = s.clipcnt := rfl
@[simp] theorem putSamples_slope (l : List Sample) : (s.putSamples l).slope = s.slope := rfl
@[simp] theorem putSamples_intercept (l : List Sample) : (s.putSamples l).intercept = s.intercept := rfl
@[simp] theorem putSamples_xmed (l : List Sample) : (s.putSamples l).xmed = s.xmed := rfl
@[simp] theorem putSamples_cancamp (l : List Sample) : (s.putSamples l).cancamp = s.cancamp := rfl
@[simp] theorem putSamples_resistance (l : List Sample) : (s.putSamples l).resistance = s.resistance := rfl
@[simp] theorem putSamples_temperature (l : List Sample) : (s.putSamples l).temperature = s.temperature := rfl
@[simp] theorem putSamples_nframes (l : List Sample) : (s.putSamples l).nframes = s.nframes := rfl
@[simp] theorem putSamples_error (l : List Sample) : (s.putSamples l).error = s.error := rfl
@[simp] theorem putSamples_silence (l : List Sample) : (s.putSamples l).silence = s.silence := rfl
@[simp] theorem putSamples_tonelvl (l : List Sample) : (s.putSamples l).tonelvl = s.tonelvl := rfl
@[simp] theorem putSamples_leftamp (l : List Sample) : (s.putSamples l).leftamp = s.leftamp := rfl
@[simp] theorem putSamples_rightamp (l : List Sample) : (s.putSamples l).rightamp = s.rightamp := rfl
@[simp] theorem putSamples_trimstart (l : List Sample) : (s.putSamples l).trimstart = s.trimstart := rfl
@[simp] theorem putSamples_trimend (l : List Sample) : (s.putSamples l).trimend = s.trimend := rfl
@[simp] theorem putSamples_mem (l : List Sample) : (s.putSamples l).mem = s.mem.put Config.evtBase (l.flatMap Sample.bytes) := rfl
@[simp] theorem putSamples_xi (l : List Sample) : (s.putSamples l).xi = s.xi := rfl
@[simp] theorem putSamples_ibufEpoch (l : List Sample) : (s.putSamples l).ibufEpoch = s.ibufEpoch := rfl
@[simp] theorem putSamples_obufEpoch (l : List Sample) : (s.putSamples l).obufEpoch = s.obufEpoch := rfl
@[simp] theorem putSamples_evtEpoch (l : List Sample) : (s.putSamples l).evtEpoch = s.evtEpoch := rfl
@[simp] theorem putSamples_frmEpoch (l : List Sample) : (s.putSamples l).frmEpoch = s.frmEpoch := rfl
@[simp] theorem putSamples_draws (l : List Sample) : (s.putSamples l).draws = s.draws := rfl
@[simp] theorem putSamples_rdata (l : List Sample) : (s.putSamples l).rdata = s.rdata := rfl
@[simp] theorem putSamples_agenda (l : List Sample) : (s.putSamples l).agenda = s.agenda := rfl

/-! ## putFrames -/

@[simp] theorem putFrames_cmd (l : List (List CalCell)) : (s.putFrames l).cmd = s.cmd := rfl
@[simp] theorem putFrames_busy (l : List (List CalCell)) : (s.putFrames l).busy = s.busy := rfl
@[simp] theorem putFrames_done (l : List (List CalCell)) : (s.putFrames l).done = s.done := rfl
@[simp] theorem putFrames_haz (l : List (List CalCell)) : (s.putFrames l).haz = s.haz := rfl
@[simp] theorem putFrames_ut (l : List (List CalCell)) : (s.putFrames l).ut = s.ut := rfl
@[simp] theorem putFrames_pstate (l : List (List CalCell)) : (s.putFrames l).pstate = s.pstate := rfl
@[simp] theorem putFrames_fault (l : List (List CalCell)) : (s.putFrames l).fault = s.fault := rfl
@[simp] theorem putFrames_ilen (l : List (List CalCell)) : (s.putFrames l).ilen = s.ilen := rfl
@[simp] theorem putFrames_olen (l : List (List CalCell)) : (s.putFrames l).olen = s.olen := rfl
@[simp] theorem putFrames_ncells (l : List (List CalCell)) : (s.putFrames l).ncells = s.ncells := rfl
@[simp] theorem putFrames_ppcell (l : List (List CalCell)) : (s.putFrames l).ppcell = s.ppcell := rfl
@[simp] theorem putFrames_syncidx (l : List (List CalCell)) : (s.putFrames l).syncidx = s.syncidx := rfl
@[simp] theorem putFrames_freq (l : List (List CalCell)) : (s.putFrames l).freq = s.freq := rfl
@[simp] theorem putFrames_refvol (l : List (List CalCell)) : (s.putFrames l).refvol = s.refvol := rfl
@[simp] theorem putFrames_maxvol (l : List (List CalCell)) : (s.putFrames l).maxvol = s.maxvol := rfl
@[simp] theorem putFrames_minvol (l : List (List CalCell)) : (s.putFrames l).minvol = s.minvol := rfl
@[simp] theorem putFrames_dur (l : List (List CalCell)) : (s.putFrames l).dur = s.dur := rfl
@[simp] theorem putFrames_tonevol (l : List (List CalCell)) : (s.putFrames l).tonevol = s.tonevol := rfl
@[simp] theorem putFrames_ecnt (l : List (List CalCell)) : (s.putFrames l).ecnt = s.ecnt := rfl
@[simp] theorem putFrames_fcnt (l : List (List CalCell)) : (s.putFrames l).fcnt = BitVec.ofNat 32 l.length := rfl
@[simp] theorem putFrames_synccnt (l : List (List CalCell)) : (s.putFrames l).synccnt = s.synccnt := rfl
@[simp] theorem putFrames_fstart (l : List (List CalCell)) : (s.putFrames l).fstart = s.fstart := rfl
@[simp] theorem putFrames_fend (l : List (List CalCell)) : (s.putFrames l).fend = s.fend := rfl
@[simp] theorem putFrames_clipcnt (l : List (List CalCell)) : (s.putFrames l).clipcnt = s.clipcnt := rfl
@[simp] theorem putFrames_slope (l : List (List CalCell)) : (s.putFrames l).slope = s.slope := rfl
@[simp] theorem putFrames_intercept (l : List (List CalCell)) : (s.putFrames l).intercept = s.intercept := rfl
@[simp] theorem putFrames_xmed (l : List (List CalCell)) : (s.putFrames l).xmed = s.xmed := rfl
@[simp] theorem putFrames_cancamp (l : List (List CalCell)) : (s.putFrames l).cancamp = s.cancamp := rfl
@[simp] theorem putFrames_resistance (l : List (List CalCell)) : (s.putFrames l).resistance = s.resistance := rfl
@[simp] theorem putFrames_temperature (l : List (List CalCell)) : (s.putFrames l).temperature = s.temperature := rfl
@[simp] theorem putFrames_nframes (l : List (List CalCell)) : (s.putFrames l).nframes = s.nframes := rfl
@[simp] theorem putFrames_error (l : List (List CalCell)) : (s.putFrames l).error = s.error := rfl
@[simp] theorem putFrames_silence (l : List (List CalCell)) : (s.putFrames l).silence = s.silence := rfl
@[simp] theorem putFrames_tonelvl (l : List (List CalCell)) : (s.putFrames l).tonelvl = s.tonelvl := rfl
@[simp] theorem putFrames_leftamp (l : List (List CalCell)) : (s.putFrames l).leftamp = s.leftamp := rfl
@[simp] theorem putFrames_rightamp (l : List (List CalCell)) : (s.putFrames l).rightamp = s.rightamp := rfl
@[simp] theorem putFrames_trimstart (l : List (List CalCell)) : (s.putFrames l).trimstart = s.trimstart := rfl
@[simp] theorem putFrames_trimend (l : List (List CalCell)) : (s.putFrames l).trimend = s.trimend := rfl
@[simp] theorem putFrames_mem (l : List (List CalCell)) : (s.putFrames l).mem = s.mem.put Config.frmBase (l.flatMap (·.flatMap CalCell.bytes)) := rfl
@[simp] theorem putFrames_xi (l : List (List CalCell)) : (s.putFrames l).xi = s.xi := rfl
@[simp] theorem putFrames_ibufEpoch (l : List (List CalCell)) : (s.putFrames l).ibufEpoch = s.ibufEpoch := rfl
@[simp] theorem putFrames_obufEpoch (l : List (List CalCell)) : (s.putFrames l).obufEpoch = s.obufEpoch := rfl
@[simp] theorem putFrames_evtEpoch (l : List (List CalCell)) : (s.putFrames l).evtEpoch = s.evtEpoch := rfl
@[simp] theorem putFrames_frmEpoch (l : List (List CalCell)) : (s.putFrames l).frmEpoch = s.frmEpoch := rfl
@[simp] theorem putFrames_draws (l : List (List CalCell)) : (s.putFrames l).draws = s.draws := rfl
@[simp] theorem putFrames_rdata (l : List (List CalCell)) : (s.putFrames l).rdata = s.rdata := rfl
@[simp] theorem putFrames_agenda (l : List (List CalCell)) : (s.putFrames l).agenda = s.agenda := rfl

/-! ## putOutput -/

@[simp] theorem putOutput_cmd (l : List Int) : (s.putOutput l).cmd = s.cmd := rfl
@[simp] theorem putOutput_busy (l : List Int) : (s.putOutput l).busy = s.busy := rfl
@[simp] theorem putOutput_done (l : List Int) : (s.putOutput l).done = s.done := rfl
@[simp] theorem putOutput_haz (l : List Int) : (s.putOutput l).haz = s.haz := rfl
@[simp] theorem putOutput_ut (l : List Int) : (s.putOutput l).ut = s.ut := rfl
@[simp] theorem putOutput_pstate (l : List Int) : (s.putOutput l).pstate = s.pstate := rfl
@[simp] theorem putOutput_fault (l : List Int) : (s.putOutput l).fault = s.fault := rfl
@[simp] theorem putOutput_ilen (l : List Int) : (s.putOutput l).ilen = s.ilen := rfl
@[simp] theorem putOutput_olen (l : List Int) : (s.putOutput l).olen = BitVec.ofNat 32 l.length := rfl
@[simp] theorem putOutput_ncells (l : List Int) : (s.putOutput l).ncells = s.ncells := rfl
@[simp] theorem putOutput_ppcell (l : List Int) : (s.putOutput l).ppcell = s.ppcell := rfl
@[simp] theorem putOutput_syncidx (l : List Int) : (s.putOutput l).syncidx = s.syncidx := rfl
@[simp] theorem putOutput_freq (l : List Int) : (s.putOutput l).freq = s.freq := rfl
@[simp] theorem putOutput_refvol (l : List Int) : (s.putOutput l).refvol = s.refvol := rfl
@[simp] theorem putOutput_maxvol (l : List Int) : (s.putOutput l).maxvol = s.maxvol := rfl
@[simp] theorem putOutput_minvol (l : List Int) : (s.putOutput l).minvol = s.minvol := rfl
@[simp] theorem putOutput_dur (l : List Int) : (s.putOutput l).dur = s.dur := rfl
@[simp] theorem putOutput_tonevol (l : List Int) : (s.putOutput l).tonevol = s.tonevol := rfl
@[simp] theorem putOutput_ecnt (l : List Int) : (s.putOutput l).ecnt = s.ecnt := rfl
@[simp] theorem putOutput_fcnt (l : List Int) : (s.putOutput l).fcnt = s.fcnt := rfl
@[simp] theorem putOutput_synccnt (l : List Int) : (s.putOutput l).synccnt = s.synccnt := rfl
@[simp] theorem putOutput_fstart (l : List Int) : (s.putOutput l).fstart = s.fstart := rfl
@[simp] theorem putOutput_fend (l : List Int) : (s.putOutput l).fend = s.fend := rfl
@[simp] theorem putOutput_clipcnt (l : List Int) : (s.putOutput l).clipcnt = s.clipcnt := rfl
@[simp] theorem putOutput_slope (l : List Int) : (s.putOutput l).slope = s.slope := rfl
@[simp] theorem putOutput_intercept (l : List Int) : (s.putOutput l).intercept = s.intercept := rfl
@[simp] theorem putOutput_xmed (l : List Int) : (s.putOutput l).xmed = s.xmed := rfl
@[simp] theorem putOutput_cancamp (l : List Int) : (s.putOutput l).cancamp = s.cancamp := rfl
@[simp] theorem putOutput_resistance (l : List Int) : (s.putOutput l).resistance = s.resistance := rfl
@[simp] theorem putOutput_temperature (l : List Int) : (s.putOutput l).temperature = s.temperature := rfl
@[simp] theorem putOutput_nframes (l : List Int) : (s.putOutput l).nframes = s.nframes := rfl
@[simp] theorem putOutput_error (l : List Int) : (s.putOutput l).error = s.error := rfl
@[simp] theorem putOutput_silence (l : List Int) : (s.putOutput l).silence = s.silence := rfl
@[simp] theorem putOutput_tonelvl (l : List Int) : (s.putOutput l).tonelvl = s.tonelvl := rfl
@[simp] theorem putOutput_leftamp (l : List Int) : (s.putOutput l).leftamp = s.leftamp := rfl
@[simp] theorem putOutput_rightamp (l : List Int) : (s.putOutput l).rightamp = s.rightamp := rfl
@[simp] theorem putOutput_trimstart (l : List Int) : (s.putOutput l).trimstart = s.trimstart := rfl
@[simp] theorem putOutput_trimend (l : List Int) : (s.putOutput l).trimend = s.trimend := rfl
@[simp] theorem putOutput_mem (l : List Int) : (s.putOutput l).mem = s.mem.put Config.obufBase (l.flatMap (fun v => bytesOfHalf (BitVec.ofInt 16 v))) := rfl
@[simp] theorem putOutput_xi (l : List Int) : (s.putOutput l).xi = s.xi := rfl
@[simp] theorem putOutput_ibufEpoch (l : List Int) : (s.putOutput l).ibufEpoch = s.ibufEpoch := rfl
@[simp] theorem putOutput_obufEpoch (l : List Int) : (s.putOutput l).obufEpoch = s.obufEpoch := rfl
@[simp] theorem putOutput_evtEpoch (l : List Int) : (s.putOutput l).evtEpoch = s.evtEpoch := rfl
@[simp] theorem putOutput_frmEpoch (l : List Int) : (s.putOutput l).frmEpoch = s.frmEpoch := rfl
@[simp] theorem putOutput_draws (l : List Int) : (s.putOutput l).draws = s.draws := rfl
@[simp] theorem putOutput_rdata (l : List Int) : (s.putOutput l).rdata = s.rdata := rfl
@[simp] theorem putOutput_agenda (l : List Int) : (s.putOutput l).agenda = s.agenda := rfl

/-! ## putXi -/

@[simp] theorem putXi_cmd (f : Nat) (v : XR) : (s.putXi f v).cmd = s.cmd := rfl
@[simp] theorem putXi_busy (f : Nat) (v : XR) : (s.putXi f v).busy = s.busy := rfl
@[simp] theorem putXi_done (f : Nat) (v : XR) : (s.putXi f v).done = s.done := rfl
@[simp] theorem putXi_haz (f : Nat) (v : XR) : (s.putXi f v).haz = s.haz := rfl
@[simp] theorem putXi_ut (f : Nat) (v : XR) : (s.putXi f v).ut = s.ut := rfl
@[simp] theorem putXi_pstate (f : Nat) (v : XR) : (s.putXi f v).pstate = s.pstate := rfl
@[simp] theorem putXi_fault (f : Nat) (v : XR) : (s.putXi f v).fault = s.fault := rfl
@[simp] theorem putXi_ilen (f : Nat) (v : XR) : (s.putXi f v).ilen = s.ilen := rfl
@[simp] theorem putXi_olen (f : Nat) (v : XR) : (s.putXi f v).olen = s.olen := rfl
@[simp] theorem putXi_ncells (f : Nat) (v : XR) : (s.putXi f v).ncells = s.ncells := rfl
@[simp] theorem putXi_ppcell (f : Nat) (v : XR) : (s.putXi f v).ppcell = s.ppcell := rfl
@[simp] theorem putXi_syncidx (f : Nat) (v : XR) : (s.putXi f v).syncidx = s.syncidx := rfl
@[simp] theorem putXi_freq (f : Nat) (v : XR) : (s.putXi f v).freq = s.freq := rfl
@[simp] theorem putXi_refvol (f : Nat) (v : XR) : (s.putXi f v).refvol = s.refvol := rfl
@[simp] theorem putXi_maxvol (f : Nat) (v : XR) : (s.putXi f v).maxvol = s.maxvol := rfl
@[simp] theorem putXi_minvol (f : Nat) (v : XR) : (s.putXi f v).minvol = s.minvol := rfl
@[simp] theorem putXi_dur (f : Nat) (v : XR) : (s.putXi f v).dur = s.dur := rfl
@[simp] theorem putXi_tonevol (f : Nat) (v : XR) : (s.putXi f v).tonevol = s.tonevol := rfl
@[simp] theorem putXi_ecnt (f : Nat) (v : XR) : (s.putXi f v).ecnt = s.ecnt := rfl
@[simp] theorem putXi_fcnt (f : Nat) (v : XR) : (s.putXi f v).fcnt = s.fcnt := rfl
@[simp] theorem putXi_synccnt (f : Nat) (v : XR) : (s.putXi f v).synccnt = s.synccnt := rfl
@[simp] theorem putXi_fstart (f : Nat) (v : XR) : (s.putXi f v).fstart = s.fstart := rfl
@[simp] theorem putXi_fend (f : Nat) (v : XR) : (s.putXi f v).fend = s.fend := rfl
@[simp] theorem putXi_clipcnt (f : Nat) (v : XR) : (s.putXi f v).clipcnt = s.clipcnt := rfl
@[simp] theorem putXi_slope (f : Nat) (v : XR) : (s.putXi f v).slope = s.slope := rfl
@[simp] theorem putXi_intercept (f : Nat) (v : XR) : (s.putXi f v).intercept = s.intercept := rfl
@[simp] theorem putXi_xmed (f : Nat) (v : XR) : (s.putXi f v).xmed = s.xmed := rfl
@[simp] theorem putXi_cancamp (f : Nat) (v : XR) : (s.putXi f v).cancamp = s.cancamp := rfl
@[simp] theorem putXi_resistance (f : Nat) (v : XR) : (s.putXi f v).resistance = s.resistance := rfl
@[simp] theorem putXi_temperature (f : Nat) (v : XR) : (s.putXi f v).temperature = s.temperature := rfl
@[simp] theorem putXi_nframes (f : Nat) (v : XR) : (s.putXi f v).nframes = s.nframes := rfl
@[simp] theorem putXi_error (f : Nat) (v : XR) : (s.putXi f v).error = s.error := rfl
@[simp] theorem putXi_silence (f : Nat) (v : XR) : (s.putXi f v).silence = s.silence := rfl
@[simp] theorem putXi_tonelvl (f : Nat) (v : XR) : (s.putXi f v).tonelvl = s.tonelvl := rfl
@[simp] theorem putXi_leftamp (f : Nat) (v : XR) : (s.putXi f v).leftamp = s.leftamp := rfl
@[simp] theorem putXi_rightamp (f : Nat) (v : XR) : (s.putXi f v).rightamp = s.rightamp := rfl
@[simp] theorem putXi_trimstart (f : Nat) (v : XR) : (s.putXi f v).trimstart = s.trimstart := rfl
@[simp] theorem putXi_trimend (f : Nat) (v : XR) : (s.putXi f v).trimend = s.trimend := rfl
@[simp] theorem putXi_mem (f : Nat) (v : XR) : (s.putXi f v).mem = s.mem := rfl
@[simp] theorem putXi_xi (f : Nat) (v : XR) : (s.putXi f v).xi = s.xi.setIfInBounds f v := rfl
@[simp] theorem putXi_ibufEpoch (f : Nat) (v : XR) : (s.putXi f v).ibufEpoch = s.ibufEpoch := rfl
@[simp] theorem putXi_obufEpoch (f : Nat) (v : XR) : (s.putXi f v).obufEpoch = s.obufEpoch := rfl
@[simp] theorem putXi_evtEpoch (f : Nat) (v : XR) : (s.putXi f v).evtEpoch = s.evtEpoch := rfl
@[simp] theorem putXi_frmEpoch (f : Nat) (v : XR) : (s.putXi f v).frmEpoch = s.frmEpoch := rfl
@[simp] theorem putXi_draws (f : Nat) (v : XR) : (s.putXi f v).draws = s.draws := rfl
@[simp] theorem putXi_rdata (f : Nat) (v : XR) : (s.putXi f v).rdata = s.rdata := rfl
@[simp] theorem putXi_agenda (f : Nat) (v : XR) : (s.putXi f v).agenda = s.agenda := rfl

/-! ## clearXi -/

@[simp] theorem clearXi_cmd : (s.clearXi).cmd = s.cmd := rfl
@[simp] theorem clearXi_busy : (s.clearXi).busy = s.busy := rfl
@[simp] theorem clearXi_done : (s.clearXi).done = s.done := rfl
@[simp] theorem clearXi_haz : (s.clearXi).haz = s.haz := rfl
@[simp] theorem clearXi_ut : (s.clearXi).ut = s.ut := rfl
@[simp] theorem clearXi_pstate : (s.clearXi).pstate = s.pstate := rfl
@[simp] theorem clearXi_fault : (s.clearXi).fault = s.fault := rfl
@[simp] theorem clearXi_ilen : (s.clearXi).ilen = s.ilen := rfl
@[simp] theorem clearXi_olen : (s.clearXi).olen = s.olen := rfl
@[simp] theorem clearXi_ncells : (s.clearXi).ncells = s.ncells := rfl
@[simp] theorem clearXi_ppcell : (s.clearXi).ppcell = s.ppcell := rfl
@[simp] theorem clearXi_syncidx : (s.clearXi).syncidx = s.syncidx := rfl
@[simp] theorem clearXi_freq : (s.clearXi).freq = s.freq := rfl
@[simp] theorem clearXi_refvol : (s.clearXi).refvol = s.refvol := rfl
@[simp] theorem clearXi_maxvol : (s.clearXi).maxvol = s.maxvol := rfl
@[simp] theorem clearXi_minvol : (s.clearXi).minvol = s.minvol := rfl
@[simp] theorem clearXi_dur : (s.clearXi).dur = s.dur := rfl
@[simp] theorem clearXi_tonevol : (s.clearXi).tonevol = s.tonevol := rfl
@[simp] theorem clearXi_ecnt : (s.clearXi).ecnt = s.ecnt := rfl
@[simp] theorem clearXi_fcnt : (s.clearXi).fcnt = s.fcnt := rfl
@[simp] theorem clearXi_synccnt : (s.clearXi).synccnt = s.synccnt := rfl
@[simp] theorem clearXi_fstart : (s.clearXi).fstart = s.fstart := rfl
@[simp] theorem clearXi_fend : (s.clearXi).fend = s.fend := rfl
@[simp] theorem clearXi_clipcnt : (s.clearXi).clipcnt = s.clipcnt := rfl
@[simp] theorem clearXi_slope : (s.clearXi).slope = s.slope := rfl
@[simp] theorem clearXi_intercept : (s.clearXi).intercept = s.intercept := rfl
@[simp] theorem clearXi_xmed : (s.clearXi).xmed = s.xmed := rfl
@[simp] theorem clearXi_cancamp : (s.clearXi).cancamp = s.cancamp := rfl
@[simp] theorem clearXi_resistance : (s.clearXi).resistance = s.resistance := rfl
@[simp] theorem clearXi_temperature : (s.clearXi).temperature = s.temperature := rfl
@[simp] theorem clearXi_nframes : (s.clearXi).nframes = s.nframes := rfl
@[simp] theorem clearXi_error : (s.clearXi).error = s.error := rfl
@[simp] theorem clearXi_silence : (s.clearXi).silence = s.silence := rfl
@[simp] theorem clearXi_tonelvl : (s.clearXi).tonelvl = s.tonelvl := rfl
@[simp] theorem clearXi_leftamp : (s.clearXi).leftamp = s.leftamp := rfl
@[simp] theorem clearXi_rightamp : (s.clearXi).rightamp = s.rightamp := rfl
@[simp] theorem clearXi_trimstart : (s.clearXi).trimstart = s.trimstart := rfl
@[simp] theorem clearXi_trimend : (s.clearXi).trimend = s.trimend := rfl
@[simp] theorem clearXi_mem : (s.clearXi).mem = s.mem := rfl
@[simp] theorem clearXi_xi : (s.clearXi).xi = Vector.replicate Config.frmMax .nan := rfl
@[simp] theorem clearXi_ibufEpoch : (s.clearXi).ibufEpoch = s.ibufEpoch := rfl
@[simp] theorem clearXi_obufEpoch : (s.clearXi).obufEpoch = s.obufEpoch := rfl
@[simp] theorem clearXi_evtEpoch : (s.clearXi).evtEpoch = s.evtEpoch := rfl
@[simp] theorem clearXi_frmEpoch : (s.clearXi).frmEpoch = s.frmEpoch := rfl
@[simp] theorem clearXi_draws : (s.clearXi).draws = s.draws := rfl
@[simp] theorem clearXi_rdata : (s.clearXi).rdata = s.rdata := rfl
@[simp] theorem clearXi_agenda : (s.clearXi).agenda = s.agenda := rfl

/-! ## clearScratch -/

@[simp] theorem clearScratch_cmd : (s.clearScratch).cmd = s.cmd := rfl
@[simp] theorem clearScratch_busy : (s.clearScratch).busy = s.busy := rfl
@[simp] theorem clearScratch_done : (s.clearScratch).done = s.done := rfl
@[simp] theorem clearScratch_haz : (s.clearScratch).haz = s.haz := rfl
@[simp] theorem clearScratch_ut : (s.clearScratch).ut = true := rfl
@[simp] theorem clearScratch_pstate : (s.clearScratch).pstate = s.pstate := rfl
@[simp] theorem clearScratch_fault : (s.clearScratch).fault = s.fault := rfl
@[simp] theorem clearScratch_ilen : (s.clearScratch).ilen = s.ilen := rfl
@[simp] theorem clearScratch_olen : (s.clearScratch).olen = s.olen := rfl
@[simp] theorem clearScratch_ncells : (s.clearScratch).ncells = s.ncells := rfl
@[simp] theorem clearScratch_ppcell : (s.clearScratch).ppcell = s.ppcell := rfl
@[simp] theorem clearScratch_syncidx : (s.clearScratch).syncidx = s.syncidx := rfl
@[simp] theorem clearScratch_freq : (s.clearScratch).freq = s.freq := rfl
@[simp] theorem clearScratch_refvol : (s.clearScratch).refvol = s.refvol := rfl
@[simp] theorem clearScratch_maxvol : (s.clearScratch).maxvol = s.maxvol := rfl
@[simp] theorem clearScratch_minvol : (s.clearScratch).minvol = s.minvol := rfl
@[simp] theorem clearScratch_dur : (s.clearScratch).dur = s.dur := rfl
@[simp] theorem clearScratch_tonevol : (s.clearScratch).tonevol = s.tonevol := rfl
@[simp] theorem clearScratch_ecnt : (s.clearScratch).ecnt = 0 := rfl
@[simp] theorem clearScratch_fcnt : (s.clearScratch).fcnt = 0 := rfl
@[simp] theorem clearScratch_synccnt : (s.clearScratch).synccnt = 0 := rfl
@[simp] theorem clearScratch_fstart : (s.clearScratch).fstart = 0 := rfl
@[simp] theorem clearScratch_fend : (s.clearScratch).fend = 0 := rfl
@[simp] theorem clearScratch_clipcnt : (s.clearScratch).clipcnt = 0 := rfl
@[simp] theorem clearScratch_slope : (s.clearScratch).slope = .nan := rfl
@[simp] theorem clearScratch_intercept : (s.clearScratch).intercept = .nan := rfl
@[simp] theorem clearScratch_xmed : (s.clearScratch).xmed = .nan := rfl
@[simp] theorem clearScratch_cancamp : (s.clearScratch).cancamp = .nan := rfl
@[simp] theorem clearScratch_resistance : (s.clearScratch).resistance = .nan := rfl
@[simp] theorem clearScratch_temperature : (s.clearScratch).temperature = .nan := rfl
@[simp] theorem clearScratch_nframes : (s.clearScratch).nframes = 0 := rfl
@[simp] theorem clearScratch_error : (s.clearScratch).error = .none := rfl
@[simp] theorem clearScratch_silence : (s.clearScratch).silence = s.silence := rfl
@[simp] theorem clearScratch_tonelvl : (s.clearScratch).tonelvl = s.tonelvl := rfl
@[simp] theorem clearScratch_leftamp : (s.clearScratch).leftamp = 0 := rfl
@[simp] theorem clearScratch_rightamp : (s.clearScratch).rightamp = 0 := rfl
@[simp] theorem clearScratch_trimstart : (s.clearScratch).trimstart = 0 := rfl
@[simp] theorem clearScratch_trimend : (s.clearScratch).trimend = 0 := rfl
@[simp] theorem clearScratch_mem : (s.clearScratch).mem = s.mem := rfl
@[simp] theorem clearScratch_xi : (s.clearScratch).xi = Vector.replicate Config.frmMax .nan := rfl
@[simp] theorem clearScratch_ibufEpoch : (s.clearScratch).ibufEpoch = s.ibufEpoch := rfl
@[simp] theorem clearScratch_obufEpoch : (s.clearScratch).obufEpoch = s.obufEpoch := rfl
@[simp] theorem clearScratch_evtEpoch : (s.clearScratch).evtEpoch = s.evtEpoch := rfl
@[simp] theorem clearScratch_frmEpoch : (s.clearScratch).frmEpoch = s.frmEpoch := rfl
@[simp] theorem clearScratch_draws : (s.clearScratch).draws = s.draws := rfl
@[simp] theorem clearScratch_rdata : (s.clearScratch).rdata = s.rdata := rfl
@[simp] theorem clearScratch_agenda : (s.clearScratch).agenda = s.agenda := rfl

/-! ## raiseFault -/

@[simp] theorem raiseFault_cmd (c : FaultCode) : (s.raiseFault c).cmd = s.cmd := rfl
@[simp] theorem raiseFault_busy (c : FaultCode) : (s.raiseFault c).busy = false := rfl
@[simp] theorem raiseFault_done (c : FaultCode) : (s.raiseFault c).done = true := rfl
@[simp] theorem raiseFault_haz (c : FaultCode) : (s.raiseFault c).haz = s.haz := rfl
@[simp] theorem raiseFault_ut (c : FaultCode) : (s.raiseFault c).ut = s.ut := rfl
@[simp] theorem raiseFault_pstate (c : FaultCode) : (s.raiseFault c).pstate = s.pstate := rfl
@[simp] theorem raiseFault_fault (c : FaultCode) : (s.raiseFault c).fault = some c := rfl
@[simp] theorem raiseFault_ilen (c : FaultCode) : (s.raiseFault c).ilen = s.ilen := rfl
@[simp] theorem raiseFault_olen (c : FaultCode) : (s.raiseFault c).olen = s.olen := rfl
@[simp] theorem raiseFault_ncells (c : FaultCode) : (s.raiseFault c).ncells = s.ncells := rfl
@[simp] theorem raiseFault_ppcell (c : FaultCode) : (s.raiseFault c).ppcell = s.ppcell := rfl
@[simp] theorem raiseFault_syncidx (c : FaultCode) : (s.raiseFault c).syncidx = s.syncidx := rfl
@[simp] theorem raiseFault_freq (c : FaultCode) : (s.raiseFault c).freq = s.freq := rfl
@[simp] theorem raiseFault_refvol (c : FaultCode) : (s.raiseFault c).refvol = s.refvol := rfl
@[simp] theorem raiseFault_maxvol (c : FaultCode) : (s.raiseFault c).maxvol = s.maxvol := rfl
@[simp] theorem raiseFault_minvol (c : FaultCode) : (s.raiseFault c).minvol = s.minvol := rfl
@[simp] theorem raiseFault_dur (c : FaultCode) : (s.raiseFault c).dur = s.dur := rfl
@[simp] theorem raiseFault_tonevol (c : FaultCode) : (s.raiseFault c).tonevol = s.tonevol := rfl
@[simp] theorem raiseFault_ecnt (c : FaultCode) : (s.raiseFault c).ecnt = s.ecnt := rfl
@[simp] theorem raiseFault_fcnt (c : FaultCode) : (s.raiseFault c).fcnt = s.fcnt := rfl
@[simp] theorem raiseFault_synccnt (c : FaultCode) : (s.raiseFault c).synccnt = s.synccnt := rfl
@[simp] theorem raiseFault_fstart (c : FaultCode) : (s.raiseFault c).fstart = s.fstart := rfl
@[simp] theorem raiseFault_fend (c : FaultCode) : (s.raiseFault c).fend = s.fend := rfl
@[simp] theorem raiseFault_clipcnt (c : FaultCode) : (s.raiseFault c).clipcnt = s.clipcnt := rfl
@[simp] theorem raiseFault_slope (c : FaultCode) : (s.raiseFault c).slope = s.slope := rfl
@[simp] theorem raiseFault_intercept (c : FaultCode) : (s.raiseFault c).intercept = s.intercept := rfl
@[simp] theorem raiseFault_xmed (c : FaultCode) : (s.raiseFault c).xmed = s.xmed := rfl
@[simp] theorem raiseFault_cancamp (c : FaultCode) : (s.raiseFault c).cancamp = s.cancamp := rfl
@[simp] theorem raiseFault_resistance (c : FaultCode) : (s.raiseFault c).resistance = s.resistance := rfl
@[simp] theorem raiseFault_temperature (c : FaultCode) : (s.raiseFault c).temperature = s.temperature := rfl
@[simp] theorem raiseFault_nframes (c : FaultCode) : (s.raiseFault c).nframes = s.nframes := rfl
@[simp] theorem raiseFault_error (c : FaultCode) : (s.raiseFault c).error = s.error := rfl
@[simp] theorem raiseFault_silence (c : FaultCode) : (s.raiseFault c).silence = s.silence := rfl
@[simp] theorem raiseFault_tonelvl (c : FaultCode) : (s.raiseFault c).tonelvl = s.tonelvl := rfl
@[simp] theorem raiseFault_leftamp (c : FaultCode) : (s.raiseFault c).leftamp = s.leftamp := rfl
@[simp] theorem raiseFault_rightamp (c : FaultCode) : (s.raiseFault c).rightamp = s.rightamp := rfl
@[simp] theorem raiseFault_trimstart (c : FaultCode) : (s.raiseFault c).trimstart = s.trimstart := rfl
@[simp] theorem raiseFault_trimend (c : FaultCode) : (s.raiseFault c).trimend = s.trimend := rfl
@[simp] theorem raiseFault_mem (c : FaultCode) : (s.raiseFault c).mem = s.mem := rfl
@[simp] theorem raiseFault_xi (c : FaultCode) : (s.raiseFault c).xi = s.xi := rfl
@[simp] theorem raiseFault_ibufEpoch (c : FaultCode) : (s.raiseFault c).ibufEpoch = s.ibufEpoch := rfl
@[simp] theorem raiseFault_obufEpoch (c : FaultCode) : (s.raiseFault c).obufEpoch = s.obufEpoch := rfl
@[simp] theorem raiseFault_evtEpoch (c : FaultCode) : (s.raiseFault c).evtEpoch = s.evtEpoch := rfl
@[simp] theorem raiseFault_frmEpoch (c : FaultCode) : (s.raiseFault c).frmEpoch = s.frmEpoch := rfl
@[simp] theorem raiseFault_draws (c : FaultCode) : (s.raiseFault c).draws = s.draws := rfl
@[simp] theorem raiseFault_rdata (c : FaultCode) : (s.raiseFault c).rdata = s.rdata := rfl
@[simp] theorem raiseFault_agenda (c : FaultCode) : (s.raiseFault c).agenda = s.agenda := rfl

/-! ## unspecify -/

@[simp] theorem unspecify_cmd : (s.unspecify).cmd = s.cmd := rfl
@[simp] theorem unspecify_busy : (s.unspecify).busy = s.busy := rfl
@[simp] theorem unspecify_done : (s.unspecify).done = s.done := rfl
@[simp] theorem unspecify_haz : (s.unspecify).haz = s.haz := rfl
@[simp] theorem unspecify_ut : (s.unspecify).ut = Config.freeBit s.draws := rfl
@[simp] theorem unspecify_pstate : (s.unspecify).pstate = s.pstate := rfl
@[simp] theorem unspecify_fault : (s.unspecify).fault = s.fault := rfl
@[simp] theorem unspecify_ilen : (s.unspecify).ilen = s.ilen := rfl
@[simp] theorem unspecify_olen : (s.unspecify).olen = s.olen := rfl
@[simp] theorem unspecify_ncells : (s.unspecify).ncells = s.ncells := rfl
@[simp] theorem unspecify_ppcell : (s.unspecify).ppcell = s.ppcell := rfl
@[simp] theorem unspecify_syncidx : (s.unspecify).syncidx = s.syncidx := rfl
@[simp] theorem unspecify_freq : (s.unspecify).freq = s.freq := rfl
@[simp] theorem unspecify_refvol : (s.unspecify).refvol = s.refvol := rfl
@[simp] theorem unspecify_maxvol : (s.unspecify).maxvol = s.maxvol := rfl
@[simp] theorem unspecify_minvol : (s.unspecify).minvol = s.minvol := rfl
@[simp] theorem unspecify_dur : (s.unspecify).dur = s.dur := rfl
@[simp] theorem unspecify_tonevol : (s.unspecify).tonevol = s.tonevol := rfl
@[simp] theorem unspecify_ecnt : (s.unspecify).ecnt = Config.freeWord s.draws 14 := rfl
@[simp] theorem unspecify_fcnt : (s.unspecify).fcnt = Config.freeWord s.draws 15 := rfl
@[simp] theorem unspecify_synccnt : (s.unspecify).synccnt = Config.freeWord s.draws 16 := rfl
@[simp] theorem unspecify_fstart : (s.unspecify).fstart = Config.freeWord s.draws 17 := rfl
@[simp] theorem unspecify_fend : (s.unspecify).fend = Config.freeWord s.draws 18 := rfl
@[simp] theorem unspecify_clipcnt : (s.unspecify).clipcnt = Config.freeWord s.draws 19 := rfl
@[simp] theorem unspecify_slope : (s.unspecify).slope = Config.freeXR s.draws 20 := rfl
@[simp] theorem unspecify_intercept : (s.unspecify).intercept = Config.freeXR s.draws 21 := rfl
@[simp] theorem unspecify_xmed : (s.unspecify).xmed = Config.freeXR s.draws 22 := rfl
@[simp] theorem unspecify_cancamp : (s.unspecify).cancamp = Config.freeXR s.draws 23 := rfl
@[simp] theorem unspecify_resistance : (s.unspecify).resistance = Config.freeXR s.draws 24 := rfl
@[simp] theorem unspecify_temperature : (s.unspecify).temperature = Config.freeXR s.draws 25 := rfl
@[simp] theorem unspecify_nframes : (s.unspecify).nframes = Config.freeWord s.draws 26 := rfl
@[simp] theorem unspecify_error : (s.unspecify).error = freeError s.draws := rfl
@[simp] theorem unspecify_silence : (s.unspecify).silence = Config.freeWord s.draws 28 := rfl
@[simp] theorem unspecify_tonelvl : (s.unspecify).tonelvl = Config.freeWord s.draws 29 := rfl
@[simp] theorem unspecify_leftamp : (s.unspecify).leftamp = Config.freeWord s.draws 30 := rfl
@[simp] theorem unspecify_rightamp : (s.unspecify).rightamp = Config.freeWord s.draws 31 := rfl
@[simp] theorem unspecify_trimstart : (s.unspecify).trimstart = Config.freeWord s.draws 32 := rfl
@[simp] theorem unspecify_trimend : (s.unspecify).trimend = Config.freeWord s.draws 33 := rfl
@[simp] theorem unspecify_mem : (s.unspecify).mem = (s.mem.erase Config.evtBase Config.evtEnd).erase Config.frmBase Config.frmEnd := rfl
@[simp] theorem unspecify_xi : (s.unspecify).xi = Vector.ofFn (fun i => Config.freeXR s.draws (Config.xiBase + i)) := rfl
@[simp] theorem unspecify_ibufEpoch : (s.unspecify).ibufEpoch = s.ibufEpoch := rfl
@[simp] theorem unspecify_obufEpoch : (s.unspecify).obufEpoch = s.obufEpoch := rfl
@[simp] theorem unspecify_evtEpoch : (s.unspecify).evtEpoch = s.draws := rfl
@[simp] theorem unspecify_frmEpoch : (s.unspecify).frmEpoch = s.draws := rfl
@[simp] theorem unspecify_draws : (s.unspecify).draws = s.draws + 1 := rfl
@[simp] theorem unspecify_rdata : (s.unspecify).rdata = s.rdata := rfl
@[simp] theorem unspecify_agenda : (s.unspecify).agenda = s.agenda := rfl

/-! ## raiseLateFault -/

@[simp] theorem raiseLateFault_cmd (c : FaultCode) : (s.raiseLateFault c).cmd = s.cmd := rfl
@[simp] theorem raiseLateFault_busy (c : FaultCode) : (s.raiseLateFault c).busy = false := rfl
@[simp] theorem raiseLateFault_done (c : FaultCode) : (s.raiseLateFault c).done = true := rfl
@[simp] theorem raiseLateFault_haz (c : FaultCode) : (s.raiseLateFault c).haz = s.haz := rfl
@[simp] theorem raiseLateFault_ut (c : FaultCode) : (s.raiseLateFault c).ut = Config.freeBit s.draws := rfl
@[simp] theorem raiseLateFault_pstate (c : FaultCode) : (s.raiseLateFault c).pstate = s.pstate := rfl
@[simp] theorem raiseLateFault_fault (c : FaultCode) : (s.raiseLateFault c).fault = some c := rfl
@[simp] theorem raiseLateFault_ilen (c : FaultCode) : (s.raiseLateFault c).ilen = s.ilen := rfl
@[simp] theorem raiseLateFault_olen (c : FaultCode) : (s.raiseLateFault c).olen = s.olen := rfl
@[simp] theorem raiseLateFault_ncells (c : FaultCode) : (s.raiseLateFault c).ncells = s.ncells := rfl
@[simp] theorem raiseLateFault_ppcell (c : FaultCode) : (s.raiseLateFault c).ppcell = s.ppcell := rfl
@[simp] theorem raiseLateFault_syncidx (c : FaultCode) : (s.raiseLateFault c).syncidx = s.syncidx := rfl
@[simp] theorem raiseLateFault_freq (c : FaultCode) : (s.raiseLateFault c).freq = s.freq := rfl
@[simp] theorem raiseLateFault_refvol (c : FaultCode) : (s.raiseLateFault c).refvol = s.refvol := rfl
@[simp] theorem raiseLateFault_maxvol (c : FaultCode) : (s.raiseLateFault c).maxvol = s.maxvol := rfl
@[simp] theorem raiseLateFault_minvol (c : FaultCode) : (s.raiseLateFault c).minvol = s.minvol := rfl
@[simp] theorem raiseLateFault_dur (c : FaultCode) : (s.raiseLateFault c).dur = s.dur := rfl
@[simp] theorem raiseLateFault_tonevol (c : FaultCode) : (s.raiseLateFault c).tonevol = s.tonevol := rfl
@[simp] theorem raiseLateFault_ecnt (c : FaultCode) : (s.raiseLateFault c).ecnt = Config.freeWord s.draws 14 := rfl
@[simp] theorem raiseLateFault_fcnt (c : FaultCode) : (s.raiseLateFault c).fcnt = Config.freeWord s.draws 15 := rfl
@[simp] theorem raiseLateFault_synccnt (c : FaultCode) : (s.raiseLateFault c).synccnt = Config.freeWord s.draws 16 := rfl
@[simp] theorem raiseLateFault_fstart (c : FaultCode) : (s.raiseLateFault c).fstart = Config.freeWord s.draws 17 := rfl
@[simp] theorem raiseLateFault_fend (c : FaultCode) : (s.raiseLateFault c).fend = Config.freeWord s.draws 18 := rfl
@[simp] theorem raiseLateFault_clipcnt (c : FaultCode) : (s.raiseLateFault c).clipcnt = Config.freeWord s.draws 19 := rfl
@[simp] theorem raiseLateFault_slope (c : FaultCode) : (s.raiseLateFault c).slope = Config.freeXR s.draws 20 := rfl
@[simp] theorem raiseLateFault_intercept (c : FaultCode) : (s.raiseLateFault c).intercept = Config.freeXR s.draws 21 := rfl
@[simp] theorem raiseLateFault_xmed (c : FaultCode) : (s.raiseLateFault c).xmed = Config.freeXR s.draws 22 := rfl
@[simp] theorem raiseLateFault_cancamp (c : FaultCode) : (s.raiseLateFault c).cancamp = Config.freeXR s.draws 23 := rfl
@[simp] theorem raiseLateFault_resistance (c : FaultCode) : (s.raiseLateFault c).resistance = Config.freeXR s.draws 24 := rfl
@[simp] theorem raiseLateFault_temperature (c : FaultCode) : (s.raiseLateFault c).temperature = Config.freeXR s.draws 25 := rfl
@[simp] theorem raiseLateFault_nframes (c : FaultCode) : (s.raiseLateFault c).nframes = Config.freeWord s.draws 26 := rfl
@[simp] theorem raiseLateFault_error (c : FaultCode) : (s.raiseLateFault c).error = freeError s.draws := rfl
@[simp] theorem raiseLateFault_silence (c : FaultCode) : (s.raiseLateFault c).silence = Config.freeWord s.draws 28 := rfl
@[simp] theorem raiseLateFault_tonelvl (c : FaultCode) : (s.raiseLateFault c).tonelvl = Config.freeWord s.draws 29 := rfl
@[simp] theorem raiseLateFault_leftamp (c : FaultCode) : (s.raiseLateFault c).leftamp = Config.freeWord s.draws 30 := rfl
@[simp] theorem raiseLateFault_rightamp (c : FaultCode) : (s.raiseLateFault c).rightamp = Config.freeWord s.draws 31 := rfl
@[simp] theorem raiseLateFault_trimstart (c : FaultCode) : (s.raiseLateFault c).trimstart = Config.freeWord s.draws 32 := rfl
@[simp] theorem raiseLateFault_trimend (c : FaultCode) : (s.raiseLateFault c).trimend = Config.freeWord s.draws 33 := rfl
@[simp] theorem raiseLateFault_mem (c : FaultCode) : (s.raiseLateFault c).mem = (s.mem.erase Config.evtBase Config.evtEnd).erase Config.frmBase Config.frmEnd := rfl
@[simp] theorem raiseLateFault_xi (c : FaultCode) : (s.raiseLateFault c).xi = Vector.ofFn (fun i => Config.freeXR s.draws (Config.xiBase + i)) := rfl
@[simp] theorem raiseLateFault_ibufEpoch (c : FaultCode) : (s.raiseLateFault c).ibufEpoch = s.ibufEpoch := rfl
@[simp] theorem raiseLateFault_obufEpoch (c : FaultCode) : (s.raiseLateFault c).obufEpoch = s.obufEpoch := rfl
@[simp] theorem raiseLateFault_evtEpoch (c : FaultCode) : (s.raiseLateFault c).evtEpoch = s.draws := rfl
@[simp] theorem raiseLateFault_frmEpoch (c : FaultCode) : (s.raiseLateFault c).frmEpoch = s.draws := rfl
@[simp] theorem raiseLateFault_draws (c : FaultCode) : (s.raiseLateFault c).draws = s.draws + 1 := rfl
@[simp] theorem raiseLateFault_rdata (c : FaultCode) : (s.raiseLateFault c).rdata = s.rdata := rfl
@[simp] theorem raiseLateFault_agenda (c : FaultCode) : (s.raiseLateFault c).agenda = s.agenda := rfl

/-! ## raiseCaptureFailure -/

@[simp] theorem raiseCaptureFailure_cmd : (s.raiseCaptureFailure).cmd = s.cmd := rfl
@[simp] theorem raiseCaptureFailure_busy : (s.raiseCaptureFailure).busy = false := rfl
@[simp] theorem raiseCaptureFailure_done : (s.raiseCaptureFailure).done = true := rfl
@[simp] theorem raiseCaptureFailure_haz : (s.raiseCaptureFailure).haz = s.haz := rfl
@[simp] theorem raiseCaptureFailure_ut : (s.raiseCaptureFailure).ut = Config.freeBit s.draws := rfl
@[simp] theorem raiseCaptureFailure_pstate : (s.raiseCaptureFailure).pstate = s.pstate := rfl
@[simp] theorem raiseCaptureFailure_fault : (s.raiseCaptureFailure).fault = some .captureFailure := rfl
@[simp] theorem raiseCaptureFailure_ilen : (s.raiseCaptureFailure).ilen = s.ilen := rfl
@[simp] theorem raiseCaptureFailure_olen : (s.raiseCaptureFailure).olen = s.olen := rfl
@[simp] theorem raiseCaptureFailure_ncells : (s.raiseCaptureFailure).ncells = s.ncells := rfl
@[simp] theorem raiseCaptureFailure_ppcell : (s.raiseCaptureFailure).ppcell = s.ppcell := rfl
@[simp] theorem raiseCaptureFailure_syncidx : (s.raiseCaptureFailure).syncidx = s.syncidx := rfl
@[simp] theorem raiseCaptureFailure_freq : (s.raiseCaptureFailure).freq = s.freq := rfl
@[simp] theorem raiseCaptureFailure_refvol : (s.raiseCaptureFailure).refvol = s.refvol := rfl
@[simp] theorem raiseCaptureFailure_maxvol : (s.raiseCaptureFailure).maxvol = s.maxvol := rfl
@[simp] theorem raiseCaptureFailure_minvol : (s.raiseCaptureFailure).minvol = s.minvol := rfl
@[simp] theorem raiseCaptureFailure_dur : (s.raiseCaptureFailure).dur = s.dur := rfl
@[simp] theorem raiseCaptureFailure_tonevol : (s.raiseCaptureFailure).tonevol = s.tonevol := rfl
@[simp] theorem raiseCaptureFailure_ecnt : (s.raiseCaptureFailure).ecnt = Config.freeWord s.draws 14 := rfl
@[simp] theorem raiseCaptureFailure_fcnt : (s.raiseCaptureFailure).fcnt = Config.freeWord s.draws 15 := rfl
@[simp] theorem raiseCaptureFailure_synccnt : (s.raiseCaptureFailure).synccnt = Config.freeWord s.draws 16 := rfl
@[simp] theorem raiseCaptureFailure_fstart : (s.raiseCaptureFailure).fstart = Config.freeWord s.draws 17 := rfl
@[simp] theorem raiseCaptureFailure_fend : (s.raiseCaptureFailure).fend = Config.freeWord s.draws 18 := rfl
@[simp] theorem raiseCaptureFailure_clipcnt : (s.raiseCaptureFailure).clipcnt = Config.freeWord s.draws 19 := rfl
@[simp] theorem raiseCaptureFailure_slope : (s.raiseCaptureFailure).slope = Config.freeXR s.draws 20 := rfl
@[simp] theorem raiseCaptureFailure_intercept : (s.raiseCaptureFailure).intercept = Config.freeXR s.draws 21 := rfl
@[simp] theorem raiseCaptureFailure_xmed : (s.raiseCaptureFailure).xmed = Config.freeXR s.draws 22 := rfl
@[simp] theorem raiseCaptureFailure_cancamp : (s.raiseCaptureFailure).cancamp = Config.freeXR s.draws 23 := rfl
@[simp] theorem raiseCaptureFailure_resistance : (s.raiseCaptureFailure).resistance = Config.freeXR s.draws 24 := rfl
@[simp] theorem raiseCaptureFailure_temperature : (s.raiseCaptureFailure).temperature = Config.freeXR s.draws 25 := rfl
@[simp] theorem raiseCaptureFailure_nframes : (s.raiseCaptureFailure).nframes = Config.freeWord s.draws 26 := rfl
@[simp] theorem raiseCaptureFailure_error : (s.raiseCaptureFailure).error = .captureFailure := rfl
@[simp] theorem raiseCaptureFailure_silence : (s.raiseCaptureFailure).silence = Config.freeWord s.draws 28 := rfl
@[simp] theorem raiseCaptureFailure_tonelvl : (s.raiseCaptureFailure).tonelvl = Config.freeWord s.draws 29 := rfl
@[simp] theorem raiseCaptureFailure_leftamp : (s.raiseCaptureFailure).leftamp = Config.freeWord s.draws 30 := rfl
@[simp] theorem raiseCaptureFailure_rightamp : (s.raiseCaptureFailure).rightamp = Config.freeWord s.draws 31 := rfl
@[simp] theorem raiseCaptureFailure_trimstart : (s.raiseCaptureFailure).trimstart = Config.freeWord s.draws 32 := rfl
@[simp] theorem raiseCaptureFailure_trimend : (s.raiseCaptureFailure).trimend = Config.freeWord s.draws 33 := rfl
@[simp] theorem raiseCaptureFailure_mem : (s.raiseCaptureFailure).mem = (s.mem.erase Config.evtBase Config.evtEnd).erase Config.frmBase Config.frmEnd := rfl
@[simp] theorem raiseCaptureFailure_xi : (s.raiseCaptureFailure).xi = Vector.ofFn (fun i => Config.freeXR s.draws (Config.xiBase + i)) := rfl
@[simp] theorem raiseCaptureFailure_ibufEpoch : (s.raiseCaptureFailure).ibufEpoch = s.ibufEpoch := rfl
@[simp] theorem raiseCaptureFailure_obufEpoch : (s.raiseCaptureFailure).obufEpoch = s.obufEpoch := rfl
@[simp] theorem raiseCaptureFailure_evtEpoch : (s.raiseCaptureFailure).evtEpoch = s.draws := rfl
@[simp] theorem raiseCaptureFailure_frmEpoch : (s.raiseCaptureFailure).frmEpoch = s.draws := rfl
@[simp] theorem raiseCaptureFailure_draws : (s.raiseCaptureFailure).draws = s.draws + 1 := rfl
@[simp] theorem raiseCaptureFailure_rdata : (s.raiseCaptureFailure).rdata = s.rdata := rfl
@[simp] theorem raiseCaptureFailure_agenda : (s.raiseCaptureFailure).agenda = s.agenda := rfl

/-! ## failError -/

@[simp] theorem failError_cmd (k : ErrorKind) : (s.failError k).cmd = s.cmd := rfl
@[simp] theorem failError_busy (k : ErrorKind) : (s.failError k).busy = false := rfl
@[simp] theorem failError_done (k : ErrorKind) : (s.failError k).done = true := rfl
@[simp] theorem failError_haz (k : ErrorKind) : (s.failError k).haz = s.haz := rfl
@[simp] theorem failError_ut (k : ErrorKind) : (s.failError k).ut = true := rfl
@[simp] theorem failError_pstate (k : ErrorKind) : (s.failError k).pstate = s.pstate := rfl
@[simp] theorem failError_fault (k : ErrorKind) : (s.failError k).fault = s.fault := rfl
@[simp] theorem failError_ilen (k : ErrorKind) : (s.failError k).ilen = s.ilen := rfl
@[simp] theorem failError_olen (k : ErrorKind) : (s.failError k).olen = s.olen := rfl
@[simp] theorem failError_ncells (k : ErrorKind) : (s.failError k).ncells = s.ncells := rfl
@[simp] theorem failError_ppcell (k : ErrorKind) : (s.failError k).ppcell = s.ppcell := rfl
@[simp] theorem failError_syncidx (k : ErrorKind) : (s.failError k).syncidx = s.syncidx := rfl
@[simp] theorem failError_freq (k : ErrorKind) : (s.failError k).freq = s.freq := rfl
@[simp] theorem failError_refvol (k : ErrorKind) : (s.failError k).refvol = s.refvol := rfl
@[simp] theorem failError_maxvol (k : ErrorKind) : (s.failError k).maxvol = s.maxvol := rfl
@[simp] theorem failError_minvol (k : ErrorKind) : (s.failError k).minvol = s.minvol := rfl
@[simp] theorem failError_dur (k : ErrorKind) : (s.failError k).dur = s.dur := rfl
@[simp] theorem failError_tonevol (k : ErrorKind) : (s.failError k).tonevol = s.tonevol := rfl
@[simp] theorem failError_ecnt (k : ErrorKind) : (s.failError k).ecnt = s.ecnt := rfl
@[simp] theorem failError_fcnt (k : ErrorKind) : (s.failError k).fcnt = s.fcnt := rfl
@[simp] theorem failError_synccnt (k : ErrorKind) : (s.failError k).synccnt = s.synccnt := rfl
@[simp] theorem failError_fstart (k : ErrorKind) : (s.failError k).fstart = s.fstart := rfl
@[simp] theorem failError_fend (k : ErrorKind) : (s.failError k).fend = s.fend := rfl
@[simp] theorem failError_clipcnt (k : ErrorKind) : (s.failError k).clipcnt = s.clipcnt := rfl
@[simp] theorem failError_slope (k : ErrorKind) : (s.failError k).slope = s.slope := rfl
@[simp] theorem failError_intercept (k : ErrorKind) : (s.failError k).intercept = s.intercept := rfl
@[simp] theorem failError_xmed (k : ErrorKind) : (s.failError k).xmed = s.xmed := rfl
@[simp] theorem failError_cancamp (k : ErrorKind) : (s.failError k).cancamp = s.cancamp := rfl
@[simp] theorem failError_resistance (k : ErrorKind) : (s.failError k).resistance = .nan := rfl
@[simp] theorem failError_temperature (k : ErrorKind) : (s.failError k).temperature = .nan := rfl
@[simp] theorem failError_nframes (k : ErrorKind) : (s.failError k).nframes = 0 := rfl
@[simp] theorem failError_error (k : ErrorKind) : (s.failError k).error = k := rfl
@[simp] theorem failError_silence (k : ErrorKind) : (s.failError k).silence = s.silence := rfl
@[simp] theorem failError_tonelvl (k : ErrorKind) : (s.failError k).tonelvl = s.tonelvl := rfl
@[simp] theorem failError_leftamp (k : ErrorKind) : (s.failError k).leftamp = s.leftamp := rfl
@[simp] theorem failError_rightamp (k : ErrorKind) : (s.failError k).rightamp = s.rightamp := rfl
@[simp] theorem failError_trimstart (k : ErrorKind) : (s.failError k).trimstart = s.trimstart := rfl
@[simp] theorem failError_trimend (k : ErrorKind) : (s.failError k).trimend = s.trimend := rfl
@[simp] theorem failError_mem (k : ErrorKind) : (s.failError k).mem = s.mem := rfl
@[simp] theorem failError_xi (k : ErrorKind) : (s.failError k).xi = s.xi := rfl
@[simp] theorem failError_ibufEpoch (k : ErrorKind) : (s.failError k).ibufEpoch = s.ibufEpoch := rfl
@[simp] theorem failError_obufEpoch (k : ErrorKind) : (s.failError k).obufEpoch = s.obufEpoch := rfl
@[simp] theorem failError_evtEpoch (k : ErrorKind) : (s.failError k).evtEpoch = s.evtEpoch := rfl
@[simp] theorem failError_frmEpoch (k : ErrorKind) : (s.failError k).frmEpoch = s.frmEpoch := rfl
@[simp] theorem failError_draws (k : ErrorKind) : (s.failError k).draws = s.draws := rfl
@[simp] theorem failError_rdata (k : ErrorKind) : (s.failError k).rdata = s.rdata := rfl
@[simp] theorem failError_agenda (k : ErrorKind) : (s.failError k).agenda = s.agenda := rfl

/-! ## softReset -/

@[simp] theorem softReset_cmd : (s.softReset).cmd = 0 := rfl
@[simp] theorem softReset_busy : (s.softReset).busy = false := rfl
@[simp] theorem softReset_done : (s.softReset).done = false := rfl
@[simp] theorem softReset_haz : (s.softReset).haz = false := rfl
@[simp] theorem softReset_ut : (s.softReset).ut = false := rfl
@[simp] theorem softReset_pstate : (s.softReset).pstate = .idle := rfl
@[simp] theorem softReset_fault : (s.softReset).fault = none := rfl
@[simp] theorem softReset_ilen : (s.softReset).ilen = 0 := rfl
@[simp] theorem softReset_olen : (s.softReset).olen = 0 := rfl
@[simp] theorem softReset_ncells : (s.softReset).ncells = 10 := rfl
@[simp] theorem softReset_ppcell : (s.softReset).ppcell = 10 := rfl
@[simp] theorem softReset_syncidx : (s.softReset).syncidx = 9 := rfl
@[simp] theorem softReset_freq : (s.softReset).freq = 1000 := rfl
@[simp] theorem softReset_refvol : (s.softReset).refvol = 5000 := rfl
@[simp] theorem softReset_maxvol : (s.softReset).maxvol = 9000 := rfl
@[simp] theorem softReset_minvol : (s.softReset).minvol = 1000 := rfl
@[simp] theorem softReset_dur : (s.softReset).dur = 0 := rfl
@[simp] theorem softReset_tonevol : (s.softReset).tonevol = 5000 := rfl
@[simp] theorem softReset_ecnt : (s.softReset).ecnt = 0 := rfl
@[simp] theorem softReset_fcnt : (s.softReset).fcnt = 0 := rfl
@[simp] theorem softReset_synccnt : (s.softReset).synccnt = 0 := rfl
@[simp] theorem softReset_fstart : (s.softReset).fstart = 0 := rfl
@[simp] theorem softReset_fend : (s.softReset).fend = 0 := rfl
@[simp] theorem softReset_clipcnt : (s.softReset).clipcnt = 0 := rfl
@[simp] theorem softReset_slope : (s.softReset).slope = .nan := rfl
@[simp] theorem softReset_intercept : (s.softReset).intercept = .nan := rfl
@[simp] theorem softReset_xmed : (s.softReset).xmed = .nan := rfl
@[simp] theorem softReset_cancamp : (s.softReset).cancamp = .nan := rfl
@[simp] theorem softReset_resistance : (s.softReset).resistance = .nan := rfl
@[simp] theorem softReset_temperature : (s.softReset).temperature = .nan := rfl
@[simp] theorem softReset_nframes : (s.softReset).nframes = 0 := rfl
@[simp] theorem softReset_error : (s.softReset).error = .none := rfl
@[simp] theorem softReset_silence : (s.softReset).silence = 0 := rfl
@[simp] theorem softReset_tonelvl : (s.softReset).tonelvl = 0 := rfl
@[simp] theorem softReset_leftamp : (s.softReset).leftamp = 0 := rfl
@[simp] theorem softReset_rightamp : (s.softReset).rightamp = 0 := rfl
@[simp] theorem softReset_trimstart : (s.softReset).trimstart = 0 := rfl
@[simp] theorem softReset_trimend : (s.softReset).trimend = 0 := rfl
@[simp] theorem softReset_mem : (s.softReset).mem = (s.forgetSpaces s.abandoned).mem := rfl
@[simp] theorem softReset_xi : (s.softReset).xi = Vector.replicate Config.frmMax .nan := rfl
@[simp] theorem softReset_ibufEpoch : (s.softReset).ibufEpoch = (s.forgetSpaces s.abandoned).ibufEpoch := rfl
@[simp] theorem softReset_obufEpoch : (s.softReset).obufEpoch = (s.forgetSpaces s.abandoned).obufEpoch := rfl
@[simp] theorem softReset_evtEpoch : (s.softReset).evtEpoch = (s.forgetSpaces s.abandoned).evtEpoch := rfl
@[simp] theorem softReset_frmEpoch : (s.softReset).frmEpoch = (s.forgetSpaces s.abandoned).frmEpoch := rfl
@[simp] theorem softReset_draws : (s.softReset).draws = s.draws + 1 := rfl
@[simp] theorem softReset_rdata : (s.softReset).rdata = s.rdata := rfl
@[simp] theorem softReset_agenda : (s.softReset).agenda = s.agenda := rfl

/-! ## hardwareReset -/

@[simp] theorem hardwareReset_cmd : (s.hardwareReset).cmd = 0 := rfl
@[simp] theorem hardwareReset_busy : (s.hardwareReset).busy = false := rfl
@[simp] theorem hardwareReset_done : (s.hardwareReset).done = false := rfl
@[simp] theorem hardwareReset_haz : (s.hardwareReset).haz = false := rfl
@[simp] theorem hardwareReset_ut : (s.hardwareReset).ut = false := rfl
@[simp] theorem hardwareReset_pstate : (s.hardwareReset).pstate = .idle := rfl
@[simp] theorem hardwareReset_fault : (s.hardwareReset).fault = none := rfl
@[simp] theorem hardwareReset_ilen : (s.hardwareReset).ilen = 0 := rfl
@[simp] theorem hardwareReset_olen : (s.hardwareReset).olen = 0 := rfl
@[simp] theorem hardwareReset_ncells : (s.hardwareReset).ncells = 10 := rfl
@[simp] theorem hardwareReset_ppcell : (s.hardwareReset).ppcell = 10 := rfl
@[simp] theorem hardwareReset_syncidx : (s.hardwareReset).syncidx = 9 := rfl
@[simp] theorem hardwareReset_freq : (s.hardwareReset).freq = 1000 := rfl
@[simp] theorem hardwareReset_refvol : (s.hardwareReset).refvol = 5000 := rfl
@[simp] theorem hardwareReset_maxvol : (s.hardwareReset).maxvol = 9000 := rfl
@[simp] theorem hardwareReset_minvol : (s.hardwareReset).minvol = 1000 := rfl
@[simp] theorem hardwareReset_dur : (s.hardwareReset).dur = 0 := rfl
@[simp] theorem hardwareReset_tonevol : (s.hardwareReset).tonevol = 5000 := rfl
@[simp] theorem hardwareReset_ecnt : (s.hardwareReset).ecnt = 0 := rfl
@[simp] theorem hardwareReset_fcnt : (s.hardwareReset).fcnt = 0 := rfl
@[simp] theorem hardwareReset_synccnt : (s.hardwareReset).synccnt = 0 := rfl
@[simp] theorem hardwareReset_fstart : (s.hardwareReset).fstart = 0 := rfl
@[simp] theorem hardwareReset_fend : (s.hardwareReset).fend = 0 := rfl
@[simp] theorem hardwareReset_clipcnt : (s.hardwareReset).clipcnt = 0 := rfl
@[simp] theorem hardwareReset_slope : (s.hardwareReset).slope = .nan := rfl
@[simp] theorem hardwareReset_intercept : (s.hardwareReset).intercept = .nan := rfl
@[simp] theorem hardwareReset_xmed : (s.hardwareReset).xmed = .nan := rfl
@[simp] theorem hardwareReset_cancamp : (s.hardwareReset).cancamp = .nan := rfl
@[simp] theorem hardwareReset_resistance : (s.hardwareReset).resistance = .nan := rfl
@[simp] theorem hardwareReset_temperature : (s.hardwareReset).temperature = .nan := rfl
@[simp] theorem hardwareReset_nframes : (s.hardwareReset).nframes = 0 := rfl
@[simp] theorem hardwareReset_error : (s.hardwareReset).error = .none := rfl
@[simp] theorem hardwareReset_silence : (s.hardwareReset).silence = 0 := rfl
@[simp] theorem hardwareReset_tonelvl : (s.hardwareReset).tonelvl = 0 := rfl
@[simp] theorem hardwareReset_leftamp : (s.hardwareReset).leftamp = 0 := rfl
@[simp] theorem hardwareReset_rightamp : (s.hardwareReset).rightamp = 0 := rfl
@[simp] theorem hardwareReset_trimstart : (s.hardwareReset).trimstart = 0 := rfl
@[simp] theorem hardwareReset_trimend : (s.hardwareReset).trimend = 0 := rfl
@[simp] theorem hardwareReset_mem : (s.hardwareReset).mem = [] := rfl
@[simp] theorem hardwareReset_xi : (s.hardwareReset).xi = Vector.replicate Config.frmMax .nan := rfl
@[simp] theorem hardwareReset_ibufEpoch : (s.hardwareReset).ibufEpoch = s.draws := rfl
@[simp] theorem hardwareReset_obufEpoch : (s.hardwareReset).obufEpoch = s.draws := rfl
@[simp] theorem hardwareReset_evtEpoch : (s.hardwareReset).evtEpoch = s.draws := rfl
@[simp] theorem hardwareReset_frmEpoch : (s.hardwareReset).frmEpoch = s.draws := rfl
@[simp] theorem hardwareReset_draws : (s.hardwareReset).draws = s.draws + 1 := rfl
@[simp] theorem hardwareReset_rdata : (s.hardwareReset).rdata = s.rdata := rfl
@[simp] theorem hardwareReset_agenda : (s.hardwareReset).agenda = s.agenda := rfl

/-! ## fitFrame -/

@[simp] theorem fitFrame_cmd (f : Nat) : (s.fitFrame f).cmd = s.cmd := rfl
@[simp] theorem fitFrame_busy (f : Nat) : (s.fitFrame f).busy = s.busy := rfl
@[simp] theorem fitFrame_done (f : Nat) : (s.fitFrame f).done = s.done := rfl
@[simp] theorem fitFrame_haz (f : Nat) : (s.fitFrame f).haz = s.haz := rfl
@[simp] theorem fitFrame_ut (f : Nat) : (s.fitFrame f).ut = s.ut := rfl
@[simp] theorem fitFrame_pstate (f : Nat) : (s.fitFrame f).pstate = s.pstate := rfl
@[simp] theorem fitFrame_fault (f : Nat) : (s.fitFrame f).fault = s.fault := rfl
@[simp] theorem fitFrame_ilen (f : Nat) : (s.fitFrame f).ilen = s.ilen := rfl
@[simp] theorem fitFrame_olen (f : Nat) : (s.fitFrame f).olen = s.olen := rfl
@[simp] theorem fitFrame_ncells (f : Nat) : (s.fitFrame f).ncells = s.ncells := rfl
@[simp] theorem fitFrame_ppcell (f : Nat) : (s.fitFrame f).ppcell = s.ppcell := rfl
@[simp] theorem fitFrame_syncidx (f : Nat) : (s.fitFrame f).syncidx = s.syncidx := rfl
@[simp] theorem fitFrame_freq (f : Nat) : (s.fitFrame f).freq = s.freq := rfl
@[simp] theorem fitFrame_refvol (f : Nat) : (s.fitFrame f).refvol = s.refvol := rfl
@[simp] theorem fitFrame_maxvol (f : Nat) : (s.fitFrame f).maxvol = s.maxvol := rfl
@[simp] theorem fitFrame_minvol (f : Nat) : (s.fitFrame f).minvol = s.minvol := rfl
@[simp] theorem fitFrame_dur (f : Nat) : (s.fitFrame f).dur = s.dur := rfl
@[simp] theorem fitFrame_tonevol (f : Nat) : (s.fitFrame f).tonevol = s.tonevol := rfl
@[simp] theorem fitFrame_ecnt (f : Nat) : (s.fitFrame f).ecnt = s.ecnt := rfl
@[simp] theorem fitFrame_fcnt (f : Nat) : (s.fitFrame f).fcnt = s.fcnt := rfl
@[simp] theorem fitFrame_synccnt (f : Nat) : (s.fitFrame f).synccnt = s.synccnt := rfl
@[simp] theorem fitFrame_fstart (f : Nat) : (s.fitFrame f).fstart = s.fstart := rfl
@[simp] theorem fitFrame_fend (f : Nat) : (s.fitFrame f).fend = s.fend := rfl
@[simp] theorem fitFrame_clipcnt (f : Nat) : (s.fitFrame f).clipcnt = s.clipcnt := rfl
@[simp] theorem fitFrame_slope (f : Nat) : (s.fitFrame f).slope = .val (fitLine (s.frameAt f)).1 := rfl
@[simp] theorem fitFrame_intercept (f : Nat) : (s.fitFrame f).intercept = .val (fitLine (s.frameAt f)).2 := rfl
@[simp] theorem fitFrame_xmed (f : Nat) : (s.fitFrame f).xmed = s.xmed := rfl
@[simp] theorem fitFrame_cancamp (f : Nat) : (s.fitFrame f).cancamp = s.cancamp := rfl
@[simp] theorem fitFrame_resistance (f : Nat) : (s.fitFrame f).resistance = s.resistance := rfl
@[simp] theorem fitFrame_temperature (f : Nat) : (s.fitFrame f).temperature = s.temperature := rfl
@[simp] theorem fitFrame_nframes (f : Nat) : (s.fitFrame f).nframes = s.nframes := rfl
@[simp] theorem fitFrame_error (f : Nat) : (s.fitFrame f).error = s.error := rfl
@[simp] theorem fitFrame_silence (f : Nat) : (s.fitFrame f).silence = s.silence := rfl
@[simp] theorem fitFrame_tonelvl (f : Nat) : (s.fitFrame f).tonelvl = s.tonelvl := rfl
@[simp] theorem fitFrame_leftamp (f : Nat) : (s.fitFrame f).leftamp = s.leftamp := rfl
@[simp] theorem fitFrame_rightamp (f : Nat) : (s.fitFrame f).rightamp = s.rightamp := rfl
@[simp] theorem fitFrame_trimstart (f : Nat) : (s.fitFrame f).trimstart = s.trimstart := rfl
@[simp] theorem fitFrame_trimend (f : Nat) : (s.fitFrame f).trimend = s.trimend := rfl
@[simp] theorem fitFrame_mem (f : Nat) : (s.fitFrame f).mem = s.mem := rfl
@[simp] theorem fitFrame_xi (f : Nat) : (s.fitFrame f).xi = s.xi := rfl
@[simp] theorem fitFrame_ibufEpoch (f : Nat) : (s.fitFrame f).ibufEpoch = s.ibufEpoch := rfl
@[simp] theorem fitFrame_obufEpoch (f : Nat) : (s.fitFrame f).obufEpoch = s.obufEpoch := rfl
@[simp] theorem fitFrame_evtEpoch (f : Nat) : (s.fitFrame f).evtEpoch = s.evtEpoch := rfl
@[simp] theorem fitFrame_frmEpoch (f : Nat) : (s.fitFrame f).frmEpoch = s.frmEpoch := rfl
@[simp] theorem fitFrame_draws (f : Nat) : (s.fitFrame f).draws = s.draws := rfl
@[simp] theorem fitFrame_rdata (f : Nat) : (s.fitFrame f).rdata = s.rdata := rfl
@[simp] theorem fitFrame_agenda (f : Nat) : (s.fitFrame f).agenda = s.agenda := rfl

/-! ## combine -/

@[simp] theorem combine_cmd (t : Rat) : (s.combine t).cmd = s.cmd := rfl
@[simp] theorem combine_busy (t : Rat) : (s.combine t).busy = s.busy := rfl
@[simp] theorem combine_done (t : Rat) : (s.combine t).done = s.done := rfl
@[simp] theorem combine_haz (t : Rat) : (s.combine t).haz = s.haz := rfl
@[simp] theorem combine_ut (t : Rat) : (s.combine t).ut = s.ut := rfl
@[simp] theorem combine_pstate (t : Rat) : (s.combine t).pstate = s.pstate := rfl
@[simp] theorem combine_fault (t : Rat) : (s.combine t).fault = s.fault := rfl
@[simp] theorem combine_ilen (t : Rat) : (s.combine t).ilen = s.ilen := rfl
@[simp] theorem combine_olen (t : Rat) : (s.combine t).olen = s.olen := rfl
@[simp] theorem combine_ncells (t : Rat) : (s.combine t).ncells = s.ncells := rfl
@[simp] theorem combine_ppcell (t : Rat) : (s.combine t).ppcell = s.ppcell := rfl
@[simp] theorem combine_syncidx (t : Rat) : (s.combine t).syncidx = s.syncidx := rfl
@[simp] theorem combine_freq (t : Rat) : (s.combine t).freq = s.freq := rfl
@[simp] theorem combine_refvol (t : Rat) : (s.combine t).refvol = s.refvol := rfl
@[simp] theorem combine_maxvol (t : Rat) : (s.combine t).maxvol = s.maxvol := rfl
@[simp] theorem combine_minvol (t : Rat) : (s.combine t).minvol = s.minvol := rfl
@[simp] theorem combine_dur (t : Rat) : (s.combine t).dur = s.dur := rfl
@[simp] theorem combine_tonevol (t : Rat) : (s.combine t).tonevol = s.tonevol := rfl
@[simp] theorem combine_ecnt (t : Rat) : (s.combine t).ecnt = s.ecnt := rfl
@[simp] theorem combine_fcnt (t : Rat) : (s.combine t).fcnt = s.fcnt := rfl
@[simp] theorem combine_synccnt (t : Rat) : (s.combine t).synccnt = s.synccnt := rfl
@[simp] theorem combine_fstart (t : Rat) : (s.combine t).fstart = s.fstart := rfl
@[simp] theorem combine_fend (t : Rat) : (s.combine t).fend = s.fend := rfl
@[simp] theorem combine_clipcnt (t : Rat) : (s.combine t).clipcnt = s.clipcnt := rfl
@[simp] theorem combine_slope (t : Rat) : (s.combine t).slope = s.slope := rfl
@[simp] theorem combine_intercept (t : Rat) : (s.combine t).intercept = s.intercept := rfl
@[simp] theorem combine_xmed (t : Rat) : (s.combine t).xmed = .val t := rfl
@[simp] theorem combine_cancamp (t : Rat) : (s.combine t).cancamp = .val (cancellation t) := rfl
@[simp] theorem combine_resistance (t : Rat) : (s.combine t).resistance = .val (cancellation t / Config.referenceAmplitude * Config.refResistance) := rfl
@[simp] theorem combine_temperature (t : Rat) : (s.combine t).temperature = s.temperature := rfl
@[simp] theorem combine_nframes (t : Rat) : (s.combine t).nframes = s.nframes := rfl
@[simp] theorem combine_error (t : Rat) : (s.combine t).error = s.error := rfl
@[simp] theorem combine_silence (t : Rat) : (s.combine t).silence = s.silence := rfl
@[simp] theorem combine_tonelvl (t : Rat) : (s.combine t).tonelvl = s.tonelvl := rfl
@[simp] theorem combine_leftamp (t : Rat) : (s.combine t).leftamp = s.leftamp := rfl
@[simp] theorem combine_rightamp (t : Rat) : (s.combine t).rightamp = s.rightamp := rfl
@[simp] theorem combine_trimstart (t : Rat) : (s.combine t).trimstart = s.trimstart := rfl
@[simp] theorem combine_trimend (t : Rat) : (s.combine t).trimend = s.trimend := rfl
@[simp] theorem combine_mem (t : Rat) : (s.combine t).mem = s.mem := rfl
@[simp] theorem combine_xi (t : Rat) : (s.combine t).xi = s.xi := rfl
@[simp] theorem combine_ibufEpoch (t : Rat) : (s.combine t).ibufEpoch = s.ibufEpoch := rfl
@[simp] theorem combine_obufEpoch (t : Rat) : (s.combine t).obufEpoch = s.obufEpoch := rfl
@[simp] theorem combine_evtEpoch (t : Rat) : (s.combine t).evtEpoch = s.evtEpoch := rfl
@[simp] theorem combine_frmEpoch (t : Rat) : (s.combine t).frmEpoch = s.frmEpoch := rfl
@[simp] theorem combine_draws (t : Rat) : (s.combine t).draws = s.draws := rfl
@[simp] theorem combine_rdata (t : Rat) : (s.combine t).rdata = s.rdata := rfl
@[simp] theorem combine_agenda (t : Rat) : (s.combine t).agenda = s.agenda := rfl

/-! ## lookUp -/

@[simp] theorem lookUp_cmd : (s.lookUp).cmd = s.cmd := rfl
@[simp] theorem lookUp_busy : (s.lookUp).busy = s.busy := rfl
@[simp] theorem lookUp_done : (s.lookUp).done = s.done := rfl
@[simp] theorem lookUp_haz : (s.lookUp).haz = s.haz := rfl
@[simp] theorem lookUp_ut : (s.lookUp).ut = decide (temperatureFor Config.ntcTable s.resistance = .nan) := rfl
@[simp] theorem lookUp_pstate : (s.lookUp).pstate = s.pstate := rfl
@[simp] theorem lookUp_fault : (s.lookUp).fault = s.fault := rfl
@[simp] theorem lookUp_ilen : (s.lookUp).ilen = s.ilen := rfl
@[simp] theorem lookUp_olen : (s.lookUp).olen = s.olen := rfl
@[simp] theorem lookUp_ncells : (s.lookUp).ncells = s.ncells := rfl
@[simp] theorem lookUp_ppcell : (s.lookUp).ppcell = s.ppcell := rfl
@[simp] theorem lookUp_syncidx : (s.lookUp).syncidx = s.syncidx := rfl
@[simp] theorem lookUp_freq : (s.lookUp).freq = s.freq := rfl
@[simp] theorem lookUp_refvol : (s.lookUp).refvol = s.refvol := rfl
@[simp] theorem lookUp_maxvol : (s.lookUp).maxvol = s.maxvol := rfl
@[simp] theorem lookUp_minvol : (s.lookUp).minvol = s.minvol := rfl
@[simp] theorem lookUp_dur : (s.lookUp).dur = s.dur := rfl
@[simp] theorem lookUp_tonevol : (s.lookUp).tonevol = s.tonevol := rfl
@[simp] theorem lookUp_ecnt : (s.lookUp).ecnt = s.ecnt := rfl
@[simp] theorem lookUp_fcnt : (s.lookUp).fcnt = s.fcnt := rfl
@[simp] theorem lookUp_synccnt : (s.lookUp).synccnt = s.synccnt := rfl
@[simp] theorem lookUp_fstart : (s.lookUp).fstart = s.fstart := rfl
@[simp] theorem lookUp_fend : (s.lookUp).fend = s.fend := rfl
@[simp] theorem lookUp_clipcnt : (s.lookUp).clipcnt = s.clipcnt := rfl
@[simp] theorem lookUp_slope : (s.lookUp).slope = s.slope := rfl
@[simp] theorem lookUp_intercept : (s.lookUp).intercept = s.intercept := rfl
@[simp] theorem lookUp_xmed : (s.lookUp).xmed = s.xmed := rfl
@[simp] theorem lookUp_cancamp : (s.lookUp).cancamp = s.cancamp := rfl
@[simp] theorem lookUp_resistance : (s.lookUp).resistance = s.resistance := rfl
@[simp] theorem lookUp_temperature : (s.lookUp).temperature = temperatureFor Config.ntcTable s.resistance := rfl
@[simp] theorem lookUp_nframes : (s.lookUp).nframes = s.nframes := rfl
@[simp] theorem lookUp_error : (s.lookUp).error = s.error := rfl
@[simp] theorem lookUp_silence : (s.lookUp).silence = s.silence := rfl
@[simp] theorem lookUp_tonelvl : (s.lookUp).tonelvl = s.tonelvl := rfl
@[simp] theorem lookUp_leftamp : (s.lookUp).leftamp = s.leftamp := rfl
@[simp] theorem lookUp_rightamp : (s.lookUp).rightamp = s.rightamp := rfl
@[simp] theorem lookUp_trimstart : (s.lookUp).trimstart = s.trimstart := rfl
@[simp] theorem lookUp_trimend : (s.lookUp).trimend = s.trimend := rfl
@[simp] theorem lookUp_mem : (s.lookUp).mem = s.mem := rfl
@[simp] theorem lookUp_xi : (s.lookUp).xi = s.xi := rfl
@[simp] theorem lookUp_ibufEpoch : (s.lookUp).ibufEpoch = s.ibufEpoch := rfl
@[simp] theorem lookUp_obufEpoch : (s.lookUp).obufEpoch = s.obufEpoch := rfl
@[simp] theorem lookUp_evtEpoch : (s.lookUp).evtEpoch = s.evtEpoch := rfl
@[simp] theorem lookUp_frmEpoch : (s.lookUp).frmEpoch = s.frmEpoch := rfl
@[simp] theorem lookUp_draws : (s.lookUp).draws = s.draws := rfl
@[simp] theorem lookUp_rdata : (s.lookUp).rdata = s.rdata := rfl
@[simp] theorem lookUp_agenda : (s.lookUp).agenda = s.agenda := rfl

/-! ## report -/

@[simp] theorem report_cmd (n : Word) : (s.report n).cmd = s.cmd := rfl
@[simp] theorem report_busy (n : Word) : (s.report n).busy = s.busy := rfl
@[simp] theorem report_done (n : Word) : (s.report n).done = s.done := rfl
@[simp] theorem report_haz (n : Word) : (s.report n).haz = s.haz := rfl
@[simp] theorem report_ut (n : Word) : (s.report n).ut = decide (temperatureFor Config.ntcTable s.resistance = .nan) := rfl
@[simp] theorem report_pstate (n : Word) : (s.report n).pstate = s.pstate := rfl
@[simp] theorem report_fault (n : Word) : (s.report n).fault = s.fault := rfl
@[simp] theorem report_ilen (n : Word) : (s.report n).ilen = s.ilen := rfl
@[simp] theorem report_olen (n : Word) : (s.report n).olen = s.olen := rfl
@[simp] theorem report_ncells (n : Word) : (s.report n).ncells = s.ncells := rfl
@[simp] theorem report_ppcell (n : Word) : (s.report n).ppcell = s.ppcell := rfl
@[simp] theorem report_syncidx (n : Word) : (s.report n).syncidx = s.syncidx := rfl
@[simp] theorem report_freq (n : Word) : (s.report n).freq = s.freq := rfl
@[simp] theorem report_refvol (n : Word) : (s.report n).refvol = s.refvol := rfl
@[simp] theorem report_maxvol (n : Word) : (s.report n).maxvol = s.maxvol := rfl
@[simp] theorem report_minvol (n : Word) : (s.report n).minvol = s.minvol := rfl
@[simp] theorem report_dur (n : Word) : (s.report n).dur = s.dur := rfl
@[simp] theorem report_tonevol (n : Word) : (s.report n).tonevol = s.tonevol := rfl
@[simp] theorem report_ecnt (n : Word) : (s.report n).ecnt = s.ecnt := rfl
@[simp] theorem report_fcnt (n : Word) : (s.report n).fcnt = s.fcnt := rfl
@[simp] theorem report_synccnt (n : Word) : (s.report n).synccnt = s.synccnt := rfl
@[simp] theorem report_fstart (n : Word) : (s.report n).fstart = s.fstart := rfl
@[simp] theorem report_fend (n : Word) : (s.report n).fend = s.fend := rfl
@[simp] theorem report_clipcnt (n : Word) : (s.report n).clipcnt = s.clipcnt := rfl
@[simp] theorem report_slope (n : Word) : (s.report n).slope = s.slope := rfl
@[simp] theorem report_intercept (n : Word) : (s.report n).intercept = s.intercept := rfl
@[simp] theorem report_xmed (n : Word) : (s.report n).xmed = s.xmed := rfl
@[simp] theorem report_cancamp (n : Word) : (s.report n).cancamp = s.cancamp := rfl
@[simp] theorem report_resistance (n : Word) : (s.report n).resistance = s.resistance := rfl
@[simp] theorem report_temperature (n : Word) : (s.report n).temperature = temperatureFor Config.ntcTable s.resistance := rfl
@[simp] theorem report_nframes (n : Word) : (s.report n).nframes = n := rfl
@[simp] theorem report_error (n : Word) : (s.report n).error = .none := rfl
@[simp] theorem report_silence (n : Word) : (s.report n).silence = s.silence := rfl
@[simp] theorem report_tonelvl (n : Word) : (s.report n).tonelvl = s.tonelvl := rfl
@[simp] theorem report_leftamp (n : Word) : (s.report n).leftamp = s.leftamp := rfl
@[simp] theorem report_rightamp (n : Word) : (s.report n).rightamp = s.rightamp := rfl
@[simp] theorem report_trimstart (n : Word) : (s.report n).trimstart = s.trimstart := rfl
@[simp] theorem report_trimend (n : Word) : (s.report n).trimend = s.trimend := rfl
@[simp] theorem report_mem (n : Word) : (s.report n).mem = s.mem := rfl
@[simp] theorem report_xi (n : Word) : (s.report n).xi = s.xi := rfl
@[simp] theorem report_ibufEpoch (n : Word) : (s.report n).ibufEpoch = s.ibufEpoch := rfl
@[simp] theorem report_obufEpoch (n : Word) : (s.report n).obufEpoch = s.obufEpoch := rfl
@[simp] theorem report_evtEpoch (n : Word) : (s.report n).evtEpoch = s.evtEpoch := rfl
@[simp] theorem report_frmEpoch (n : Word) : (s.report n).frmEpoch = s.frmEpoch := rfl
@[simp] theorem report_draws (n : Word) : (s.report n).draws = s.draws := rfl
@[simp] theorem report_rdata (n : Word) : (s.report n).rdata = s.rdata := rfl
@[simp] theorem report_agenda (n : Word) : (s.report n).agenda = s.agenda := rfl

/-! ## countClipping -/

@[simp] theorem countClipping_cmd : (s.countClipping).cmd = s.cmd := rfl
@[simp] theorem countClipping_busy : (s.countClipping).busy = s.busy := rfl
@[simp] theorem countClipping_done : (s.countClipping).done = s.done := rfl
@[simp] theorem countClipping_haz : (s.countClipping).haz = s.haz := rfl
@[simp] theorem countClipping_ut : (s.countClipping).ut = s.ut := rfl
@[simp] theorem countClipping_pstate : (s.countClipping).pstate = s.pstate := rfl
@[simp] theorem countClipping_fault : (s.countClipping).fault = s.fault := rfl
@[simp] theorem countClipping_ilen : (s.countClipping).ilen = s.ilen := rfl
@[simp] theorem countClipping_olen : (s.countClipping).olen = s.olen := rfl
@[simp] theorem countClipping_ncells : (s.countClipping).ncells = s.ncells := rfl
@[simp] theorem countClipping_ppcell : (s.countClipping).ppcell = s.ppcell := rfl
@[simp] theorem countClipping_syncidx : (s.countClipping).syncidx = s.syncidx := rfl
@[simp] theorem countClipping_freq : (s.countClipping).freq = s.freq := rfl
@[simp] theorem countClipping_refvol : (s.countClipping).refvol = s.refvol := rfl
@[simp] theorem countClipping_maxvol : (s.countClipping).maxvol = s.maxvol := rfl
@[simp] theorem countClipping_minvol : (s.countClipping).minvol = s.minvol := rfl
@[simp] theorem countClipping_dur : (s.countClipping).dur = s.dur := rfl
@[simp] theorem countClipping_tonevol : (s.countClipping).tonevol = s.tonevol := rfl
@[simp] theorem countClipping_ecnt : (s.countClipping).ecnt = s.ecnt := rfl
@[simp] theorem countClipping_fcnt : (s.countClipping).fcnt = s.fcnt := rfl
@[simp] theorem countClipping_synccnt : (s.countClipping).synccnt = s.synccnt := rfl
@[simp] theorem countClipping_fstart : (s.countClipping).fstart = s.fstart := rfl
@[simp] theorem countClipping_fend : (s.countClipping).fend = s.fend := rfl
@[simp] theorem countClipping_clipcnt : (s.countClipping).clipcnt = BitVec.ofNat 32 (clipCount s.buffer) := rfl
@[simp] theorem countClipping_slope : (s.countClipping).slope = s.slope := rfl
@[simp] theorem countClipping_intercept : (s.countClipping).intercept = s.intercept := rfl
@[simp] theorem countClipping_xmed : (s.countClipping).xmed = s.xmed := rfl
@[simp] theorem countClipping_cancamp : (s.countClipping).cancamp = s.cancamp := rfl
@[simp] theorem countClipping_resistance : (s.countClipping).resistance = s.resistance := rfl
@[simp] theorem countClipping_temperature : (s.countClipping).temperature = s.temperature := rfl
@[simp] theorem countClipping_nframes : (s.countClipping).nframes = s.nframes := rfl
@[simp] theorem countClipping_error : (s.countClipping).error = s.error := rfl
@[simp] theorem countClipping_silence : (s.countClipping).silence = s.silence := rfl
@[simp] theorem countClipping_tonelvl : (s.countClipping).tonelvl = s.tonelvl := rfl
@[simp] theorem countClipping_leftamp : (s.countClipping).leftamp = s.leftamp := rfl
@[simp] theorem countClipping_rightamp : (s.countClipping).rightamp = s.rightamp := rfl
@[simp] theorem countClipping_trimstart : (s.countClipping).trimstart = s.trimstart := rfl
@[simp] theorem countClipping_trimend : (s.countClipping).trimend = s.trimend := rfl
@[simp] theorem countClipping_mem : (s.countClipping).mem = s.mem := rfl
@[simp] theorem countClipping_xi : (s.countClipping).xi = s.xi := rfl
@[simp] theorem countClipping_ibufEpoch : (s.countClipping).ibufEpoch = s.ibufEpoch := rfl
@[simp] theorem countClipping_obufEpoch : (s.countClipping).obufEpoch = s.obufEpoch := rfl
@[simp] theorem countClipping_evtEpoch : (s.countClipping).evtEpoch = s.evtEpoch := rfl
@[simp] theorem countClipping_frmEpoch : (s.countClipping).frmEpoch = s.frmEpoch := rfl
@[simp] theorem countClipping_draws : (s.countClipping).draws = s.draws := rfl
@[simp] theorem countClipping_rdata : (s.countClipping).rdata = s.rdata := rfl
@[simp] theorem countClipping_agenda : (s.countClipping).agenda = s.agenda := rfl

/-! ## putSync -/

@[simp] theorem putSync_cmd (st : SyncState) : (s.putSync st).cmd = s.cmd := rfl
@[simp] theorem putSync_busy (st : SyncState) : (s.putSync st).busy = s.busy := rfl
@[simp] theorem putSync_done (st : SyncState) : (s.putSync st).done = s.done := rfl
@[simp] theorem putSync_haz (st : SyncState) : (s.putSync st).haz = s.haz := rfl
@[simp] theorem putSync_ut (st : SyncState) : (s.putSync st).ut = s.ut := rfl
@[simp] theorem putSync_pstate (st : SyncState) : (s.putSync st).pstate = s.pstate := rfl
@[simp] theorem putSync_fault (st : SyncState) : (s.putSync st).fault = s.fault := rfl
@[simp] theorem putSync_ilen (st : SyncState) : (s.putSync st).ilen = s.ilen := rfl
@[simp] theorem putSync_olen (st : SyncState) : (s.putSync st).olen = s.olen := rfl
@[simp] theorem putSync_ncells (st : SyncState) : (s.putSync st).ncells = s.ncells := rfl
@[simp] theorem putSync_ppcell (st : SyncState) : (s.putSync st).ppcell = s.ppcell := rfl
@[simp] theorem putSync_syncidx (st : SyncState) : (s.putSync st).syncidx = s.syncidx := rfl
@[simp] theorem putSync_freq (st : SyncState) : (s.putSync st).freq = s.freq := rfl
@[simp] theorem putSync_refvol (st : SyncState) : (s.putSync st).refvol = s.refvol := rfl
@[simp] theorem putSync_maxvol (st : SyncState) : (s.putSync st).maxvol = s.maxvol := rfl
@[simp] theorem putSync_minvol (st : SyncState) : (s.putSync st).minvol = s.minvol := rfl
@[simp] theorem putSync_dur (st : SyncState) : (s.putSync st).dur = s.dur := rfl
@[simp] theorem putSync_tonevol (st : SyncState) : (s.putSync st).tonevol = s.tonevol := rfl
@[simp] theorem putSync_ecnt (st : SyncState) : (s.putSync st).ecnt = s.ecnt := rfl
@[simp] theorem putSync_fcnt (st : SyncState) : (s.putSync st).fcnt = s.fcnt := rfl
@[simp] theorem putSync_synccnt (st : SyncState) : (s.putSync st).synccnt = BitVec.ofNat 32 st.syncCount := rfl
@[simp] theorem putSync_fstart (st : SyncState) : (s.putSync st).fstart = BitVec.ofNat 32 st.frameStart := rfl
@[simp] theorem putSync_fend (st : SyncState) : (s.putSync st).fend = BitVec.ofNat 32 st.frameEnd := rfl
@[simp] theorem putSync_clipcnt (st : SyncState) : (s.putSync st).clipcnt = s.clipcnt := rfl
@[simp] theorem putSync_slope (st : SyncState) : (s.putSync st).slope = s.slope := rfl
@[simp] theorem putSync_intercept (st : SyncState) : (s.putSync st).intercept = s.intercept := rfl
@[simp] theorem putSync_xmed (st : SyncState) : (s.putSync st).xmed = s.xmed := rfl
@[simp] theorem putSync_cancamp (st : SyncState) : (s.putSync st).cancamp = s.cancamp := rfl
@[simp] theorem putSync_resistance (st : SyncState) : (s.putSync st).resistance = s.resistance := rfl
@[simp] theorem putSync_temperature (st : SyncState) : (s.putSync st).temperature = s.temperature := rfl
@[simp] theorem putSync_nframes (st : SyncState) : (s.putSync st).nframes = s.nframes := rfl
@[simp] theorem putSync_error (st : SyncState) : (s.putSync st).error = s.error := rfl
@[simp] theorem putSync_silence (st : SyncState) : (s.putSync st).silence = s.silence := rfl
@[simp] theorem putSync_tonelvl (st : SyncState) : (s.putSync st).tonelvl = s.tonelvl := rfl
@[simp] theorem putSync_leftamp (st : SyncState) : (s.putSync st).leftamp = s.leftamp := rfl
@[simp] theorem putSync_rightamp (st : SyncState) : (s.putSync st).rightamp = s.rightamp := rfl
@[simp] theorem putSync_trimstart (st : SyncState) : (s.putSync st).trimstart = s.trimstart := rfl
@[simp] theorem putSync_trimend (st : SyncState) : (s.putSync st).trimend = s.trimend := rfl
@[simp] theorem putSync_mem (st : SyncState) : (s.putSync st).mem = s.mem := rfl
@[simp] theorem putSync_xi (st : SyncState) : (s.putSync st).xi = s.xi := rfl
@[simp] theorem putSync_ibufEpoch (st : SyncState) : (s.putSync st).ibufEpoch = s.ibufEpoch := rfl
@[simp] theorem putSync_obufEpoch (st : SyncState) : (s.putSync st).obufEpoch = s.obufEpoch := rfl
@[simp] theorem putSync_evtEpoch (st : SyncState) : (s.putSync st).evtEpoch = s.evtEpoch := rfl
@[simp] theorem putSync_frmEpoch (st : SyncState) : (s.putSync st).frmEpoch = s.frmEpoch := rfl
@[simp] theorem putSync_draws (st : SyncState) : (s.putSync st).draws = s.draws := rfl
@[simp] theorem putSync_rdata (st : SyncState) : (s.putSync st).rdata = s.rdata := rfl
@[simp] theorem putSync_agenda (st : SyncState) : (s.putSync st).agenda = s.agenda := rfl

/-! ## putTrim -/

@[simp] theorem putTrim_cmd (a e : Nat) : (s.putTrim a e).cmd = s.cmd := rfl
@[simp] theorem putTrim_busy (a e : Nat) : (s.putTrim a e).busy = s.busy := rfl
@[simp] theorem putTrim_done (a e : Nat) : (s.putTrim a e).done = s.done := rfl
@[simp] theorem putTrim_haz (a e : Nat) : (s.putTrim a e).haz = s.haz := rfl
@[simp] theorem putTrim_ut (a e : Nat) : (s.putTrim a e).ut = s.ut := rfl
@[simp] theorem putTrim_pstate (a e : Nat) : (s.putTrim a e).pstate = s.pstate := rfl
@[simp] theorem putTrim_fault (a e : Nat) : (s.putTrim a e).fault = s.fault := rfl
@[simp] theorem putTrim_ilen (a e : Nat) : (s.putTrim a e).ilen = s.ilen := rfl
@[simp] theorem putTrim_olen (a e : Nat) : (s.putTrim a e).olen = s.olen := rfl
@[simp] theorem putTrim_ncells (a e : Nat) : (s.putTrim a e).ncells = s.ncells := rfl
@[simp] theorem putTrim_ppcell (a e : Nat) : (s.putTrim a e).ppcell = s.ppcell := rfl
@[simp] theorem putTrim_syncidx (a e : Nat) : (s.putTrim a e).syncidx = s.syncidx := rfl
@[simp] theorem putTrim_freq (a e : Nat) : (s.putTrim a e).freq = s.freq := rfl
@[simp] theorem putTrim_refvol (a e : Nat) : (s.putTrim a e).refvol = s.refvol := rfl
@[simp] theorem putTrim_maxvol (a e : Nat) : (s.putTrim a e).maxvol = s.maxvol := rfl
@[simp] theorem putTrim_minvol (a e : Nat) : (s.putTrim a e).minvol = s.minvol := rfl
@[simp] theorem putTrim_dur (a e : Nat) : (s.putTrim a e).dur = s.dur := rfl
@[simp] theorem putTrim_tonevol (a e : Nat) : (s.putTrim a e).tonevol = s.tonevol := rfl
@[simp] theorem putTrim_ecnt (a e : Nat) : (s.putTrim a e).ecnt = s.ecnt := rfl
@[simp] theorem putTrim_fcnt (a e : Nat) : (s.putTrim a e).fcnt = s.fcnt := rfl
@[simp] theorem putTrim_synccnt (a e : Nat) : (s.putTrim a e).synccnt = s.synccnt := rfl
@[simp] theorem putTrim_fstart (a e : Nat) : (s.putTrim a e).fstart = s.fstart := rfl
@[simp] theorem putTrim_fend (a e : Nat) : (s.putTrim a e).fend = s.fend := rfl
@[simp] theorem putTrim_clipcnt (a e : Nat) : (s.putTrim a e).clipcnt = s.clipcnt := rfl
@[simp] theorem putTrim_slope (a e : Nat) : (s.putTrim a e).slope = s.slope := rfl
@[simp] theorem putTrim_intercept (a e : Nat) : (s.putTrim a e).intercept = s.intercept := rfl
@[simp] theorem putTrim_xmed (a e : Nat) : (s.putTrim a e).xmed = s.xmed := rfl
@[simp] theorem putTrim_cancamp (a e : Nat) : (s.putTrim a e).cancamp = s.cancamp := rfl
@[simp] theorem putTrim_resistance (a e : Nat) : (s.putTrim a e).resistance = s.resistance := rfl
@[simp] theorem putTrim_temperature (a e : Nat) : (s.putTrim a e).temperature = s.temperature := rfl
@[simp] theorem putTrim_nframes (a e : Nat) : (s.putTrim a e).nframes = s.nframes := rfl
@[simp] theorem putTrim_error (a e : Nat) : (s.putTrim a e).error = s.error := rfl
@[simp] theorem putTrim_silence (a e : Nat) : (s.putTrim a e).silence = s.silence := rfl
@[simp] theorem putTrim_tonelvl (a e : Nat) : (s.putTrim a e).tonelvl = s.tonelvl := rfl
@[simp] theorem putTrim_leftamp (a e : Nat) : (s.putTrim a e).leftamp = s.leftamp := rfl
@[simp] theorem putTrim_rightamp (a e : Nat) : (s.putTrim a e).rightamp = s.rightamp := rfl
@[simp] theorem putTrim_trimstart (a e : Nat) : (s.putTrim a e).trimstart = BitVec.ofNat 32 a := rfl
@[simp] theorem putTrim_trimend (a e : Nat) : (s.putTrim a e).trimend = BitVec.ofNat 32 e := rfl
@[simp] theorem putTrim_mem (a e : Nat) : (s.putTrim a e).mem = s.mem := rfl
@[simp] theorem putTrim_xi (a e : Nat) : (s.putTrim a e).xi = s.xi := rfl
@[simp] theorem putTrim_ibufEpoch (a e : Nat) : (s.putTrim a e).ibufEpoch = s.ibufEpoch := rfl
@[simp] theorem putTrim_obufEpoch (a e : Nat) : (s.putTrim a e).obufEpoch = s.obufEpoch := rfl
@[simp] theorem putTrim_evtEpoch (a e : Nat) : (s.putTrim a e).evtEpoch = s.evtEpoch := rfl
@[simp] theorem putTrim_frmEpoch (a e : Nat) : (s.putTrim a e).frmEpoch = s.frmEpoch := rfl
@[simp] theorem putTrim_draws (a e : Nat) : (s.putTrim a e).draws = s.draws := rfl
@[simp] theorem putTrim_rdata (a e : Nat) : (s.putTrim a e).rdata = s.rdata := rfl
@[simp] theorem putTrim_agenda (a e : Nat) : (s.putTrim a e).agenda = s.agenda := rfl

/-! ## putAmplitudes -/

@[simp] theorem putAmplitudes_cmd (l r : Int) : (s.putAmplitudes l r).cmd = s.cmd := rfl
@[simp] theorem putAmplitudes_busy (l r : Int) : (s.putAmplitudes l r).busy = s.busy := rfl
@[simp] theorem putAmplitudes_done (l r : Int) : (s.putAmplitudes l r).done = s.done := rfl
@[simp] theorem putAmplitudes_haz (l r : Int) : (s.putAmplitudes l r).haz = s.haz := rfl
@[simp] theorem putAmplitudes_ut (l r : Int) : (s.putAmplitudes l r).ut = s.ut := rfl
@[simp] theorem putAmplitudes_pstate (l r : Int) : (s.putAmplitudes l r).pstate = s.pstate := rfl
@[simp] theorem putAmplitudes_fault (l r : Int) : (s.putAmplitudes l r).fault = s.fault := rfl
@[simp] theorem putAmplitudes_ilen (l r : Int) : (s.putAmplitudes l r).ilen = s.ilen := rfl
@[simp] theorem putAmplitudes_olen (l r : Int) : (s.putAmplitudes l r).olen = s.olen := rfl
@[simp] theorem putAmplitudes_ncells (l r : Int) : (s.putAmplitudes l r).ncells = s.ncells := rfl
@[simp] theorem putAmplitudes_ppcell (l r : Int) : (s.putAmplitudes l r).ppcell = s.ppcell := rfl
@[simp] theorem putAmplitudes_syncidx (l r : Int) : (s.putAmplitudes l r).syncidx = s.syncidx := rfl
@[simp] theorem putAmplitudes_freq (l r : Int) : (s.putAmplitudes l r).freq = s.freq := rfl
@[simp] theorem putAmplitudes_refvol (l r : Int) : (s.putAmplitudes l r).refvol = s.refvol := rfl
@[simp] theorem putAmplitudes_maxvol (l r : Int) : (s.putAmplitudes l r).maxvol = s.maxvol := rfl
@[simp] theorem putAmplitudes_minvol (l r : Int) : (s.putAmplitudes l r).minvol = s.minvol := rfl
@[simp] theorem putAmplitudes_dur (l r : Int) : (s.putAmplitudes l r).dur = s.dur := rfl
@[simp] theorem putAmplitudes_tonevol (l r : Int) : (s.putAmplitudes l r).tonevol = s.tonevol := rfl
@[simp] theorem putAmplitudes_ecnt (l r : Int) : (s.putAmplitudes l r).ecnt = s.ecnt := rfl
@[simp] theorem putAmplitudes_fcnt (l r : Int) : (s.putAmplitudes l r).fcnt = s.fcnt := rfl
@[simp] theorem putAmplitudes_synccnt (l r : Int) : (s.putAmplitudes l r).synccnt = s.synccnt := rfl
@[simp] theorem putAmplitudes_fstart (l r : Int) : (s.putAmplitudes l r).fstart = s.fstart := rfl
@[simp] theorem putAmplitudes_fend (l r : Int) : (s.putAmplitudes l r).fend = s.fend := rfl
@[simp] theorem putAmplitudes_clipcnt (l r : Int) : (s.putAmplitudes l r).clipcnt = s.clipcnt := rfl
@[simp] theorem putAmplitudes_slope (l r : Int) : (s.putAmplitudes l r).slope = s.slope := rfl
@[simp] theorem putAmplitudes_intercept (l r : Int) : (s.putAmplitudes l r).intercept = s.intercept := rfl
@[simp] theorem putAmplitudes_xmed (l r : Int) : (s.putAmplitudes l r).xmed = s.xmed := rfl
@[simp] theorem putAmplitudes_cancamp (l r : Int) : (s.putAmplitudes l r).cancamp = s.cancamp := rfl
@[simp] theorem putAmplitudes_resistance (l r : Int) : (s.putAmplitudes l r).resistance = .val ((r : Rat) / (l : Rat) * Config.simpleScale) := rfl
@[simp] theorem putAmplitudes_temperature (l r : Int) : (s.putAmplitudes l r).temperature = s.temperature := rfl
@[simp] theorem putAmplitudes_nframes (l r : Int) : (s.putAmplitudes l r).nframes = s.nframes := rfl
@[simp] theorem putAmplitudes_error (l r : Int) : (s.putAmplitudes l r).error = s.error := rfl
@[simp] theorem putAmplitudes_silence (l r : Int) : (s.putAmplitudes l r).silence = s.silence := rfl
@[simp] theorem putAmplitudes_tonelvl (l r : Int) : (s.putAmplitudes l r).tonelvl = s.tonelvl := rfl
@[simp] theorem putAmplitudes_leftamp (l r : Int) : (s.putAmplitudes l r).leftamp = BitVec.ofInt 32 l := rfl
@[simp] theorem putAmplitudes_rightamp (l r : Int) : (s.putAmplitudes l r).rightamp = BitVec.ofInt 32 r := rfl
@[simp] theorem putAmplitudes_trimstart (l r : Int) : (s.putAmplitudes l r).trimstart = s.trimstart := rfl
@[simp] theorem putAmplitudes_trimend (l r : Int) : (s.putAmplitudes l r).trimend = s.trimend := rfl
@[simp] theorem putAmplitudes_mem (l r : Int) : (s.putAmplitudes l r).mem = s.mem := rfl
@[simp] theorem putAmplitudes_xi (l r : Int) : (s.putAmplitudes l r).xi = s.xi := rfl
@[simp] theorem putAmplitudes_ibufEpoch (l r : Int) : (s.putAmplitudes l r).ibufEpoch = s.ibufEpoch := rfl
@[simp] theorem putAmplitudes_obufEpoch (l r : Int) : (s.putAmplitudes l r).obufEpoch = s.obufEpoch := rfl
@[simp] theorem putAmplitudes_evtEpoch (l r : Int) : (s.putAmplitudes l r).evtEpoch = s.evtEpoch := rfl
@[simp] theorem putAmplitudes_frmEpoch (l r : Int) : (s.putAmplitudes l r).frmEpoch = s.frmEpoch := rfl
@[simp] theorem putAmplitudes_draws (l r : Int) : (s.putAmplitudes l r).draws = s.draws := rfl
@[simp] theorem putAmplitudes_rdata (l r : Int) : (s.putAmplitudes l r).rdata = s.rdata := rfl
@[simp] theorem putAmplitudes_agenda (l r : Int) : (s.putAmplitudes l r).agenda = s.agenda := rfl

/-! ## putSilence -/

@[simp] theorem putSilence_cmd (v : Nat) (p : PState) : (s.putSilence v p).cmd = s.cmd := rfl
@[simp] theorem putSilence_busy (v : Nat) (p : PState) : (s.putSilence v p).busy = s.busy := rfl
@[simp] theorem putSilence_done (v : Nat) (p : PState) : (s.putSilence v p).done = s.done := rfl
@[simp] theorem putSilence_haz (v : Nat) (p : PState) : (s.putSilence v p).haz = s.haz := rfl
@[simp] theorem putSilence_ut (v : Nat) (p : PState) : (s.putSilence v p).ut = s.ut := rfl
@[simp] theorem putSilence_pstate (v : Nat) (p : PState) : (s.putSilence v p).pstate = p := rfl
@[simp] theorem putSilence_fault (v : Nat) (p : PState) : (s.putSilence v p).fault = s.fault := rfl
@[simp] theorem putSilence_ilen (v : Nat) (p : PState) : (s.putSilence v p).ilen = s.ilen := rfl
@[simp] theorem putSilence_olen (v : Nat) (p : PState) : (s.putSilence v p).olen = s.olen := rfl
@[simp] theorem putSilence_ncells (v : Nat) (p : PState) : (s.putSilence v p).ncells = s.ncells := rfl
@[simp] theorem putSilence_ppcell (v : Nat) (p : PState) : (s.putSilence v p).ppcell = s.ppcell := rfl
@[simp] theorem putSilence_syncidx (v : Nat) (p : PState) : (s.putSilence v p).syncidx = s.syncidx := rfl
@[simp] theorem putSilence_freq (v : Nat) (p : PState) : (s.putSilence v p).freq = s.freq := rfl
@[simp] theorem putSilence_refvol (v : Nat) (p : PState) : (s.putSilence v p).refvol = s.refvol := rfl
@[simp] theorem putSilence_maxvol (v : Nat) (p : PState) : (s.putSilence v p).maxvol = s.maxvol := rfl
@[simp] theorem putSilence_minvol (v : Nat) (p : PState) : (s.putSilence v p).minvol = s.minvol := rfl
@[simp] theorem putSilence_dur (v : Nat) (p : PState) : (s.putSilence v p).dur = s.dur := rfl
@[simp] theorem putSilence_tonevol (v : Nat) (p : PState) : (s.putSilence v p).tonevol = s.tonevol := rfl
@[simp] theorem putSilence_ecnt (v : Nat) (p : PState) : (s.putSilence v p).ecnt = s.ecnt := rfl
@[simp] theorem putSilence_fcnt (v : Nat) (p : PState) : (s.putSilence v p).fcnt = s.fcnt := rfl
@[simp] theorem putSilence_synccnt (v : Nat) (p : PState) : (s.putSilence v p).synccnt = s.synccnt := rfl
@[simp] theorem putSilence_fstart (v : Nat) (p : PState) : (s.putSilence v p).fstart = s.fstart := rfl
@[simp] theorem putSilence_fend (v : Nat) (p : PState) : (s.putSilence v p).fend = s.fend := rfl
@[simp] theorem putSilence_clipcnt (v : Nat) (p : PState) : (s.putSilence v p).clipcnt = s.clipcnt := rfl
@[simp] theorem putSilence_slope (v : Nat) (p : PState) : (s.putSilence v p).slope = s.slope := rfl
@[simp] theorem putSilence_intercept (v : Nat) (p : PState) : (s.putSilence v p).intercept = s.intercept := rfl
@[simp] theorem putSilence_xmed (v : Nat) (p : PState) : (s.putSilence v p).xmed = s.xmed := rfl
@[simp] theorem putSilence_cancamp (v : Nat) (p : PState) : (s.putSilence v p).cancamp = s.cancamp := rfl
@[simp] theorem putSilence_resistance (v : Nat) (p : PState) : (s.putSilence v p).resistance = s.resistance := rfl
@[simp] theorem putSilence_temperature (v : Nat) (p : PState) : (s.putSilence v p).temperature = s.temperature := rfl
@[simp] theorem putSilence_nframes (v : Nat) (p : PState) : (s.putSilence v p).nframes = s.nframes := rfl
@[simp] theorem putSilence_error (v : Nat) (p : PState) : (s.putSilence v p).error = s.error := rfl
@[simp] theorem putSilence_silence (v : Nat) (p : PState) : (s.putSilence v p).silence = BitVec.ofNat 32 v := rfl
@[simp] theorem putSilence_tonelvl (v : Nat) (p : PState) : (s.putSilence v p).tonelvl = 0 := rfl
@[simp] theorem putSilence_leftamp (v : Nat) (p : PState) : (s.putSilence v p).leftamp = s.leftamp := rfl
@[simp] theorem putSilence_rightamp (v : Nat) (p : PState) : (s.putSilence v p).rightamp = s.rightamp := rfl
@[simp] theorem putSilence_trimstart (v : Nat) (p : PState) : (s.putSilence v p).trimstart = s.trimstart := rfl
@[simp] theorem putSilence_trimend (v : Nat) (p : PState) : (s.putSilence v p).trimend = s.trimend := rfl
@[simp] theorem putSilence_mem (v : Nat) (p : PState) : (s.putSilence v p).mem = s.mem := rfl
@[simp] theorem putSilence_xi (v : Nat) (p : PState) : (s.putSilence v p).xi = s.xi := rfl
@[simp] theorem putSilence_ibufEpoch (v : Nat) (p : PState) : (s.putSilence v p).ibufEpoch = s.ibufEpoch := rfl
@[simp] theorem putSilence_obufEpoch (v : Nat) (p : PState) : (s.putSilence v p).obufEpoch = s.obufEpoch := rfl
@[simp] theorem putSilence_evtEpoch (v : Nat) (p : PState) : (s.putSilence v p).evtEpoch = s.evtEpoch := rfl
@[simp] theorem putSilence_frmEpoch (v : Nat) (p : PState) : (s.putSilence v p).frmEpoch = s.frmEpoch := rfl
@[simp] theorem putSilence_draws (v : Nat) (p : PState) : (s.putSilence v p).draws = s.draws := rfl
@[simp] theorem putSilence_rdata (v : Nat) (p : PState) : (s.putSilence v p).rdata = s.rdata := rfl
@[simp] theorem putSilence_agenda (v : Nat) (p : PState) : (s.putSilence v p).agenda = s.agenda := rfl

/-! ## putTone -/

@[simp] theorem putTone_cmd (v : Nat) (p : PState) : (s.putTone v p).cmd = s.cmd := rfl
@[simp] theorem putTone_busy (v : Nat) (p : PState) : (s.putTone v p).busy = s.busy := rfl
@[simp] theorem putTone_done (v : Nat) (p : PState) : (s.putTone v p).done = s.done := rfl
@[simp] theorem putTone_haz (v : Nat) (p : PState) : (s.putTone v p).haz = s.haz := rfl
@[simp] theorem putTone_ut (v : Nat) (p : PState) : (s.putTone v p).ut = s.ut := rfl
@[simp] theorem putTone_pstate (v : Nat) (p : PState) : (s.putTone v p).pstate = p := rfl
@[simp] theorem putTone_fault (v : Nat) (p : PState) : (s.putTone v p).fault = s.fault := rfl
@[simp] theorem putTone_ilen (v : Nat) (p : PState) : (s.putTone v p).ilen = s.ilen := rfl
@[simp] theorem putTone_olen (v : Nat) (p : PState) : (s.putTone v p).olen = s.olen := rfl
@[simp] theorem putTone_ncells (v : Nat) (p : PState) : (s.putTone v p).ncells = s.ncells := rfl
@[simp] theorem putTone_ppcell (v : Nat) (p : PState) : (s.putTone v p).ppcell = s.ppcell := rfl
@[simp] theorem putTone_syncidx (v : Nat) (p : PState) : (s.putTone v p).syncidx = s.syncidx := rfl
@[simp] theorem putTone_freq (v : Nat) (p : PState) : (s.putTone v p).freq = s.freq := rfl
@[simp] theorem putTone_refvol (v : Nat) (p : PState) : (s.putTone v p).refvol = s.refvol := rfl
@[simp] theorem putTone_maxvol (v : Nat) (p : PState) : (s.putTone v p).maxvol = s.maxvol := rfl
@[simp] theorem putTone_minvol (v : Nat) (p : PState) : (s.putTone v p).minvol = s.minvol := rfl
@[simp] theorem putTone_dur (v : Nat) (p : PState) : (s.putTone v p).dur = s.dur := rfl
@[simp] theorem putTone_tonevol (v : Nat) (p : PState) : (s.putTone v p).tonevol = s.tonevol := rfl
@[simp] theorem putTone_ecnt (v : Nat) (p : PState) : (s.putTone v p).ecnt = s.ecnt := rfl
@[simp] theorem putTone_fcnt (v : Nat) (p : PState) : (s.putTone v p).fcnt = s.fcnt := rfl
@[simp] theorem putTone_synccnt (v : Nat) (p : PState) : (s.putTone v p).synccnt = s.synccnt := rfl
@[simp] theorem putTone_fstart (v : Nat) (p : PState) : (s.putTone v p).fstart = s.fstart := rfl
@[simp] theorem putTone_fend (v : Nat) (p : PState) : (s.putTone v p).fend = s.fend := rfl
@[simp] theorem putTone_clipcnt (v : Nat) (p : PState) : (s.putTone v p).clipcnt = s.clipcnt := rfl
@[simp] theorem putTone_slope (v : Nat) (p : PState) : (s.putTone v p).slope = s.slope := rfl
@[simp] theorem putTone_intercept (v : Nat) (p : PState) : (s.putTone v p).intercept = s.intercept := rfl
@[simp] theorem putTone_xmed (v : Nat) (p : PState) : (s.putTone v p).xmed = s.xmed := rfl
@[simp] theorem putTone_cancamp (v : Nat) (p : PState) : (s.putTone v p).cancamp = s.cancamp := rfl
@[simp] theorem putTone_resistance (v : Nat) (p : PState) : (s.putTone v p).resistance = s.resistance := rfl
@[simp] theorem putTone_temperature (v : Nat) (p : PState) : (s.putTone v p).temperature = s.temperature := rfl
@[simp] theorem putTone_nframes (v : Nat) (p : PState) : (s.putTone v p).nframes = s.nframes := rfl
@[simp] theorem putTone_error (v : Nat) (p : PState) : (s.putTone v p).error = s.error := rfl
@[simp] theorem putTone_silence (v : Nat) (p : PState) : (s.putTone v p).silence = s.silence := rfl
@[simp] theorem putTone_tonelvl (v : Nat) (p : PState) : (s.putTone v p).tonelvl = BitVec.ofNat 32 v := rfl
@[simp] theorem putTone_leftamp (v : Nat) (p : PState) : (s.putTone v p).leftamp = s.leftamp := rfl
@[simp] theorem putTone_rightamp (v : Nat) (p : PState) : (s.putTone v p).rightamp = s.rightamp := rfl
@[simp] theorem putTone_trimstart (v : Nat) (p : PState) : (s.putTone v p).trimstart = s.trimstart := rfl
@[simp] theorem putTone_trimend (v : Nat) (p : PState) : (s.putTone v p).trimend = s.trimend := rfl
@[simp] theorem putTone_mem (v : Nat) (p : PState) : (s.putTone v p).mem = s.mem := rfl
@[simp] theorem putTone_xi (v : Nat) (p : PState) : (s.putTone v p).xi = s.xi := rfl
@[simp] theorem putTone_ibufEpoch (v : Nat) (p : PState) : (s.putTone v p).ibufEpoch = s.ibufEpoch := rfl
@[simp] theorem putTone_obufEpoch (v : Nat) (p : PState) : (s.putTone v p).obufEpoch = s.obufEpoch := rfl
@[simp] theorem putTone_evtEpoch (v : Nat) (p : PState) : (s.putTone v p).evtEpoch = s.evtEpoch := rfl
@[simp] theorem putTone_frmEpoch (v : Nat) (p : PState) : (s.putTone v p).frmEpoch = s.frmEpoch := rfl
@[simp] theorem putTone_draws (v : Nat) (p : PState) : (s.putTone v p).draws = s.draws := rfl
@[simp] theorem putTone_rdata (v : Nat) (p : PState) : (s.putTone v p).rdata = s.rdata := rfl
@[simp] theorem putTone_agenda (v : Nat) (p : PState) : (s.putTone v p).agenda = s.agenda := rfl

/-! ## putAbsent -/

@[simp] theorem putAbsent_cmd : (s.putAbsent).cmd = s.cmd := rfl
@[simp] theorem putAbsent_busy : (s.putAbsent).busy = s.busy := rfl
@[simp] theorem putAbsent_done : (s.putAbsent).done = s.done := rfl
@[simp] theorem putAbsent_haz : (s.putAbsent).haz = s.haz := rfl
@[simp] theorem putAbsent_ut : (s.putAbsent).ut = s.ut := rfl
@[simp] theorem putAbsent_pstate : (s.putAbsent).pstate = .absent := rfl
@[simp] theorem putAbsent_fault : (s.putAbsent).fault = s.fault := rfl
@[simp] theorem putAbsent_ilen : (s.putAbsent).ilen = s.ilen := rfl
@[simp] theorem putAbsent_olen : (s.putAbsent).olen = s.olen := rfl
@[simp] theorem putAbsent_ncells : (s.putAbsent).ncells = s.ncells := rfl
@[simp] theorem putAbsent_ppcell : (s.putAbsent).ppcell = s.ppcell := rfl
@[simp] theorem putAbsent_syncidx : (s.putAbsent).syncidx = s.syncidx := rfl
@[simp] theorem putAbsent_freq : (s.putAbsent).freq = s.freq := rfl
@[simp] theorem putAbsent_refvol : (s.putAbsent).refvol = s.refvol := rfl
@[simp] theorem putAbsent_maxvol : (s.putAbsent).maxvol = s.maxvol := rfl
@[simp] theorem putAbsent_minvol : (s.putAbsent).minvol = s.minvol := rfl
@[simp] theorem putAbsent_dur : (s.putAbsent).dur = s.dur := rfl
@[simp] theorem putAbsent_tonevol : (s.putAbsent).tonevol = s.tonevol := rfl
@[simp] theorem putAbsent_ecnt : (s.putAbsent).ecnt = s.ecnt := rfl
@[simp] theorem putAbsent_fcnt : (s.putAbsent).fcnt = s.fcnt := rfl
@[simp] theorem putAbsent_synccnt : (s.putAbsent).synccnt = s.synccnt := rfl
@[simp] theorem putAbsent_fstart : (s.putAbsent).fstart = s.fstart := rfl
@[simp] theorem putAbsent_fend : (s.putAbsent).fend = s.fend := rfl
@[simp] theorem putAbsent_clipcnt : (s.putAbsent).clipcnt = s.clipcnt := rfl
@[simp] theorem putAbsent_slope : (s.putAbsent).slope = s.slope := rfl
@[simp] theorem putAbsent_intercept : (s.putAbsent).intercept = s.intercept := rfl
@[simp] theorem putAbsent_xmed : (s.putAbsent).xmed = s.xmed := rfl
@[simp] theorem putAbsent_cancamp : (s.putAbsent).cancamp = s.cancamp := rfl
@[simp] theorem putAbsent_resistance : (s.putAbsent).resistance = s.resistance := rfl
@[simp] theorem putAbsent_temperature : (s.putAbsent).temperature = s.temperature := rfl
@[simp] theorem putAbsent_nframes : (s.putAbsent).nframes = s.nframes := rfl
@[simp] theorem putAbsent_error : (s.putAbsent).error = s.error := rfl
@[simp] theorem putAbsent_silence : (s.putAbsent).silence = s.silence := rfl
@[simp] theorem putAbsent_tonelvl : (s.putAbsent).tonelvl = s.tonelvl := rfl
@[simp] theorem putAbsent_leftamp : (s.putAbsent).leftamp = s.leftamp := rfl
@[simp] theorem putAbsent_rightamp : (s.putAbsent).rightamp = s.rightamp := rfl
@[simp] theorem putAbsent_trimstart : (s.putAbsent).trimstart = s.trimstart := rfl
@[simp] theorem putAbsent_trimend : (s.putAbsent).trimend = s.trimend := rfl
@[simp] theorem putAbsent_mem : (s.putAbsent).mem = s.mem := rfl
@[simp] theorem putAbsent_xi : (s.putAbsent).xi = s.xi := rfl
@[simp] theorem putAbsent_ibufEpoch : (s.putAbsent).ibufEpoch = s.ibufEpoch := rfl
@[simp] theorem putAbsent_obufEpoch : (s.putAbsent).obufEpoch = s.obufEpoch := rfl
@[simp] theorem putAbsent_evtEpoch : (s.putAbsent).evtEpoch = s.evtEpoch := rfl
@[simp] theorem putAbsent_frmEpoch : (s.putAbsent).frmEpoch = s.frmEpoch := rfl
@[simp] theorem putAbsent_draws : (s.putAbsent).draws = s.draws := rfl
@[simp] theorem putAbsent_rdata : (s.putAbsent).rdata = s.rdata := rfl
@[simp] theorem putAbsent_agenda : (s.putAbsent).agenda = s.agenda := rfl

/-! ## resetPresence -/

@[simp] theorem resetPresence_cmd : (s.resetPresence).cmd = s.cmd := rfl
@[simp] theorem resetPresence_busy : (s.resetPresence).busy = s.busy := rfl
@[simp] theorem resetPresence_done : (s.resetPresence).done = s.done := rfl
@[simp] theorem resetPresence_haz : (s.resetPresence).haz = s.haz := rfl
@[simp] theorem resetPresence_ut : (s.resetPresence).ut = s.ut := rfl
@[simp] theorem resetPresence_pstate : (s.resetPresence).pstate = .idle := rfl
@[simp] theorem resetPresence_fault : (s.resetPresence).fault = s.fault := rfl
@[simp] theorem resetPresence_ilen : (s.resetPresence).ilen = s.ilen := rfl
@[simp] theorem resetPresence_olen : (s.resetPresence).olen = s.olen := rfl
@[simp] theorem resetPresence_ncells : (s.resetPresence).ncells = s.ncells := rfl
@[simp] theorem resetPresence_ppcell : (s.resetPresence).ppcell = s.ppcell := rfl
@[simp] theorem resetPresence_syncidx : (s.resetPresence).syncidx = s.syncidx := rfl
@[simp] theorem resetPresence_freq : (s.resetPresence).freq = s.freq := rfl
@[simp] theorem resetPresence_refvol : (s.resetPresence).refvol = s.refvol := rfl
@[simp] theorem resetPresence_maxvol : (s.resetPresence).maxvol = s.maxvol := rfl
@[simp] theorem resetPresence_minvol : (s.resetPresence).minvol = s.minvol := rfl
@[simp] theorem resetPresence_dur : (s.resetPresence).dur = s.dur := rfl
@[simp] theorem resetPresence_tonevol : (s.resetPresence).tonevol = s.tonevol := rfl
@[simp] theorem resetPresence_ecnt : (s.resetPresence).ecnt = s.ecnt := rfl
@[simp] theorem resetPresence_fcnt : (s.resetPresence).fcnt = s.fcnt := rfl
@[simp] theorem resetPresence_synccnt : (s.resetPresence).synccnt = s.synccnt := rfl
@[simp] theorem resetPresence_fstart : (s.resetPresence).fstart = s.fstart := rfl
@[simp] theorem resetPresence_fend : (s.resetPresence).fend = s.fend := rfl
@[simp] theorem resetPresence_clipcnt : (s.resetPresence).clipcnt = s.clipcnt := rfl
@[simp] theorem resetPresence_slope : (s.resetPresence).slope = s.slope := rfl
@[simp] theorem resetPresence_intercept : (s.resetPresence).intercept = s.intercept := rfl
@[simp] theorem resetPresence_xmed : (s.resetPresence).xmed = s.xmed := rfl
@[simp] theorem resetPresence_cancamp : (s.resetPresence).cancamp = s.cancamp := rfl
@[simp] theorem resetPresence_resistance : (s.resetPresence).resistance = s.resistance := rfl
@[simp] theorem resetPresence_temperature : (s.resetPresence).temperature = s.temperature := rfl
@[simp] theorem resetPresence_nframes : (s.resetPresence).nframes = s.nframes := rfl
@[simp] theorem resetPresence_error : (s.resetPresence).error = s.error := rfl
@[simp] theorem resetPresence_silence : (s.resetPresence).silence = 0 := rfl
@[simp] theorem resetPresence_tonelvl : (s.resetPresence).tonelvl = 0 := rfl
@[simp] theorem resetPresence_leftamp : (s.resetPresence).leftamp = s.leftamp := rfl
@[simp] theorem resetPresence_rightamp : (s.resetPresence).rightamp = s.rightamp := rfl
@[simp] theorem resetPresence_trimstart : (s.resetPresence).trimstart = s.trimstart := rfl
@[simp] theorem resetPresence_trimend : (s.resetPresence).trimend = s.trimend := rfl
@[simp] theorem resetPresence_mem : (s.resetPresence).mem = s.mem := rfl
@[simp] theorem resetPresence_xi : (s.resetPresence).xi = s.xi := rfl
@[simp] theorem resetPresence_ibufEpoch : (s.resetPresence).ibufEpoch = s.ibufEpoch := rfl
@[simp] theorem resetPresence_obufEpoch : (s.resetPresence).obufEpoch = s.obufEpoch := rfl
@[simp] theorem resetPresence_evtEpoch : (s.resetPresence).evtEpoch = s.evtEpoch := rfl
@[simp] theorem resetPresence_frmEpoch : (s.resetPresence).frmEpoch = s.frmEpoch := rfl
@[simp] theorem resetPresence_draws : (s.resetPresence).draws = s.draws := rfl
@[simp] theorem resetPresence_rdata : (s.resetPresence).rdata = s.rdata := rfl
@[simp] theorem resetPresence_agenda : (s.resetPresence).agenda = s.agenda := rfl

/-! ## withCommand -/

@[simp] theorem withCommand_cmd (w : Word) : (s.withCommand w).cmd = w := rfl
@[simp] theorem withCommand_busy (w : Word) : (s.withCommand w).busy = true := rfl
@[simp] theorem withCommand_done (w : Word) : (s.withCommand w).done = false := rfl
@[simp] theorem withCommand_haz (w : Word) : (s.withCommand w).haz = s.haz := rfl
@[simp] theorem withCommand_ut (w : Word) : (s.withCommand w).ut = s.ut := rfl
@[simp] theorem withCommand_pstate (w : Word) : (s.withCommand w).pstate = s.pstate := rfl
@[simp] theorem withCommand_fault (w : Word) : (s.withCommand w).fault = none := rfl
@[simp] theorem withCommand_ilen (w : Word) : (s.withCommand w).ilen = s.ilen := rfl
@[simp] theorem withCommand_olen (w : Word) : (s.withCommand w).olen = s.olen := rfl
@[simp] theorem withCommand_ncells (w : Word) : (s.withCommand w).ncells = s.ncells := rfl
@[simp] theorem withCommand_ppcell (w : Word) : (s.withCommand w).ppcell = s.ppcell := rfl
@[simp] theorem withCommand_syncidx (w : Word) : (s.withCommand w).syncidx = s.syncidx := rfl
@[simp] theorem withCommand_freq (w : Word) : (s.withCommand w).freq = s.freq := rfl
@[simp] theorem withCommand_refvol (w : Word) : (s.withCommand w).refvol = s.refvol := rfl
@[simp] theorem withCommand_maxvol (w : Word) : (s.withCommand w).maxvol = s.maxvol := rfl
@[simp] theorem withCommand_minvol (w : Word) : (s.withCommand w).minvol = s.minvol := rfl
@[simp] theorem withCommand_dur (w : Word) : (s.withCommand w).dur = s.dur := rfl
@[simp] theorem withCommand_tonevol (w : Word) : (s.withCommand w).tonevol = s.tonevol := rfl
@[simp] theorem withCommand_ecnt (w : Word) : (s.withCommand w).ecnt = s.ecnt := rfl
@[simp] theorem withCommand_fcnt (w : Word) : (s.withCommand w).fcnt = s.fcnt := rfl
@[simp] theorem withCommand_synccnt (w : Word) : (s.withCommand w).synccnt = s.synccnt := rfl
@[simp] theorem withCommand_fstart (w : Word) : (s.withCommand w).fstart = s.fstart := rfl
@[simp] theorem withCommand_fend (w : Word) : (s.withCommand w).fend = s.fend := rfl
@[simp] theorem withCommand_clipcnt (w : Word) : (s.withCommand w).clipcnt = s.clipcnt := rfl
@[simp] theorem withCommand_slope (w : Word) : (s.withCommand w).slope = s.slope := rfl
@[simp] theorem withCommand_intercept (w : Word) : (s.withCommand w).intercept = s.intercept := rfl
@[simp] theorem withCommand_xmed (w : Word) : (s.withCommand w).xmed = s.xmed := rfl
@[simp] theorem withCommand_cancamp (w : Word) : (s.withCommand w).cancamp = s.cancamp := rfl
@[simp] theorem withCommand_resistance (w : Word) : (s.withCommand w).resistance = s.resistance := rfl
@[simp] theorem withCommand_temperature (w : Word) : (s.withCommand w).temperature = s.temperature := rfl
@[simp] theorem withCommand_nframes (w : Word) : (s.withCommand w).nframes = s.nframes := rfl
@[simp] theorem withCommand_error (w : Word) : (s.withCommand w).error = s.error := rfl
@[simp] theorem withCommand_silence (w : Word) : (s.withCommand w).silence = s.silence := rfl
@[simp] theorem withCommand_tonelvl (w : Word) : (s.withCommand w).tonelvl = s.tonelvl := rfl
@[simp] theorem withCommand_leftamp (w : Word) : (s.withCommand w).leftamp = s.leftamp := rfl
@[simp] theorem withCommand_rightamp (w : Word) : (s.withCommand w).rightamp = s.rightamp := rfl
@[simp] theorem withCommand_trimstart (w : Word) : (s.withCommand w).trimstart = s.trimstart := rfl
@[simp] theorem withCommand_trimend (w : Word) : (s.withCommand w).trimend = s.trimend := rfl
@[simp] theorem withCommand_mem (w : Word) : (s.withCommand w).mem = s.mem := rfl
@[simp] theorem withCommand_xi (w : Word) : (s.withCommand w).xi = s.xi := rfl
@[simp] theorem withCommand_ibufEpoch (w : Word) : (s.withCommand w).ibufEpoch = s.ibufEpoch := rfl
@[simp] theorem withCommand_obufEpoch (w : Word) : (s.withCommand w).obufEpoch = s.obufEpoch := rfl
@[simp] theorem withCommand_evtEpoch (w : Word) : (s.withCommand w).evtEpoch = s.evtEpoch := rfl
@[simp] theorem withCommand_frmEpoch (w : Word) : (s.withCommand w).frmEpoch = s.frmEpoch := rfl
@[simp] theorem withCommand_draws (w : Word) : (s.withCommand w).draws = s.draws + 1 := rfl
@[simp] theorem withCommand_rdata (w : Word) : (s.withCommand w).rdata = s.rdata := rfl
@[simp] theorem withCommand_agenda (w : Word) : (s.withCommand w).agenda = .completion :: s.agenda := rfl

/-! ## hostRead -/

@[simp] theorem hostRead_cmd (a : Word) (w : Width) : (s.hostRead a w).cmd = s.cmd := rfl
@[simp] theorem hostRead_busy (a : Word) (w : Width) : (s.hostRead a w).busy = s.busy := rfl
@[simp] theorem hostRead_done (a : Word) (w : Width) : (s.hostRead a w).done = s.done := rfl
@[simp] theorem hostRead_haz (a : Word) (w : Width) : (s.hostRead a w).haz = s.haz := rfl
@[simp] theorem hostRead_ut (a : Word) (w : Width) : (s.hostRead a w).ut = s.ut := rfl
@[simp] theorem hostRead_pstate (a : Word) (w : Width) : (s.hostRead a w).pstate = s.pstate := rfl
@[simp] theorem hostRead_fault (a : Word) (w : Width) : (s.hostRead a w).fault = s.fault := rfl
@[simp] theorem hostRead_ilen (a : Word) (w : Width) : (s.hostRead a w).ilen = s.ilen := rfl
@[simp] theorem hostRead_olen (a : Word) (w : Width) : (s.hostRead a w).olen = s.olen := rfl
@[simp] theorem hostRead_ncells (a : Word) (w : Width) : (s.hostRead a w).ncells = s.ncells := rfl
@[simp] theorem hostRead_ppcell (a : Word) (w : Width) : (s.hostRead a w).ppcell = s.ppcell := rfl
@[simp] theorem hostRead_syncidx (a : Word) (w : Width) : (s.hostRead a w).syncidx = s.syncidx := rfl
@[simp] theorem hostRead_freq (a : Word) (w : Width) : (s.hostRead a w).freq = s.freq := rfl
@[simp] theorem hostRead_refvol (a : Word) (w : Width) : (s.hostRead a w).refvol = s.refvol := rfl
@[simp] theorem hostRead_maxvol (a : Word) (w : Width) : (s.hostRead a w).maxvol = s.maxvol := rfl
@[simp] theorem hostRead_minvol (a : Word) (w : Width) : (s.hostRead a w).minvol = s.minvol := rfl
@[simp] theorem hostRead_dur (a : Word) (w : Width) : (s.hostRead a w).dur = s.dur := rfl
@[simp] theorem hostRead_tonevol (a : Word) (w : Width) : (s.hostRead a w).tonevol = s.tonevol := rfl
@[simp] theorem hostRead_ecnt (a : Word) (w : Width) : (s.hostRead a w).ecnt = s.ecnt := rfl
@[simp] theorem hostRead_fcnt (a : Word) (w : Width) : (s.hostRead a w).fcnt = s.fcnt := rfl
@[simp] theorem hostRead_synccnt (a : Word) (w : Width) : (s.hostRead a w).synccnt = s.synccnt := rfl
@[simp] theorem hostRead_fstart (a : Word) (w : Width) : (s.hostRead a w).fstart = s.fstart := rfl
@[simp] theorem hostRead_fend (a : Word) (w : Width) : (s.hostRead a w).fend = s.fend := rfl
@[simp] theorem hostRead_clipcnt (a : Word) (w : Width) : (s.hostRead a w).clipcnt = s.clipcnt := rfl
@[simp] theorem hostRead_slope (a : Word) (w : Width) : (s.hostRead a w).slope = s.slope := rfl
@[simp] theorem hostRead_intercept (a : Word) (w : Width) : (s.hostRead a w).intercept = s.intercept := rfl
@[simp] theorem hostRead_xmed (a : Word) (w : Width) : (s.hostRead a w).xmed = s.xmed := rfl
@[simp] theorem hostRead_cancamp (a : Word) (w : Width) : (s.hostRead a w).cancamp = s.cancamp := rfl
@[simp] theorem hostRead_resistance (a : Word) (w : Width) : (s.hostRead a w).resistance = s.resistance := rfl
@[simp] theorem hostRead_temperature (a : Word) (w : Width) : (s.hostRead a w).temperature = s.temperature := rfl
@[simp] theorem hostRead_nframes (a : Word) (w : Width) : (s.hostRead a w).nframes = s.nframes := rfl
@[simp] theorem hostRead_error (a : Word) (w : Width) : (s.hostRead a w).error = s.error := rfl
@[simp] theorem hostRead_silence (a : Word) (w : Width) : (s.hostRead a w).silence = s.silence := rfl
@[simp] theorem hostRead_tonelvl (a : Word) (w : Width) : (s.hostRead a w).tonelvl = s.tonelvl := rfl
@[simp] theorem hostRead_leftamp (a : Word) (w : Width) : (s.hostRead a w).leftamp = s.leftamp := rfl
@[simp] theorem hostRead_rightamp (a : Word) (w : Width) : (s.hostRead a w).rightamp = s.rightamp := rfl
@[simp] theorem hostRead_trimstart (a : Word) (w : Width) : (s.hostRead a w).trimstart = s.trimstart := rfl
@[simp] theorem hostRead_trimend (a : Word) (w : Width) : (s.hostRead a w).trimend = s.trimend := rfl
@[simp] theorem hostRead_mem (a : Word) (w : Width) : (s.hostRead a w).mem = s.mem := rfl
@[simp] theorem hostRead_xi (a : Word) (w : Width) : (s.hostRead a w).xi = s.xi := rfl
@[simp] theorem hostRead_ibufEpoch (a : Word) (w : Width) : (s.hostRead a w).ibufEpoch = s.ibufEpoch := rfl
@[simp] theorem hostRead_obufEpoch (a : Word) (w : Width) : (s.hostRead a w).obufEpoch = s.obufEpoch := rfl
@[simp] theorem hostRead_evtEpoch (a : Word) (w : Width) : (s.hostRead a w).evtEpoch = s.evtEpoch := rfl
@[simp] theorem hostRead_frmEpoch (a : Word) (w : Width) : (s.hostRead a w).frmEpoch = s.frmEpoch := rfl
@[simp] theorem hostRead_draws (a : Word) (w : Width) : (s.hostRead a w).draws = if s.busy then s.draws + 1 else s.draws := rfl
@[simp] theorem hostRead_rdata (a : Word) (w : Width) : (s.hostRead a w).rdata = s.hostReadValue a w := rfl
@[simp] theorem hostRead_agenda (a : Word) (w : Width) : (s.hostRead a w).agenda = s.agenda := rfl

/-! ## accept -/

@[simp] theorem accept_cmd (w : Word) : (s.accept w).cmd = w := rfl
@[simp] theorem accept_busy (w : Word) : (s.accept w).busy = true := rfl
@[simp] theorem accept_done (w : Word) : (s.accept w).done = false := rfl
@[simp] theorem accept_haz (w : Word) : (s.accept w).haz = s.haz := rfl
@[simp] theorem accept_ut (w : Word) : (s.accept w).ut = s.ut := rfl
@[simp] theorem accept_pstate (w : Word) : (s.accept w).pstate = s.pstate := rfl
@[simp] theorem accept_fault (w : Word) : (s.accept w).fault = s.fault := rfl
@[simp] theorem accept_ilen (w : Word) : (s.accept w).ilen = s.ilen := rfl
@[simp] theorem accept_olen (w : Word) : (s.accept w).olen = s.olen := rfl
@[simp] theorem accept_ncells (w : Word) : (s.accept w).ncells = s.ncells := rfl
@[simp] theorem accept_ppcell (w : Word) : (s.accept w).ppcell = s.ppcell := rfl
@[simp] theorem accept_syncidx (w : Word) : (s.accept w).syncidx = s.syncidx := rfl
@[simp] theorem accept_freq (w : Word) : (s.accept w).freq = s.freq := rfl
@[simp] theorem accept_refvol (w : Word) : (s.accept w).refvol = s.refvol := rfl
@[simp] theorem accept_maxvol (w : Word) : (s.accept w).maxvol = s.maxvol := rfl
@[simp] theorem accept_minvol (w : Word) : (s.accept w).minvol = s.minvol := rfl
@[simp] theorem accept_dur (w : Word) : (s.accept w).dur = s.dur := rfl
@[simp] theorem accept_tonevol (w : Word) : (s.accept w).tonevol = s.tonevol := rfl
@[simp] theorem accept_ecnt (w : Word) : (s.accept w).ecnt = s.ecnt := rfl
@[simp] theorem accept_fcnt (w : Word) : (s.accept w).fcnt = s.fcnt := rfl
@[simp] theorem accept_synccnt (w : Word) : (s.accept w).synccnt = s.synccnt := rfl
@[simp] theorem accept_fstart (w : Word) : (s.accept w).fstart = s.fstart := rfl
@[simp] theorem accept_fend (w : Word) : (s.accept w).fend = s.fend := rfl
@[simp] theorem accept_clipcnt (w : Word) : (s.accept w).clipcnt = s.clipcnt := rfl
@[simp] theorem accept_slope (w : Word) : (s.accept w).slope = s.slope := rfl
@[simp] theorem accept_intercept (w : Word) : (s.accept w).intercept = s.intercept := rfl
@[simp] theorem accept_xmed (w : Word) : (s.accept w).xmed = s.xmed := rfl
@[simp] theorem accept_cancamp (w : Word) : (s.accept w).cancamp = s.cancamp := rfl
@[simp] theorem accept_resistance (w : Word) : (s.accept w).resistance = s.resistance := rfl
@[simp] theorem accept_temperature (w : Word) : (s.accept w).temperature = s.temperature := rfl
@[simp] theorem accept_nframes (w : Word) : (s.accept w).nframes = s.nframes := rfl
@[simp] theorem accept_error (w : Word) : (s.accept w).error = s.error := rfl
@[simp] theorem accept_silence (w : Word) : (s.accept w).silence = s.silence := rfl
@[simp] theorem accept_tonelvl (w : Word) : (s.accept w).tonelvl = s.tonelvl := rfl
@[simp] theorem accept_leftamp (w : Word) : (s.accept w).leftamp = s.leftamp := rfl
@[simp] theorem accept_rightamp (w : Word) : (s.accept w).rightamp = s.rightamp := rfl
@[simp] theorem accept_trimstart (w : Word) : (s.accept w).trimstart = s.trimstart := rfl
@[simp] theorem accept_trimend (w : Word) : (s.accept w).trimend = s.trimend := rfl
@[simp] theorem accept_mem (w : Word) : (s.accept w).mem = s.mem := rfl
@[simp] theorem accept_xi (w : Word) : (s.accept w).xi = s.xi := rfl
@[simp] theorem accept_ibufEpoch (w : Word) : (s.accept w).ibufEpoch = s.ibufEpoch := rfl
@[simp] theorem accept_obufEpoch (w : Word) : (s.accept w).obufEpoch = s.obufEpoch := rfl
@[simp] theorem accept_evtEpoch (w : Word) : (s.accept w).evtEpoch = s.evtEpoch := rfl
@[simp] theorem accept_frmEpoch (w : Word) : (s.accept w).frmEpoch = s.frmEpoch := rfl
@[simp] theorem accept_draws (w : Word) : (s.accept w).draws = s.draws + 1 := rfl
@[simp] theorem accept_rdata (w : Word) : (s.accept w).rdata = s.rdata := rfl
@[simp] theorem accept_agenda (w : Word) : (s.accept w).agenda = s.agenda := rfl

end Sys2Proof.Machine.State
end

