-- ==== Sys2Proof/Laws/Memory.lean ====
section
/-! SUPPORT. What the memory operations do: a read after a write, the canonical form, and the elements of the memories as
they are read back. -/

namespace Sys2Proof.Machine

/-! ## Reading a list of written bytes -/

theorem Memory.get_append (m n : Memory) (a : Nat) : (m ++ n).get a = (m.get a).or (n.get a) := by
  induction m with
  | nil => rfl
  | cons c m ih =>
    simp only [List.cons_append, Memory.get]
    split <;> simp [ih]

/-- A filter on addresses that keeps `a` does not change what is read at `a`. -/
theorem Memory.get_filter_of_keep (m : Memory) (p : Host.Cell → Bool) (a : Nat) (h : ∀ b, p (a, b) = true) :
    Memory.get (m.filter p) a = m.get a := by
  induction m with
  | nil => rfl
  | cons c m ih =>
    obtain ⟨k, b⟩ := c
    by_cases hk : k = a
    · subst hk; simp [h, Memory.get]
    · by_cases hp : p (k, b) = true <;> simp [hp, Memory.get, hk, ih]

/-- A filter on addresses that drops `a` leaves nothing to read at `a`. -/
theorem Memory.get_filter_of_drop (m : Memory) (p : Host.Cell → Bool) (a : Nat) (h : ∀ b, p (a, b) = false) :
    Memory.get (m.filter p) a = none := by
  induction m with
  | nil => rfl
  | cons c m ih =>
    obtain ⟨k, b⟩ := c
    by_cases hk : k = a
    · subst hk; simp [h, ih]
    · by_cases hp : p (k, b) = true <;> simp [hp, Memory.get, hk, ih]

theorem Memory.get_cellsFrom (a : Nat) (bs : List Byte) (x : Nat) :
    Memory.get (cellsFrom a bs) x = if a ≤ x then bs[x - a]? else none := by
  induction bs generalizing a with
  | nil => simp [cellsFrom, Memory.get]
  | cons b bs ih =>
    simp only [cellsFrom, Memory.get, ih]
    rcases Nat.lt_trichotomy a x with h | h | h
    · have h1 : a ≠ x := by omega
      have h2 : x - a = (x - (a + 1)) + 1 := by omega
      simp [h1, Nat.le_of_lt h, h2, show a + 1 ≤ x by omega]
    · subst h; simp
    · have h1 : a ≠ x := by omega
      simp [h1, show ¬ a ≤ x by omega, show ¬ a + 1 ≤ x by omega]

/-- A read after a write, everywhere: the bytes written in their range, and what was there elsewhere. -/
theorem Memory.get_put (m : Memory) (a : Nat) (bs : List Byte) (x : Nat) :
    (m.put a bs).get x = if a ≤ x ∧ x < a + bs.length then bs[x - a]? else m.get x := by
  simp only [Memory.put, Memory.get_append, Memory.get_cellsFrom]
  by_cases hlo : x < a
  · rw [Memory.get_filter_of_keep _ _ _ (by simpa using hlo), Memory.get_filter_of_drop _ _ _ (by simp; omega)]
    simp [show ¬ a ≤ x by omega]
  · rw [Memory.get_filter_of_drop m (·.1 < a) _ (by simpa using Nat.le_of_not_lt hlo)]
    by_cases hhi : x < a + bs.length
    · rw [Memory.get_filter_of_drop _ _ _ (by simp; omega)]
      simp [show a ≤ x by omega, hhi]
    · rw [Memory.get_filter_of_keep _ _ _ (by simp; omega)]
      simp [show a ≤ x by omega, hhi, show bs.length ≤ x - a by omega]

theorem Memory.get_erase (m : Memory) (lo hi x : Nat) :
    (m.erase lo hi).get x = if lo ≤ x ∧ x < hi then none else m.get x := by
  unfold Memory.erase
  split
  · exact Memory.get_filter_of_drop _ _ _ (by simp; omega)
  · exact Memory.get_filter_of_keep _ _ _ (by simp; omega)

/-! ## The canonical form -/

theorem mem_cellsFrom {a : Nat} {bs : List Byte} {c : Host.Cell} (h : c ∈ cellsFrom a bs) :
    a ≤ c.1 ∧ c.1 < a + bs.length := by
  induction bs generalizing a with
  | nil => simp [cellsFrom] at h
  | cons b bs ih =>
    simp only [cellsFrom, List.mem_cons] at h
    rcases h with rfl | h
    · simp
    · have := ih h; simp only [List.length_cons]; omega

theorem pairwise_cellsFrom (a : Nat) (bs : List Byte) : (cellsFrom a bs).Pairwise (fun x y => x.1 < y.1) := by
  induction bs generalizing a with
  | nil => exact List.Pairwise.nil
  | cons b bs ih =>
    refine List.Pairwise.cons (fun c hc => ?_) (ih _)
    have := mem_cellsFrom hc
    simp only; omega

/-- A write of bytes that all have an address of one of the four memories keeps the canonical form. -/
theorem Memory.put_wf {m : Memory} (h : m.wf) (a : Nat) (bs : List Byte)
    (hb : ∀ x, a ≤ x → x < a + bs.length → memoryAddress x) : (m.put a bs).wf := by
  obtain ⟨hp, hm⟩ := h
  refine ⟨?_, ?_⟩
  · simp only [Memory.put, List.pairwise_append, List.mem_append, List.mem_filter, decide_eq_true_eq]
    refine ⟨⟨hp.filter _, pairwise_cellsFrom a bs, ?_⟩, hp.filter _, ?_⟩
    · rintro x ⟨-, hx⟩ y hy
      have := mem_cellsFrom hy; omega
    · rintro x (⟨-, hx⟩ | hx) y ⟨-, hy⟩
      · omega
      · have := mem_cellsFrom hx; omega
  · intro c hc
    simp only [Memory.put, List.mem_append, List.mem_filter] at hc
    rcases hc with (⟨hc, -⟩ | hc) | ⟨hc, -⟩
    · exact hm c hc
    · exact hb _ (mem_cellsFrom hc).1 (mem_cellsFrom hc).2
    · exact hm c hc

theorem Memory.erase_wf {m : Memory} (h : m.wf) (lo hi : Nat) : (m.erase lo hi).wf :=
  ⟨h.1.filter _, fun c hc => h.2 c (List.mem_of_mem_filter hc)⟩

theorem reset_memory_wf : State.reset.mem.wf := ⟨List.Pairwise.nil, fun _ hc => absurd hc List.not_mem_nil⟩

/-! ## Bytes of the state -/

/-- The epochs that decide what an unwritten byte holds. -/
def State.sameEpochs (s t : State) : Prop :=
  t.ibufEpoch = s.ibufEpoch ∧ t.obufEpoch = s.obufEpoch ∧ t.evtEpoch = s.evtEpoch ∧ t.frmEpoch = s.frmEpoch

theorem State.epochAt_congr {s t : State} (h : s.sameEpochs t) (a : Nat) : t.epochAt a = s.epochAt a := by
  obtain ⟨h1, h2, h3, h4⟩ := h
  simp only [State.epochAt, h1, h2, h3, h4]

/-- Two states with the same written bytes and the same epochs hold the same bytes. -/
theorem State.memByte_congr {s t : State} (hm : t.mem = s.mem) (h : s.sameEpochs t) (a : Nat) :
    t.memByte a = s.memByte a := by
  simp only [State.memByte, hm, State.epochAt_congr h]

/-- A state whose memory is another's after a write holds the bytes written, and elsewhere what the other holds. -/
theorem State.memByte_put {s t : State} {a : Nat} {bs : List Byte} (hm : t.mem = s.mem.put a bs)
    (h : s.sameEpochs t) (x : Nat) :
    t.memByte x = if a ≤ x ∧ x < a + bs.length then bs[x - a]?.getD 0 else s.memByte x := by
  simp only [State.memByte, hm, Memory.get_put, State.epochAt_congr h]
  split
  · rename_i hx
    have : x - a < bs.length := by omega
    simp [List.getElem?_eq_getElem this]
  · rfl

theorem State.memByte_put_outside {s t : State} {a : Nat} {bs : List Byte} (hm : t.mem = s.mem.put a bs)
    (h : s.sameEpochs t) {x : Nat} (hx : x < a ∨ a + bs.length ≤ x) : t.memByte x = s.memByte x := by
  rw [State.memByte_put hm h, if_neg (by omega)]

theorem State.memByte_put_inside {s t : State} {a : Nat} {bs : List Byte} (hm : t.mem = s.mem.put a bs)
    (h : s.sameEpochs t) {i : Nat} (hi : i < bs.length) : t.memByte (a + i) = bs[i] := by
  rw [State.memByte_put hm h, if_pos (by omega), Nat.add_sub_cancel_left, List.getElem?_eq_getElem hi]; rfl

/-! ## Words and their bytes -/

theorem wordOfBytes_bytesOfWord (w : Word) :
    wordOfBytes (w.extractLsb' 0 8) (w.extractLsb' 8 8) (w.extractLsb' 16 8) (w.extractLsb' 24 8) = w := by
  apply BitVec.eq_of_getLsbD_eq
  intro i hi
  simp only [wordOfBytes, BitVec.getLsbD_append, BitVec.getLsbD_extractLsb']
  by_cases h1 : i < 8
  · simp [h1]
  · by_cases h2 : i < 16
    · simp [h1, show i - 8 < 8 by omega, show 8 + (i - 8) = i by omega]
    · by_cases h3 : i < 24
      · simp [h1, show ¬ i - 8 < 8 by omega, show i - 8 - 8 < 8 by omega, show 16 + (i - 8 - 8) = i by omega]
      · simp [h1, show ¬ i - 8 < 8 by omega, show ¬ i - 8 - 8 < 8 by omega, show i - 8 - 8 - 8 < 8 by omega,
          show 24 + (i - 8 - 8 - 8) = i by omega]

theorem half_of_bytesOfHalf (h : Half) : h.extractLsb' 8 8 ++ h.extractLsb' 0 8 = h := by
  apply BitVec.eq_of_getLsbD_eq
  intro i hi
  simp only [BitVec.getLsbD_append, BitVec.getLsbD_extractLsb']
  by_cases h1 : i < 8
  · simp [h1]
  · simp [h1, show i - 8 < 8 by omega, show 8 + (i - 8) = i by omega]

@[simp] theorem bytesOfWord_length (w : Word) : (bytesOfWord w).length = 4 := rfl
@[simp] theorem bytesOfHalf_length (h : Half) : (bytesOfHalf h).length = 2 := rfl
@[simp] theorem Sample.bytes_length (x : Sample) : x.bytes.length = 16 := rfl
@[simp] theorem CalCell.bytes_length (c : CalCell) : c.bytes.length = 8 := rfl

/-! ## Lists of records of one size -/

theorem length_flatMap_const {α : Type} (l : List α) (f : α → List Byte) (n : Nat) (h : ∀ x ∈ l, (f x).length = n) :
    (l.flatMap f).length = n * l.length := by
  induction l with
  | nil => simp
  | cons x l ih =>
    simp only [List.flatMap_cons, List.length_append, List.length_cons, h x (by simp),
      ih (fun y hy => h y (by simp [hy])), Nat.mul_succ]
    omega

/-- Byte `j` of record `i` in the bytes of a list of records of `n` bytes each. -/
theorem getElem?_flatMap_const {α : Type} (l : List α) (f : α → List Byte) (n : Nat)
    (h : ∀ x ∈ l, (f x).length = n) (i j : Nat) (hi : i < l.length) (hj : j < n) :
    (l.flatMap f)[n * i + j]? = (f l[i])[j]? := by
  induction l generalizing i with
  | nil => simp at hi
  | cons x l ih =>
    have hx := h x (by simp)
    cases i with
    | zero =>
      simp only [List.flatMap_cons, Nat.mul_zero, Nat.zero_add, List.getElem_cons_zero]
      rw [List.getElem?_append_left (by omega)]
    | succ i =>
      simp only [List.flatMap_cons, List.getElem_cons_succ]
      rw [List.getElem?_append_right (by rw [hx, Nat.mul_succ]; omega), hx,
        show n * (i + 1) + j - n = n * i + j by rw [Nat.mul_succ]; omega]
      exact ih (fun y hy => h y (by simp [hy])) i (by simpa using hi)

/-- Byte `j` of record `i` after a write of a list of records. -/
theorem State.memByte_record {α : Type} {s t : State} {a n : Nat} {l : List α} {f : α → List Byte}
    (hm : t.mem = s.mem.put a (l.flatMap f)) (he : s.sameEpochs t) (h : ∀ x ∈ l, (f x).length = n)
    (i j : Nat) (hi : i < l.length) (hj : j < n) :
    t.memByte (a + n * i + j) = ((f l[i])[j]?).getD 0 := by
  have hlen := length_flatMap_const l f n h
  have hbound : n * i + j < n * l.length := by
    have := Nat.mul_le_mul_left n (Nat.succ_le_of_lt hi)
    rw [Nat.mul_succ] at this; omega
  rw [Nat.add_assoc, State.memByte_put hm he, if_pos (by omega), Nat.add_sub_cancel_left,
    getElem?_flatMap_const l f n h i j hi hj]

/-! ## The elements after a write -/

theorem putOutput_sameEpochs (s : State) (l : List Int) : s.sameEpochs (s.putOutput l) := ⟨rfl, rfl, rfl, rfl⟩
theorem putSamples_sameEpochs (s : State) (l : List Sample) : s.sameEpochs (s.putSamples l) := ⟨rfl, rfl, rfl, rfl⟩
theorem putFrames_sameEpochs (s : State) (l : List (List CalCell)) : s.sameEpochs (s.putFrames l) :=
  ⟨rfl, rfl, rfl, rfl⟩

/-- `OBUF[i]` after a state's memory took the output `l`. -/
theorem State.obufHalf_of_put {s t : State} {l : List Int}
    (hm : t.mem = s.mem.put Config.obufBase (l.flatMap fun v => bytesOfHalf (BitVec.ofInt 16 v)))
    (he : s.sameEpochs t) (i : Nat) (hi : i < l.length) : t.obufHalf i = BitVec.ofInt 16 l[i] := by
  have h : ∀ x ∈ l, (bytesOfHalf (BitVec.ofInt 16 x)).length = 2 := fun _ _ => rfl
  have h0 := State.memByte_record hm he h i 0 hi (by omega)
  have h1 := State.memByte_record hm he h i 1 hi (by omega)
  rw [Nat.add_zero] at h0
  simp only [State.obufHalf, State.memHalf, h0, h1, bytesOfHalf]
  exact half_of_bytesOfHalf _

theorem State.obufSample_of_put {s t : State} {l : List Int}
    (hm : t.mem = s.mem.put Config.obufBase (l.flatMap fun v => bytesOfHalf (BitVec.ofInt 16 v)))
    (he : s.sameEpochs t) (i : Nat) (hi : i < l.length) (hr : -32768 ≤ l[i] ∧ l[i] ≤ 32767) :
    t.obufSample i = l[i] := by
  rw [State.obufSample, State.obufHalf_of_put hm he i hi, BitVec.toInt_ofInt]
  exact Int.bmod_eq_of_le (by omega) (by omega)

/-- Word `j` of a record after a write of records made of words. -/
theorem State.memWord_record {α : Type} {s t : State} {a n : Nat} {l : List α} {f : α → List Byte}
    (hm : t.mem = s.mem.put a (l.flatMap f)) (he : s.sameEpochs t) (h : ∀ x ∈ l, (f x).length = n)
    (i j : Nat) (hi : i < l.length) (hj : 4 * j + 3 < n) (w : Word)
    (hw : ∀ k, k < 4 → (f l[i])[4 * j + k]? = (bytesOfWord w)[k]?) :
    t.memWord (a + n * i + 4 * j) = w := by
  have e (k : Nat) (hk : k < 4) : t.memByte (a + n * i + 4 * j + k) = ((bytesOfWord w)[k]?).getD 0 := by
    rw [Nat.add_assoc (a + n * i), State.memByte_record hm he h i (4 * j + k) hi (by omega), hw k hk]
  have e0 := e 0 (by omega)
  rw [Nat.add_zero] at e0
  simp only [State.memWord, e0, e 1 (by omega), e 2 (by omega), e 3 (by omega), bytesOfWord]
  exact wordOfBytes_bytesOfWord w

/-- The values that an EVT record can hold: an i16 amplitude and two u32 indices (10_state.md R42). -/
abbrev Sample.InRange (x : Sample) : Prop :=
  -2 ^ 31 ≤ x.amplitude ∧ x.amplitude < 2 ^ 31 ∧ x.bufferIndex < 2 ^ 32 ∧ x.delta < 2 ^ 32

/-- The values that a cell of an FRM record can hold (10_state.md R45). -/
abbrev CalCell.InRange (c : CalCell) : Prop :=
  -2 ^ 31 ≤ c.amplitude ∧ c.amplitude < 2 ^ 31 ∧ c.index < 2 ^ 32

theorem toInt_ofInt_word {v : Int} (h1 : -2 ^ 31 ≤ v) (h2 : v < 2 ^ 31) : (BitVec.ofInt 32 v).toInt = v := by
  rw [BitVec.toInt_ofInt]
  exact Int.bmod_eq_of_le (by omega) (by omega)

theorem SampleKind.ofWord_number (k : SampleKind) : SampleKind.ofWord (BitVec.ofNat 32 k.number) = k := by
  cases k <;> decide

/-- `EVT[p]` after a state's memory took the event list `l`. -/
theorem State.sampleAt_of_put {s t : State} {l : List Sample}
    (hm : t.mem = s.mem.put Config.evtBase (l.flatMap Sample.bytes)) (he : s.sameEpochs t) (p : Nat)
    (hp : p < l.length) (hr : l[p].InRange) : t.sampleAt p = l[p] := by
  have h : ∀ x ∈ l, x.bytes.length = 16 := fun _ _ => rfl
  have w0 := State.memWord_record hm he h p 0 hp (by omega) (BitVec.ofInt 32 l[p].amplitude)
    (by intro k hk; interval_cases k <;> rfl)
  have w1 := State.memWord_record hm he h p 1 hp (by omega) (BitVec.ofNat 32 l[p].bufferIndex)
    (by intro k hk; interval_cases k <;> rfl)
  have w2 := State.memWord_record hm he h p 2 hp (by omega) (BitVec.ofNat 32 l[p].delta)
    (by intro k hk; interval_cases k <;> rfl)
  have w3 := State.memWord_record hm he h p 3 hp (by omega) (BitVec.ofNat 32 l[p].kind.number)
    (by intro k hk; interval_cases k <;> rfl)
  obtain ⟨r1, r2, r3, r4⟩ := hr
  simp only [State.sampleAt, State.evtWord, w0, w1, w2, w3, toInt_ofInt_word r1 r2, BitVec.toNat_ofNat,
    Nat.mod_eq_of_lt r3, Nat.mod_eq_of_lt r4, SampleKind.ofWord_number]

/-- The valid events after a state's memory took the event list `l` and ECNT its length. -/
theorem State.samples_of_put {s t : State} {l : List Sample}
    (hm : t.mem = s.mem.put Config.evtBase (l.flatMap Sample.bytes)) (he : s.sameEpochs t)
    (hc : t.ecnt = BitVec.ofNat 32 l.length) (hl : l.length < 2 ^ 32) (hr : ∀ x ∈ l, x.InRange) : t.samples = l := by
  have hn : t.ecnt.toNat = l.length := by rw [hc, BitVec.toNat_ofNat, Nat.mod_eq_of_lt hl]
  apply List.ext_getElem
  · simp [State.samples, hn]
  · intro i h1 h2
    simp only [State.samples, List.getElem_map, List.getElem_range]
    exact State.sampleAt_of_put hm he i h2 (hr _ (List.getElem_mem h2))

/-- `FRM[f].cell[c]` after a state's memory took the frame list `l`, each frame of eight cells. -/
theorem State.cellAt_of_put {s t : State} {l : List (List CalCell)}
    (hm : t.mem = s.mem.put Config.frmBase (l.flatMap (·.flatMap CalCell.bytes))) (he : s.sameEpochs t)
    (h8 : ∀ x ∈ l, x.length = 8) (f c : Nat) (hf : f < l.length) (hc : c < l[f].length) (hr : l[f][c].InRange) :
    t.cellAt f c = l[f][c] := by
  have h8f : l[f].length = 8 := h8 _ (List.getElem_mem hf)
  have h : ∀ x ∈ l, (x.flatMap CalCell.bytes).length = 64 := fun x hx => by
    rw [length_flatMap_const x CalCell.bytes 8 (fun _ _ => rfl), h8 x hx]
  have hb (j : Nat) (hj : j < 8) :
      (l[f].flatMap CalCell.bytes)[8 * c + j]? = (l[f][c].bytes)[j]? :=
    getElem?_flatMap_const l[f] CalCell.bytes 8 (fun _ _ => rfl) c j hc hj
  have w0 := State.memWord_record hm he h f (2 * c) hf (by omega) (BitVec.ofInt 32 l[f][c].amplitude)
    (by
      intro k hk
      rw [show 4 * (2 * c) + k = 8 * c + k by omega, hb k (by omega)]
      interval_cases k <;> rfl)
  have w1 := State.memWord_record hm he h f (2 * c + 1) hf (by omega) (BitVec.ofNat 32 l[f][c].index)
    (by
      intro k hk
      rw [show 4 * (2 * c + 1) + k = 8 * c + (k + 4) by omega, hb (k + 4) (by omega)]
      interval_cases k <;> rfl)
  obtain ⟨r1, r2, r3⟩ := hr
  simp only [State.cellAt, State.frmWord, w0, w1, toInt_ofInt_word r1 r2, BitVec.toNat_ofNat, Nat.mod_eq_of_lt r3]

/-- `FRM[f]` after a state's memory took the frame list `l`, each frame of eight cells. -/
theorem State.frameAt_of_put {s t : State} {l : List (List CalCell)}
    (hm : t.mem = s.mem.put Config.frmBase (l.flatMap (·.flatMap CalCell.bytes))) (he : s.sameEpochs t)
    (h8 : ∀ x ∈ l, x.length = 8) (hr : ∀ x ∈ l, ∀ c ∈ x, c.InRange) (f : Nat) (hf : f < l.length) :
    t.frameAt f = l[f] := by
  have h8f : l[f].length = 8 := h8 _ (List.getElem_mem hf)
  apply List.ext_getElem
  · simp [State.frameAt, h8f, Config.numberOfCells]
  · intro c h1 h2
    simp only [State.frameAt, List.getElem_map, List.getElem_range]
    exact State.cellAt_of_put hm he h8 f c hf h2 (hr _ (List.getElem_mem hf) _ (List.getElem_mem h2))

end Sys2Proof.Machine
end

