-- ==== Sys2Proof/Laws/FrameSync.lean ====
section
/-! SUPPORT. What the cell extractor can make: nine amplitudes within 0 to 32767, and frame records of eight cells. -/

namespace Sys2Proof.Machine

theorem rawAmplitudes_length (base : Nat) (events : List Sample) : (rawAmplitudes base events).length = 9 := by
  simp [rawAmplitudes, Config.numberOfCells]

theorem mem_trimEdges {l : List Nat} {v : Nat} (h : v ∈ trimEdges l) : v ∈ l := by
  unfold trimEdges at h
  split at h
  · exact List.mem_of_mem_tail (List.dropLast_subset _ h)
  · exact h

/-- A cell's amplitude is a magnitude of one of its points, or 0. -/
theorem cellAmplitude_cases (l : List Nat) : cellAmplitude l = 0 ∨ cellAmplitude l ∈ l := by
  unfold cellAmplitude
  cases h : median (trimEdges l) with
  | none => exact .inl rfl
  | some v => exact .inr (mem_trimEdges (median_mem h))

theorem rawAmplitudes_le (base : Nat) (events : List Sample) : ∀ v ∈ rawAmplitudes base events, v ≤ 32767 := by
  intro v hv
  simp only [rawAmplitudes, List.mem_map] at hv
  obtain ⟨k, -, rfl⟩ := hv
  rcases cellAmplitude_cases (bucket base events k) with h | h
  · omega
  · obtain ⟨x, -, hx⟩ := List.mem_map.mp h
    rw [← hx]; exact min_le_right _ _

/-- The minimum cell exists, holds the least amplitude, and is the first that does (42_frame_sync_cells.md R202). -/
theorem minimumCell_spec {amps : List Nat} (h : amps ≠ []) :
    minimumCell amps < amps.length
      ∧ (∀ k, k < amps.length → amps.getD (minimumCell amps) 0 ≤ amps.getD k 0)
      ∧ ∀ k, k < minimumCell amps → amps.getD (minimumCell amps) 0 < amps.getD k 0 := by
  obtain ⟨m, hm, hmin⟩ : ∃ m ∈ amps, ∀ b ∈ amps, m ≤ b := by
    have hn := List.length_pos_of_ne_nil h
    have hp := amps.perm_insertionSort (· ≤ ·)
    have hs := amps.pairwise_insertionSort (· ≤ ·)
    have hl : 0 < (amps.insertionSort (· ≤ ·)).length := by rw [hp.length_eq]; exact hn
    refine ⟨_, hp.mem_iff.mp (List.getElem_mem hl), fun b hb => ?_⟩
    obtain ⟨i, hi, rfl⟩ := List.mem_iff_getElem.mp (hp.mem_iff.mpr hb)
    rcases Nat.eq_zero_or_pos i with rfl | h0
    · exact le_refl _
    · exact List.pairwise_iff_getElem.mp hs 0 i hl hi h0
  have hlt : minimumCell amps < amps.length := by
    apply List.findIdx_lt_length_of_exists
    exact ⟨m, hm, by simpa using hmin⟩
  have hsat : ∀ b ∈ amps, amps[minimumCell amps] ≤ b := by
    have := List.findIdx_getElem (p := fun a => amps.all fun b => decide (a ≤ b)) (w := hlt)
    intro b hb
    simp only [List.all_eq_true, decide_eq_true_eq] at this
    exact this b hb
  have hget : ∀ k (hk : k < amps.length), amps.getD k 0 = amps[k] := fun k hk => by
    simp [List.getD_eq_getElem?_getD, List.getElem?_eq_getElem hk]
  refine ⟨hlt, ?_, ?_⟩
  · intro k hk
    rw [hget _ hlt, hget k hk]
    exact hsat _ (List.getElem_mem hk)
  · intro k hk
    have hk' : k < amps.length := by omega
    rw [hget _ hlt, hget k hk']
    have hnot : ¬ ∀ b ∈ amps, amps[k] ≤ b := by
      simpa using List.not_of_lt_findIdx (p := fun a => amps.all fun b => decide (a ≤ b)) hk
    push Not at hnot
    obtain ⟨b, hb, hlt'⟩ := hnot
    exact lt_of_le_of_lt (hsat b hb) hlt'

theorem kept_indices : ∀ mi, mi < 9 → (List.range 9).filter (· ≠ mi)
    = (List.range 8).map (fun c => if c < mi then c else c + 1) := by decide

/-- The frame record of nine amplitudes, cell by cell (42_frame_sync_cells.md R203, R204). -/
theorem correctedCells_eq {amps : List Nat} (h : amps.length = 9) :
    correctedCells amps = (List.range 8).map fun c =>
      if c < minimumCell amps then { amplitude := (amps.getD c 0 : Int), index := c }
      else { amplitude := -(amps.getD (c + 1) 0 : Int), index := c + 1 } := by
  have hmi := (minimumCell_spec (amps := amps) (by intro h0; simp [h0] at h)).1
  rw [h] at hmi
  simp only [correctedCells, h, kept_indices _ hmi, List.map_map]
  apply List.map_congr_left
  intro c _
  by_cases hc : c < minimumCell amps
  · simp [hc]
  · simp [hc, show ¬ c + 1 < minimumCell amps by omega]

/-- What a frame record made of nine amplitudes within 0 to 32767 is (10_state.md R45, R46). -/
theorem correctedCells_frameRecord {amps : List Nat} (h : amps.length = 9) (hle : ∀ v ∈ amps, v ≤ 32767) :
    FrameRecord (correctedCells amps) := by
  have hget : ∀ k, amps.getD k 0 ≤ 32767 := by
    intro k
    rw [List.getD_eq_getElem?_getD]
    cases hk : amps[k]? with
    | none => simp
    | some v => exact hle v (List.mem_of_getElem? hk)
  rw [correctedCells_eq h]
  refine ⟨by simp, ?_, ?_⟩
  · rw [List.pairwise_map]
    refine List.pairwise_lt_range.imp ?_
    intro a b hab
    split <;> split <;> simp <;> omega
  · intro c hc
    simp only [List.mem_map, List.mem_range] at hc
    obtain ⟨k, hk, rfl⟩ := hc
    have h1 := hget k; have h2 := hget (k + 1)
    split <;> simp only <;> omega

theorem frameCells_frameRecord (events : List Sample) (fs fe : Nat) : FrameRecord (frameCells events fs fe) :=
  correctedCells_frameRecord (rawAmplitudes_length _ _) (rawAmplitudes_le _ _)

/-- The cells of a frame record fit their words. -/
theorem FrameRecord.inRange {cells : List CalCell} (h : FrameRecord cells) : ∀ c ∈ cells, c.InRange := by
  intro c hc
  obtain ⟨h1, h2, h3⟩ := h.2.2 c hc
  exact ⟨by omega, by omega, by omega⟩

theorem framesOf_length (events : List Sample) :
    (framesOf events).length = (SyncState.start.over 0 events).spans.length := by simp [framesOf]

theorem framesOf_frameRecord (events : List Sample) : ∀ cells ∈ framesOf events, FrameRecord cells := by
  intro cells hc
  simp only [framesOf, List.mem_map] at hc
  obtain ⟨p, -, rfl⟩ := hc
  exact frameCells_frameRecord _ _ _

/-- A buffer gives one frame for every 229 samples at most (42_frame_sync_cells.md R207). -/
theorem framesOf_cost (buf : List Int) : 229 * (framesOf (extractEvents buf)).length ≤ buf.length := by
  obtain ⟨-, h2, h3⟩ := extractEvents_spec buf
  obtain ⟨b, hb, hle⟩ := SyncState.over_cost _ SyncState.start 0 0 h2 (by simp [SyncState.start])
  rw [framesOf_length]
  rcases hb with rfl | ⟨x, hx, rfl⟩
  · omega
  · have := (h3 x hx).1; omega

end Sys2Proof.Machine
end

