-- ==== Sys2Proof/Laws/Pipeline.lean ====
section
/-! SUPPORT. What each shared stage can do, said once: extraction into EVT, synchronization into FRM, the calibration of a list of
frames, and what a stage leaves of what another one reads. -/

namespace Sys2Proof.Machine

/-! ## What is read depends on the bytes alone -/

theorem State.ibufHalf_congr {s t : State} (h : s.keepsBytesIn t Config.ibufBase Config.ibufEnd) (i : Nat)
    (hi : i < Config.ibufMax) : t.ibufHalf i = s.ibufHalf i := by
  simp only [Config.ibufMax] at hi
  have h0 := h (Config.ibufBase + 2 * i) (by omega) (by simp only [Config.ibufEnd, Config.ibufBase, Config.ibufMax]; omega)
  have h1 := h (Config.ibufBase + 2 * i + 1) (by omega)
    (by simp only [Config.ibufEnd, Config.ibufBase, Config.ibufMax]; omega)
  simp only [State.ibufHalf, State.memHalf, h0, h1]

/-- The buffer is the same where ILEN and the bytes of IBUF are. -/
theorem State.buffer_congr {s t : State} (hl : t.ilen = s.ilen) (hi : s.ilen.toNat ≤ Config.ibufMax)
    (h : s.keepsBytesIn t Config.ibufBase Config.ibufEnd) : t.buffer = s.buffer := by
  simp only [State.buffer, hl]
  apply List.map_congr_left
  intro i hr
  rw [List.mem_range] at hr
  simp only [State.ibufSample, State.ibufHalf_congr h i (by omega)]

/-- The buffer is the same where ILEN, the written bytes and the epochs are. -/
theorem State.buffer_of_mem {s t : State} (hl : t.ilen = s.ilen) (hm : t.mem = s.mem) (h : s.sameEpochs t) :
    t.buffer = s.buffer := by
  have : t.ibufSample = s.ibufSample := funext fun i => by
    simp only [State.ibufSample, State.ibufHalf, State.memHalf, State.memByte_congr hm h]
  simp only [State.buffer, hl, this]

theorem State.memWord_congr {s t : State} (h : s.keepsBytes t) (a : Nat) : t.memWord a = s.memWord a := by
  simp only [State.memWord, h a, h (a + 1), h (a + 2), h (a + 3)]

theorem State.sampleAt_congr {s t : State} (h : s.keepsBytes t) (p : Nat) : t.sampleAt p = s.sampleAt p := by
  simp only [State.sampleAt, State.evtWord, State.memWord_congr h]

theorem State.samples_congr {s t : State} (hc : t.ecnt = s.ecnt) (h : s.keepsBytes t) : t.samples = s.samples := by
  simp only [State.samples, hc, funext (State.sampleAt_congr h)]

theorem State.frameAt_congr {s t : State} (h : s.keepsBytes t) (f : Nat) : t.frameAt f = s.frameAt f := by
  have : t.cellAt f = s.cellAt f := funext fun c => by
    simp only [State.cellAt, State.frmWord, State.memWord_congr h]
  simp only [State.frameAt, this]

theorem State.keepsBytes_of_mem {s t : State} (hm : t.mem = s.mem) (h : s.sameEpochs t) : s.keepsBytes t :=
  State.memByte_congr hm h

/-- A word is the same where its four bytes are. -/
theorem State.memWord_congr_in {s t : State} {lo hi : Nat} (h : s.keepsBytesIn t lo hi) {a : Nat} (h1 : lo ≤ a)
    (h2 : a + 3 < hi) : t.memWord a = s.memWord a := by
  simp only [State.memWord, h a h1 (by omega), h (a + 1) (by omega) (by omega), h (a + 2) (by omega) (by omega),
    h (a + 3) (by omega) (by omega)]

/-- The valid events are the same where ECNT and the bytes of EVT are. -/
theorem State.samples_congr_in {s t : State} (hc : t.ecnt = s.ecnt) (hn : s.ecnt.toNat ≤ Config.evtMax)
    (h : s.keepsBytesIn t Config.evtBase Config.evtEnd) : t.samples = s.samples := by
  simp only [State.samples, hc]
  apply List.map_congr_left
  intro p hp
  simp only [List.mem_range, Config.evtMax] at hp hn
  have w (j : Nat) (hj : j < 4) : t.evtWord p j = s.evtWord p j :=
    State.memWord_congr_in h (by simp only [Config.evtBase]; omega)
      (by simp only [Config.evtEnd, Config.evtBase, Config.evtMax]; omega)
  simp only [State.sampleAt, w 0 (by omega), w 1 (by omega), w 2 (by omega), w 3 (by omega)]

/-- A valid frame is the same where the bytes of FRM are. -/
theorem State.frameAt_congr_in {s t : State} {f : Nat} (hf : f < Config.frmMax)
    (h : s.keepsBytesIn t Config.frmBase Config.frmEnd) : t.frameAt f = s.frameAt f := by
  simp only [Config.frmMax] at hf
  simp only [State.frameAt]
  apply List.map_congr_left
  intro c hc
  simp only [List.mem_range, Config.numberOfCells] at hc
  have w (j : Nat) (hj : j < 16) : t.frmWord f j = s.frmWord f j :=
    State.memWord_congr_in h (by simp only [Config.frmBase]; omega)
      (by simp only [Config.frmEnd, Config.frmBase, Config.frmMax]; omega)
  simp only [State.cellAt, w (2 * c) (by omega), w (2 * c + 1) (by omega)]

/-! ## Extraction into EVT -/

theorem IsI16.inRange {x : Sample} (h : IsI16 x.amplitude) (h1 : x.bufferIndex < 2 ^ 32) (h2 : x.delta < 2 ^ 32) :
    x.InRange := ⟨by have := h.1; omega, by have := h.2; omega, h1, h2⟩

/-- The events of a buffer of 16-bit samples fit their words. -/
theorem extractEvents_inRange {buf : List Int} (hb : ∀ v ∈ buf, IsI16 v) (hl : buf.length ≤ Config.ibufMax) :
    ∀ x ∈ extractEvents buf, x.InRange := by
  intro x hx
  simp only [Config.ibufMax] at hl
  obtain ⟨h1, h2, h3⟩ := (extractEvents_spec buf).2.2 x hx
  exact IsI16.inRange (hb _ h3) (by omega) (by omega)

theorem extractEvents_length_lt {buf : List Int} (hl : buf.length ≤ Config.ibufMax) :
    (extractEvents buf).length < Config.evtMax := by
  have := (extractEvents_spec buf).1
  simp only [Config.ibufMax, Config.evtMax] at *; omega

/-- With the default capacities an extraction never overflows EVT (41_sample_extractor.md R178). -/
theorem State.extractInto_eq (s : State) {buf : List Int} (hl : buf.length ≤ Config.ibufMax) :
    s.extractInto buf = some (s.putSamples (extractEvents buf)) := by
  simp only [State.extractInto, if_pos (Nat.le_of_lt (extractEvents_length_lt hl))]

/-- The valid events after an extraction into EVT, in any state that holds its bytes and its count. -/
theorem State.samples_of_extract {s t : State} {buf : List Int} (hb : ∀ v ∈ buf, IsI16 v)
    (hl : buf.length ≤ Config.ibufMax)
    (hm : t.mem = s.mem.put Config.evtBase ((extractEvents buf).flatMap Sample.bytes)) (he : s.sameEpochs t)
    (hc : t.ecnt = BitVec.ofNat 32 (extractEvents buf).length) : t.samples = extractEvents buf :=
  State.samples_of_put hm he hc
    (by have := extractEvents_length_lt hl; simp only [Config.evtMax] at this; omega) (extractEvents_inRange hb hl)

theorem Sample.flatMap_bytes_length (l : List Sample) : (l.flatMap Sample.bytes).length = 16 * l.length :=
  length_flatMap_const l Sample.bytes 16 fun _ _ => rfl

/-- A write of events changes bytes of EVT only. -/
theorem State.putSamples_keepsOutside (s : State) (l : List Sample) :
    s.keepsBytesOutside (s.putSamples l) Config.evtBase (Config.evtBase + 16 * l.length) := by
  intro a ha
  exact State.memByte_put_outside rfl (putSamples_sameEpochs s l) (by rw [Sample.flatMap_bytes_length]; exact ha)

/-! ## Synchronization into FRM -/

theorem frames_flatMap_bytes_length {l : List (List CalCell)} (h : ∀ x ∈ l, x.length = 8) :
    (l.flatMap (·.flatMap CalCell.bytes)).length = 64 * l.length :=
  length_flatMap_const l _ 64 fun x hx => by
    rw [length_flatMap_const x CalCell.bytes 8 fun _ _ => rfl, h x hx]

theorem framesOf_length_eight (events : List Sample) : ∀ x ∈ framesOf events, x.length = 8 :=
  fun x hx => (framesOf_frameRecord events x hx).1

/-- FSYNC's work where the frames fit FRM (42_frame_sync_cells.md R190). -/
theorem State.synchronize_eq (s : State) (h : (framesOf s.samples).length ≤ Config.frmMax) :
    s.synchronize
      = some ((s.clearXi.putFrames (framesOf s.samples)).putSync (SyncState.start.over 0 s.samples)) := by
  rw [framesOf_length] at h
  simp only [State.synchronize, if_pos h, framesOf]

theorem State.synchronize_none (s : State) (h : Config.frmMax < (framesOf s.samples).length) :
    s.synchronize = none := by
  rw [framesOf_length] at h
  simp only [State.synchronize, if_neg (Nat.not_le_of_lt h)]

/-- A valid frame after a synchronization, in any state that holds its bytes. -/
theorem State.frameAt_of_frames {s t : State} {events : List Sample}
    (hm : t.mem = s.mem.put Config.frmBase ((framesOf events).flatMap (·.flatMap CalCell.bytes)))
    (he : s.sameEpochs t) (f : Nat) (hf : f < (framesOf events).length) :
    t.frameAt f = (framesOf events)[f] :=
  State.frameAt_of_put hm he (framesOf_length_eight events)
    (fun x hx c hc => (framesOf_frameRecord events x hx).inRange c hc) f hf

/-- A write of frames changes bytes of FRM only. -/
theorem State.putFrames_keepsOutside (s : State) {l : List (List CalCell)} (h : ∀ x ∈ l, x.length = 8) :
    s.keepsBytesOutside (s.putFrames l) Config.frmBase (Config.frmBase + 64 * l.length) := by
  intro a ha
  exact State.memByte_put_outside rfl (putFrames_sameEpochs s l) (by rw [frames_flatMap_bytes_length h]; exact ha)

/-! ## XI -/

theorem State.xiAt_putXi (s : State) (f g : Nat) (v : XR) :
    (s.putXi f v).xiAt g = if f = g ∧ f < Config.frmMax then v else s.xiAt g := by
  simp only [State.xiAt, State.putXi]
  by_cases hfg : f = g
  · subst hfg
    by_cases hf : f < Config.frmMax
    · rw [if_pos ⟨rfl, hf⟩, Vector.getElem?_setIfInBounds, if_pos rfl, if_pos hf]; rfl
    · rw [if_neg fun h => hf h.2, Vector.getElem?_setIfInBounds, if_pos rfl, if_neg hf,
        Vector.getElem?_eq_none (by omega)]
  · rw [if_neg fun h => hfg h.1, Vector.getElem?_setIfInBounds, if_neg hfg]

theorem State.xiAt_replicate {t : State} (h : t.xi = Vector.replicate Config.frmMax .nan) (f : Nat) :
    t.xiAt f = .nan := by
  simp only [State.xiAt, h]
  by_cases hf : f < Config.frmMax
  · rw [Vector.getElem?_replicate, if_pos hf]; rfl
  · rw [Vector.getElem?_replicate, if_neg hf]; rfl

theorem State.xiAt_congr {s t : State} (h : t.xi = s.xi) : t.xiAt = s.xiAt := by
  funext f; simp only [State.xiAt, h]

/-! ## The calibration of a list of frames -/

theorem allRational_map_val (l : List Rat) : allRational (l.map XR.val) = some l := by
  induction l with
  | nil => rfl
  | cons q l ih => simp [allRational, ih]

theorem allRational_eq_none_iff (l : List XR) : allRational l = none ↔ .nan ∈ l := by
  induction l with
  | nil => simp [allRational]
  | cons x l ih => cases x <;> simp [allRational, ih]

theorem allRational_eq_some_iff (l : List XR) (qs : List Rat) : allRational l = some qs ↔ l = qs.map XR.val := by
  constructor
  · induction l generalizing qs with
    | nil => intro h; simp only [allRational, Option.some.injEq] at h; subst h; rfl
    | cons x l ih =>
      cases x with
      | nan => intro h; cases h
      | val q =>
        intro h
        simp only [allRational, Option.map_eq_some_iff] at h
        obtain ⟨r, hr, rfl⟩ := h
        simp [ih r hr]
  · rintro rfl; exact allRational_map_val qs

/-- What step 3 of DECODE does to a list of frames: at a slope of zero it gives up; else each frame has its intersection, the
line is the last frame's, and nothing else changes (45_decode.md R253, R258). -/
theorem State.calibrateFrames_spec (fs : List Nat) : ∀ s : State,
    ((∃ f ∈ fs, (fitLine (s.frameAt f)).1 = 0) → s.calibrateFrames fs = none)
      ∧ ((∀ f ∈ fs, (fitLine (s.frameAt f)).1 ≠ 0) → ∃ x, s.calibrateFrames fs = some x
        ∧ x = { s with slope := x.slope, intercept := x.intercept, xi := x.xi }
        ∧ (∀ f ∈ fs, f < Config.frmMax →
          x.xiAt f = .val (intersection (fitLine (s.frameAt f)).1 (fitLine (s.frameAt f)).2))
        ∧ (∀ f, f ∉ fs → x.xiAt f = s.xiAt f)
        ∧ (∀ l, fs.getLast? = some l →
          x.slope = .val (fitLine (s.frameAt l)).1 ∧ x.intercept = .val (fitLine (s.frameAt l)).2)
        ∧ (fs = [] → x = s)) := by
  induction fs with
  | nil => intro s; simp [State.calibrateFrames]
  | cons f fs ih =>
    intro s
    have hk : ∀ g, ((s.fitFrame f).putXi f
        (.val (intersection (fitLine (s.frameAt f)).1 (fitLine (s.frameAt f)).2))).frameAt g = s.frameAt g :=
      fun g => State.frameAt_congr (State.keepsBytes_of_mem rfl ⟨rfl, rfl, rfl, rfl⟩) g
    have hx : ∀ g, ((s.fitFrame f).putXi f
        (.val (intersection (fitLine (s.frameAt f)).1 (fitLine (s.frameAt f)).2))).xiAt g
          = if f = g ∧ f < Config.frmMax then
              .val (intersection (fitLine (s.frameAt f)).1 (fitLine (s.frameAt f)).2) else s.xiAt g :=
      fun g => by rw [State.xiAt_putXi]; rfl
    have hrec := ih ((s.fitFrame f).putXi f
      (.val (intersection (fitLine (s.frameAt f)).1 (fitLine (s.frameAt f)).2)))
    simp only [hk] at hrec
    refine ⟨?_, ?_⟩
    · rintro ⟨g, hg, hz⟩
      simp only [State.calibrateFrames]
      split
      · rfl
      · rename_i hne
        rcases List.mem_cons.mp hg with rfl | hg
        · exact absurd hz hne
        · exact hrec.1 ⟨g, hg, hz⟩
    · intro hall
      simp only [State.calibrateFrames, if_neg (hall f (by simp))]
      obtain ⟨x, h1, h2, h3, h4, h5, h6⟩ := hrec.2 fun g hg => hall g (by simp [hg])
      refine ⟨x, h1, ?_, ?_, ?_, ?_, by simp⟩
      · rw [h2]; rfl
      · intro g hg hlt
        by_cases hgf : g ∈ fs
        · exact h3 g hgf hlt
        · rw [h4 g hgf, hx g]
          rcases List.mem_cons.mp hg with rfl | hg
          · rw [if_pos ⟨rfl, hlt⟩]
          · exact absurd hg hgf
      · intro g hg
        rw [h4 g fun h => hg (by simp [h]), hx g, if_neg fun h => hg (by simp [h.1])]
      · intro l hl
        cases hfs : fs with
        | nil =>
          subst hfs
          simp only [List.getLast?_singleton, Option.some.injEq] at hl
          subst hl
          rw [h6 rfl]; exact ⟨rfl, rfl⟩
        | cons g gs =>
          rw [hfs, List.getLast?_cons_cons] at hl
          rw [hfs] at h5
          exact h5 l hl

end Sys2Proof.Machine
end

