-- ==== Sys2Proof/Laws/Decoders.lean ====
section
/-! SUPPORT. The stages of DECODE put together: the state after extraction and synchronization, and the three ways on from it. -/

namespace Sys2Proof.Machine

/-- The state of DECODE after its clear and its clipping count (45_decode.md R253, step 1). -/
def State.counted (s : State) : State := s.clearScratch.countClipping

theorem State.counted_buffer (s : State) : s.counted.buffer = s.buffer :=
  State.buffer_of_mem rfl rfl ⟨rfl, rfl, rfl, rfl⟩

theorem clipCount_eq_tally (buf : List Int) : clipCount buf = tally buf (fun v => decide (32000 < v)) := rfl

theorem State.counted_clipcnt (s : State) (hl : s.ilen.toNat ≤ Config.ibufMax) :
    s.counted.clipcnt.toNat = clipCount s.buffer := by
  have hb : s.clearScratch.buffer = s.buffer := State.buffer_of_mem rfl rfl ⟨rfl, rfl, rfl, rfl⟩
  have h1 : clipCount s.buffer ≤ s.buffer.length := tally_le_length _ _
  rw [State.buffer_length] at h1
  simp only [Config.ibufMax] at hl
  simp only [State.counted, State.countClipping_clipcnt, hb, BitVec.toNat_ofNat]
  exact Nat.mod_eq_of_lt (by omega)

/-- DECODE by the cases of 45_decode.md R254, in their order. -/
theorem execDecode_cases (e : Bool) (s : State) :
    (Config.ibufMax < s.ilen.toNat → execDecode e s = .next (s.raiseFault .badOperand))
      ∧ (s.ilen.toNat ≤ Config.ibufMax →
        execDecode true s = .next s.raiseCaptureFailure
          ∧ (Config.clipLimit < clipCount s.buffer →
            execDecode false s = .next (s.counted.failError .clippingDetected))
          ∧ (clipCount s.buffer ≤ Config.clipLimit → execDecode false s = .next (s.decodeFrames s.counted))) := by
  refine ⟨fun h => ?_, fun h => ⟨?_, fun hc => ?_, fun hc => ?_⟩⟩
  · simp only [execDecode, State.ilenOk, decide_eq_false (Nat.not_le_of_lt h), Bool.not_false, if_true]
  · simp only [execDecode, State.ilenOk, decide_eq_true h, Bool.not_true, Bool.false_eq_true, if_false, if_true]
  · have := State.counted_clipcnt s h
    simp only [State.counted] at this
    simp only [execDecode, State.ilenOk, decide_eq_true h, Bool.not_true, Bool.false_eq_true, if_false, this, if_pos hc,
      State.counted]
  · have := State.counted_clipcnt s h
    simp only [State.counted] at this
    simp only [execDecode, State.ilenOk, decide_eq_true h, Bool.not_true, Bool.false_eq_true, if_false, this,
      if_neg (Nat.not_lt_of_le hc), State.counted]

/-- The state of DECODE after extraction and synchronization of the buffer of `c` (45_decode.md R253, step 2). -/
def State.synchronized (c : State) : State :=
  ((c.putSamples (extractEvents c.buffer)).clearXi.putFrames (framesOf (extractEvents c.buffer))).putSync
    (SyncState.start.over 0 (extractEvents c.buffer))

theorem framesOf_le_frmMax {buf : List Int} (h : buf.length ≤ Config.ibufMax) :
    (framesOf (extractEvents buf)).length ≤ Config.frmMax := by
  have := framesOf_cost buf
  simp only [Config.ibufMax, Config.frmMax] at *; omega

theorem putSamples_samples (c : State) {buf : List Int} (hb : ∀ v ∈ buf, IsI16 v) (hl : buf.length ≤ Config.ibufMax) :
    (c.putSamples (extractEvents buf)).samples = extractEvents buf :=
  State.samples_of_extract (s := c) hb hl rfl ⟨rfl, rfl, rfl, rfl⟩ rfl

theorem State.synchronized_mem (c : State) :
    c.synchronized.mem = (c.putSamples (extractEvents c.buffer)).mem.put Config.frmBase
      ((framesOf (extractEvents c.buffer)).flatMap (·.flatMap CalCell.bytes)) := by
  simp only [State.synchronized, State.putSync_mem, State.putFrames_mem, State.clearXi_mem]

theorem State.synchronized_epochs (c : State) :
    (c.putSamples (extractEvents c.buffer)).sameEpochs c.synchronized := by
  simp [State.sameEpochs, State.synchronized]

/-- Extraction and synchronization of a buffer that fits IBUF answer `synchronized`. -/
theorem State.synchronize_extracted (c : State) (hl : c.ilen.toNat ≤ Config.ibufMax) :
    (c.putSamples (extractEvents c.buffer)).synchronize = some c.synchronized := by
  have hl' : c.buffer.length ≤ Config.ibufMax := by rw [State.buffer_length]; exact hl
  have hs := putSamples_samples c c.buffer_isI16 hl'
  rw [State.synchronize_eq _ (by rw [hs]; exact framesOf_le_frmMax hl'), hs]
  rfl

theorem State.synchronized_fcnt (c : State) (hl : c.ilen.toNat ≤ Config.ibufMax) :
    c.synchronized.fcnt.toNat = (framesOf (extractEvents c.buffer)).length := by
  have hl' : c.buffer.length ≤ Config.ibufMax := by rw [State.buffer_length]; exact hl
  have := framesOf_le_frmMax hl'
  simp only [Config.frmMax] at this
  show (BitVec.ofNat 32 _).toNat = _
  rw [BitVec.toNat_ofNat, Nat.mod_eq_of_lt (by omega)]

theorem State.synchronized_frameAt (c : State) (f : Nat) (hf : f < (framesOf (extractEvents c.buffer)).length) :
    c.synchronized.frameAt f = (framesOf (extractEvents c.buffer))[f] :=
  State.frameAt_of_frames c.synchronized_mem c.synchronized_epochs f hf

/-- The write of the frames leaves EVT as the extraction left it. -/
theorem State.synchronized_samples (c : State) (hl : c.ilen.toNat ≤ Config.ibufMax) :
    c.synchronized.samples = extractEvents c.buffer := by
  have hl' : c.buffer.length ≤ Config.ibufMax := by rw [State.buffer_length]; exact hl
  rw [← putSamples_samples c c.buffer_isI16 hl']
  have hlt := extractEvents_length_lt hl'
  refine State.samples_congr_in rfl ?_ ?_
  · show (BitVec.ofNat 32 _).toNat ≤ _
    simp only [Config.evtMax] at *
    rw [BitVec.toNat_ofNat, Nat.mod_eq_of_lt (by omega)]; omega
  · intro a h1 h2
    refine State.memByte_put_outside c.synchronized_mem c.synchronized_epochs ?_
    simp only [Config.evtEnd, Config.evtBase, Config.evtMax, Config.frmBase] at *; omega

/-- The bytes that extraction and synchronization leave: all outside EVT and FRM. -/
theorem State.synchronized_keeps (c : State) (hl : c.ilen.toNat ≤ Config.ibufMax) (a : Nat)
    (ha : a < Config.evtBase ∨ Config.frmEnd ≤ a) : c.synchronized.memByte a = c.memByte a := by
  have hl' : c.buffer.length ≤ Config.ibufMax := by rw [State.buffer_length]; exact hl
  have h1 := extractEvents_length_lt hl'
  have h2 := framesOf_le_frmMax hl'
  have e1 : c.synchronized.memByte a = (c.putSamples (extractEvents c.buffer)).memByte a := by
    refine State.memByte_put_outside c.synchronized_mem c.synchronized_epochs ?_
    rw [frames_flatMap_bytes_length (framesOf_length_eight _)]
    simp only [Config.evtBase, Config.frmEnd, Config.frmBase, Config.frmMax] at *; omega
  rw [e1]
  refine State.putSamples_keepsOutside c _ a ?_
  simp only [Config.evtBase, Config.frmEnd, Config.frmBase, Config.frmMax, Config.evtMax] at *; omega

theorem State.xi_synchronized (c : State) (f : Nat) : c.synchronized.xiAt f = .nan := State.xiAt_replicate rfl f

/-- DECODE without a frame ends with NoFramesFound (45_decode.md R255). -/
theorem State.decodeFrames_noFrames (s c : State) (hl : c.ilen.toNat ≤ Config.ibufMax)
    (h : framesOf (extractEvents c.buffer) = []) :
    s.decodeFrames c = c.synchronized.failError .noFramesFound := by
  have hl' : c.buffer.length ≤ Config.ibufMax := by rw [State.buffer_length]; exact hl
  have h0 : c.synchronized.fcnt = 0 := by
    show BitVec.ofNat 32 _ = 0
    rw [h]; rfl
  simp only [State.decodeFrames, State.extractInto_eq c hl', State.synchronize_extracted c hl, if_pos h0]

theorem State.synchronized_fcnt_ne (c : State) (hl : c.ilen.toNat ≤ Config.ibufMax)
    (h : framesOf (extractEvents c.buffer) ≠ []) : c.synchronized.fcnt ≠ 0 := by
  intro h0
  have := State.synchronized_fcnt c hl
  rw [h0] at this
  exact h (List.length_eq_zero_iff.mp this.symm)

/-- DECODE with a frame of slope zero ends in NUMERIC (45_decode.md R258). -/
theorem State.decodeFrames_numeric (s c : State) (hl : c.ilen.toNat ≤ Config.ibufMax)
    (h : ∃ cells ∈ framesOf (extractEvents c.buffer), (fitLine cells).1 = 0) :
    s.decodeFrames c = s.raiseLateFault .numeric := by
  have hl' : c.buffer.length ≤ Config.ibufMax := by rw [State.buffer_length]; exact hl
  obtain ⟨cells, hc, hz⟩ := h
  obtain ⟨f, hf, rfl⟩ := List.mem_iff_getElem.mp hc
  have hne : framesOf (extractEvents c.buffer) ≠ [] := by intro h; simp [h] at hf
  have hnone : c.synchronized.calibrateFrames (List.range c.synchronized.fcnt.toNat) = none := by
    refine (State.calibrateFrames_spec _ _).1 ⟨f, ?_, ?_⟩
    · rw [List.mem_range, State.synchronized_fcnt c hl]; exact hf
    · rw [State.synchronized_frameAt c f hf]; exact hz
  simp only [State.decodeFrames, State.extractInto_eq c hl', State.synchronize_extracted c hl,
    if_neg (State.synchronized_fcnt_ne c hl hne), hnone]

/-- The intersections of all frames, read back from XI. -/
theorem map_xiAt_range {x : State} {frames : List (List CalCell)} (n : Nat) (hn : n = frames.length)
    (h : ∀ f (hf : f < frames.length), x.xiAt f = .val (intersection (fitLine frames[f]).1 (fitLine frames[f]).2)) :
    (List.range n).map x.xiAt = (intersectionsOf frames).map XR.val := by
  subst hn
  apply List.ext_getElem
  · simp [intersectionsOf]
  · intro i h1 h2
    simp only [List.length_map, List.length_range] at h1
    simp [intersectionsOf, h i h1]

/-- DECODE with frames whose slopes are all non-zero: every stage runs to the end (45_decode.md R257). -/
theorem State.decodeFrames_success (s c : State) (frames : List (List CalCell)) (last : List CalCell)
    (hl : c.ilen.toNat ≤ Config.ibufMax) (hf : frames = framesOf (extractEvents c.buffer))
    (hz : ∀ cells ∈ frames, (fitLine cells).1 ≠ 0) (hlast : frames.getLast? = some last) :
    ∃ x m, s.decodeFrames c = ((x.combine m).report x.fcnt).complete
      ∧ c.synchronized.calibrateFrames (List.range frames.length) = some x
      ∧ x = { c.synchronized with
        slope := .val (fitLine last).1, intercept := .val (fitLine last).2, xi := x.xi }
      ∧ median (intersectionsOf frames) = some m ∧ x.medianIntersection = some m
      ∧ (∀ f (h : f < frames.length), x.xiAt f = .val (intersection (fitLine frames[f]).1 (fitLine frames[f]).2))
      ∧ ∀ f, frames.length ≤ f → x.xiAt f = .nan := by
  subst hf
  have hl' : c.buffer.length ≤ Config.ibufMax := by rw [State.buffer_length]; exact hl
  have hne : framesOf (extractEvents c.buffer) ≠ [] := by intro h; simp [h] at hlast
  have hle := framesOf_le_frmMax hl'
  obtain ⟨x, h1, h2, h3, h4, h5, -⟩ := (State.calibrateFrames_spec
    (List.range (framesOf (extractEvents c.buffer)).length) c.synchronized).2 (by
      intro f hf
      rw [List.mem_range] at hf
      rw [State.synchronized_frameAt c f hf]
      exact hz _ (List.getElem_mem hf))
  have hx : ∀ f (h : f < (framesOf (extractEvents c.buffer)).length), x.xiAt f
      = .val (intersection (fitLine (framesOf (extractEvents c.buffer))[f]).1
        (fitLine (framesOf (extractEvents c.buffer))[f]).2) := by
    intro f hf
    rw [h3 f (List.mem_range.mpr hf) (by omega), State.synchronized_frameAt c f hf]
  obtain ⟨h5a, h5b⟩ : x.slope = .val (fitLine last).1 ∧ x.intercept = .val (fitLine last).2 := by
    have hpos := List.length_pos_of_ne_nil hne
    have hl1 : (List.range (framesOf (extractEvents c.buffer)).length).getLast?
        = some ((framesOf (extractEvents c.buffer)).length - 1) := by
      rw [List.getLast?_range, if_neg (by omega)]
    have := h5 _ hl1
    rw [State.synchronized_frameAt c _ (by omega)] at this
    have hlast' : (framesOf (extractEvents c.buffer))[(framesOf (extractEvents c.buffer)).length - 1] = last := by
      rw [List.getLast?_eq_getElem?, List.getElem?_eq_getElem (by omega)] at hlast
      exact Option.some.inj hlast
    rw [hlast'] at this
    exact this
  have hfc : x.fcnt = c.synchronized.fcnt := by rw [h2]
  obtain ⟨m, hm, -⟩ := median_isSome (l := intersectionsOf (framesOf (extractEvents c.buffer)))
    (by simpa [intersectionsOf] using hne)
  have hmed : x.medianIntersection = some m := by
    simp only [State.medianIntersection, State.intersections, hfc, State.synchronized_fcnt c hl,
      map_xiAt_range _ rfl hx, allRational_map_val, Option.bind_some, hm]
  refine ⟨x, m, ?_, h1, ?_, hm, hmed, hx, ?_⟩
  · have h1' := h1
    rw [← State.synchronized_fcnt c hl] at h1'
    simp only [State.decodeFrames, State.extractInto_eq c hl', State.synchronize_extracted c hl,
      if_neg (State.synchronized_fcnt_ne c hl hne), h1', hmed]
  · rw [← h5a, ← h5b]; exact h2
  · intro f hf
    rw [h4 f (by rw [List.mem_range]; omega)]
    exact State.xi_synchronized c f

end Sys2Proof.Machine
end

