-- ==== Sys2Proof/Laws/Ops.lean ====
section
/-! SUPPORT. What the shared operations over the whole state do: each keeps the canonical form of the written bytes, and each
fault and reset keeps what the spec says it keeps. -/

namespace Sys2Proof.Machine

/-! ## The canonical form -/

/-- Bytes written inside one of the four memories keep the canonical form. -/
theorem State.putBytes_memoryOk {s : State} (h : s.memoryOk) {a : Nat} {bs : List Byte}
    (ha : Config.ibufBase ≤ a ∧ a + bs.length ≤ Config.ibufEnd) : (s.putBytes a bs).memoryOk :=
  Memory.put_wf h a bs fun _ h1 h2 => .inl ⟨le_trans ha.1 h1, lt_of_lt_of_le h2 ha.2⟩

theorem State.putSamples_memoryOk {s : State} (h : s.memoryOk) {l : List Sample} (hl : l.length ≤ Config.evtMax) :
    (s.putSamples l).memoryOk :=
  Memory.put_wf h _ _ fun x h1 h2 => .inr (.inr (.inl ⟨h1, by
    rw [Sample.flatMap_bytes_length] at h2
    simp only [Config.evtEnd, Config.evtBase, Config.evtMax] at *; omega⟩))

theorem State.putFrames_memoryOk {s : State} (h : s.memoryOk) {l : List (List CalCell)}
    (h8 : ∀ x ∈ l, x.length = 8) (hl : l.length ≤ Config.frmMax) : (s.putFrames l).memoryOk :=
  Memory.put_wf h _ _ fun x h1 h2 => .inr (.inr (.inr ⟨h1, by
    rw [frames_flatMap_bytes_length h8] at h2
    simp only [Config.frmEnd, Config.frmBase, Config.frmMax] at *; omega⟩))

theorem output_flatMap_bytes_length (l : List Int) :
    (l.flatMap fun v => bytesOfHalf (BitVec.ofInt 16 v)).length = 2 * l.length :=
  length_flatMap_const l _ 2 fun _ _ => rfl

theorem State.putOutput_memoryOk {s : State} (h : s.memoryOk) {l : List Int} (hl : l.length ≤ Config.obufMax) :
    (s.putOutput l).memoryOk :=
  Memory.put_wf h _ _ fun x h1 h2 => .inr (.inl ⟨h1, by
    rw [output_flatMap_bytes_length] at h2
    simp only [Config.obufEnd, Config.obufBase, Config.obufMax] at *; omega⟩)

theorem State.forgetSpace_memoryOk {s : State} (h : s.memoryOk) (p : Space) : (s.forgetSpace p).memoryOk := by
  cases p <;> exact Memory.erase_wf h _ _

theorem State.forgetSpaces_memoryOk {s : State} (h : s.memoryOk) (l : List Space) : (s.forgetSpaces l).memoryOk := by
  have : ∀ (l : List Space) (s : State), s.memoryOk → (l.foldl State.forgetSpace s).memoryOk := by
    intro l
    induction l with
    | nil => exact fun _ h => h
    | cons p l ih => exact fun s h => ih _ (State.forgetSpace_memoryOk h p)
  exact this l s h

theorem State.softReset_memoryOk {s : State} (h : s.memoryOk) : s.softReset.memoryOk :=
  State.forgetSpaces_memoryOk h s.abandoned

theorem State.hardwareReset_memoryOk (s : State) : s.hardwareReset.memoryOk := reset_memory_wf

theorem State.raiseLateFault_memoryOk {s : State} (h : s.memoryOk) (c : FaultCode) : (s.raiseLateFault c).memoryOk :=
  Memory.erase_wf (Memory.erase_wf h _ _) _ _

/-! ## Late faults -/

/-- The bytes that a late fault leaves: all but those of EVT and FRM (60_exceptions.md R313). -/
theorem State.raiseLateFault_memByte (s : State) (c : FaultCode) {a : Nat} (ha : a < Config.obufEnd) :
    (s.raiseLateFault c).memByte a = s.memByte a := by
  have h1 : ¬ (Config.evtBase ≤ a ∧ a < Config.evtEnd) := by
    simp only [Config.obufEnd, Config.obufBase, Config.obufMax, Config.evtBase] at *; omega
  have h2 : ¬ (Config.frmBase ≤ a ∧ a < Config.frmEnd) := by
    simp only [Config.obufEnd, Config.obufBase, Config.obufMax, Config.frmBase] at *; omega
  have he : (s.raiseLateFault c).epochAt a = s.epochAt a := by
    simp only [State.epochAt, State.raiseLateFault_ibufEpoch, State.raiseLateFault_obufEpoch, if_pos ha]
  simp only [State.memByte, he, State.raiseLateFault_mem, Memory.get_erase, if_neg h1, if_neg h2]

/-- What every late fault keeps (R313). -/
theorem State.raiseLateFault_keeps (s : State) (c : FaultCode) :
    s.keepsHostState (s.raiseLateFault c) ∧ s.keepsOutput (s.raiseLateFault c)
      ∧ (s.raiseLateFault c).pstate = s.pstate ∧ (s.raiseLateFault c).busy = false
      ∧ (s.raiseLateFault c).done = true ∧ (s.raiseLateFault c).fault = some c :=
  ⟨⟨rfl, rfl, rfl, rfl, rfl, rfl, rfl, rfl, rfl, rfl, rfl, rfl, rfl, rfl, fun a _ h => by
      refine State.raiseLateFault_memByte s c ?_
      simp only [Config.ibufEnd, Config.ibufBase, Config.ibufMax, Config.obufEnd, Config.obufBase,
        Config.obufMax] at *
      omega⟩,
    ⟨rfl, fun _ _ h => State.raiseLateFault_memByte s c h⟩, rfl, rfl, rfl, rfl⟩

/-- ERROR after a late fault is never code 4 (10_state.md R38). -/
theorem freeError_ne (d : Nat) : freeError d ≠ .undeterminedTemperature := by
  unfold freeError; split <;> simp

/-! ## Forgetting a memory -/

/-- A forgotten memory leaves every byte of the other three. -/
theorem State.forgetSpace_memByte (s : State) (p : Space) {a : Nat}
    (ha : match p with
      | .ibuf => ¬ a < Config.ibufEnd
      | .obuf => ¬ (Config.ibufEnd ≤ a ∧ a < Config.obufEnd)
      | .evt => ¬ (Config.obufEnd ≤ a ∧ a < Config.evtEnd)
      | .frm => ¬ Config.evtEnd ≤ a) : (s.forgetSpace p).memByte a = s.memByte a := by
  have e : Config.ibufEnd = 0x20000 ∧ Config.obufEnd = 0x60000 ∧ Config.evtEnd = 0x200000 ∧ Config.frmEnd = 0x204000
      ∧ Config.ibufBase = 0x10000 ∧ Config.obufBase = 0x40000 ∧ Config.evtBase = 0x100000
      ∧ Config.frmBase = 0x200000 := by decide
  obtain ⟨e1, e2, e3, e4, e5, e6, e7, e8⟩ := e
  cases p <;> simp only at ha <;>
    simp only [State.memByte, State.forgetSpace, Memory.get_erase, State.epochAt, e1, e2, e3, e4, e5, e6, e7, e8] at * <;>
    · rw [if_neg (by omega)]
      congr 2
      split_ifs <;> first | rfl | omega

end Sys2Proof.Machine
end

