-- ==== Sys2Proof/Laws/PerInstr.lean ====
section
/-! SUPPORT. The family of per-instruction statements: the fields of each command's word (30_encoding.md R110, R112, R116,
R117). -/

namespace Sys2Proof.Laws.EncodedFields

/-- The value of OP of a command (R112). -/
def op : Instr → Nat
  | .nop => 0x00
  | .clear => 0x01
  | .sweep => 0x10
  | .twoph => 0x11
  | .ttone => 0x12
  | .clipchk => 0x20
  | .extract => 0x21
  | .fsync => 0x22
  | .fit _ => 0x23
  | .xint _ => 0x24
  | .resist => 0x25
  | .temp => 0x26
  | .decode _ => 0x30
  | .sdecode _ => 0x31
  | .pres1 _ => 0x40
  | .pres2 _ => 0x41

/-- The value of ARG of a command: the frame index, RDERR in bit 0, or zero (R112). -/
def arg : Instr → Nat
  | .fit f | .xint f => f
  | .decode e | .sdecode e | .pres1 e | .pres2 e => e.toNat
  | .nop | .clear | .sweep | .twoph | .ttone | .clipchk | .extract | .fsync | .resist | .temp => 0

/-- The word of a well-formed command has its OP, its ARG, and zero in the reserved field. -/
def Statement (i : Instr) : Prop :=
  i.wf = true → (opField (encode i)).toNat = op i ∧ (argField (encode i)).toNat = arg i ∧ reservedField (encode i) = 0

theorem nop : Statement .nop := by intro _; decide
theorem clear : Statement .clear := by intro _; decide
theorem sweep : Statement .sweep := by intro _; decide
theorem twoph : Statement .twoph := by intro _; decide
theorem ttone : Statement .ttone := by intro _; decide
theorem clipchk : Statement .clipchk := by intro _; decide
theorem extract : Statement .extract := by intro _; decide
theorem fsync : Statement .fsync := by intro _; decide

theorem fit (frame : Nat) : Statement (.fit frame) := by
  have h : ∀ f, f < 256 → (opField (encode (.fit f))).toNat = 0x23 ∧ (argField (encode (.fit f))).toNat = f
      ∧ reservedField (encode (.fit f)) = 0 := by decide +kernel
  exact fun hw => h frame (by simpa [Instr.wf] using hw)

theorem xint (frame : Nat) : Statement (.xint frame) := by
  have h : ∀ f, f < 256 → (opField (encode (.xint f))).toNat = 0x24 ∧ (argField (encode (.xint f))).toNat = f
      ∧ reservedField (encode (.xint f)) = 0 := by decide +kernel
  exact fun hw => h frame (by simpa [Instr.wf] using hw)

theorem resist : Statement .resist := by intro _; decide
theorem temp : Statement .temp := by intro _; decide
theorem decode (rderr : Bool) : Statement (.decode rderr) := by cases rderr <;> (intro _; decide)
theorem sdecode (rderr : Bool) : Statement (.sdecode rderr) := by cases rderr <;> (intro _; decide)
theorem pres1 (rderr : Bool) : Statement (.pres1 rderr) := by cases rderr <;> (intro _; decide)
theorem pres2 (rderr : Bool) : Statement (.pres2 rderr) := by cases rderr <;> (intro _; decide)

end Sys2Proof.Laws.EncodedFields
end

