-- ==== Sys2Proof/Laws/Port.lean ====
section
/-! SUPPORT. What a host read returns, said once for each kind of target: of an idle block, the value of the target; of a valid
element, what the memory holds. -/

namespace Sys2Proof.Machine

variable {s : State}

/-- A read of an idle block at a legal address returns the value of what is there. -/
theorem hostReadValue_of_target {addr : Word} {width : Width} {t : Target} (h : target addr.toNat width = some t)
    (hb : s.busy = false) : s.hostReadValue addr width = s.readTarget t := by
  simp only [State.hostReadValue, h, hb, Bool.false_and, Bool.false_eq_true, if_false]

/-- A read at an illegal address returns a free word, busy or not. -/
theorem hostReadValue_of_illegal {addr : Word} {width : Width} (h : target addr.toNat width = none) :
    s.hostReadValue addr width = s.freeAccess addr width := by
  simp only [State.hostReadValue, h]

/-- A read of an idle block leaves only the word it returned. -/
theorem hostRead_of_idle (addr : Word) (width : Width) (hb : s.busy = false) :
    s.hostRead addr width = { s with rdata := s.hostReadValue addr width } := by
  simp only [State.hostRead, hb, Bool.false_eq_true, if_false]

theorem ibufRead_of_lt {i : Nat} (h : i < s.ilen.toNat) : s.ibufRead i = s.ibufHalf i := if_pos h

theorem obufRead_of_lt {i : Nat} (h : i < s.olen.toNat) : s.obufRead i = s.obufHalf i := if_pos h

theorem readTarget_evt_of_lt {p : Nat} (h : p < s.ecnt.toNat) (j : Nat) : s.readTarget (.evt p j) = s.evtWord p j := if_pos h

theorem readTarget_frm_of_lt {f : Nat} (h : f < s.fcnt.toNat) (j : Nat) : s.readTarget (.frm f j) = s.frmWord f j := if_pos h

/-- What the host read last is nothing of the block. -/
theorem readTarget_rdata (w : Word) (t : Target) : ({ s with rdata := w } : State).readTarget t = s.readTarget t := by
  cases t <;> rfl

end Sys2Proof.Machine
end

