-- ==== Sys2Proof/Laws/Sine.lean ====
section
/-! SUPPORT. The enclosure of the sine is sound: the exact real sine of 00_scope.md R26 lies between the two rationals of
`sineBounds`, and they are 2/10^20 apart at most. -/

namespace Sys2Proof.Machine

/-! ## The Taylor polynomial -/

/-- The first `k` terms of the sine's series. -/
noncomputable def sineSeries (x : ℝ) (k : Nat) : ℝ :=
  ∑ j ∈ Finset.range k, (-(x ^ 2)) ^ j * x / (2 * j + 1).factorial

/-- The imaginary part of the exponential's series at `x·i` is the sine's series. -/
theorem exp_series_im (x : ℝ) (k : Nat) :
    (∑ m ∈ Finset.range (2 * k), ((x : ℂ) * Complex.I) ^ m / (m.factorial : ℂ)).im = sineSeries x k := by
  induction k with
  | zero => simp [sineSeries]
  | succ k ih =>
    have heven : ((x : ℂ) * Complex.I) ^ (2 * k) = (((-(x ^ 2)) ^ k : ℝ) : ℂ) := by
      rw [pow_mul, mul_pow, Complex.I_sq]; push_cast; ring
    have hodd : ((x : ℂ) * Complex.I) ^ (2 * k + 1) = (((-(x ^ 2)) ^ k * x : ℝ) : ℂ) * Complex.I := by
      rw [pow_succ, heven]; push_cast; ring
    rw [show 2 * (k + 1) = 2 * k + 1 + 1 by ring, Finset.sum_range_succ, Finset.sum_range_succ, heven, hodd]
    simp only [Complex.add_im, ih, sineSeries, Finset.sum_range_succ]
    have e1 : ((((-(x ^ 2)) ^ k : ℝ) : ℂ) / ((2 * k).factorial : ℂ)).im = 0 := by
      rw [show ((2 * k).factorial : ℂ) = (((2 * k).factorial : ℝ) : ℂ) by push_cast; rfl, ← Complex.ofReal_div,
        Complex.ofReal_im]
    have e2 : ((((-(x ^ 2)) ^ k * x : ℝ) : ℂ) * Complex.I / ((2 * k + 1).factorial : ℂ)).im
        = (-(x ^ 2)) ^ k * x / (2 * k + 1).factorial := by
      rw [show ((2 * k + 1).factorial : ℂ) = (((2 * k + 1).factorial : ℝ) : ℂ) by push_cast; rfl,
        mul_div_right_comm, ← Complex.ofReal_div, Complex.im_ofReal_mul, Complex.I_im, mul_one]
    rw [e1, e2]; ring

theorem abs_sin_sub_series_le {x : ℝ} (h0 : 0 ≤ x) (h2 : x ≤ 2) :
    |Real.sin x - sineSeries x 14| ≤ x ^ 28 / (28 : Nat).factorial * 2 := by
  have hn : ‖(x : ℂ) * Complex.I‖ = x := by simp [abs_of_nonneg h0]
  have h := Complex.exp_bound' (x := (x : ℂ) * Complex.I) (n := 28) (by
    rw [hn]; norm_num; linarith)
  rw [hn] at h
  refine le_trans ?_ h
  have him : (Complex.exp ((x : ℂ) * Complex.I)
      - ∑ m ∈ Finset.range 28, ((x : ℂ) * Complex.I) ^ m / (m.factorial : ℂ)).im
        = Real.sin x - sineSeries x 14 := by
    rw [Complex.sub_im, ← exp_series_im x 14, Complex.exp_ofReal_mul_I_im]
  rw [← him]
  exact Complex.abs_im_le_norm _

/-- The nested polynomial of the model is the series. -/
theorem sinePoly_cast (x : Rat) : ((sinePoly x : Rat) : ℝ) = sineSeries (x : ℝ) 14 := by
  simp only [sinePoly, sineTail, sineSeries, Finset.sum_range_succ, Finset.sum_range_zero, Nat.factorial]
  push_cast
  ring

/-! ## A quarter turn -/

theorem pi_bounds : (piLower : ℝ) < Real.pi ∧ Real.pi < (piLower : ℝ) + (sineError : ℝ) := by
  have h1 := Real.pi_gt_d20
  have h2 := Real.pi_lt_d20
  simp only [piLower, sineError]
  constructor
  · refine lt_of_eq_of_lt ?_ h1; norm_num
  · refine lt_of_lt_of_eq h2 ?_; norm_num

/-- The rational enclosure of a quarter turn holds the exact sine (00_scope.md R26). -/
theorem quarterSine_sound {t : Nat} (ht : t ≤ quarterTurn) :
    ((quarterSine t).1 : ℝ) ≤ Real.sin (2 * Real.pi * t / 44100)
      ∧ Real.sin (2 * Real.pi * t / 44100) ≤ ((quarterSine t).2 : ℝ) := by
  have hq : quarterTurn = 11025 := rfl
  unfold quarterSine
  split
  · rename_i h; subst h; simp
  split
  · rename_i h
    have : t = 3675 := by omega
    subst this
    have : Real.sin (2 * Real.pi * (3675 : Nat) / 44100) = 1 / 2 := by
      rw [← Real.sin_pi_div_six]; congr 1; push_cast; ring
    rw [this]; norm_num
  split
  · rename_i h
    rw [hq] at h; subst h
    have : Real.sin (2 * Real.pi * (11025 : Nat) / 44100) = 1 := by
      rw [← Real.sin_pi_div_two]; congr 1; push_cast; ring
    rw [this]; norm_num
  · rw [hq] at ht
    obtain ⟨p1, p2⟩ := pi_bounds
    have hts : (t : ℝ) ≤ 11025 := by exact_mod_cast ht
    have ht0 : (0 : ℝ) ≤ t := Nat.cast_nonneg t
    have hp0 : (0 : ℝ) < (piLower : ℝ) := by simp only [piLower]; norm_num
    have hp4 : (piLower : ℝ) < 3.1416 := by simp only [piLower]; norm_num
    set x : ℝ := 2 * (piLower : ℝ) * t / 44100 with hx
    have hxc : ((2 * piLower * (t : Rat) / (Config.sampleRate : Rat) : Rat) : ℝ) = x := by
      rw [hx]; push_cast [show Config.sampleRate = 44100 from rfl]; ring
    have hx0 : 0 ≤ x := by rw [hx]; positivity
    have hx2 : x ≤ 1.5708 := by
      rw [hx]
      have : (piLower : ℝ) * t ≤ 3.1416 * 11025 := by
        apply mul_le_mul hp4.le hts ht0 (by norm_num)
      linarith
    have hE : (sineError : ℝ) = 1 / 10 ^ 20 := by simp only [sineError]; norm_num
    have hser := abs_sin_sub_series_le hx0 (by linarith)
    have hpow : x ^ 28 / (28 : Nat).factorial * 2 ≤ 1 / 10 ^ 22 := by
      have : x ^ 28 ≤ 1.5708 ^ 28 := pow_le_pow_left₀ hx0 hx2 28
      calc x ^ 28 / (28 : Nat).factorial * 2 ≤ 1.5708 ^ 28 / (28 : Nat).factorial * 2 := by gcongr
        _ ≤ 1 / 10 ^ 22 := by norm_num [Nat.factorial]
    have hlip := Real.abs_sin_sub_sin_le (2 * Real.pi * t / 44100) x
    have hd : |2 * Real.pi * t / 44100 - x| ≤ 1 / 2 * (sineError : ℝ) := by
      rw [show 2 * Real.pi * t / 44100 - x = (Real.pi - (piLower : ℝ)) * (2 * t / 44100) by rw [hx]; ring,
        abs_of_nonneg (mul_nonneg (by linarith) (by positivity))]
      have h1 : Real.pi - (piLower : ℝ) ≤ (sineError : ℝ) := by linarith
      have h2 : 2 * (t : ℝ) / 44100 ≤ 1 / 2 := by linarith
      calc (Real.pi - (piLower : ℝ)) * (2 * t / 44100) ≤ (sineError : ℝ) * (1 / 2) := by
            apply mul_le_mul h1 h2 (by positivity) (by rw [hE]; positivity)
        _ = 1 / 2 * (sineError : ℝ) := by ring
    have key : |Real.sin (2 * Real.pi * t / 44100) - sineSeries x 14| ≤ (sineError : ℝ) := by
      have := abs_sub_le (Real.sin (2 * Real.pi * t / 44100)) (Real.sin x) (sineSeries x 14)
      rw [hE] at hd ⊢
      have h3 : (1 : ℝ) / 10 ^ 22 ≤ 1 / 2 * (1 / 10 ^ 20) := by norm_num
      linarith
    rw [abs_le] at key
    simp only [Rat.cast_sub, Rat.cast_add, sinePoly_cast, hxc]
    constructor <;> linarith [key.1, key.2]

/-! ## The whole turn -/

theorem sineBounds_sound {r : Nat} (hr : r < 44100) :
    ((sineBounds r).1 : ℝ) ≤ Real.sin (2 * Real.pi * r / 44100)
      ∧ Real.sin (2 * Real.pi * r / 44100) ≤ ((sineBounds r).2 : ℝ) := by
  have hq : quarterTurn = 11025 := rfl
  have hcases : r / quarterTurn < 4 := by rw [hq]; omega
  have hsplit := Nat.div_add_mod r quarterTurn
  have hm : r % quarterTurn < quarterTurn := Nat.mod_lt _ (by rw [hq]; norm_num)
  set u := r % quarterTurn with hu
  rw [hq] at hm
  unfold sineBounds
  rw [← hu]
  have hk : r / quarterTurn = 0 ∨ r / quarterTurn = 1 ∨ r / quarterTurn = 2 ∨ r / quarterTurn = 3 := by
    generalize r / quarterTurn = k at hcases; omega
  rcases hk with hk | hk | hk | hk <;> rw [hk]
  · have hru : r = u := by rw [hk, hq] at hsplit; omega
    simp only
    rw [hru]
    exact quarterSine_sound (by rw [hq]; omega)
  · have hru : r = 11025 + u := by rw [hk, hq] at hsplit; omega
    have hs := quarterSine_sound (t := quarterTurn - u) (by omega)
    have he : Real.sin (2 * Real.pi * r / 44100) = Real.sin (2 * Real.pi * ((quarterTurn - u : Nat) : ℝ) / 44100) := by
      rw [← Real.sin_pi_sub]
      congr 1
      rw [hq, Nat.cast_sub hm.le, hru]; push_cast; ring
    simp only
    rw [he]; exact hs
  · have hru : r = 22050 + u := by rw [hk, hq] at hsplit; omega
    have hs := quarterSine_sound (t := u) (by rw [hq]; omega)
    have he : Real.sin (2 * Real.pi * r / 44100) = -Real.sin (2 * Real.pi * (u : ℝ) / 44100) := by
      rw [← Real.sin_add_pi]
      congr 1
      rw [hru]; push_cast; ring
    simp only [negateBounds, Rat.cast_neg]
    rw [he]; constructor <;> linarith [hs.1, hs.2]
  · have hru : r = 33075 + u := by rw [hk, hq] at hsplit; omega
    have hs := quarterSine_sound (t := quarterTurn - u) (by omega)
    have he : Real.sin (2 * Real.pi * r / 44100)
        = -Real.sin (2 * Real.pi * ((quarterTurn - u : Nat) : ℝ) / 44100) := by
      rw [← Real.sin_neg, ← Real.sin_add_two_pi (-_)]
      congr 1
      rw [hq, Nat.cast_sub hm.le, hru]; push_cast; ring
    simp only [negateBounds, Rat.cast_neg]
    rw [he]; constructor <;> linarith [hs.1, hs.2]

/-- The ends of the enclosure are in order and 2/10^20 apart at most. -/
theorem quarterSine_width (t : Nat) :
    (quarterSine t).1 ≤ (quarterSine t).2 ∧ (quarterSine t).2 - (quarterSine t).1 ≤ 2 * sineError := by
  have hE : 0 < sineError := by norm_num [sineError]
  unfold quarterSine
  split
  · constructor <;> simp only <;> linarith
  split
  · constructor <;> simp only <;> linarith
  split
  · constructor <;> simp only <;> linarith
  · constructor <;> simp only <;> linarith

theorem sineBounds_width (r : Nat) :
    (sineBounds r).1 ≤ (sineBounds r).2 ∧ (sineBounds r).2 - (sineBounds r).1 ≤ 2 * sineError := by
  unfold sineBounds
  have hn : ∀ t, (negateBounds (quarterSine t)).1 ≤ (negateBounds (quarterSine t)).2
      ∧ (negateBounds (quarterSine t)).2 - (negateBounds (quarterSine t)).1 ≤ 2 * sineError := by
    intro t
    have := quarterSine_width t
    simp only [negateBounds]
    constructor <;> linarith [this.1, this.2]
  split
  · exact quarterSine_width _
  · exact quarterSine_width _
  · exact hn _
  · exact hn _

end Sys2Proof.Machine
end

