-- ==== Sys2Proof/Laws/Step.lean ====
section
/-! SUPPORT. Everything a step can do, said once, and the same for a host write. -/

namespace Sys2Proof.Machine

/-- The state with the first entry of its agenda taken off: what a step works on. -/
def State.taken (s : State) : State := { s with agenda := s.agenda.tail }

theorem State.taken_of_nil {s : State} (h : s.agenda = []) : s.taken = s := by
  cases s; simp only at h; subst h; rfl

/-- What a completion can do. -/
theorem completion_cases {s t : State} (h : completion s = .next t) :
    (s.busy = false ∧ t = s)
      ∨ (∃ i, s.busy = true ∧ decodeWord s.cmd = .ok i ∧ exec i s = .next t)
      ∨ (s.busy = true ∧ (∀ i, decodeWord s.cmd ≠ .ok i) ∧ t = s.raiseFault .illegalCmd) := by
  unfold completion at h
  cases hb : s.busy with
  | false => simp only [hb, Bool.false_eq_true, if_false] at h; cases h; exact .inl ⟨rfl, rfl⟩
  | true =>
    simp only [hb, if_true, State.running] at h
    cases hd : decodeWord s.cmd with
    | ok i => simp only [hd, Except.toOption] at h; exact .inr (.inl ⟨i, rfl, rfl, h⟩)
    | error e =>
      simp only [hd, Except.toOption] at h; cases h
      exact .inr (.inr ⟨rfl, fun i hi => (by cases hi), rfl⟩)

/-- What a step can do: a host access, a hardware reset, or a completion, each on the state with its entry taken off. -/
theorem step_cases {s t : State} (h : step s = .next t) :
    (∃ a rest, s.agenda = .access a :: rest ∧ t = s.taken.hostAccess a)
      ∨ (∃ rest, s.agenda = .hardwareReset :: rest ∧ t = s.taken.hardwareReset)
      ∨ ((s.agenda = [] ∨ ∃ rest, s.agenda = .completion :: rest) ∧ completion s.taken = .next t) := by
  unfold step at h
  cases ha : s.agenda with
  | nil => simp only [ha] at h; exact .inr (.inr ⟨.inl rfl, by rw [State.taken_of_nil ha]; exact h⟩)
  | cons e rest =>
    have htail : s.taken = { s with agenda := rest } := by simp only [State.taken, ha, List.tail_cons]
    cases e with
    | access a =>
      simp only [ha] at h; cases h
      exact .inl ⟨a, rest, rfl, by rw [htail]⟩
    | completion => simp only [ha] at h; exact .inr (.inr ⟨.inr ⟨rest, rfl⟩, by rw [htail]; exact h⟩)
    | hardwareReset =>
      simp only [ha] at h; cases h
      exact .inr (.inl ⟨rest, rfl, by rw [htail]⟩)

/-- What a host write can do (20_memory.md R86, R88, R89, 70_reset_and_hazards.md R350). -/
theorem hostWrite_cases (s : State) (addr : Word) (width : Width) (data : Word) :
    (target addr.toNat width = none ∧ s.hostWrite addr width data = s)
      ∨ ∃ t, target addr.toNat width = some t
        ∧ ((s.busy = true ∧ isSoftReset t data = false ∧ s.hostWrite addr width data = { s with haz := true })
          ∨ ((s.busy = false ∨ isSoftReset t data = true) ∧ s.hostWrite addr width data = s.writeTarget t data)) := by
  unfold State.hostWrite
  cases ht : target addr.toNat width with
  | none => exact .inl ⟨rfl, rfl⟩
  | some t =>
    refine .inr ⟨t, rfl, ?_⟩
    cases s.busy <;> cases hr : isSoftReset t data <;> simp [hr]

/-- What issue at an idle block can do (30_encoding.md R111). -/
theorem issue_cases (s : State) (w : Word) :
    (s.fault ≠ none ∧ s.issue w = s)
      ∨ (s.fault = none ∧ (∃ i, decodeWord w = .ok i) ∧ s.issue w = s.accept w)
      ∨ (s.fault = none ∧ (∃ e, decodeWord w = .error e)
        ∧ s.issue w = { s with cmd := w, done := true, busy := false, fault := some .illegalCmd }) := by
  unfold State.issue
  cases hf : s.fault with
  | some c => exact .inl ⟨by simp, by simp⟩
  | none =>
    cases hd : decodeWord w with
    | ok i => exact .inr (.inl ⟨rfl, ⟨i, rfl⟩, by simp⟩)
    | error e => exact .inr (.inr ⟨rfl, ⟨e, rfl⟩, by simp [State.raiseFault]⟩)

end Sys2Proof.Machine
end

