-- ==== Sys2Proof/Tests/Slice0.lean ====
section
/-! SUPPORT. The model's own tests: the WellFormed smoke, the decoding of words written out from 30_encoding.md R112, one or two
small tests for each command with the values of 95_test_vectors.md, and for each statement with hypotheses a concrete state that
meets them. -/

namespace Sys2Proof.Tests

set_option Elab.async false

open Sys2Proof.Machine

/-! ## WellFormed: an ill-formed term for its one check -/

theorem test_wf_refuses_fit_256 : Instr.wf (.fit 256) = false := by decide
theorem test_wf_refuses_xint_256 : Instr.wf (.xint 256) = false := by decide
theorem test_wf_accepts_fit_255 : Instr.wf (.fit 255) = true := by decide

/-! ## Decoding: every command's word, written out from the map of R112 (vectors V1 and V2) -/

theorem test_decode_nop : decodeWord 0x00000000 = .ok .nop := by decide
theorem test_decode_clear : decodeWord 0x00000001 = .ok .clear := by decide
theorem test_decode_sweep : decodeWord 0x00000010 = .ok .sweep := by decide
theorem test_decode_twoph : decodeWord 0x00000011 = .ok .twoph := by decide
theorem test_decode_ttone : decodeWord 0x00000012 = .ok .ttone := by decide
theorem test_decode_clipchk : decodeWord 0x00000020 = .ok .clipchk := by decide
theorem test_decode_extract : decodeWord 0x00000021 = .ok .extract := by decide
theorem test_decode_fsync : decodeWord 0x00000022 = .ok .fsync := by decide
theorem test_decode_fit : decodeWord 0x00000223 = .ok (.fit 2) ∧ decodeWord 0x0000FF23 = .ok (.fit 255) := by decide
theorem test_decode_xint : decodeWord 0x00000024 = .ok (.xint 0) ∧ decodeWord 0x00000124 = .ok (.xint 1) := by decide
theorem test_decode_resist : decodeWord 0x00000025 = .ok .resist := by decide
theorem test_decode_temp : decodeWord 0x00000026 = .ok .temp := by decide
theorem test_decode_decode :
    decodeWord 0x00000030 = .ok (.decode false) ∧ decodeWord 0x00000130 = .ok (.decode true) := by decide
theorem test_decode_sdecode :
    decodeWord 0x00000031 = .ok (.sdecode false) ∧ decodeWord 0x00000131 = .ok (.sdecode true) := by decide
theorem test_decode_pres1 :
    decodeWord 0x00000040 = .ok (.pres1 false) ∧ decodeWord 0x00000140 = .ok (.pres1 true) := by decide
theorem test_decode_pres2 :
    decodeWord 0x00000041 = .ok (.pres2 false) ∧ decodeWord 0x00000141 = .ok (.pres2 true) := by decide

theorem test_decode_reserved_bits :
    decodeWord 0x00010010 = .error .reservedBits ∧ decodeWord 0x80000000 = .error .reservedBits := by decide
theorem test_decode_unknown_op :
    decodeWord 0x00000002 = .error .unknownOp ∧ decodeWord 0x000000FF = .error .unknownOp := by decide
theorem test_decode_argument :
    decodeWord 0x00000110 = .error .argNotZero ∧ decodeWord 0x00000341 = .error .rderrHighBits := by decide
theorem test_decode_table_word : decodeTableWord 32 0x00000223 = some (.fit 2) := by decide

/-! ## States for the tests -/

/-- The reset state with samples loaded at IBUF 0 and ILEN set to their number. -/
def loaded (l : List Int) : State :=
  { State.reset with
    mem := Memory.put [] Config.ibufBase (l.flatMap fun v => bytesOfHalf (BitVec.ofInt 16 v))
    ilen := BitVec.ofNat 32 l.length }

theorem loaded_buffer {l : List Int} (hl : l.length ≤ 32768) (hr : ∀ v ∈ l, IsI16 v) : (loaded l).buffer = l := by
  have hn : (loaded l).ilen.toNat = l.length := by
    show (BitVec.ofNat 32 l.length).toNat = _
    rw [BitVec.toNat_ofNat, Nat.mod_eq_of_lt (by omega)]
  apply List.ext_getElem
  · simp [State.buffer, hn]
  · intro i h1 h2
    simp only [State.buffer, List.getElem_map, List.getElem_range, State.ibufSample]
    have h0 := State.memByte_record (s := State.reset) (t := loaded l) (f := fun v => bytesOfHalf (BitVec.ofInt 16 v))
      rfl ⟨rfl, rfl, rfl, rfl⟩ (fun _ _ => rfl) i 0 h2 (by omega : 0 < 2)
    have h1' := State.memByte_record (s := State.reset) (t := loaded l) (f := fun v => bytesOfHalf (BitVec.ofInt 16 v))
      rfl ⟨rfl, rfl, rfl, rfl⟩ (fun _ _ => rfl) i 1 h2 (by omega : 1 < 2)
    rw [Nat.add_zero] at h0
    simp only [State.ibufHalf, State.memHalf, h0, h1', bytesOfHalf]
    have := hr _ (List.getElem_mem h2)
    rw [show (([(BitVec.ofInt 16 l[i]).extractLsb' 0 8, (BitVec.ofInt 16 l[i]).extractLsb' 8 8] : List Byte)[1]?).getD 0
        ++ (([(BitVec.ofInt 16 l[i]).extractLsb' 0 8, (BitVec.ofInt 16 l[i]).extractLsb' 8 8] : List Byte)[0]?).getD 0
          = BitVec.ofInt 16 l[i] from half_of_bytesOfHalf _, BitVec.toInt_ofInt]
    exact Int.bmod_eq_of_le (by have := this.1; omega) (by have := this.2; omega)

/-- The state a command leaves; a test reads one of its fields. -/
def after (i : Instr) (s : State) : State :=
  match exec i s with
  | .next t => t
  | .fault _ => s
  | .refused _ => s

/-- The frame of vector V24, in FRM 0. -/
def linearFrame : List CalCell :=
  [⟨400, 0⟩, ⟨300, 1⟩, ⟨200, 2⟩, ⟨100, 3⟩, ⟨-100, 5⟩, ⟨-200, 6⟩, ⟨-300, 7⟩, ⟨-400, 8⟩]

/-- The reset state with the frame of V24 as its one valid frame. -/
def framed : State := State.reset.putFrames [linearFrame]

/-! ## One or two tests for each command -/

/-- V56: `run NOP` after reset leaves STATUS 2. -/
theorem test_nop_status : (after .nop State.reset).statusWord = 0x00000002 := by decide

/-- P4: STATUS is 0x0000000A after CLEAR; R304: ECNT and TEMPERATURE are emptied. -/
theorem test_clear : (after .clear { framed with ecnt := 1999, temperature := .val 25, pstate := .present }).statusWord
    = 0x0000000A ∧ (after .clear framed).fcnt = 0 := by decide

/-- V10, cell 0: the left and the right sample at position 1. -/
theorem test_sweep_samples : State.reset.sweepLeft 0 1 = 4187 ∧ State.reset.sweepRight 0 1 = -2326 := by
  decide +kernel

/-- A small sweep at a quarter of the sample rate: OLEN, the volumes 9/10 and 1/10, and the sync cell (R145 to R147). -/
theorem test_sweep_small :
    (after .sweep { State.reset with ncells := 3, ppcell := 1, syncidx := 0, freq := 11025 }).olen = 24
      ∧ (List.range 24).map
        (after .sweep { State.reset with ncells := 3, ppcell := 1, syncidx := 0, freq := 11025 }).obufSample
        = [0, 0, 0, 0, 0, 0, 0, 0, 0, 0, 29490, -16383, 0, 0, -29490, 16384, 0, 0, 3277, -16383, 0, 0, -3277, 16384] := by
  decide +kernel

/-- V12, the first samples of the left half and of the right half. -/
theorem test_twoph : (List.range 16).map (after .twoph { State.reset with dur := 8 }).obufSample
    = [0, 0, 2326, 0, 4606, 0, 6791, 0, 0, 8840, 0, 10709, 0, 12361, 0, 13763] := by decide +kernel

/-- V13, the exact samples at a quarter of the sample rate and full volume. -/
theorem test_ttone :
    (List.range 10).map (after .ttone { State.reset with dur := 5, freq := 11025, tonevol := 10000 }).obufSample
      = [0, 0, 32767, 32767, 0, 0, -32767, -32767, 0, 0] := by decide +kernel

/-- V12: a volume above VOL_DEN faults, and so does an output beyond OBUF. -/
theorem test_twoph_faults : (after .twoph { State.reset with tonevol := 10001 }).statusWord = 0x00000202
    ∧ (after .twoph { State.reset with dur := 32769 }).statusWord = 0x00000302 := by decide

/-- R252: 32000 is not counted, 32001 and 32767 are, negative samples never. -/
theorem test_clipchk : (after .clipchk (loaded [32000, 32001, -32768, 32767, 0])).clipcnt = 2 := by decide +kernel

/-- V20. -/
theorem test_extract : (after .extract (loaded [5, 9, 4, -3, -8, -8, -2, 1, -1, -6, -2, 7])).samples
    = [⟨-3, 3, 3, .zero⟩, ⟨-8, 4, 1, .min⟩, ⟨1, 7, 4, .zero⟩, ⟨-1, 8, 1, .zero⟩, ⟨-6, 9, 1, .min⟩, ⟨7, 11, 3, .zero⟩] := by
  decide +kernel

/-- V21: the sign of zero, and a span of zeros. -/
theorem test_extract_zeros : extractEvents [-1, 0, 0, 0, -1] = [⟨0, 1, 1, .zero⟩, ⟨0, 1, 0, .max⟩, ⟨-1, 4, 3, .zero⟩] := by
  decide

/-- R206, V23: the nine amplitudes to the frame record. -/
theorem test_fsync_cells : correctedCells [905, 702, 500, 300, 100, 120, 310, 520, 730]
    = [⟨905, 0⟩, ⟨702, 1⟩, ⟨500, 2⟩, ⟨300, 3⟩, ⟨-120, 5⟩, ⟨-310, 6⟩, ⟨-520, 7⟩, ⟨-730, 8⟩] := by decide

/-- V22: the sync test, and the acceptance of a marker. -/
theorem test_fsync_sync : [0, 5, 6, 11, 16, 17, 22, 34].map isSync = [false, false, true, true, true, false, false, false]
    ∧ [37, 38, 42, 43].map markerAccepted = [false, true, true, false] := by decide

/-- V24: SLOPE and INTERCEPT. -/
theorem test_fit : (after (.fit 0) framed).slope = .val (-100 / 441) ∧ (after (.fit 0) framed).intercept = .val 450 := by
  decide +kernel

/-- V25: FIT of a frame that is not valid. -/
theorem test_fit_fault : (after (.fit 1) framed).statusWord = 0x00000202 := by decide

/-- V24: the intersection. -/
theorem test_xint : (after (.xint 0) { framed with slope := .val (-100 / 441), intercept := .val 450 }).xiAt 0
    = .val (1 / 2) := by decide +kernel

/-- V25: XINT with slope 0. -/
theorem test_xint_fault : (after (.xint 0) { framed with slope := .val 0, intercept := .val 450 }).statusWord
    = 0x00000402 := by decide +kernel

/-- V25: the median of three, and the upper median of two. -/
theorem test_resist :
    (after .resist
      ((({ State.reset with fcnt := 3 }.putXi 0 (.val (1 / 2))).putXi 1 (.val (3 / 8))).putXi 2 (.val (5 / 8)))).resistance
      = .val 100
    ∧ (after .resist (({ State.reset with fcnt := 2 }.putXi 0 (.val (3 / 8))).putXi 1 (.val (1 / 2)))).xmed
      = .val (1 / 2) := by decide +kernel

/-- V25: an intersection that is NaN. -/
theorem test_resist_fault :
    (after .resist ({ State.reset with fcnt := 2 }.putXi 0 (.val (1 / 2)))).statusWord = 0x00000202 := by decide +kernel

/-- V27, R248: the interpolation on the toy table, its ends and its extrapolation. -/
theorem test_temp_toy_table : [75, 300, 25, 200].map (fun r => temperatureFor [200, 100, 50, 25] (.val r))
    = [.val (-77 / 2), .val (-41), .nan, .val (-40)] := by decide +kernel

/-- V26: `run TEMP` after reset. -/
theorem test_temp_after_reset : (after .temp State.reset).statusWord = 0x0000000A := by decide +kernel

/-- V51: a buffer of zeros. -/
theorem test_decode_zeros : (after (.decode false) (loaded (List.replicate 20 0))).statusWord = 0x0000000A
    ∧ (after (.decode false) (loaded (List.replicate 20 0))).error = .noFramesFound := by decide +kernel

/-- V53: the capture failure. -/
theorem test_decode_capture_failure : (after (.decode true) State.reset).faultNumber = 5
    ∧ (after (.decode true) State.reset).error = .captureFailure := by decide

/-- The buffer of V34. -/
def probe : List Int :=
  [0, 0, 500] ++ (List.replicate 5 [1200, 2000, 2000, 1200, -1200, -2000, -2000, -1200]).flatten
    ++ (List.replicate 5 [900, 1500, 1500, 900, -900, -1500, -1500, -900]).flatten ++ [-300, 0]

/-- V34: the amplitudes and the resistance. -/
theorem test_sdecode : (after (.sdecode false) (loaded probe)).leftamp = 2000
    ∧ (after (.sdecode false) (loaded probe)).rightamp = 1500
    ∧ (after (.sdecode false) (loaded probe)).resistance = .val 75 := by decide +kernel

/-- V36: nothing above the trim threshold. -/
theorem test_sdecode_no_signal : (after (.sdecode false) (loaded [1000, -1000, 1000])).error = .noFramesFound := by
  decide +kernel

/-- V40 and V41: the trimmed level at CUT_SAMPLES_COUNT 3. -/
theorem test_pres1_level : trimmedLevel 3 [3, -7, 2, 50, -4, 1, 0, 6] = some 6
    ∧ trimmedLevel 3 [10, -31, 29, -30, 12, 900, 28, -5] = some 30 := by decide

/-- V43: a read error concludes not detected. -/
theorem test_pres1_read_error : (after (.pres1 true) State.reset).statusWord = 0x00000042 := by decide

/-- V43: PRES2 after reset changes nothing. -/
theorem test_pres2_idle : (after (.pres2 false) State.reset).statusWord = 0x00000002 := by decide

/-- V43: PRES2 with a read error in an armed detector. -/
theorem test_pres2_read_error : (after (.pres2 true) { State.reset with pstate := .armed }).statusWord = 0x00000042 := by
  decide

/-! ## The host port -/

/-- V3: host-port patterns. -/
theorem test_rnd32 : [1 / 2, 1 / 10, 25, 450, -41, -77 / 2, -100 / 441, 2522 / 1000].map (fun q => rnd32 (.val q))
    = [0x3F000000, 0x3DCCCCCD, 0x41C80000, 0x43E10000, 0xC2240000, 0xC21A0000, 0xBE683315, 0x40216873] := by
  decide +kernel

/-- V3: what a host write to RESISTANCE stores. -/
theorem test_exactValue : [0x42C80000, 0x80000000, 0x7F800000, 0x7F800001, 0x40216873].map exactValue
    = [.val 100, .val 0, .nan, .nan, .val (10578035 / 4194304)] := by decide +kernel

/-- V50, in two steps: an illegal word completes at once with its fault, and a following NOP is dropped. -/
theorem test_illegal_word_then_nop :
    ((State.reset.hostWrite 0 .w32 0x00010010).statusWord = 0x00000102)
      ∧ (((State.reset.hostWrite 0 .w32 0x00010010).hostWrite 0 .w32 0).cmd = 0x00010010) := by decide

/-- V54: a write while the block is busy is dropped and sets HAZ. -/
theorem test_busy_write : (((State.reset.hostWrite 0 .w32 0x30).hostWrite 0x0C .w32 5).ilen = 0)
    ∧ (((State.reset.hostWrite 0 .w32 0x30).hostWrite 0x0C .w32 5).statusWord = 0x00000005) := by decide

/-- V55: writes to STATUS, to ECNT and to CTRL without SRST. -/
theorem test_read_only : (State.reset.hostWrite 4 .w32 0xFFFFFFFF) = State.reset
    ∧ (State.reset.hostWrite 0x38 .w32 7) = State.reset ∧ (State.reset.hostWrite 8 .w32 0xFFFFFFFE) = State.reset := by
  decide +kernel

/-- R83: the words of an event record and of a frame's cell, as the host reads them. -/
theorem test_record_layout :
    [0, 4, 8, 12].map (fun o => (State.reset.putSamples [⟨-6, 9, 1, .min⟩]).hostReadValue (0x00100000 + o) .w32)
        = [0xFFFFFFFA, 9, 1, 2]
      ∧ [0x38, 0x3C].map (fun o => framed.hostReadValue (0x00200000 + o) .w32) = [0xFFFFFE70, 8] := by decide +kernel

/-- The edges of the map of R82. -/
theorem test_map_edges : target 0x84 .w32 = some (.reg 33) ∧ target 0x88 .w32 = none ∧ target 0x1FFFE .w16 = some (.ibuf 32767)
    ∧ target 0x20000 .w16 = none ∧ target 0x5FFFE .w16 = some (.obuf 65535) ∧ target 0x1FFFFC .w32 = some (.evt 65535 3)
    ∧ target 0x203FFC .w32 = some (.frm 255 15) ∧ target 0x204000 .w32 = none ∧ target 0x2103FC .w32 = some (.xi 255)
    ∧ target 0x210400 .w32 = none ∧ target 0x10002 .w32 = none ∧ target 0x10000 .w8 = none := by decide

/-- The step after `withFetchWord` runs the word. -/
theorem test_step_runs_word : ∃ t, step (State.reset.withFetchWord 32 0x00000001) = .next t ∧ t.statusWord = 0x0000000A :=
  ⟨_, rfl, by decide⟩

/-! ## Witnesses: for each statement with hypotheses, concrete states and operands that meet them -/

theorem witness_DecodeOfEncode : Instr.wf (.fit 255) = true ∧ Instr.wf (.xint 0) = true ∧ Instr.wf (.pres2 true) = true := by
  decide

theorem witness_EncodeOfDecode : decodeWord 0x0000FF24 = .ok (.xint 255) ∧ decodeWord 0 = .ok .nop := by decide

theorem witness_DecoderFollowsTable :
    (∃ r ∈ opcodeMap, 0x0000FF23 &&& r.mask = r.pattern) ∧ ∀ r ∈ opcodeMap, 0x00000002 &&& r.mask ≠ r.pattern := by decide

/-- Every reason for which a word is illegal has a word. -/
theorem witness_IllegalWordsRaiseTheFault :
    State.reset.accepts = true ∧ reservedField 0x00010000 ≠ 0 ∧ opField 0x00000002 = 0x02
      ∧ opField 0x00000125 = 0x25 ∧ argField 0x00000125 ≠ 0
      ∧ opField 0x00000231 = 0x31 ∧ (argField 0x00000231).extractLsb' 1 7 ≠ 0
      ∧ decodeWord 0x00010000 = .error .reservedBits ∧ decodeWord 0x00000002 = .error .unknownOp
      ∧ decodeWord 0x00000125 = .error .argNotZero ∧ decodeWord 0x00000231 = .error .rderrHighBits := by decide

/-- A block that runs FIT of frame 255, with `l` still to come. -/
def runningFit (l : List Event) : State := { State.reset with cmd := 0x0000FF23, busy := true, agenda := l }

theorem witness_StepRunsTheDecodedCommand :
    (runningFit []).busy = true ∧ decodeWord (runningFit []).cmd = .ok (.fit 255) ∧ (runningFit []).agenda = []
      ∧ (runningFit [.completion, .hardwareReset]).busy = true
      ∧ decodeWord (runningFit [.completion, .hardwareReset]).cmd = .ok (.fit 255)
      ∧ (runningFit [.completion, .hardwareReset]).agenda = .completion :: [.hardwareReset] := by decide

/-- The four cases of a write to CMD. -/
theorem witness_IssueFollowsTheCases :
    (runningFit [.access (.write 0 .w32 0)]).busy = true
      ∧ (runningFit [.access (.write 0 .w32 0)]).agenda = .access (.write 0 .w32 0) :: []
      ∧ ({ State.reset with fault := some .numeric, agenda := [.access (.write 0 .w32 0)] } : State).fault ≠ none
      ∧ ({ State.reset with agenda := [.access (.write 0 .w32 0), .completion] } : State).fault = none
      ∧ decodeWord 0 = .ok .nop ∧ decodeWord 0x00000002 = .error .unknownOp := by decide

/-- A faulted state, with one event to come. -/
def faulted (e : Event) : State := { State.reset with done := true, fault := some .captureFailure, agenda := [e] }

theorem faulted_protocolOk (e : Event) : (faulted e).protocolOk := by intro h; cases h

theorem witness_FaultHoldsUntilReset :
    (∀ e, (faulted e).protocolOk ∧ (faulted e).fault = some .captureFailure)
      ∧ (faulted (.access (.write 0 .w32 0))).noResetNext
      ∧ (∃ t, step (faulted (.access (.write 0 .w32 0))) = .next t)
      ∧ (∃ t, step (faulted .hardwareReset) = .next t) ∧ Event.hardwareReset.isReset = true
      ∧ Event.isReset (.access (.write 8 .w32 1)) = true
      ∧ target (0x60 : Word).toNat .w32 ≠ some (.reg 0) ∧ Event.isReset (.access (.write 0x60 .w32 5)) = false
      ∧ target (0x08 : Word).toNat .w32 ≠ some (.reg 0) ∧ Event.isReset (.access (.write 0x08 .w32 2)) = false
      ∧ target (0x60 : Word).toNat .w32 ≠ some (.reg 1) :=
  ⟨fun e => ⟨faulted_protocolOk e, rfl⟩, by unfold State.noResetNext; decide, ⟨_, rfl⟩, ⟨_, rfl⟩, by decide⟩

theorem runningFit_protocolOk (l : List Event) : (runningFit l).protocolOk :=
  fun _ => ⟨rfl, rfl, _, show decodeWord 0x0000FF23 = .ok (.fit 255) by decide⟩

theorem witness_BusyBlockDropsWrites :
    (∀ l, (runningFit l).protocolOk ∧ (runningFit l).busy = true)
      ∧ target (0x08 : Word).toNat .w32 = some (.reg 2) ∧ ¬ (Target.reg 2 = .reg 2 ∧ (2 : Word).getLsbD 0 = true)
      ∧ target (0x10000 : Word).toNat .w16 = some (.ibuf 0)
      ∧ ¬ (Target.ibuf 0 = .reg 2 ∧ (1 : Word).getLsbD 0 = true)
      ∧ (runningFit [.access (.read 4 .w32)]).noResetNext ∧ (∃ t, step (runningFit [.access (.read 4 .w32)]) = .next t)
      ∧ { runningFit [.completion] with haz := true }.haz = true
      ∧ { runningFit [.completion] with haz := true }.noResetNext
      ∧ ∃ t, step { runningFit [.completion] with haz := true } = .next t :=
  ⟨fun l => ⟨runningFit_protocolOk l, rfl⟩, by decide, by decide, by decide, by decide,
    by unfold State.noResetNext; decide, ⟨_, rfl⟩, rfl, by unfold State.noResetNext; decide, ⟨_, rfl⟩⟩

/-- A block that runs a command, and a soft reset to come. -/
def resetting (word : Word) (running : Bool) : State :=
  { State.reset with cmd := word, busy := running, agenda := [.access (.write 8 .w32 0xFFFFFFFF)] }

/-- For both statements about soft reset: SoftResetRestoresTheRegisters and SoftResetKeepsTheMemories. -/
theorem witness_SoftReset :
    (∀ w b, (resetting w b).agenda = .access (.write 8 .w32 0xFFFFFFFF) :: []) ∧ (0xFFFFFFFF : Word).getLsbD 0 = true
      ∧ (∀ w b, ∃ t, step (resetting w b) = .next t) ∧ (resetting 0 false).busy = false
      ∧ (resetting 0x20 true).busy = true ∧ decodeWord (resetting 0x20 true).cmd = .ok .clipchk
      ∧ .clipchk ∉ [Instr.sweep, .twoph, .ttone]
      ∧ .clipchk ∉ [Instr.extract, .decode false, .decode true, .sdecode false, .sdecode true]
      ∧ .clipchk ∉ [Instr.fsync, .decode false, .decode true] :=
  ⟨fun _ _ => rfl, by decide, fun _ _ => ⟨_, rfl⟩, rfl, rfl, by decide, by decide, by decide, by decide⟩

theorem witness_HardwareResetFromAnyState :
    ({ runningFit [] with agenda := [.hardwareReset] } : State).agenda = .hardwareReset :: [] ∧ 33 < 34 ∧ 255 < 256 := by decide

theorem witness_LegalAccesses : State.reset.busy = false ∧ 16383 < 16384
    ∧ 2 * 16383 + 1 < ({ State.reset with ilen := 32768 } : State).ilen.toNat
    ∧ 2 * 32767 + 1 < ({ State.reset with olen := 65536 } : State).olen.toNat ∧ 32767 < 32768 := by decide

/-- The last element of each space; an idle block with the last IBUF and OBUF elements valid, a valid event and a valid cell. -/
theorem witness_ElementAddresses :
    (33 < 34 ∧ 32767 < 32768 ∧ 65535 < 65536 ∧ 3 < 4 ∧ 255 < 256 ∧ 15 < 16)
      ∧ framed.busy = false ∧ 32767 < ({ framed with ilen := 32768 } : State).ilen.toNat
      ∧ 65535 < ({ framed with olen := 65536 } : State).olen.toNat
      ∧ (State.reset.putSamples [⟨-6, 9, 1, .min⟩]).samples[0]? = some ⟨-6, 9, 1, .min⟩
      ∧ 0 < framed.fcnt.toNat ∧ (framed.frameAt 0)[7]? = some ⟨-400, 8⟩ := by decide +kernel

theorem witness_AccessesWithoutEffect :
    State.reset.busy = false ∧ target (0x88 : Word).toNat .w32 = none ∧ target (0x84 : Word).toNat .w32 = some (.reg 33)
      ∧ (Target.reg 33).readOnly = true ∧ State.reset.specified (.reg 33) = true
      ∧ target (0x5FFFC : Word).toNat .w32 = some (.obufPair 65534) ∧ (Target.obufPair 65534).readOnly = true
      ∧ ({ State.reset with olen := 65536 } : State).specified (.obufPair 65534) = true
      ∧ (0xFFFFFFFE : Word).getLsbD 0 = false := by decide

theorem witness_InputWritesReadBack : ({ State.reset with ilen := 32768 } : State).busy = false ∧ 32767 < 32768 ∧ 16383 < 16384
    ∧ 32767 < ({ State.reset with ilen := 32768 } : State).ilen.toNat
    ∧ 2 * 16383 + 1 < ({ State.reset with ilen := 32768 } : State).ilen.toNat := by decide

theorem witness_OperandRegistersHold : State.reset.busy = false ∧ 3 ∈ operandNumbers ∧ 13 ∈ operandNumbers
    ∧ ∃ t, exec .sweep State.reset = .next t := ⟨rfl, by decide, by decide, _, rfl⟩

theorem witness_ResistanceWritesStoreExactly : State.reset.busy = false ∧ finitePattern 0x7F7FFFFF ∧ finitePattern 0x00000001
    ∧ ¬ finitePattern 0x7F800000 ∧ ¬ finitePattern 0x7FC00000 ∧ finitePattern 0x80000001 ∧ (0x80000001 : Word) ≠ 0x80000000 := by
  simp only [finitePattern]; decide

/-- The bound of infinity, the value below it, and a tie between two patterns. -/
theorem witness_RoundingIsNearestTiesToEven :
    (2 ^ 128 - 2 ^ 103 : Rat) ≠ 0 ∧ (2 ^ 128 - 2 ^ 103 : Rat) ≤ |2 ^ 128 - 2 ^ 103|
      ∧ |(2 ^ 128 - 2 ^ 103 - 1 : Rat)| < 2 ^ 128 - 2 ^ 103
      ∧ |(1 + 2 ^ (-24 : Int) : Rat)| < 2 ^ 128 - 2 ^ 103 ∧ finitePattern 0x3F800001
      ∧ |(1 + 2 ^ (-24 : Int) : Rat) - patternValue (rnd32 (.val (1 + 2 ^ (-24 : Int))))|
        = |(1 + 2 ^ (-24 : Int) : Rat) - patternValue 0x3F800001|
      ∧ patternValue 0x3F800001 ≠ patternValue (rnd32 (.val (1 + 2 ^ (-24 : Int)))) := by
  simp only [finitePattern]; decide +kernel

/-- NOP is named by none of the lists. -/
theorem witness_OnlyTheNamedCommandsWrite : ∃ t, exec .nop State.reset = .next t ∧ t.fault = none ∧ writesOutput .nop = false
    ∧ writesPresence .nop = false ∧ writesTemperature .nop = false ∧ writesResistance .nop = false ∧ writesOutcome .nop = false
    ∧ writesEvents .nop = false ∧ writesFrames .nop = false ∧ writesIntersections .nop = false := ⟨_, rfl, by decide⟩

theorem witness_CommandsKeepTheHostsState : ∃ t, exec .sweep State.reset = .next t := ⟨_, rfl⟩

theorem witness_FaultsFollowTheTable : State.reset.fault = none ∧ ∃ t, exec (.fit 0) State.reset = .next t := ⟨rfl, _, rfl⟩

/-- An early fault, a fault of ILEN, a late fault, and an illegal word. -/
theorem witness_FaultEffect :
    State.reset.fault = none ∧ (∃ t, exec (.fit 0) State.reset = .next t ∧ t.fault = some .badOperand)
      ∧ faultsEarly (.fit 0) = true
      ∧ (∃ t, exec .extract { State.reset with ilen := 32769 } = .next t ∧ t.fault = some .badOperand)
      ∧ readsInput .extract = true ∧ 32768 < ({ State.reset with ilen := 32769 } : State).ilen.toNat
      ∧ (∃ t, exec (.decode true) State.reset = .next t ∧ t.fault = some .captureFailure)
      ∧ State.reset.accepts = true ∧ decodeWord 0x00000002 = .error .unknownOp :=
  ⟨rfl, ⟨_, rfl, by decide⟩, rfl, ⟨_, rfl, by decide⟩, rfl, by decide, ⟨_, rfl, by decide⟩, by decide, by decide⟩

theorem witness_NopOnlyIssuesAndCompletes :
    ({ State.reset with agenda := [.access (.write 0 .w32 0), .completion] } : State).accepts = true
      ∧ (faulted .completion).busy = false ∧ (faulted .completion).fault ≠ none := by decide

/-- The reset operands, and the smallest sweep: three cells, the first the sync cell, full volumes. -/
theorem witness_SweepWritesTheSweep :
    (State.reset.ncells.toNat = 10 ∧ State.reset.ppcell.toNat = 10 ∧ State.reset.syncidx.toNat = 9
      ∧ State.reset.freq.toNat = 1000 ∧ State.reset.refvol.toNat = 5000 ∧ State.reset.maxvol.toNat = 9000
      ∧ State.reset.minvol.toNat = 1000)
      ∧ (1000 * 441 = 44100 * 10 ∧ 2 * 10 * 441 ≤ 65536 ∧ 0 < 10 ∧ 440 < 441)
      ∧ (5000 / 10000 : Rat) ≤ 1 ∧ (9000 / 10000 : Rat) ≤ 1 ∧ (1000 / 10000 : Rat) ≤ 1
      ∧ (10000 / 10000 : Rat) ≤ 1 ∧ 3 ≤ 3 ∧ 0 < 3 ∧ 11025 * 4 = 44100 * 1 ∧ 2 * 3 * 4 ≤ 65536 := by
  decide +kernel

theorem witness_TwophWritesTheTone :
    ({ State.reset with dur := 32768 } : State).dur.toNat = 32768 ∧ State.reset.freq.toNat ≠ 0
      ∧ (State.reset.tonevol.toNat : Rat) / 10000 ≤ 1 ∧ 2 * 32768 ≤ 65536 ∧ 16383 < 32768 / 2 ∧ 32768 / 2 ≤ 32767 := by
  decide +kernel

theorem witness_TtoneWritesTheTone :
    ({ State.reset with dur := 32768, tonevol := 10000 } : State).dur.toNat = 32768 ∧ State.reset.freq.toNat ≠ 0
      ∧ ((({ State.reset with dur := 32768, tonevol := 10000 } : State).tonevol.toNat : Nat) : Rat) / 10000 ≤ 1
      ∧ 2 * 32768 ≤ 65536 := by decide +kernel

theorem witness_ToneIsTheRoundedSine : (0 : Rat) ≤ 32767 ∧ (toneCandidates 1 32767).1 = (toneCandidates 1 32767).2 := by
  decide +kernel

theorem witness_ToneRangeAndExactPhases : (0 : Rat) ≤ 32767 ∧ (2 * (22050 : Int)) % 44100 = 0
    ∧ (4 * (11025 : Int)) % (4 * 44100) = 44100 ∧ (4 * (-11025 : Int)) % (4 * 44100) = 3 * 44100 := by decide +kernel

/-- ILEN at and above the capacity, for EXTRACT and CLIPCHK. -/
theorem witness_ExtractWritesTheEvents : ({ State.reset with ilen := 32768 } : State).ilen.toNat ≤ 32768
    ∧ 32768 < ({ State.reset with ilen := 32769 } : State).ilen.toNat := by decide

theorem witness_SyncMachineTransitions :
    (⟨3, 5, 4, .max⟩ : Sample).kind ≠ .zero ∧ (⟨3, 6, 6, .zero⟩ : Sample).kind = .zero ∧ 6 ≤ 6 ∧ 16 ≤ 16
      ∧ ((⟨3, 5, 5, .zero⟩ : Sample).delta < 6 ∨ 16 < (⟨3, 5, 5, .zero⟩ : Sample).delta)
      ∧ 38 ≤ (⟨38, 1, 2, []⟩ : SyncState).syncCount ∧ (⟨42, 1, 0, []⟩ : SyncState).syncCount ≤ 42
      ∧ (⟨38, 1, 2, []⟩ : SyncState).frameEnd ≠ 0 ∧ (⟨37, 1, 2, []⟩ : SyncState).syncCount < 38
      ∧ 42 < (⟨43, 1, 2, []⟩ : SyncState).syncCount := by decide

theorem witness_BucketsAndCellAmplitudes : bucketOf 441 = 0 ∧ bucketOf 442 = 1 ∧ bucketOf 882 = 1 ∧ bucketOf 883 = 2
    ∧ [3, 1, 2] ≠ [] ∧ [3, 1, 2].length ≤ 3 ∧ 2 ≤ [1, 2].length := by decide

theorem witness_CapacityBounds : (List.replicate 32768 (0 : Int)).length ≤ 32768 := by rw [List.length_replicate]

theorem framed_cells : framed.frameAt 0 = linearFrame ∧ 0 < framed.fcnt.toNat ∧ framed.fcnt.toNat ≤ 1 := by decide +kernel

theorem witness_FitWritesTheTrendline : 0 < framed.fcnt.toNat ∧ framed.fcnt.toNat ≤ 1 := framed_cells.2

theorem witness_FitIsLeastSquares : FrameRecord linearFrame := by unfold FrameRecord; decide

/-- The last element of XI, and each reason for a fault. -/
theorem witness_XintWritesTheIntersection :
    255 < ({ framed with fcnt := 256, slope := .val (-1), intercept := .val 2 } : State).fcnt.toNat ∧ (-1 : Rat) ≠ 0
      ∧ framed.fcnt.toNat ≤ 1 ∧ framed.slope = .nan
      ∧ ({ framed with slope := .val 0, intercept := .val 2 } : State).slope = .val 0 := by decide +kernel

/-- Two intersections, and the two reasons for a fault. -/
theorem witness_ResistWritesTheResistance :
    (List.range ({ State.reset with fcnt := 2, xi := (State.reset.xi.set 0 (.val 1)).set 1 (.val 3) } : State).fcnt.toNat).map
        ({ State.reset with fcnt := 2, xi := (State.reset.xi.set 0 (.val 1)).set 1 (.val 3) } : State).xiAt
        = [(1 : Rat), 3].map XR.val
      ∧ State.reset.fcnt = 0 ∧ 0 < framed.fcnt.toNat ∧ framed.xiAt 0 = .nan := by decide +kernel

/-- A resistance above the second entry, so that the scan stops at index 1; one that no entry is below; and NaN. -/
theorem witness_TempWritesTheTemperature :
    State.reset.resistance = .nan
      ∧ (∀ i, 1 ≤ i → i < Config.ntcTable.length → (2522 / 1000 : Rat) ≤ Config.ntcTable.getD i 0)
      ∧ (1 < Config.ntcTable.length ∧ Config.ntcTable.getD 1 0 < Config.ntcTable.getD 0 0)
      ∧ 66 < Config.ntcTable.length ∧ Config.ntcTable.getD 66 0 < 100
      ∧ ∀ j, 1 ≤ j → j < 66 → (100 : Rat) ≤ Config.ntcTable.getD j 0 := by
  have hl := Config.ntcTable_legal.1
  refine ⟨rfl, fun i _ hi => ?_, ⟨by omega, Config.ntcTable_decreasing (by omega) (by omega)⟩, by omega, ?_, fun j _ hj => ?_⟩
  · rw [← Config.ntcTable_last]
    rcases Nat.lt_or_ge i (Config.ntcTable.length - 1) with h | h
    · exact le_of_lt (Config.ntcTable_decreasing h (by omega))
    · rw [show i = Config.ntcTable.length - 1 by omega]
  · rw [← Config.ntcTable_sixtyfive]; exact Config.ntcTable_decreasing (by omega) (by omega)
  · rw [← Config.ntcTable_sixtyfive]
    rcases Nat.lt_or_ge j 65 with h | h
    · exact le_of_lt (Config.ntcTable_decreasing h (by omega))
    · rw [show j = 65 by omega]

theorem witness_TemperatureCornerCases : Config.NtcLegal Config.ntcTable
    ∧ Config.ntcTable.getD 0 0 < Config.ntcTable.getD 0 0 + 1 ∧ 1 + 2 ≤ Config.ntcTable.length ∧ 65 + 2 ≤ Config.ntcTable.length := by
  have := Config.ntcTable_legal.1
  exact ⟨Config.ntcTable_legal, by linarith, by omega, by omega⟩

/-! The buffer of one frame: two markers of 38 sync crossings, one frame between them. -/

/-- Runs of samples of alternating sign, with the lengths given. -/
def runs : Bool → List Nat → List Int
  | _, [] => []
  | b, n :: rest => List.replicate n (if b then 5 else -7) ++ runs (!b) rest

/-- Long run, 38 runs of one quarter period, long run, 38 runs, long run. -/
def oneFrame : List Int := runs true (List.replicate 38 6 ++ [17] ++ List.replicate 38 6 ++ [17, 1])

theorem oneFrame_ok : oneFrame.length = 491 ∧ (∀ v ∈ oneFrame, IsI16 v) ∧ tally oneFrame (fun v => decide (32000 < v)) = 0
    ∧ (framesOf (extractEvents oneFrame)).length = 1
    ∧ (∀ cells ∈ framesOf (extractEvents oneFrame), (fitLine cells).1 ≠ 0) := by
  decide +kernel

theorem oneFrame_buffer : (loaded oneFrame).buffer = oneFrame :=
  loaded_buffer (by rw [oneFrame_ok.1]; omega) oneFrame_ok.2.1

theorem oneFrame_ilen : (loaded oneFrame).ilen.toNat = 491 := by decide +kernel

theorem witness_DecodeSucceeds :
    (loaded oneFrame).ilen.toNat ≤ 32768 ∧ tally (loaded oneFrame).buffer (fun v => decide (32000 < v)) ≤ 10
      ∧ (∀ cells ∈ framesOf (extractEvents (loaded oneFrame).buffer), (fitLine cells).1 ≠ 0)
      ∧ ∃ last, (framesOf (extractEvents (loaded oneFrame).buffer)).getLast? = some last := by
  rw [oneFrame_buffer, oneFrame_ilen, oneFrame_ok.2.2.1]
  refine ⟨by omega, by omega, oneFrame_ok.2.2.2.2, ?_⟩
  have := oneFrame_ok.2.2.2.1
  cases h : (framesOf (extractEvents oneFrame)).getLast? with
  | some x => exact ⟨x, rfl⟩
  | none => rw [List.getLast?_eq_none_iff] at h; rw [h] at this; cases this

/-- The state of `oneFrame` meets the hypotheses on both sides: DECODE of it succeeds. -/
theorem witness_DecodeEqualsTheStages : ∃ d, (loaded oneFrame).fault = none ∧ exec (.decode false) (loaded oneFrame) = .next d
    ∧ d.fault = none ∧ d.error = .none := by
  obtain ⟨h1, h2, h3, last, h4⟩ := witness_DecodeSucceeds
  have hb := (loaded oneFrame).counted_buffer
  obtain ⟨x, m, e1, e2, e3, -⟩ := State.decodeFrames_success (loaded oneFrame) (loaded oneFrame).counted _ last h1
    (by rw [hb]) h3 h4
  refine ⟨_, rfl, ((execDecode_cases false (loaded oneFrame)).2 h1).2.2 h2, ?_, ?_⟩ <;> rw [e1, e3] <;> rfl

theorem witness_DecodeDependsOnTheBufferAlone :
    (∃ t, exec (.decode false) (loaded oneFrame) = .next t ∧ t.fault = none)
      ∧ ∃ t, exec (.decode false) { loaded oneFrame with freq := 7, haz := true } = .next t :=
  ⟨witness_DecodeEqualsTheStages.imp fun _ h => ⟨h.2.1, h.2.2.1⟩, _, rfl⟩

/-- Eleven clipped samples; and no sync crossing at all. -/
theorem witness_DecodeFailures :
    (loaded (List.replicate 11 32767)).ilen.toNat ≤ 32768
      ∧ 10 < tally (loaded (List.replicate 11 32767)).buffer (fun v => decide (32000 < v))
      ∧ tally (loaded (List.replicate 10 32767)).buffer (fun v => decide (32000 < v)) ≤ 10
      ∧ (SyncState.start.over 0 (extractEvents (loaded (List.replicate 10 32767)).buffer)).spans = [] := by
  rw [loaded_buffer (by decide) (by decide), loaded_buffer (by decide) (by decide)]
  decide +kernel

/-- FSYNC on the events of `oneFrame`. -/
theorem witness_FsyncWritesTheFrames :
    ((loaded oneFrame).putSamples (extractEvents oneFrame)).samples = extractEvents oneFrame
      ∧ (SyncState.start.over 0 (extractEvents oneFrame)).spans.length = 1 := by
  refine ⟨putSamples_samples _ oneFrame_ok.2.1 (by rw [oneFrame_ok.1]; decide), ?_⟩
  rw [← framesOf_length]; exact oneFrame_ok.2.2.2.1

theorem probe_buffer : (loaded probe).buffer = probe := loaded_buffer (by decide) (by decide +kernel)

theorem probe_at (i : Nat) (hi : i < 85) : (loaded probe).ibufSample i = probe.getD i 0 := by
  have hlen : (loaded probe).ilen.toNat = 85 := by decide
  have h : (loaded probe).buffer[i]? = some ((loaded probe).ibufSample i) := by
    simp [State.buffer, hlen, hi]
  rw [probe_buffer] at h
  rw [List.getD_eq_getElem?_getD, h]; rfl

/-- V34: the region 3 to 81, windows of 29 samples 3 samples inside it, the amplitudes 2000 and 1500. -/
theorem witness_SdecodeSucceeds :
    (loaded probe).ilen.toNat ≤ 32768 ∧ 3 ≤ 81 ∧ 81 < (loaded probe).ilen.toNat
      ∧ 1000 < ((loaded probe).ibufSample 3).natAbs ∧ 1000 < ((loaded probe).ibufSample 81).natAbs
      ∧ (∀ i, i < (loaded probe).ilen.toNat → i < 3 ∨ 81 < i → ((loaded probe).ibufSample i).natAbs ≤ 1000)
      ∧ (3 * 79 / 8 = 29 ∧ 79 / 20 = 3)
      ∧ IsAtRank (signedExtrema (extractEvents (window probe 6 29)))
        ((signedExtrema (extractEvents (window probe 6 29))).length / 2) 2000
      ∧ IsAtRank (signedExtrema (extractEvents (window probe 50 29)))
        ((signedExtrema (extractEvents (window probe 50 29))).length / 2) 1500 := by
  have hlen : (loaded probe).ilen.toNat = 85 := by decide
  rw [hlen, probe_at 3 (by omega), probe_at 81 (by omega)]
  refine ⟨by omega, by omega, by omega, by decide +kernel, by decide +kernel, ?_, ⟨rfl, rfl⟩, ?_, ?_⟩
  · intro i hi h
    rw [probe_at i hi]
    have : ∀ i, i < 85 → i < 3 ∨ 81 < i → (probe.getD i 0).natAbs ≤ 1000 := by decide +kernel
    exact this i hi h
  · exact ((median_eq_some_iff _ _).mp (by decide +kernel)).2
  · exact ((median_eq_some_iff _ _).mp (by decide +kernel)).2

/-- The two windows of `probe`, sample by sample as the statement takes them. -/
theorem witness_SdecodeSucceeds_windows :
    ((List.range 29).map fun j => (loaded probe).ibufSample (3 + 3 + j)) = window probe 6 29
      ∧ ((List.range 29).map fun j => (loaded probe).ibufSample (81 + 1 - 3 - 29 + j)) = window probe 50 29 := by
  constructor
  · rw [List.map_congr_left (g := fun j => probe.getD (3 + 3 + j) 0) fun j hj => probe_at _ (by
      rw [List.mem_range] at hj; omega)]
    decide +kernel
  · rw [List.map_congr_left (g := fun j => probe.getD (81 + 1 - 3 - 29 + j) 0) fun j hj => probe_at _ (by
      rw [List.mem_range] at hj; omega)]
    decide +kernel

/-- A left window whose extrema have the median 0, and a right one with the median 2000. -/
def zeroLeft : List Int := 2000 :: (List.replicate 10 [0, 0, 0, -1]).flatten ++ (List.replicate 10 [2000, 2000, 2000, -2000]).flatten

/-- A buffer without a loud sample, one without an extremum in its windows, and one with a left amplitude of zero. -/
theorem witness_SdecodeFailures :
    (∀ v ∈ (loaded [1000, -1000, 0]).buffer, v.natAbs ≤ 1000)
      ∧ trimRegion (loaded (List.replicate 40 2000)).buffer = some (0, 39)
      ∧ signedExtrema (extractEvents (leftWindow (loaded (List.replicate 40 2000)).buffer 0 39)) = []
      ∧ windowAmplitudes (loaded zeroLeft).buffer = some (0, 2000) ∧ (loaded zeroLeft).ilen.toNat ≤ 32768 := by
  rw [loaded_buffer (by decide) (by decide), loaded_buffer (by decide) (by decide), loaded_buffer (by decide) (by decide +kernel)]
  decide +kernel

theorem witness_ClipchkCounts : ({ State.reset with ilen := 32768 } : State).ilen.toNat ≤ 32768
    ∧ 32768 < ({ State.reset with ilen := 0xFFFFFFFF } : State).ilen.toNat := by decide

theorem witness_WindowsNeverOverlap : 3 ≤ 81 ∧ 81 < probe.length ∧ 0 ≤ 0 ∧ 0 < [(0 : Int)].length := by decide

/-- A state whose buffer is all of IBUF. -/
def fullBuffer (p : PState) : State := { State.reset with pstate := p, ilen := 32768 }

theorem fullBuffer_ilen (p : PState) : (fullBuffer p).ilen.toNat = 32768 := rfl

/-- All of IBUF has a level for every CUT_SAMPLES_COUNT for which any buffer has one. -/
theorem fullBuffer_level (p : PState) (h : Config.cutSamplesCount ≤ 32768) :
    ∃ v, IsAtRank ((fullBuffer p).buffer.map Int.natAbs) ((fullBuffer p).ilen.toNat - Config.cutSamplesCount) v := by
  have hp := Config.cutSamplesCount_pos
  obtain ⟨v, -, hv⟩ := isAtRank_sort ((fullBuffer p).buffer.map Int.natAbs)
    (r := (fullBuffer p).ilen.toNat - Config.cutSamplesCount) (by
      rw [List.length_map, State.buffer_length, fullBuffer_ilen]; omega)
  exact ⟨v, hv⟩

/-- All of IBUF, and the empty buffer, which has no level for any CUT_SAMPLES_COUNT. -/
theorem witness_Pres1MeasuresSilence :
    (fullBuffer .idle).ilen.toNat ≤ 32768
      ∧ (Config.cutSamplesCount ≤ 32768 → Config.cutSamplesCount ≤ (fullBuffer .idle).ilen.toNat
        ∧ ∃ v, IsAtRank ((fullBuffer .idle).buffer.map Int.natAbs)
          ((fullBuffer .idle).ilen.toNat - Config.cutSamplesCount) v)
      ∧ State.reset.ilen.toNat < Config.cutSamplesCount :=
  ⟨by rw [fullBuffer_ilen], fun h => ⟨h, fullBuffer_level .idle h⟩, Config.cutSamplesCount_pos⟩

/-- An armed detector, with the buffers of PRES1's witness. -/
theorem witness_Pres2MeasuresTheTone :
    State.reset.pstate ≠ .armed ∧ (fullBuffer .armed).pstate = .armed ∧ (fullBuffer .armed).ilen.toNat ≤ 32768
      ∧ (Config.cutSamplesCount ≤ 32768 → Config.cutSamplesCount ≤ (fullBuffer .armed).ilen.toNat
        ∧ ∃ v, IsAtRank ((fullBuffer .armed).buffer.map Int.natAbs)
          ((fullBuffer .armed).ilen.toNat - Config.cutSamplesCount) v)
      ∧ ({ State.reset with pstate := .armed } : State).ilen.toNat < Config.cutSamplesCount :=
  ⟨by decide, rfl, by rw [fullBuffer_ilen], fun h => ⟨h, fullBuffer_level .armed h⟩, Config.cutSamplesCount_pos⟩

/-- For the three statements that a step keeps an invariant: a running SWEEP meets all of them and steps to its end. -/
theorem witness_invariants : (∃ t, step (State.reset.withFetchWord 32 0x10) = .next t)
    ∧ (State.reset.withFetchWord 32 0x10).memoryOk ∧ (State.reset.withFetchWord 32 0x10).protocolOk
    ∧ (State.reset.withFetchWord 32 0x10).recordsOk ∧ (State.reset.withFetchWord 32 0x10).presenceOk
    ∧ (State.reset.withFetchWord 32 0x10).resultOk := by
  refine ⟨⟨_, rfl⟩, ⟨List.Pairwise.nil, fun _ h => nomatch h⟩, fun _ => ⟨rfl, rfl, .sweep, by decide⟩, ⟨⟨by decide, fun _ => by decide⟩,
    fun _ => ⟨fun _ h => (nomatch h), List.IsChain.nil, List.Pairwise.nil, List.Pairwise.nil⟩, fun _ f h => absurd h (Nat.not_lt_zero f)⟩,
    fun _ => ⟨by decide, by decide⟩, by decide, by decide⟩

end Sys2Proof.Tests
end

section
/-! ## The step that completes a command (00_scope.md R28, 20_memory.md R96) -/

namespace Sys2Proof.Machine

/-- The completion of a running command is `exec` of the word that was accepted. -/
theorem completion_of_running {s : State} {i : Instr} (hbusy : s.busy = true) (hword : decodeWord s.cmd = .ok i) :
    completion s = exec i s := by
  simp only [completion, State.running, hbusy, if_true, hword, Except.toOption]

theorem step_of_nil {s : State} (h : s.agenda = []) : step s = completion s := by
  simp only [step, h]

theorem step_of_completion {s : State} {rest : List Event} (h : s.agenda = .completion :: rest) :
    step s = completion { s with agenda := rest } := by
  simp only [step, h]

/-- A fetch of all 32 bits of a word issues that word. -/
theorem withFetchWord_toNat (s : State) (w : Word) : s.withFetchWord 32 w.toNat = s.withCommand w := by
  simp only [State.withFetchWord, Nat.mod_eq_of_lt w.isLt, BitVec.ofNat_toNat, BitVec.setWidth_eq]

/-- Settles O6: a completion taken from the agenda, or standing in for an empty one, runs the accepted word. -/
theorem stepRunsTheDecodedCommand : Obligations.StepRunsTheDecodedCommand := by
  refine ⟨fun s i hbusy hword => ⟨fun hnil => ?_, fun rest hcons => ?_⟩, fun s w i hword => ?_⟩
  · rw [step_of_nil hnil, completion_of_running hbusy hword]
  · rw [step_of_completion hcons]
    exact completion_of_running hbusy hword
  · rw [withFetchWord_toNat, step_of_completion (s.withCommand_agenda w)]
    exact completion_of_running (s.withCommand_busy w) hword

end Sys2Proof.Machine
end

section
/-! ## The synthesized sample against the exact sine (00_scope.md R20, R25, R26) -/

namespace Sys2Proof.Machine

/-! ### Rounding and saturation -/

theorem rhu_eq_floor (x : Rat) : rhu x = ⌊x + 1 / 2⌋ := rfl

/-- `rhu` of a rational is the round-half-up of the same real. -/
theorem rhu_eq_floor_cast (x : Rat) : rhu x = ⌊(x : ℝ) + 1 / 2⌋ := by
  have hcast : (x : ℝ) + 1 / 2 = ((x + 1 / 2 : Rat) : ℝ) := by push_cast; ring
  rw [hcast, Rat.floor_cast, rhu_eq_floor]

theorem le_rhu_iff {m : Int} {x : Rat} : m ≤ rhu x ↔ (m : Rat) ≤ x + 1 / 2 := by
  rw [rhu_eq_floor, Int.le_floor]

theorem rhu_lt_iff {m : Int} {x : Rat} : rhu x < m ↔ x + 1 / 2 < (m : Rat) := by
  rw [rhu_eq_floor, Int.floor_lt]

theorem rhu_mono {x y : Rat} (h : x ≤ y) : rhu x ≤ rhu y := by
  rw [rhu_eq_floor, rhu_eq_floor]
  gcongr

theorem rhu_add_one (x : Rat) : rhu (x + 1) = rhu x + 1 := by
  rw [rhu_eq_floor, rhu_eq_floor, add_right_comm, Int.floor_add_one]

/-- Saturation keeps every 16-bit sample. -/
theorem sat16_of_isI16 {v : Int} (h : IsI16 v) : sat16 v = v := by
  obtain ⟨hlow, hhigh⟩ := h
  rw [sat16, min_eq_left hhigh, max_eq_right hlow]

/-! ### The phase -/

theorem phase_lt (k : Int) : phase k < 44100 := by
  have hrate : (Config.sampleRate : Int) = 44100 := rfl
  rw [phase, hrate]
  omega

/-- Whole turns taken off the phase leave the sine (R25). -/
theorem sin_phase (k : Int) :
    Real.sin (2 * Real.pi * (phase k : ℝ) / 44100) = Real.sin (2 * Real.pi * k / 44100) := by
  have hsplit : (phase k : Int) = k - k / 44100 * 44100 := by
    have hrate : (Config.sampleRate : Int) = 44100 := rfl
    rw [phase, hrate]
    omega
  have hreal : (phase k : ℝ) = k - (k / 44100 : Int) * 44100 := by exact_mod_cast hsplit
  rw [← Real.sin_sub_int_mul_two_pi (2 * Real.pi * k / 44100) (k / 44100), hreal]
  congr 1
  ring

/-! ### The two candidates -/

/-- The candidates lie around the rounding of the exact product. -/
theorem toneCandidates_around (k : Int) {amp : Rat} (h0 : 0 ≤ amp) :
    (toneCandidates k amp).1 ≤ ⌊Real.sin (2 * Real.pi * k / 44100) * amp + 1 / 2⌋
      ∧ ⌊Real.sin (2 * Real.pi * k / 44100) * amp + 1 / 2⌋ ≤ (toneCandidates k amp).2 := by
  obtain ⟨hlow, hhigh⟩ := sineBounds_sound (phase_lt k)
  rw [sin_phase] at hlow hhigh
  have hamp : (0 : ℝ) ≤ amp := by exact_mod_cast h0
  simp only [toneCandidates, rhu_eq_floor_cast, Rat.cast_mul]
  constructor <;> gcongr

/-- The enclosure stays narrow under the greatest amplitude. -/
theorem sineBounds_mul_width (r : Nat) {amp : Rat} (h0 : 0 ≤ amp) (h1 : amp ≤ 32767) :
    (sineBounds r).2 * amp ≤ (sineBounds r).1 * amp + 1 / 4 := by
  obtain ⟨-, hwidth⟩ := sineBounds_width r
  have herror : 2 * sineError * 32767 ≤ 1 / 4 := by norm_num [sineError]
  have hprod : ((sineBounds r).2 - (sineBounds r).1) * amp ≤ 2 * sineError * 32767 :=
    mul_le_mul hwidth h1 h0 (by norm_num [sineError])
  linarith

theorem toneCandidates_le_succ (k : Int) {amp : Rat} (h0 : 0 ≤ amp) (h1 : amp ≤ 32767) :
    (toneCandidates k amp).2 ≤ (toneCandidates k amp).1 + 1 := by
  have hwidth := sineBounds_mul_width (phase k) h0 h1
  rw [toneCandidates, ← rhu_add_one]
  exact rhu_mono (by linarith)

/-- The enclosure reaches into the range of the sine from either side. -/
theorem sineBounds_meets_unit {r : Nat} (hr : r < 44100) : (sineBounds r).1 ≤ 1 ∧ -1 ≤ (sineBounds r).2 := by
  obtain ⟨hlow, hhigh⟩ := sineBounds_sound hr
  have hle : ((sineBounds r).1 : ℝ) ≤ 1 := hlow.trans (Real.sin_le_one _)
  have hge : (-1 : ℝ) ≤ (sineBounds r).2 := (Real.neg_one_le_sin _).trans hhigh
  exact ⟨by exact_mod_cast hle, by exact_mod_cast hge⟩

/-- No candidate exceeds the greatest amplitude (R25, 40_synthesizer.md R158). -/
theorem toneCandidates_range (k : Int) {amp : Rat} (h0 : 0 ≤ amp) (h1 : amp ≤ 32767) :
    -32767 ≤ (toneCandidates k amp).1 ∧ (toneCandidates k amp).2 ≤ 32767 := by
  obtain ⟨hone, hneg⟩ := sineBounds_meets_unit (phase_lt k)
  have hwidth := sineBounds_mul_width (phase k) h0 h1
  have hlow : -1 * amp ≤ (sineBounds (phase k)).2 * amp := mul_le_mul_of_nonneg_right hneg h0
  have hhigh : (sineBounds (phase k)).1 * amp ≤ 1 * amp := mul_le_mul_of_nonneg_right hone h0
  constructor
  · refine le_rhu_iff.mpr ?_
    push_cast
    linarith
  · refine Int.le_of_lt_add_one (rhu_lt_iff.mpr ?_)
    push_cast
    linarith

/-! ### The sample -/

/-- The sample is one of the candidates, which saturation keeps. -/
theorem tone_eq_or (k : Int) {amp : Rat} (h0 : 0 ≤ amp) (h1 : amp ≤ 32767) :
    tone k amp = (toneCandidates k amp).1 ∨ tone k amp = (toneCandidates k amp).2 := by
  obtain ⟨hlow, hhigh⟩ := toneCandidates_range k h0 h1
  obtain ⟨hfirst, hsecond⟩ := toneCandidates_around k h0
  have hsat1 : sat16 (toneCandidates k amp).1 = (toneCandidates k amp).1 := sat16_of_isI16 ⟨by omega, by omega⟩
  have hsat2 : sat16 (toneCandidates k amp).2 = (toneCandidates k amp).2 := sat16_of_isI16 ⟨by omega, by omega⟩
  simp only [tone]
  split_ifs
  · exact .inl hsat1
  · exact .inr hsat2
  · exact .inl hsat1

/-- Settles O31: the exact product lies in the image of the sine's enclosure, which is too narrow to hold two rounding
boundaries and too small to be saturated. -/
theorem toneIsTheRoundedSine : Obligations.ToneIsTheRoundedSine := by
  intro k amp h0 h1
  obtain ⟨hlow, hhigh⟩ := toneCandidates_around k h0
  refine ⟨hlow, hhigh, toneCandidates_le_succ k h0 h1, fun hagree => ?_, tone_eq_or k h0 h1⟩
  rcases tone_eq_or k h0 h1 with htone | htone <;> rw [htone] <;> omega

end Sys2Proof.Machine
end

section
/-! ## What a command can do, up to the values it stores (00_scope.md R28, 60_exceptions.md R312, R313) -/

namespace Sys2Proof.Machine

/-- A command that ended in a fault: one of a check before every write, one after the writes began, or an unreadable capture. -/
inductive Faulted (s : State) : State → Prop where
  | early (c : FaultCode) : Faulted s (s.raiseFault c)
  | late (c : FaultCode) : Faulted s (s.raiseLateFault c)
  | capture : Faulted s s.raiseCaptureFailure

/-- A command that ran to its end: the updates it made, one constructor for each way through its meaning. -/
inductive Finished (s : State) : Instr → State → Prop where
  | nop : Finished s .nop s.complete
  | clear : Finished s .clear s.clearScratch.resetPresence.complete
  | output {i : Instr} {words : List Int} (hwrites : writesOutput i = true) (hfits : words.length ≤ Config.obufMax) :
      Finished s i (s.putOutput words).complete
  | clipchk : Finished s .clipchk s.countClipping.complete
  | extract (hfits : s.ilen.toNat ≤ Config.ibufMax) : Finished s .extract (s.putSamples (extractEvents s.buffer)).complete
  | fsync (hfits : (framesOf s.samples).length ≤ Config.frmMax) :
      Finished s .fsync
        ((s.clearXi.putFrames (framesOf s.samples)).putSync (SyncState.start.over 0 s.samples)).complete
  | fit (f : Nat) : Finished s (.fit f) (s.fitFrame f).complete
  | xint (f : Nat) (v : XR) : Finished s (.xint f) (s.putXi f v).complete
  | resist (m : Rat) : Finished s .resist (s.combine m).complete
  | temp : Finished s .temp s.lookUp.complete
  | decodeClipped (e : Bool) : Finished s (.decode e) (s.counted.failError .clippingDetected)
  | decodeNoFrames (e : Bool) (hfits : s.ilen.toNat ≤ Config.ibufMax) :
      Finished s (.decode e) (s.counted.synchronized.failError .noFramesFound)
  | decodeSucceeds (e : Bool) (hfits : s.ilen.toNat ≤ Config.ibufMax) (a b : XR) (v : Vector XR Config.frmMax) (m : Rat)
      (n : Word) :
      Finished s (.decode e)
        (({ s.counted.synchronized with slope := a, intercept := b, xi := v }.combine m).report n).complete
  | sdecodeNoSignal (e : Bool) : Finished s (.sdecode e) (s.clearScratch.failError .noFramesFound)
  | sdecodeNoExtrema (e : Bool) (a z : Nat) {left right : List Int} (hleft : left.length ≤ Config.ibufMax)
      (hright : right.length ≤ Config.ibufMax) (hrange : ∀ v ∈ right, IsI16 v) :
      Finished s (.sdecode e)
        ((((s.clearScratch.putTrim a z).putSamples (extractEvents left)).putSamples (extractEvents right)).failError
          .noFramesFound)
  | sdecodeSucceeds (e : Bool) (a z : Nat) {left right : List Int} (l r : Int) (hleft : left.length ≤ Config.ibufMax)
      (hright : right.length ≤ Config.ibufMax) (hrange : ∀ v ∈ right, IsI16 v) :
      Finished s (.sdecode e)
        (((((s.clearScratch.putTrim a z).putSamples (extractEvents left)).putSamples (extractEvents right)).putAmplitudes
          l r).report 0).complete
  | pres1 (e : Bool) (v : Nat) (p : PState) : Finished s (.pres1 e) (s.putSilence v p).complete
  | pres2NotArmed (e : Bool) : Finished s (.pres2 e) s.complete
  | pres2Unread (e : Bool) : Finished s (.pres2 e) s.putAbsent.complete
  | pres2 (e : Bool) (v : Nat) (p : PState) : Finished s (.pres2 e) (s.putTone v p).complete

variable {s t : State}

/-! ### The output commands -/

theorem sweepWords_length (s : State) : s.sweepWords.length = 2 * s.ncells.toNat * s.sweepSpc := by
  simp only [State.sweepWords, List.length_flatMap, List.length_cons, List.length_nil, List.map_const', List.sum_replicate,
    List.length_range, smul_eq_mul]
  ring

theorem twophWords_length (s : State) : s.twophWords.length = 2 * s.dur.toNat := by
  have hpair : ∀ n, (if n < s.dur.toNat / 2 then [s.toneSample n, 0] else [0, s.toneSample n]).length = 2 := by
    intro n
    split <;> rfl
  simp only [State.twophWords, List.length_flatMap, hpair, List.map_const', List.sum_replicate, List.length_range,
    smul_eq_mul, mul_comm]

theorem ttoneWords_length (s : State) : s.ttoneWords.length = 2 * s.dur.toNat := by
  simp only [State.ttoneWords, List.length_flatMap, List.length_cons, List.length_nil, List.map_const', List.sum_replicate,
    List.length_range, smul_eq_mul, mul_comm]

theorem execSweep_cases (h : execSweep s = .next t) : Faulted s t ∨ Finished s .sweep t := by
  simp only [execSweep] at h
  split_ifs at h with hok hfits <;> cases h
  · exact .inl (.early _)
  · exact .inl (.early _)
  · refine .inr (.output rfl ?_)
    rw [sweepWords_length]
    simpa [State.sweepFits] using hfits

theorem emitTone_cases {i : Instr} {words : List Int} (hi : writesOutput i = true) (hw : words.length = 2 * s.dur.toNat) :
    Faulted s (s.emitTone words) ∨ Finished s i (s.emitTone words) := by
  unfold State.emitTone
  split_ifs with hok hfits
  · exact .inl (.early _)
  · exact .inl (.early _)
  · refine .inr (.output hi ?_)
    rw [hw]
    simpa [State.toneFits] using hfits

/-! ### The clipping check, the extractor and the synchronizer -/

theorem execClipchk_cases (h : execClipchk s = .next t) : Faulted s t ∨ Finished s .clipchk t := by
  simp only [execClipchk] at h
  split_ifs at h <;> cases h
  · exact .inl (.early _)
  · exact .inr .clipchk

theorem execExtract_cases (h : execExtract s = .next t) : Faulted s t ∨ Finished s .extract t := by
  simp only [execExtract] at h
  split_ifs at h with hok
  · cases h
    exact .inl (.early _)
  · have hfits : s.ilen.toNat ≤ Config.ibufMax := by simpa [State.ilenOk] using hok
    rw [State.extractInto_eq s (by rwa [State.buffer_length])] at h
    cases h
    exact .inr (.extract hfits)

theorem execFsync_cases (h : execFsync s = .next t) : Faulted s t ∨ Finished s .fsync t := by
  unfold execFsync at h
  rcases Nat.lt_or_ge Config.frmMax (framesOf s.samples).length with hover | hfits
  · rw [State.synchronize_none s hover] at h
    cases h
    exact .inl (.late _)
  · rw [State.synchronize_eq s hfits] at h
    cases h
    exact .inr (.fsync hfits)

/-! ### The calibrator -/

theorem execFit_cases {f : Nat} (h : execFit f s = .next t) : Faulted s t ∨ Finished s (.fit f) t := by
  simp only [execFit] at h
  split_ifs at h <;> cases h
  · exact .inl (.early _)
  · exact .inr (.fit f)

theorem execXint_cases {f : Nat} (h : execXint f s = .next t) : Faulted s t ∨ Finished s (.xint f) t := by
  simp only [execXint] at h
  split_ifs at h
  · cases h
    exact .inl (.early _)
  · split at h
    · split_ifs at h <;> cases h
      · exact .inl (.early _)
      · exact .inr (.xint f _)
    · cases h
      exact .inl (.early _)

theorem execResist_cases (h : execResist s = .next t) : Faulted s t ∨ Finished s .resist t := by
  simp only [execResist] at h
  split at h <;> cases h
  · exact .inl (.early _)
  · exact .inr (.resist _)

/-! ### The decoders -/

/-- DECODE after the clipping check ends without a frame, at a frame of slope zero, or with a result. -/
theorem decodeFrames_cases (e : Bool) (hfits : s.ilen.toNat ≤ Config.ibufMax) :
    Faulted s (s.decodeFrames s.counted) ∨ Finished s (.decode e) (s.decodeFrames s.counted) := by
  by_cases hnone : framesOf (extractEvents s.counted.buffer) = []
  · rw [State.decodeFrames_noFrames s s.counted hfits hnone]
    exact .inr (.decodeNoFrames e hfits)
  by_cases hflat : ∃ cells ∈ framesOf (extractEvents s.counted.buffer), (fitLine cells).1 = 0
  · rw [State.decodeFrames_numeric s s.counted hfits hflat]
    exact .inl (.late _)
  push Not at hflat
  obtain ⟨x, m, hresult, -, hx, -⟩ := State.decodeFrames_success s s.counted _ _ hfits rfl hflat
    (List.getLast?_eq_some_getLast hnone)
  rw [hresult, hx]
  exact .inr (.decodeSucceeds e hfits _ _ _ m _)

theorem execDecode_ends {e : Bool} (h : execDecode e s = .next t) : Faulted s t ∨ Finished s (.decode e) t := by
  obtain ⟨hover, hrest⟩ := execDecode_cases e s
  rcases Nat.lt_or_ge Config.ibufMax s.ilen.toNat with hbig | hfits
  · rw [hover hbig] at h
    cases h
    exact .inl (.early _)
  obtain ⟨hunread, hclip, hrun⟩ := hrest hfits
  cases e with
  | true =>
    rw [hunread] at h
    cases h
    exact .inl .capture
  | false =>
    rcases Nat.lt_or_ge Config.clipLimit (clipCount s.buffer) with hc | hc
    · rw [hclip hc] at h
      cases h
      exact .inr (.decodeClipped false)
    · rw [hrun hc] at h
      cases h
      exact decodeFrames_cases false hfits

theorem window_length_le (buf : List Int) (i n : Nat) : (window buf i n).length ≤ buf.length :=
  ((List.take_sublist n _).trans (List.drop_sublist i buf)).length_le

theorem mem_of_mem_window {buf : List Int} {i n : Nat} {v : Int} (h : v ∈ window buf i n) : v ∈ buf :=
  List.mem_of_mem_drop (List.mem_of_mem_take h)

/-- SDECODE with a trimmed region ends without an extremum, at a left amplitude of zero, or with a result. -/
theorem decodeWindows_cases (e : Bool) (a z : Nat) (hfits : s.ilen.toNat ≤ Config.ibufMax) :
    Faulted s (s.decodeWindows s.clearScratch a z) ∨ Finished s (.sdecode e) (s.decodeWindows s.clearScratch a z) := by
  rw [← State.buffer_length] at hfits
  have hleft : (leftWindow s.buffer a z).length ≤ Config.ibufMax := (window_length_le _ _ _).trans hfits
  have hright : (rightWindow s.buffer a z).length ≤ Config.ibufMax := (window_length_le _ _ _).trans hfits
  have hrange : ∀ v ∈ rightWindow s.buffer a z, IsI16 v := fun v hv => s.buffer_isI16 v (mem_of_mem_window hv)
  simp only [State.decodeWindows]
  split
  · split_ifs
    · exact .inl (.late _)
    · exact .inr (.sdecodeSucceeds e a z _ _ hleft hright hrange)
  · exact .inr (.sdecodeNoExtrema e a z hleft hright hrange)

theorem execSdecode_ends {e : Bool} (h : execSdecode e s = .next t) : Faulted s t ∨ Finished s (.sdecode e) t := by
  simp only [execSdecode] at h
  split_ifs at h with hok
  · cases h
    exact .inl (.early _)
  · cases h
    exact .inl .capture
  · have hfits : s.ilen.toNat ≤ Config.ibufMax := by simpa [State.ilenOk] using hok
    split at h <;> cases h
    · exact .inr (.sdecodeNoSignal e)
    · exact decodeWindows_cases e _ _ hfits

/-! ### The presence detector -/

theorem execPres1_cases {e : Bool} (h : execPres1 e s = .next t) : Faulted s t ∨ Finished s (.pres1 e) t := by
  simp only [execPres1] at h
  split_ifs at h
  · cases h
    exact .inl (.early _)
  · cases h
    exact .inr (.pres1 e 0 _)
  · split at h <;> cases h
    · exact .inl (.late _)
    · exact .inr (.pres1 e _ _)

theorem execPres2_cases {e : Bool} (h : execPres2 e s = .next t) : Faulted s t ∨ Finished s (.pres2 e) t := by
  simp only [execPres2] at h
  split_ifs at h
  · cases h
    exact .inr (.pres2NotArmed e)
  · cases h
    exact .inl (.early _)
  · cases h
    exact .inr (.pres2Unread e)
  · split at h <;> cases h
    · exact .inl (.late _)
    · exact .inr (.pres2 e _ _)

/-! ### Every command -/

/-- Every command ends in a fault or runs to its end. -/
theorem exec_cases {i : Instr} (h : exec i s = .next t) : Faulted s t ∨ Finished s i t := by
  cases i with
  | nop =>
    cases h
    exact .inr .nop
  | clear =>
    cases h
    exact .inr .clear
  | sweep => exact execSweep_cases h
  | twoph =>
    cases h
    exact emitTone_cases rfl (twophWords_length s)
  | ttone =>
    cases h
    exact emitTone_cases rfl (ttoneWords_length s)
  | clipchk => exact execClipchk_cases h
  | extract => exact execExtract_cases h
  | fsync => exact execFsync_cases h
  | fit f => exact execFit_cases h
  | xint f => exact execXint_cases h
  | resist => exact execResist_cases h
  | temp =>
    cases h
    exact .inr .temp
  | decode e => exact execDecode_ends h
  | sdecode e => exact execSdecode_ends h
  | pres1 e => exact execPres1_cases h
  | pres2 e => exact execPres2_cases h

/-! ### What a command that ended in a fault keeps -/

theorem Faulted.fault_ne_none (h : Faulted s t) : t.fault ≠ none := by
  cases h <;> exact Option.some_ne_none _

/-- A faulted command keeps the host's state, the output and the detector's state, and is no longer busy (R313). -/
theorem Faulted.keeps (h : Faulted s t) :
    s.keepsHostState t ∧ s.keepsOutput t ∧ t.pstate = s.pstate ∧ t.busy = false ∧ t.done = true := by
  cases h with
  | early c =>
    have hbytes : s.keepsBytes (s.raiseFault c) := State.keepsBytes_of_mem rfl ⟨rfl, rfl, rfl, rfl⟩
    exact ⟨⟨rfl, rfl, rfl, rfl, rfl, rfl, rfl, rfl, rfl, rfl, rfl, rfl, rfl, rfl, fun a _ _ => hbytes a⟩,
      ⟨rfl, fun a _ _ => hbytes a⟩, rfl, rfl, rfl⟩
  | late c =>
    obtain ⟨hhost, houtput, hpstate, hbusy, hdone, -⟩ := State.raiseLateFault_keeps s c
    exact ⟨hhost, houtput, hpstate, hbusy, hdone⟩
  | capture =>
    obtain ⟨hhost, houtput, hpstate, hbusy, hdone, -⟩ := State.raiseLateFault_keeps s .captureFailure
    exact ⟨hhost, houtput, hpstate, hbusy, hdone⟩

/-! ### What a command that ran to its end keeps -/

theorem Finished.flags {i : Instr} (h : Finished s i t) : t.fault = s.fault ∧ t.busy = false ∧ t.done = true := by
  cases h <;> simp [State.counted, State.synchronized]

theorem Finished.hostRegisters {i : Instr} (h : Finished s i t) :
    t.cmd = s.cmd ∧ t.haz = s.haz ∧ t.ilen = s.ilen ∧ t.ncells = s.ncells ∧ t.ppcell = s.ppcell ∧ t.syncidx = s.syncidx
      ∧ t.freq = s.freq ∧ t.refvol = s.refvol ∧ t.maxvol = s.maxvol ∧ t.minvol = s.minvol ∧ t.dur = s.dur
      ∧ t.tonevol = s.tonevol ∧ t.rdata = s.rdata ∧ t.agenda = s.agenda := by
  cases h <;> simp [State.counted, State.synchronized]

/-- The four memories in the order of their addresses (20_memory.md R82). -/
theorem memory_layout : Config.ibufEnd ≤ Config.obufBase ∧ Config.obufBase ≤ Config.obufEnd
    ∧ Config.obufEnd ≤ Config.evtBase ∧ Config.evtBase ≤ Config.evtEnd ∧ Config.evtEnd = Config.frmBase := by decide

theorem State.putOutput_memByte (s : State) {l : List Int} (hl : l.length ≤ Config.obufMax) {a : Nat}
    (ha : ¬ (Config.obufBase ≤ a ∧ a < Config.obufEnd)) : (s.putOutput l).memByte a = s.memByte a := by
  refine State.memByte_put_outside rfl (putOutput_sameEpochs s l) ?_
  rw [output_flatMap_bytes_length]
  simp only [Config.obufEnd] at ha
  omega

theorem State.putSamples_memByte (s : State) {l : List Sample} (hl : l.length ≤ Config.evtMax) {a : Nat}
    (ha : ¬ (Config.evtBase ≤ a ∧ a < Config.evtEnd)) : (s.putSamples l).memByte a = s.memByte a := by
  refine State.putSamples_keepsOutside s l a ?_
  simp only [Config.evtEnd] at ha
  omega

theorem State.putFrames_memByte (s : State) {l : List (List CalCell)} (h8 : ∀ x ∈ l, x.length = 8)
    (hl : l.length ≤ Config.frmMax) {a : Nat} (ha : ¬ (Config.frmBase ≤ a ∧ a < Config.frmEnd)) :
    (s.putFrames l).memByte a = s.memByte a := by
  refine State.putFrames_keepsOutside s h8 a ?_
  simp only [Config.frmEnd] at ha
  omega

/-- Two event lists of windows written one over the other change bytes of EVT only. -/
theorem putSamples_twice_memByte (s : State) {left right : List Int} (hleft : left.length ≤ Config.ibufMax)
    (hright : right.length ≤ Config.ibufMax) {a : Nat} (ha : ¬ (Config.evtBase ≤ a ∧ a < Config.evtEnd)) :
    ((s.putSamples (extractEvents left)).putSamples (extractEvents right)).memByte a = s.memByte a := by
  rw [State.putSamples_memByte _ (extractEvents_length_lt hright).le ha,
    State.putSamples_memByte _ (extractEvents_length_lt hleft).le ha]

theorem State.counted_memByte (s : State) (a : Nat) : s.counted.memByte a = s.memByte a :=
  State.memByte_congr rfl ⟨rfl, rfl, rfl, rfl⟩ a

/-- DECODE's stages change bytes of EVT and FRM only. -/
theorem synchronized_memByte (hfits : s.ilen.toNat ≤ Config.ibufMax) {a : Nat}
    (hevt : ¬ (Config.evtBase ≤ a ∧ a < Config.evtEnd)) (hfrm : ¬ (Config.frmBase ≤ a ∧ a < Config.frmEnd)) :
    s.counted.synchronized.memByte a = s.memByte a := by
  have hlayout := memory_layout
  rw [State.synchronized_keeps s.counted hfits a (by omega), s.counted_memByte]

/-- A command that runs to its end changes a byte only of a memory it is named as writing (20_memory.md R81). -/
theorem Finished.memByte {i : Instr} (h : Finished s i t) {a : Nat}
    (hobuf : writesOutput i = true → ¬ (Config.obufBase ≤ a ∧ a < Config.obufEnd))
    (hevt : writesEvents i = true → ¬ (Config.evtBase ≤ a ∧ a < Config.evtEnd))
    (hfrm : writesFrames i = true → ¬ (Config.frmBase ≤ a ∧ a < Config.frmEnd)) : t.memByte a = s.memByte a := by
  cases h with
  | output hwrites hfits => exact s.putOutput_memByte hfits (hobuf hwrites)
  | extract hfits =>
    rw [← State.buffer_length] at hfits
    exact s.putSamples_memByte (extractEvents_length_lt hfits).le (hevt rfl)
  | fsync hfits => exact s.clearXi.putFrames_memByte (framesOf_length_eight _) hfits (hfrm rfl)
  | decodeNoFrames e hfits => exact synchronized_memByte hfits (hevt rfl) (hfrm rfl)
  | decodeSucceeds e hfits => exact synchronized_memByte hfits (hevt rfl) (hfrm rfl)
  | sdecodeNoExtrema e a z hleft hright =>
    exact putSamples_twice_memByte (s.clearScratch.putTrim a z) hleft hright (hevt rfl)
  | sdecodeSucceeds e a z l r hleft hright =>
    exact putSamples_twice_memByte (s.clearScratch.putTrim a z) hleft hright (hevt rfl)
  | _ => exact State.memByte_congr (by simp [State.counted]) (by simp [State.sameEpochs, State.counted]) _

theorem Finished.keepsHostState {i : Instr} (h : Finished s i t) : s.keepsHostState t := by
  have hlayout := memory_layout
  have hibuf : s.keepsBytesIn t Config.ibufBase Config.ibufEnd := fun a _ ha => by
    refine h.memByte (fun _ => ?_) (fun _ => ?_) (fun _ => ?_) <;> omega
  simpa only [State.keepsHostState, and_assoc] using And.intro h.hostRegisters hibuf

end Sys2Proof.Machine
end

section
/-! ## Which commands write which state (10_state.md R35, R39, R40, R41, R48, R50) -/

namespace Sys2Proof.Machine

variable {s t : State} {i : Instr}

/-- A command that runs to its end leaves every register, and XI, that it is not named as writing. -/
theorem Finished.registers (h : Finished s i t) :
    (writesOutput i = false → t.olen = s.olen)
      ∧ (writesPresence i = false → t.pstate = s.pstate ∧ t.silence = s.silence ∧ t.tonelvl = s.tonelvl)
      ∧ (writesTemperature i = false → t.temperature = s.temperature ∧ t.ut = s.ut)
      ∧ (writesResistance i = false → t.resistance = s.resistance)
      ∧ (writesOutcome i = false → t.nframes = s.nframes ∧ t.error = s.error)
      ∧ (writesEvents i = false → t.ecnt = s.ecnt)
      ∧ (writesFrames i = false → t.fcnt = s.fcnt)
      ∧ (writesIntersections i = false → t.xi = s.xi)
      ∧ (writesSync i = false → t.synccnt = s.synccnt ∧ t.fstart = s.fstart ∧ t.fend = s.fend)
      ∧ (writesClipCount i = false → t.clipcnt = s.clipcnt)
      ∧ (writesTrendline i = false → t.slope = s.slope ∧ t.intercept = s.intercept)
      ∧ (writesMedian i = false → t.xmed = s.xmed ∧ t.cancamp = s.cancamp)
      ∧ (writesWindows i = false → t.leftamp = s.leftamp ∧ t.rightamp = s.rightamp ∧ t.trimstart = s.trimstart
        ∧ t.trimend = s.trimend) := by
  cases h with
  | output hwrites hfits => simp [hwrites]
  | fit | xint | resist | temp =>
    simp [writesTrendline, writesIntersections, writesMedian, writesResistance, writesTemperature]
  | clipchk | extract | fsync => simp [writesClipCount, writesEvents, writesFrames, writesIntersections, writesSync]
  | nop | pres1 | pres2NotArmed | pres2Unread | pres2 => simp [writesPresence]
  | clear | decodeClipped | decodeNoFrames | decodeSucceeds | sdecodeNoSignal | sdecodeNoExtrema | sdecodeSucceeds =>
    simp [writesPresence, writesTemperature, writesResistance, writesOutcome, writesEvents, writesFrames,
      writesIntersections, writesSync, writesClipCount, writesTrendline, writesMedian, writesWindows, State.counted,
      State.synchronized]

theorem Finished.keepsOutput (h : Finished s i t) (hi : writesOutput i = false) : s.keepsOutput t := by
  obtain ⟨holen, -⟩ := h.registers
  have hlayout := memory_layout
  exact ⟨holen hi, fun a _ ha => h.memByte (by simp [hi]) (fun _ => by omega) (fun _ => by omega)⟩

theorem Finished.keepsEvents (h : Finished s i t) (hi : writesEvents i = false) :
    s.keepsBytesIn t Config.evtBase Config.evtEnd := fun a _ ha => by
  have hlayout := memory_layout
  exact h.memByte (fun _ => by omega) (by simp [hi]) (fun _ => by omega)

theorem Finished.keepsFrames (h : Finished s i t) (hi : writesFrames i = false) :
    s.keepsBytesIn t Config.frmBase Config.frmEnd := fun a _ ha => by
  have hlayout := memory_layout
  exact h.memByte (fun _ => by omega) (fun _ => by omega) (by simp [hi])

/-- Settles O22: no fault and no update of a command reaches the host's state, and either way of ending sets the flags. -/
theorem commandsKeepTheHostsState : Obligations.CommandsKeepTheHostsState := by
  intro i s t h
  rcases exec_cases h with hfault | hend
  · obtain ⟨hhost, -, -, hbusy, hdone⟩ := hfault.keeps
    exact ⟨hhost, hbusy, hdone⟩
  · obtain ⟨-, hbusy, hdone⟩ := hend.flags
    exact ⟨hend.keepsHostState, hbusy, hdone⟩

/-- Settles O23: a fault keeps the output and the detector's state, and a command that runs to its end changes only what it is
named as writing. -/
theorem onlyTheNamedCommandsWrite : Obligations.OnlyTheNamedCommandsWrite := by
  intro i s t h
  rcases exec_cases h with hfault | hend
  · obtain ⟨-, houtput, hpstate, -, -⟩ := hfault.keeps
    exact ⟨fun _ => houtput, fun _ => hpstate, fun hnone => absurd hnone hfault.fault_ne_none⟩
  · obtain ⟨-, hpresence, htemp, hres, hout, hecnt, hfcnt, hrest⟩ := hend.registers
    exact ⟨hend.keepsOutput, fun hi => (hpresence hi).1, fun _ =>
      ⟨fun hi => (hpresence hi).2, htemp, hres, hout, fun hi => ⟨hecnt hi, hend.keepsEvents hi⟩,
        fun hi => ⟨hfcnt hi, hend.keepsFrames hi⟩, hrest⟩⟩

end Sys2Proof.Machine
end

section
/-! ## The order of the extracted events (10_state.md R44) -/

namespace Sys2Proof.Machine

/-- Along a chain of Zero events `bufferIndex` strictly increases. -/
theorem ZeroChain.zeros_increasing {prev : Nat} {l : List Sample} (h : ZeroChain prev l) :
    (∀ x ∈ l.filter (fun x => decide (x.kind = .zero)), prev < x.bufferIndex)
      ∧ (l.filter (fun x => decide (x.kind = .zero))).Pairwise (fun x y => x.bufferIndex < y.bufferIndex) := by
  induction l generalizing prev with
  | nil => simp
  | cons x l ih =>
    by_cases hx : x.kind = .zero
    · simp only [ZeroChain, if_pos hx] at h
      obtain ⟨hlt, -, hrest⟩ := h
      obtain ⟨habove, hpair⟩ := ih hrest
      rw [List.filter_cons_of_pos (by simpa using hx)]
      refine ⟨fun y hy => ?_, List.Pairwise.cons habove hpair⟩
      rcases List.mem_cons.mp hy with rfl | hy
      · exact hlt
      · exact hlt.trans (habove y hy)
    · simp only [ZeroChain, if_neg hx] at h
      rw [List.filter_cons_of_neg (by simpa using hx)]
      exact ih h

/-- The events of one span: a list of at most one event before a Zero event, all between `lo` and the Zero event, which the events
that follow it do not precede. -/
theorem span_events_ordered {lo : Nat} {m l : List Sample} {z : Sample} (hz : z.kind = .zero) (hlo : lo ≤ z.bufferIndex)
    (hone : m.length ≤ 1) (hm : ∀ x ∈ m, lo ≤ x.bufferIndex ∧ x.bufferIndex ≤ z.bufferIndex)
    (hl : ∀ x ∈ l, z.bufferIndex ≤ x.bufferIndex) (hchain : l.IsChain (fun x y => x.kind = .zero ∨ y.kind = .zero))
    (hpair : l.Pairwise (fun x y => x.bufferIndex ≤ y.bufferIndex)) :
    (∀ x ∈ m ++ z :: l, lo ≤ x.bufferIndex)
      ∧ (m ++ z :: l).IsChain (fun x y => x.kind = .zero ∨ y.kind = .zero)
      ∧ (m ++ z :: l).Pairwise (fun x y => x.bufferIndex ≤ y.bufferIndex) := by
  have hzchain : (z :: l).IsChain (fun x y => x.kind = .zero ∨ y.kind = .zero) :=
    List.isChain_cons.mpr ⟨fun _ _ => .inl hz, hchain⟩
  have hzpair : (z :: l).Pairwise (fun x y => x.bufferIndex ≤ y.bufferIndex) := List.Pairwise.cons hl hpair
  have hzlo : ∀ x ∈ z :: l, z.bufferIndex ≤ x.bufferIndex := List.forall_mem_cons.mpr ⟨le_rfl, hl⟩
  match m, hone with
  | [], _ => exact ⟨fun x hx => hlo.trans (hzlo x hx), hzchain, hzpair⟩
  | [e], _ =>
    obtain ⟨helo, hez⟩ := hm e (by simp)
    exact ⟨List.forall_mem_cons.mpr ⟨helo, fun x hx => hlo.trans (hzlo x hx)⟩,
      List.isChain_cons_cons.mpr ⟨.inr hz, hzchain⟩, List.Pairwise.cons (fun x hx => hez.trans (hzlo x hx)) hzpair⟩

/-- The pass from index `i` on emits no event before `prev`, no two adjacent extrema, and no event before an earlier one. -/
theorem extractFrom_ordered (rest : List Int) : ∀ (prev : Nat) (seen : Bool) (i : Nat) (last : Int) (span : List Int),
    prev < i → span.length = i - prev →
    (∀ x ∈ extractFrom prev seen i last span rest, prev ≤ x.bufferIndex)
      ∧ (extractFrom prev seen i last span rest).IsChain (fun x y => x.kind = .zero ∨ y.kind = .zero)
      ∧ (extractFrom prev seen i last span rest).Pairwise (fun x y => x.bufferIndex ≤ y.bufferIndex) := by
  induction rest with
  | nil => intro prev seen i last span _ _; simp [extractFrom]
  | cons v rest ih =>
    intro prev seen i last span hprev hspan
    simp only [extractFrom]
    split
    · obtain ⟨hfrom, hchain, hpair⟩ := ih i true (i + 1) v [v] (by omega) (by simp)
      obtain ⟨hone, hext⟩ := extremum_spec prev span.reverse
      refine span_events_ordered (z := crossing prev i v) rfl hprev.le ?_ (fun x hx => ?_) hfrom hchain hpair
      · split
        · exact hone
        · exact Nat.zero_le _
      · split at hx
        · obtain ⟨-, hlow, hhigh, -⟩ := hext x hx
          rw [List.length_reverse, hspan] at hhigh
          exact ⟨hlow, by simp only [crossing]; omega⟩
        · exact absurd hx List.not_mem_nil
    · exact ih prev seen (i + 1) v (v :: span) (by omega) (by simp only [List.length_cons]; omega)

/-- Before the first crossing is seen no extremum is emitted. -/
theorem extractFrom_unseen_head (rest : List Int) : ∀ (prev i : Nat) (last : Int) (span : List Int),
    ∀ x ∈ (extractFrom prev false i last span rest).head?, x.kind = .zero := by
  induction rest with
  | nil => simp [extractFrom]
  | cons v rest ih =>
    intro prev i last span
    simp only [extractFrom, Bool.false_and, Bool.false_eq_true, if_false, List.nil_append]
    split
    · simp [crossing]
    · exact ih prev (i + 1) v (v :: span)

/-- Settles O35: the order holds of what the pass emits from any index on, by induction on the samples that remain. -/
theorem extractedEventsAreInOrder : Obligations.ExtractedEventsAreInOrder := by
  intro buf
  obtain ⟨-, hzeros, -⟩ := extractEvents_spec buf
  cases buf with
  | nil => exact ⟨by simp [extractEvents], List.IsChain.nil, List.Pairwise.nil, List.Pairwise.nil⟩
  | cons b rest =>
    obtain ⟨-, hchain, hpair⟩ := extractFrom_ordered rest 0 false 1 b [b] Nat.zero_lt_one rfl
    exact ⟨extractFrom_unseen_head rest 0 1 b [b], hchain, hpair, hzeros.zeros_increasing.2⟩

end Sys2Proof.Machine
end

section
/-! ## Every step keeps the counts, the events and the frame records (10_state.md R44, R45, R46) -/

namespace Sys2Proof.Machine

variable {s t : State} {i : Instr}

/-! ### The valid output, events and frames, each with its count -/

/-- OLEN fits OBUF. -/
def State.outputFits (s : State) : Prop := s.olen.toNat ≤ Config.obufMax

/-- ECNT fits EVT and the valid events are in order. -/
def State.eventsValid (s : State) : Prop := s.ecnt.toNat ≤ Config.evtMax ∧ EventOrder s.samples

/-- FCNT fits FRM and the valid frames are frame records. -/
def State.framesValid (s : State) : Prop :=
  s.fcnt.toNat ≤ Config.frmMax ∧ ∀ f, f < s.fcnt.toNat → FrameRecord (s.frameAt f)

theorem recordsOk_iff (s : State) :
    s.recordsOk ↔ s.outputFits ∧ (s.fault = none → s.eventsValid ∧ s.framesValid) := by
  unfold State.recordsOk State.countsOk State.eventsOk State.framesOk State.outputFits State.eventsValid State.framesValid
  tauto

theorem eventsValid_congr (h : s.eventsValid) (hecnt : t.ecnt = s.ecnt)
    (hevt : s.keepsBytesIn t Config.evtBase Config.evtEnd) : t.eventsValid := by
  obtain ⟨hcount, horder⟩ := h
  refine ⟨by rwa [hecnt], ?_⟩
  rwa [State.samples_congr_in hecnt hcount hevt]

theorem framesValid_congr (h : s.framesValid) (hfcnt : t.fcnt = s.fcnt)
    (hfrm : s.keepsBytesIn t Config.frmBase Config.frmEnd) : t.framesValid := by
  obtain ⟨hcount, hrecords⟩ := h
  refine ⟨by rwa [hfcnt], fun f hf => ?_⟩
  rw [hfcnt] at hf
  rw [State.frameAt_congr_in (hf.trans_le hcount) hfrm]
  exact hrecords f hf

theorem eventsValid_of_empty (h : t.ecnt = 0) : t.eventsValid := by
  have hsamples : t.samples = [] := by simp [State.samples, h]
  refine ⟨by simp [h], ?_⟩
  rw [hsamples]
  exact ⟨by simp, List.IsChain.nil, List.Pairwise.nil, List.Pairwise.nil⟩

theorem framesValid_of_empty (h : t.fcnt = 0) : t.framesValid :=
  ⟨by simp [h], fun f hf => by simp [h] at hf⟩

/-- The events of a buffer that fits IBUF are valid wherever they are read back. -/
theorem eventsValid_of_samples {buf : List Int} (hfits : buf.length ≤ Config.ibufMax) (h : t.samples = extractEvents buf) :
    t.eventsValid := by
  have hcount : t.ecnt.toNat = (extractEvents buf).length := by rw [← h, State.samples, List.length_map, List.length_range]
  refine ⟨hcount ▸ (extractEvents_length_lt hfits).le, ?_⟩
  rw [h]
  exact extractedEventsAreInOrder buf

/-- The frames of an event list are valid wherever they are read back. -/
theorem framesValid_of_frames {events : List Sample} (hfits : (framesOf events).length ≤ Config.frmMax)
    (hcount : t.fcnt.toNat = (framesOf events).length)
    (hframes : ∀ f (hf : f < (framesOf events).length), t.frameAt f = (framesOf events)[f]) : t.framesValid := by
  refine ⟨hcount ▸ hfits, fun f hf => ?_⟩
  rw [hcount] at hf
  rw [hframes f hf]
  exact framesOf_frameRecord events _ (List.getElem_mem hf)

/-! ### When a state's records are in order -/

/-- The records are read from three counts, the fault code and the bytes of EVT and FRM. -/
theorem recordsOk_congr (h : s.recordsOk) (hfault : t.fault = s.fault) (holen : t.olen = s.olen) (hecnt : t.ecnt = s.ecnt)
    (hfcnt : t.fcnt = s.fcnt) (hevt : s.keepsBytesIn t Config.evtBase Config.evtEnd)
    (hfrm : s.keepsBytesIn t Config.frmBase Config.frmEnd) : t.recordsOk := by
  rw [recordsOk_iff] at h ⊢
  obtain ⟨hout, hvalid⟩ := h
  rw [hfault]
  refine ⟨by rwa [State.outputFits, holen], fun hnone => ?_⟩
  obtain ⟨hevents, hframes⟩ := hvalid hnone
  exact ⟨eventsValid_congr hevents hecnt hevt, framesValid_congr hframes hfcnt hfrm⟩

/-- An update of other fields leaves the records in order. -/
theorem recordsOk_of_mem (h : s.recordsOk) (hfault : t.fault = s.fault) (holen : t.olen = s.olen) (hecnt : t.ecnt = s.ecnt)
    (hfcnt : t.fcnt = s.fcnt) (hmem : t.mem = s.mem) (hepochs : s.sameEpochs t) : t.recordsOk :=
  recordsOk_congr h hfault holen hecnt hfcnt (fun a _ _ => State.memByte_congr hmem hepochs a)
    fun a _ _ => State.memByte_congr hmem hepochs a

/-- While a fault is held only OLEN counts (60_exceptions.md R313). -/
theorem recordsOk_of_fault (h : s.recordsOk) (hfault : t.fault ≠ none) (holen : t.olen = s.olen) : t.recordsOk := by
  rw [recordsOk_iff] at h ⊢
  exact ⟨by rw [State.outputFits, holen]; exact h.1, fun hnone => absurd hnone hfault⟩

/-- A reset leaves nothing valid. -/
theorem recordsOk_of_empty (holen : t.olen = 0) (hecnt : t.ecnt = 0) (hfcnt : t.fcnt = 0) : t.recordsOk :=
  (recordsOk_iff t).mpr
    ⟨by simp [State.outputFits, holen], fun _ => ⟨eventsValid_of_empty hecnt, framesValid_of_empty hfcnt⟩⟩

/-! ### What a command that runs to its end leaves -/

theorem Finished.outputFits (h : Finished s i t) (hs : s.outputFits) : t.outputFits := by
  cases hi : writesOutput i with
  | false =>
    obtain ⟨holen, -⟩ := h.keepsOutput hi
    rwa [State.outputFits, holen]
  | true =>
    cases h with
    | output hwrites hfits =>
      simp only [State.outputFits, State.complete_olen, State.putOutput_olen, BitVec.toNat_ofNat]
      exact (Nat.mod_le _ _).trans hfits
    | _ => cases hi

/-- DECODE's extraction leaves the events of the buffer. -/
theorem synchronized_eventsValid (hfits : s.ilen.toNat ≤ Config.ibufMax) : s.counted.synchronized.eventsValid := by
  refine eventsValid_of_samples ?_ (s.counted.synchronized_samples hfits)
  rwa [s.counted_buffer, State.buffer_length]

/-- DECODE's synchronization leaves the frames of those events. -/
theorem synchronized_framesValid (hfits : s.ilen.toNat ≤ Config.ibufMax) : s.counted.synchronized.framesValid := by
  refine framesValid_of_frames (framesOf_le_frmMax ?_) (s.counted.synchronized_fcnt hfits) s.counted.synchronized_frameAt
  rwa [s.counted_buffer, State.buffer_length]

theorem writesRecords_of_writesOutput (h : writesOutput i = true) : writesEvents i = false ∧ writesFrames i = false := by
  cases i with
  | sweep | twoph | ttone => exact ⟨rfl, rfl⟩
  | _ => cases h

theorem Finished.eventsValid (h : Finished s i t) (hs : s.eventsValid) : t.eventsValid := by
  cases hi : writesEvents i with
  | false =>
    obtain ⟨-, -, -, -, -, hecnt, -⟩ := h.registers
    exact eventsValid_congr hs (hecnt hi) (h.keepsEvents hi)
  | true =>
    cases h with
    | output hwrites => simp [(writesRecords_of_writesOutput hwrites).1] at hi
    | clear | decodeClipped | sdecodeNoSignal => exact eventsValid_of_empty rfl
    | extract hfits =>
      rw [← State.buffer_length] at hfits
      exact eventsValid_of_samples hfits (State.samples_of_extract s.buffer_isI16 hfits rfl ⟨rfl, rfl, rfl, rfl⟩ rfl)
    | decodeNoFrames e hfits | decodeSucceeds e hfits =>
      exact eventsValid_congr (synchronized_eventsValid hfits) rfl
        fun a _ _ => State.memByte_congr rfl ⟨rfl, rfl, rfl, rfl⟩ a
    | sdecodeNoExtrema e a z hleft hright hrange | sdecodeSucceeds e a z l r hleft hright hrange =>
      exact eventsValid_of_samples hright (State.samples_of_extract hrange hright rfl ⟨rfl, rfl, rfl, rfl⟩ rfl)
    | _ => cases hi

theorem Finished.framesValid (h : Finished s i t) (hs : s.framesValid) : t.framesValid := by
  cases hi : writesFrames i with
  | false =>
    obtain ⟨-, -, -, -, -, -, hfcnt, -⟩ := h.registers
    exact framesValid_congr hs (hfcnt hi) (h.keepsFrames hi)
  | true =>
    cases h with
    | output hwrites => simp [(writesRecords_of_writesOutput hwrites).2] at hi
    | clear | decodeClipped | sdecodeNoSignal | sdecodeNoExtrema | sdecodeSucceeds => exact framesValid_of_empty rfl
    | fsync hfits =>
      refine framesValid_of_frames hfits ?_ (State.frameAt_of_frames (s := s) rfl ⟨rfl, rfl, rfl, rfl⟩)
      simp only [Config.frmMax] at hfits
      simp only [State.complete_fcnt, State.putSync_fcnt, State.putFrames_fcnt, BitVec.toNat_ofNat]
      omega
    | decodeNoFrames e hfits | decodeSucceeds e hfits =>
      exact framesValid_congr (synchronized_framesValid hfits) rfl
        fun a _ _ => State.memByte_congr rfl ⟨rfl, rfl, rfl, rfl⟩ a
    | _ => cases hi

theorem exec_recordsOk (hs : s.recordsOk) (h : exec i s = .next t) : t.recordsOk := by
  rcases exec_cases h with hfault | hend
  · obtain ⟨-, ⟨holen, -⟩, -⟩ := hfault.keeps
    exact recordsOk_of_fault hs hfault.fault_ne_none holen
  · obtain ⟨hfault, -⟩ := hend.flags
    rw [recordsOk_iff] at hs ⊢
    obtain ⟨hout, hvalid⟩ := hs
    rw [hfault]
    exact ⟨hend.outputFits hout, fun hnone => ⟨hend.eventsValid (hvalid hnone).1, hend.framesValid (hvalid hnone).2⟩⟩

/-! ### Resets and host writes -/

theorem softReset_recordsOk (s : State) : s.softReset.recordsOk := recordsOk_of_empty rfl rfl rfl

theorem hardwareReset_recordsOk (s : State) : s.hardwareReset.recordsOk := recordsOk_of_empty rfl rfl rfl

theorem issue_recordsOk (hs : s.recordsOk) (w : Word) : (s.issue w).recordsOk := by
  rcases issue_cases s w with ⟨-, hsame⟩ | ⟨-, -, haccept⟩ | ⟨-, -, hillegal⟩
  · rwa [hsame]
  · rw [haccept]
    exact recordsOk_of_mem hs rfl rfl rfl rfl rfl ⟨rfl, rfl, rfl, rfl⟩
  · rw [hillegal]
    exact recordsOk_of_fault hs (Option.some_ne_none _) rfl

theorem writeRegister_recordsOk (hs : s.recordsOk) (n : Nat) (w : Word) : (s.writeRegister n w).recordsOk := by
  unfold State.writeRegister
  split
  · exact issue_recordsOk hs w
  · split
    · exact softReset_recordsOk s
    · exact hs
  all_goals exact recordsOk_of_mem hs rfl rfl rfl rfl rfl ⟨rfl, rfl, rfl, rfl⟩

theorem State.putBytes_memByte (s : State) {a x : Nat} {bs : List Byte} (hx : x < a ∨ a + bs.length ≤ x) :
    (s.putBytes a bs).memByte x = s.memByte x :=
  State.memByte_put_outside (t := s.putBytes a bs) rfl ⟨rfl, rfl, rfl, rfl⟩ hx

/-- Bytes written to IBUF are bytes of no record. -/
theorem putBytes_recordsOk (hs : s.recordsOk) {a : Nat} {bs : List Byte} (ha : a + bs.length ≤ Config.ibufEnd) :
    (s.putBytes a bs).recordsOk := by
  have hlayout := memory_layout
  exact recordsOk_congr hs rfl rfl rfl rfl (fun x _ _ => s.putBytes_memByte (.inr (by omega)))
    fun x _ _ => s.putBytes_memByte (.inr (by omega))

/-- A legal access to IBUF lies within it (20_memory.md R85). -/
theorem target_ibuf_bound {a : Nat} {width : Width} {j : Nat} (h : target a width = some (.ibuf j)) :
    Config.ibufBase + 2 * j + 2 ≤ Config.ibufEnd := by
  have hbounds : Config.ibufBase = 0x10000 ∧ Config.ibufEnd = 0x20000 := by decide
  cases width with
  | w8 => cases h
  | w16 =>
    simp only [target] at h
    split_ifs at h <;> cases h
    omega
  | w32 =>
    simp only [target] at h
    split_ifs at h <;> cases h

theorem target_ibufPair_bound {a : Nat} {width : Width} {j : Nat} (h : target a width = some (.ibufPair j)) :
    Config.ibufBase + 2 * j + 4 ≤ Config.ibufEnd := by
  have hbounds : Config.ibufBase = 0x10000 ∧ Config.ibufEnd = 0x20000 := by decide
  cases width with
  | w8 => cases h
  | w16 =>
    simp only [target] at h
    split_ifs at h <;> cases h
  | w32 =>
    simp only [target] at h
    split_ifs at h <;> cases h
    omega

theorem writeTarget_recordsOk (hs : s.recordsOk) {a : Nat} {width : Width} {x : Target} (hx : target a width = some x)
    (data : Word) : (s.writeTarget x data).recordsOk := by
  cases x with
  | reg n => exact writeRegister_recordsOk hs n data
  | ibuf j => exact putBytes_recordsOk hs (target_ibuf_bound hx)
  | ibufPair j => exact putBytes_recordsOk hs (target_ibufPair_bound hx)
  | obuf | obufPair | evt | frm | xi => exact hs

theorem hostAccess_recordsOk (hs : s.recordsOk) (a : Access) : (s.hostAccess a).recordsOk := by
  cases a with
  | read addr width => exact recordsOk_of_mem hs rfl rfl rfl rfl rfl ⟨rfl, rfl, rfl, rfl⟩
  | write addr width data =>
    simp only [State.hostAccess]
    rcases hostWrite_cases s addr width data with ⟨-, hsame⟩ | ⟨x, hx, ⟨-, -, hhaz⟩ | ⟨-, hwrite⟩⟩
    · rwa [hsame]
    · rw [hhaz]
      exact recordsOk_of_mem hs rfl rfl rfl rfl rfl ⟨rfl, rfl, rfl, rfl⟩
    · rw [hwrite]
      exact writeTarget_recordsOk hs hx data

theorem completion_recordsOk (hs : s.recordsOk) (h : completion s = .next t) : t.recordsOk := by
  rcases completion_cases h with ⟨-, rfl⟩ | ⟨i, -, -, hexec⟩ | ⟨-, -, rfl⟩
  · exact hs
  · exact exec_recordsOk hs hexec
  · exact recordsOk_of_fault hs (Option.some_ne_none _) rfl

/-- Settles O58: a host access leaves the records or starts them anew, and a completed command leaves each kind of record valid
that it writes. -/
theorem stepKeepsRecords : Obligations.StepKeepsRecords := by
  intro s t hs h
  have htaken : s.taken.recordsOk := recordsOk_of_mem hs rfl rfl rfl rfl rfl ⟨rfl, rfl, rfl, rfl⟩
  rcases step_cases h with ⟨a, -, -, rfl⟩ | ⟨-, -, rfl⟩ | ⟨-, hcompletion⟩
  · exact hostAccess_recordsOk htaken a
  · exact hardwareReset_recordsOk s.taken
  · exact completion_recordsOk htaken hcompletion

end Sys2Proof.Machine
end

section
/-! ## The registers at the host port (10_state.md R33, R35, R38, R39) -/

namespace Sys2Proof.Machine

variable {s t : State}

/-! ### Host writes of registers -/

/-- The byte address of register `n` (20_memory.md R82). -/
theorem target_register {n : Nat} (hn : n < 34) : target (BitVec.ofNat 32 (4 * n)).toNat .w32 = some (.reg n) := by
  have haddr : (BitVec.ofNat 32 (4 * n)).toNat = 4 * n := by
    rw [BitVec.toNat_ofNat]
    omega
  have hcount : 4 * n < 4 * Config.regCount := by
    simp only [Config.regCount]
    omega
  rw [haddr]
  simp [target, hcount]

/-- A write of a word to a register of an idle block. -/
theorem hostWrite_register (hidle : s.busy = false) {n : Nat} (hn : n < 34) (w : Word) :
    s.hostWrite (BitVec.ofNat 32 (4 * n)) .w32 w = s.writeRegister n w := by
  simp only [State.hostWrite, target_register hn, hidle, Bool.false_and, Bool.false_eq_true, if_false, State.writeTarget]

/-- An operand register reads the word written to it, and no other register reads another word than before. -/
theorem readRegister_writeRegister_operand {n : Nat} (hn : n ∈ operandNumbers) (w : Word) (m : Nat) :
    (s.writeRegister n w).readRegister m = if m = n then w else s.readRegister m := by
  simp only [operandNumbers, List.mem_cons, List.not_mem_nil, or_false] at hn
  split_ifs with hm
  · subst hm
    rcases hn with rfl | rfl | rfl | rfl | rfl | rfl | rfl | rfl | rfl | rfl <;> rfl
  · rcases hn with rfl | rfl | rfl | rfl | rfl | rfl | rfl | rfl | rfl | rfl <;>
      (unfold State.readRegister; split <;> first | rfl | exact absurd rfl hm)

/-- A write to an operand register changes the operand registers alone. -/
theorem writeRegister_operand_frame {n : Nat} (hn : n ∈ operandNumbers) (w : Word) :
    s = { s.writeRegister n w with
      ilen := s.ilen, ncells := s.ncells, ppcell := s.ppcell, syncidx := s.syncidx, freq := s.freq, refvol := s.refvol
      maxvol := s.maxvol, minvol := s.minvol, dur := s.dur, tonevol := s.tonevol } := by
  simp only [operandNumbers, List.mem_cons, List.not_mem_nil, or_false] at hn
  rcases hn with rfl | rfl | rfl | rfl | rfl | rfl | rfl | rfl | rfl | rfl <;> rfl

theorem lt_of_mem_operandNumbers {n : Nat} (hn : n ∈ operandNumbers) : n < 34 := by
  revert n
  decide

/-- Equal operands read as equal operand registers. -/
theorem readRegister_operand_congr (h : s.keepsHostState t) {n : Nat} (hn : n ∈ operandNumbers) :
    t.readRegister n = s.readRegister n := by
  obtain ⟨-, -, hilen, hncells, hppcell, hsyncidx, hfreq, hrefvol, hmaxvol, hminvol, hdur, htonevol, -⟩ := h
  simp only [operandNumbers, List.mem_cons, List.not_mem_nil, or_false] at hn
  rcases hn with rfl | rfl | rfl | rfl | rfl | rfl | rfl | rfl | rfl | rfl <;> assumption

/-- Settles O18: a write reaches one field, no command writes the host's state, and the reset words are the sweep constants. -/
theorem operandRegistersHold : Obligations.OperandRegistersHold := by
  refine ⟨fun s t n w hidle hn ht => ?_, fun i s t h n hn => ?_, rfl, rfl, rfl, rfl, ?_, ?_, ?_⟩
  · rw [hostWrite_register hidle (lt_of_mem_operandNumbers hn)] at ht
    subst ht
    refine ⟨?_, fun m hm => ?_, writeRegister_operand_frame hn w⟩
    · rw [readRegister_writeRegister_operand hn, if_pos rfl]
    · rw [readRegister_writeRegister_operand hn, if_neg hm]
  · exact readRegister_operand_congr (commandsKeepTheHostsState i s t h).1 hn
  · exact (by norm_num : ((5000 : Nat) : Rat) / ((10000 : Nat) : Rat) = 1 / 2)
  · exact (by norm_num : ((9000 : Nat) : Rat) / ((10000 : Nat) : Rat) = 9 / 10)
  · exact (by norm_num : ((1000 : Nat) : Rat) / ((10000 : Nat) : Rat) = 1 / 10)

/-! ### The word of STATUS -/

theorem PState.number_le (p : PState) : p.number ≤ 3 := by cases p <;> decide

theorem State.faultNumber_le (s : State) : s.faultNumber ≤ 5 := by
  unfold State.faultNumber
  rcases s.fault with _ | c
  · decide
  · cases c <;> decide

/-- STATUS as a number: its fields at their places, without carries (R33). -/
theorem State.statusWord_toNat (s : State) :
    s.statusWord.toNat = s.busy.toNat + 2 * s.done.toNat + 4 * s.haz.toNat + 8 * s.ut.toNat + 16 * s.det.toNat
      + 32 * s.pstate.number + 256 * s.faultNumber := by
  have hp := s.pstate.number_le
  have hf := s.faultNumber_le
  have hbusy := s.busy.toNat_le
  have hdone := s.done.toNat_le
  have hhaz := s.haz.toNat_le
  have hut := s.ut.toNat_le
  have hdet := s.det.toNat_le
  rw [State.statusWord, BitVec.toNat_ofNat]
  omega

/-- A bit of a word is a Boolean when the word, shifted down to it, is that Boolean below an even number. -/
theorem getLsbD_eq_of_toNat {w : Word} {k : Nat} {b : Bool} (h : w.toNat / 2 ^ k % 2 = b.toNat) : w.getLsbD k = b := by
  rw [BitVec.getLsbD, Nat.testBit_eq_decide_div_mod_eq, h]
  cases b <;> rfl

/-- A field of a word is a number when the word, shifted down to it, is that number below a multiple of the field's size. -/
theorem extractLsb'_eq_of_toNat {w : Word} {lo n : Nat} {v : BitVec n} (h : w.toNat / 2 ^ lo % 2 ^ n = v.toNat) :
    w.extractLsb' lo n = v := by
  apply BitVec.eq_of_toNat_eq
  rw [BitVec.extractLsb'_toNat, Nat.shiftRight_eq_div_pow, h]

/-- Settles O21: each field is cut out of the sum of the fields, and the numbers are those of the enumerations. -/
theorem statusWordFields : Obligations.StatusWordFields := by
  intro s w hw
  have hword : w.toNat = _ := (congrArg BitVec.toNat hw).trans s.statusWord_toNat
  have hp := s.pstate.number_le
  have hf := s.faultNumber_le
  have hbusy := s.busy.toNat_le
  have hdone := s.done.toNat_le
  have hhaz := s.haz.toNat_le
  have hut := s.ut.toNat_le
  have hdet := s.det.toNat_le
  have hpstate : w.extractLsb' 5 2 = BitVec.ofNat 2 s.pstate.number :=
    extractLsb'_eq_of_toNat (by rw [BitVec.toNat_ofNat]; omega)
  have hfault : w.extractLsb' 8 8 = BitVec.ofNat 8 s.faultNumber :=
    extractLsb'_eq_of_toNat (by rw [BitVec.toNat_ofNat]; omega)
  refine ⟨getLsbD_eq_of_toNat (by omega), getLsbD_eq_of_toNat (by omega), getLsbD_eq_of_toNat (by omega),
    getLsbD_eq_of_toNat (by omega), getLsbD_eq_of_toNat (b := s.det) (by omega),
    getLsbD_eq_of_toNat (by simp only [Bool.toNat_false]; omega),
    extractLsb'_eq_of_toNat (show _ = 0 by omega), ?_, ?_, ?_⟩
  · rw [hpstate]
    cases s.pstate <;> rfl
  · rw [hfault, State.faultNumber]
    rcases s.fault with _ | c
    · rfl
    · cases c <;> rfl
  · simp only [State.readRegister]
    cases s.error <;> rfl

end Sys2Proof.Machine
end

section
/-! ## The binary32 image of an exact rational (10_state.md R36, R37) -/

namespace Sys2Proof.Machine

/-! ### The values of the patterns, by their lower 31 bits -/

/-- The value of the exponent and fraction fields of a binary32 pattern, read as one number; beyond the finite patterns the
same rule goes on, so that the pattern of infinity stands for 2^128. -/
def fieldsValue (b : Nat) : Rat :=
  if b / 2 ^ 23 = 0 then ((b % 2 ^ 23 : Nat) : Rat) * 2 ^ (-149 : Int)
  else (2 ^ 23 + ((b % 2 ^ 23 : Nat) : Rat)) * 2 ^ (((b / 2 ^ 23 : Nat) : Int) - 150)

theorem exponentField_toNat (w : Word) : (w.extractLsb' 23 8).toNat = w.toNat % 2 ^ 31 / 2 ^ 23 := by
  rw [BitVec.extractLsb'_toNat, Nat.shiftRight_eq_div_pow]
  omega

theorem fractionField_toNat (w : Word) : (w.extractLsb' 0 23).toNat = w.toNat % 2 ^ 31 % 2 ^ 23 := by
  rw [BitVec.extractLsb'_toNat, Nat.shiftRight_eq_div_pow]
  omega

/-- A magnitude under a sign bit. -/
def applySign (b : Bool) (x : Rat) : Rat := if b then -x else x

theorem patternValue_eq (w : Word) : patternValue w = applySign (w.getLsbD 31) (fieldsValue (w.toNat % 2 ^ 31)) := by
  rw [patternValue, applySign, fieldsValue, exponentField_toNat, fractionField_toNat]
  split_ifs <;> ring

theorem finitePattern_iff (w : Word) : finitePattern w ↔ w.toNat % 2 ^ 31 < 0x7F800000 := by
  have hlt := (w.extractLsb' 23 8).isLt
  rw [finitePattern, ne_eq, ← BitVec.toNat_inj, exponentField_toNat]
  rw [exponentField_toNat] at hlt
  rw [show (255 : BitVec 8).toNat = 255 from rfl]
  omega

theorem signBit_eq (w : Word) : w.getLsbD 31 = decide (2 ^ 31 ≤ w.toNat) := by
  have hlt := w.isLt
  rw [BitVec.getLsbD, Nat.testBit_eq_decide_div_mod_eq, decide_eq_decide]
  omega

/-- A significand of at most 24 bits at exponent field `k + 1` (or, with 23 bits, at field 0), the sum carrying where the
significand is 2^24. -/
theorem fieldsValue_significand {k m : Nat} (hnormal : k = 0 ∨ 2 ^ 23 ≤ m) (hm : m ≤ 2 ^ 24) :
    fieldsValue (k * 2 ^ 23 + m) = m * 2 ^ ((k : Int) - 149) := by
  unfold fieldsValue
  rcases Nat.lt_or_ge m (2 ^ 23) with hsub | hfull
  · obtain rfl : k = 0 := by omega
    rw [if_pos (by omega), show (0 * 2 ^ 23 + m) % 2 ^ 23 = m by omega]
    norm_num
  rw [if_neg (by omega)]
  rcases Nat.lt_or_ge m (2 ^ 24) with hlt | hge
  · obtain ⟨f, rfl⟩ := Nat.exists_eq_add_of_le hfull
    rw [show (k * 2 ^ 23 + (2 ^ 23 + f)) % 2 ^ 23 = f by omega,
      show (k * 2 ^ 23 + (2 ^ 23 + f)) / 2 ^ 23 = k + 1 by omega,
      show ((k + 1 : Nat) : Int) - 150 = (k : Int) - 149 by omega]
    push_cast
    ring
  · obtain rfl : m = 2 ^ 24 := le_antisymm hm hge
    rw [show (k * 2 ^ 23 + 2 ^ 24) % 2 ^ 23 = 0 by omega, show (k * 2 ^ 23 + 2 ^ 24) / 2 ^ 23 = k + 2 by omega,
      show ((k + 2 : Nat) : Int) - 150 = ((k : Int) - 149) + 1 by omega, zpow_add_one₀ two_ne_zero]
    push_cast
    ring

/-- Every pattern is a significand of 24 bits and an exponent. -/
theorem exists_significand (b : Nat) : ∃ k m, b = k * 2 ^ 23 + m ∧ (k = 0 ∨ 2 ^ 23 ≤ m) ∧ m < 2 ^ 24 := by
  refine ⟨b / 2 ^ 23 - 1, b - (b / 2 ^ 23 - 1) * 2 ^ 23, ?_, ?_, ?_⟩ <;> omega

theorem fieldsValue_strictMono : StrictMono fieldsValue := by
  refine strictMono_nat_of_lt_succ fun b => ?_
  obtain ⟨k, m, rfl, hnormal, hm⟩ := exists_significand b
  rw [add_assoc, fieldsValue_significand hnormal hm.le, fieldsValue_significand (by omega) hm]
  have hulp : (0 : Rat) < 2 ^ ((k : Int) - 149) := by positivity
  push_cast
  linarith

theorem fieldsValue_zero : fieldsValue 0 = 0 := by simp [fieldsValue]

theorem fieldsValue_nonneg (b : Nat) : 0 ≤ fieldsValue b := by
  rw [← fieldsValue_zero]
  exact fieldsValue_strictMono.monotone (Nat.zero_le b)

/-- The patterns from exponent field `k + 1` up have values on the grid of that field's spacing. -/
theorem fieldsValue_on_grid {k b : Nat} (h : k = 0 ∨ (k + 1) * 2 ^ 23 ≤ b) :
    ∃ j : Nat, fieldsValue b = j * 2 ^ ((k : Int) - 149) := by
  obtain ⟨k', m, rfl, hnormal, hm⟩ := exists_significand b
  have hk : k ≤ k' := by omega
  refine ⟨m * 2 ^ (k' - k), ?_⟩
  rw [fieldsValue_significand hnormal hm.le]
  have hpow : ((2 : Rat) ^ ((k' : Int) - 149)) = 2 ^ (k' - k) * 2 ^ ((k : Int) - 149) := by
    rw [← zpow_natCast, ← zpow_add₀ two_ne_zero]
    congr 1
    omega
  rw [hpow]
  push_cast
  ring

/-! ### Rounding to an integer -/

/-- `m` is a nearest integer of `y`, and is even where two are equally near. -/
def IsNearestEven (y : Rat) (m : Nat) : Prop := |y - m| ≤ 1 / 2 ∧ (|y - m| = 1 / 2 → m % 2 = 0)

theorem IsNearestEven.nearest {y : Rat} {m : Nat} (h : IsNearestEven y m) (j : Nat) :
    |y - m| ≤ |y - j| ∧ (|y - m| = |y - j| → j ≠ m → m % 2 = 0) := by
  obtain ⟨hhalf, heven⟩ := h
  by_cases hj : j = m
  · subst hj
    exact ⟨le_rfl, fun _ hne => absurd rfl hne⟩
  have hgap : (1 : Rat) ≤ |(j : Rat) - m| := by
    have hint : (1 : Int) ≤ |(j : Int) - m| := Int.one_le_abs (by omega)
    exact_mod_cast hint
  have htriangle : |(j : Rat) - m| ≤ |y - m| + |y - j| := by
    have := abs_sub_le (j : Rat) y m
    rw [abs_sub_comm (j : Rat) y] at this
    linarith
  exact ⟨by linarith, fun htie _ => heven (by linarith)⟩

theorem roundHalfEven_isNearestEven (n : Nat) {d : Nat} (hd : 0 < d) : IsNearestEven (n / d) (roundHalfEven n d) := by
  have hd' : (0 : Rat) < d := by exact_mod_cast hd
  have hy : (n : Rat) / d = (n / d : Nat) + ((n % d : Nat) : Rat) / d := by
    rw [div_eq_iff hd'.ne', add_mul, div_mul_cancel₀ _ hd'.ne']
    exact_mod_cast (Nat.div_add_mod' n d).symm
  have hr0 : (0 : Rat) ≤ ((n % d : Nat) : Rat) / d := by positivity
  have hr1 : ((n % d : Nat) : Rat) / d < 1 := by
    rw [div_lt_one hd']
    exact_mod_cast Nat.mod_lt n hd
  have hlow : 2 * (n % d) < d ↔ ((n % d : Nat) : Rat) / d < 1 / 2 := by
    rw [div_lt_div_iff₀ hd' two_pos, one_mul, mul_comm]
    exact_mod_cast Iff.rfl
  have hhigh : d < 2 * (n % d) ↔ 1 / 2 < ((n % d : Nat) : Rat) / d := by
    rw [div_lt_div_iff₀ two_pos hd', one_mul, mul_comm]
    exact_mod_cast Iff.rfl
  simp only [roundHalfEven, hlow, hhigh]
  rw [hy]
  generalize ((n % d : Nat) : Rat) / d = r at *
  generalize n / d = f
  have hdown : (f : Rat) + r - f = r := by ring
  have hup : (f : Rat) + r - (f + 1 : Nat) = r - 1 := by push_cast; ring
  unfold IsNearestEven
  split_ifs with h1 h2 h3
  · rw [hdown, abs_of_nonneg hr0]
    exact ⟨h1.le, fun h => absurd h h1.ne⟩
  · rw [hup, abs_of_neg (by linarith)]
    exact ⟨by linarith, fun h => by linarith⟩
  · rw [hdown, abs_of_nonneg hr0]
    exact ⟨le_of_not_gt h2, fun _ => h3⟩
  · rw [hup, abs_of_neg (by linarith)]
    exact ⟨by linarith, fun _ => by omega⟩

/-! ### The exponent and the significand of a positive rational -/

/-- A quotient scaled by a power of two, with the power on the side where its exponent is not negative. -/
theorem scaled_quotient (n d : Nat) (e : Int) :
    ((n * 2 ^ e.toNat : Nat) : Rat) / (d * 2 ^ (-e).toNat : Nat) = n / d * 2 ^ e := by
  obtain ⟨a, rfl | rfl⟩ := e.eq_nat_or_neg
  · rw [Int.toNat_natCast, Int.toNat_of_nonpos (by omega), zpow_natCast]
    push_cast
    ring
  · rw [Int.toNat_of_nonpos (by omega), neg_neg, Int.toNat_natCast, zpow_neg, zpow_natCast]
    push_cast
    field_simp

theorem powerBelow_iff (e : Int) (n : Nat) {d : Nat} (hd : 0 < d) : powerBelow e n d = true ↔ (2 : Rat) ^ e ≤ n / d := by
  have hd' : (0 : Rat) < d := by exact_mod_cast hd
  have hpow : (2 : Rat) ^ e = ((2 ^ e.toNat : Nat) : Rat) / (2 ^ (-e).toNat : Nat) := by
    simpa using (scaled_quotient 1 1 e).symm
  rw [powerBelow, decide_eq_true_eq, hpow, div_le_div_iff₀ (by positivity) hd']
  exact_mod_cast Iff.rfl

/-- The exponent of a positive rational. -/
theorem binaryExponent_spec {n d : Nat} (hn : 0 < n) (hd : 0 < d) :
    (2 : Rat) ^ binaryExponent n d ≤ n / d ∧ (n : Rat) / d < 2 ^ (binaryExponent n d + 1) := by
  have hd' : (0 : Rat) < d := by exact_mod_cast hd
  have hn1 : (2 : Rat) ^ (n.log2 : Int) ≤ n := by
    rw [zpow_natCast]
    exact_mod_cast Nat.log2_self_le hn.ne'
  have hn2 : (n : Rat) < 2 ^ ((n.log2 : Int) + 1) := by
    rw [← Nat.cast_succ, zpow_natCast]
    exact_mod_cast Nat.lt_log2_self
  have hd1 : (2 : Rat) ^ (d.log2 : Int) ≤ d := by
    rw [zpow_natCast]
    exact_mod_cast Nat.log2_self_le hd.ne'
  have hd2 : (d : Rat) < 2 ^ ((d.log2 : Int) + 1) := by
    rw [← Nat.cast_succ, zpow_natCast]
    exact_mod_cast Nat.lt_log2_self
  have hlow : (2 : Rat) ^ ((n.log2 : Int) - d.log2 - 1) ≤ n / d := by
    rw [le_div_iff₀ hd', sub_sub, zpow_sub₀ two_ne_zero, div_mul_eq_mul_div, div_le_iff₀ (by positivity)]
    gcongr
  have hhigh : (n : Rat) / d < 2 ^ ((n.log2 : Int) - d.log2 + 1) := by
    rw [div_lt_iff₀ hd', sub_add_eq_add_sub, zpow_sub₀ two_ne_zero, div_mul_eq_mul_div, lt_div_iff₀ (by positivity)]
    exact mul_lt_mul hn2 hd1 (by positivity) (by positivity)
  simp only [binaryExponent, powerBelow_iff _ n hd]
  split_ifs with hbelow
  · exact ⟨hbelow, hhigh⟩
  · rw [sub_add_cancel]
    exact ⟨hlow, lt_of_not_ge hbelow⟩

/-- The bits of a magnitude `x` are `k * 2^23 + m` where `m` is `x` rounded on the grid of spacing `2^(k-149)`: the finest grid,
or one on which `x` has 24 bits. -/
structure IsRounded (x : Rat) (k m : Nat) : Prop where
  normal : k = 0 ∨ 2 ^ 23 ≤ x / 2 ^ ((k : Int) - 149)
  below : x / 2 ^ ((k : Int) - 149) < 2 ^ 24
  nearest : IsNearestEven (x / 2 ^ ((k : Int) - 149)) m

theorem magnitudeBits_spec {n d : Nat} (hn : 0 < n) (hd : 0 < d) :
    ∃ k m, magnitudeBits n d = min 0x7F800000 (k * 2 ^ 23 + m) ∧ IsRounded (n / d) k m := by
  obtain ⟨hlow, hhigh⟩ := binaryExponent_spec hn hd
  obtain ⟨e, he⟩ : ∃ e, e = max (-126) (binaryExponent n d) := ⟨_, rfl⟩
  have hulp : (0 : Rat) < 2 ^ (e - 23) := by positivity
  have hk : (((e + 126).toNat : Nat) : Int) - 149 = e - 23 := by omega
  have hscaled : ((n * 2 ^ (23 - e).toNat : Nat) : Rat) / (d * 2 ^ (-(23 - e)).toNat : Nat) = n / d / 2 ^ (e - 23) := by
    rw [scaled_quotient, ← neg_sub e 23, zpow_neg, div_eq_mul_inv (n / d : Rat)]
  refine ⟨(e + 126).toNat, _, by rw [magnitudeBits, ← he], ?_, ?_, ?_⟩
  · rw [hk, le_div_iff₀ hulp, ← zpow_natCast, ← zpow_add₀ two_ne_zero]
    rcases le_total (binaryExponent n d) (-126) with hsub | hnormal
    · exact .inl (by omega)
    · refine .inr (le_trans (le_of_eq ?_) hlow)
      congr 1
      omega
  · rw [hk, div_lt_iff₀ hulp, ← zpow_natCast, ← zpow_add₀ two_ne_zero]
    refine hhigh.trans_le (zpow_le_zpow_right₀ one_le_two ?_)
    omega
  · rw [hk, ← hscaled]
    exact roundHalfEven_isNearestEven _ (by positivity)

section Rounded

variable {x : Rat} {k m : Nat}

/-- Rounding keeps within the 24 bits, and up to 2^24. -/
theorem IsRounded.significand (h : IsRounded x k m) : (k = 0 ∨ 2 ^ 23 ≤ m) ∧ m ≤ 2 ^ 24 := by
  obtain ⟨hnormal, hbelow, hhalf, -⟩ := h
  obtain ⟨hlow, hhigh⟩ := abs_le.mp hhalf
  constructor
  · refine hnormal.imp_right fun hy => ?_
    have : ((2 ^ 23 : Nat) : Rat) < (m + 1 : Nat) := by push_cast; linarith
    exact Nat.le_of_lt_succ (by exact_mod_cast this)
  · have : (m : Rat) < (2 ^ 24 + 1 : Nat) := by push_cast; linarith
    exact Nat.le_of_lt_succ (by exact_mod_cast this)

theorem IsRounded.value (h : IsRounded x k m) : fieldsValue (k * 2 ^ 23 + m) = m * 2 ^ ((k : Int) - 149) :=
  fieldsValue_significand h.significand.1 h.significand.2

/-- Distances on a grid are those of the scaled numbers. -/
theorem abs_sub_grid (x : Rat) {u : Rat} (hu : 0 < u) (j : Rat) : |x - j * u| = |x / u - j| * u := by
  rw [← abs_of_pos hu, ← abs_mul, abs_of_pos hu, sub_mul, div_mul_cancel₀ _ hu.ne']

/-- No pattern is nearer to `x` than its rounding, and one with another value is equally near only if the rounding is even. -/
theorem IsRounded.nearest_fields (h : IsRounded x k m) (b : Nat) :
    |x - fieldsValue (k * 2 ^ 23 + m)| ≤ |x - fieldsValue b|
      ∧ (|x - fieldsValue (k * 2 ^ 23 + m)| = |x - fieldsValue b| → fieldsValue b ≠ fieldsValue (k * 2 ^ 23 + m) →
        (k * 2 ^ 23 + m) % 2 = 0) := by
  have hulp : (0 : Rat) < 2 ^ ((k : Int) - 149) := by positivity
  rw [h.value]
  by_cases hgrid : k = 0 ∨ (k + 1) * 2 ^ 23 ≤ b
  · obtain ⟨j, hj⟩ := fieldsValue_on_grid hgrid
    obtain ⟨hle, htie⟩ := h.nearest.nearest j
    rw [hj, abs_sub_grid x hulp, abs_sub_grid x hulp]
    refine ⟨by gcongr, fun heq hne => ?_⟩
    have hjm : j ≠ m := fun hjm => hne (by rw [hjm])
    have heven := htie (mul_right_cancel₀ hulp.ne' heq) hjm
    omega
  · push Not at hgrid
    obtain ⟨hk, hb⟩ := hgrid
    have hsmall : fieldsValue b < (2 ^ 23 : Nat) * 2 ^ ((k : Int) - 149) := by
      rw [← fieldsValue_significand (.inr le_rfl) (by norm_num)]
      exact fieldsValue_strictMono (by omega)
    have hlarge : ((2 ^ 23 : Nat) : Rat) * 2 ^ ((k : Int) - 149) ≤ x := by
      rw [← le_div_iff₀ hulp]
      exact_mod_cast h.normal.resolve_left hk
    have hedge := (h.nearest.nearest (2 ^ 23)).1
    have hlt : |x - m * 2 ^ ((k : Int) - 149)| < |x - fieldsValue b| := by
      calc |x - m * 2 ^ ((k : Int) - 149)| ≤ |x - (2 ^ 23 : Nat) * 2 ^ ((k : Int) - 149)| := by
            rw [abs_sub_grid x hulp, abs_sub_grid x hulp]
            gcongr
        _ = x - (2 ^ 23 : Nat) * 2 ^ ((k : Int) - 149) := abs_of_nonneg (by linarith)
        _ < x - fieldsValue b := by linarith
        _ ≤ |x - fieldsValue b| := le_abs_self _
    exact ⟨hlt.le, fun heq => absurd heq hlt.ne⟩

theorem fieldsValue_greatest : fieldsValue 0x7F7FFFFF = 2 ^ 128 - 2 ^ 104 := by
  norm_num [fieldsValue]

theorem fieldsValue_infinity : fieldsValue 0x7F800000 = 2 ^ 128 := by
  norm_num [fieldsValue]

/-- The bound of R36: a magnitude rounds to a finite pattern exactly below the middle between the greatest and 2^128. -/
theorem IsRounded.finite_iff (h : IsRounded x k m) : k * 2 ^ 23 + m < 0x7F800000 ↔ x < 2 ^ 128 - 2 ^ 103 := by
  constructor
  · intro hfinite
    by_contra hover
    push Not at hover
    have hle : fieldsValue (k * 2 ^ 23 + m) ≤ 2 ^ 128 - 2 ^ 104 := by
      rw [← fieldsValue_greatest]
      exact fieldsValue_strictMono.monotone (by omega)
    obtain ⟨hnear, htie⟩ := h.nearest_fields 0x7F800000
    rw [fieldsValue_infinity, abs_of_pos (by linarith)] at hnear htie
    rcases le_or_gt (2 ^ 128) x with hbig | hsmall
    · rw [abs_of_nonneg (by linarith)] at hnear
      linarith
    · rw [abs_of_neg (by linarith)] at hnear htie
      have hodd : k * 2 ^ 23 + m = 0x7F7FFFFF := by
        refine fieldsValue_strictMono.injective ?_
        rw [fieldsValue_greatest]
        linarith
      have heven := htie (by linarith) (by linarith)
      omega
  · intro hx
    by_contra hover
    push Not at hover
    have hge : 2 ^ 128 ≤ fieldsValue (k * 2 ^ 23 + m) := by
      rw [← fieldsValue_infinity]
      exact fieldsValue_strictMono.monotone hover
    obtain ⟨hnear, -⟩ := h.nearest_fields 0x7F7FFFFF
    rw [fieldsValue_greatest, abs_of_neg (by linarith)] at hnear
    rcases le_total (2 ^ 128 - 2 ^ 104) x with hbig | hsmall
    · rw [abs_of_nonneg (by linarith)] at hnear
      linarith
    · rw [abs_of_nonpos (by linarith)] at hnear
      linarith

end Rounded

end Sys2Proof.Machine
end

section
/-! ## The XR registers at the host port (10_state.md R36, R37) -/

namespace Sys2Proof.Machine

variable {s : State}

/-! ### Rounding to the nearest pattern -/

theorem applySign_abs (q : Rat) : applySign (decide (q < 0)) |q| = q := by
  by_cases h : q < 0
  · simp [applySign, h, abs_of_neg]
  · simp [applySign, h, abs_of_nonneg (le_of_not_gt h)]

theorem abs_applySign (b : Bool) (x : Rat) : |applySign b x| = |x| := by
  cases b <;> simp [applySign]

/-- Under one sign numbers are as far apart as their magnitudes. -/
theorem abs_applySign_sub_same (b : Bool) (x y : Rat) : |applySign b x - applySign b y| = |x - y| := by
  cases b
  · rfl
  · rw [← abs_neg (x - y)]
    congr 1
    simp only [applySign, if_true]
    ring

/-- Under opposite signs numbers are as far apart as the sum of their magnitudes. -/
theorem abs_applySign_sub_opposite {a b : Bool} (h : b ≠ a) (x y : Rat) : |applySign a x - applySign b y| = |x + y| := by
  obtain rfl : b = !a := Bool.eq_not.mpr h
  rw [← abs_applySign a (x + y)]
  congr 1
  cases a <;> simp only [applySign, Bool.not_true, Bool.not_false, if_true, Bool.false_eq_true, if_false] <;> ring

/-- What is nearest among magnitudes stays so under the sign of `x`, whatever the sign of the other value; and a value of the
other sign that is equally near is 0. -/
theorem nearest_of_magnitudes {x v u : Rat} (hx : 0 < x) (hu : 0 ≤ u) (a b : Bool) (hnear : |x - v| ≤ |x - u|) :
    |applySign a x - applySign a v| ≤ |applySign a x - applySign b u|
      ∧ (|applySign a x - applySign a v| = |applySign a x - applySign b u| →
        |x - v| = |x - u| ∧ applySign b u = applySign a u) := by
  rw [abs_applySign_sub_same a x v]
  by_cases hab : b = a
  · subst hab
    rw [abs_applySign_sub_same b x u]
    exact ⟨hnear, fun heq => ⟨heq, rfl⟩⟩
  have hle : |x - u| ≤ x + u := abs_sub_le_iff.mpr ⟨by linarith, by linarith⟩
  rw [abs_applySign_sub_opposite hab, abs_of_nonneg (show 0 ≤ x + u by linarith)]
  refine ⟨hnear.trans hle, fun heq => ?_⟩
  have htie : |x - u| = x + u := le_antisymm hle (heq ▸ hnear)
  have hzero : u = 0 := by
    rcases abs_choice (x - u) with h | h <;> linarith
  subst hzero
  exact ⟨by rw [heq, htie], by simp [applySign]⟩

/-- The rounding of a rational other than 0: the sign, and the rounded magnitude up to the bits of infinity. -/
theorem rnd32_toNat {q : Rat} (hq : q ≠ 0) : ∃ k m, IsRounded |q| k m
    ∧ (rnd32 (.val q)).toNat = (if q < 0 then 2 ^ 31 else 0) + min 0x7F800000 (k * 2 ^ 23 + m) := by
  obtain ⟨k, m, hbits, hround⟩ := magnitudeBits_spec (Int.natAbs_pos.mpr (Rat.num_ne_zero.mpr hq)) q.den_pos
  refine ⟨k, m, ?_, ?_⟩
  · rwa [← Rat.num_div_den q, abs_div, Nat.abs_cast, ← Int.cast_abs, ← Nat.cast_natAbs]
  · rw [rnd32, if_neg hq, hbits, BitVec.toNat_ofNat]
    split_ifs <;> omega

theorem rnd32_overflow {q : Rat} (hq : q ≠ 0) (h : 2 ^ 128 - 2 ^ 103 ≤ |q|) :
    rnd32 (.val q) = if q < 0 then 0xFF800000 else 0x7F800000 := by
  obtain ⟨k, m, hround, hword⟩ := rnd32_toNat hq
  have hbits : ¬ k * 2 ^ 23 + m < 0x7F800000 := fun hlt => absurd (hround.finite_iff.mp hlt) (not_lt.mpr h)
  apply BitVec.eq_of_toNat_eq
  rw [hword, min_eq_left (not_lt.mp hbits)]
  split_ifs <;> rfl

/-- Below the bound the rounding is a finite pattern of the rational's sign, with the rounded magnitude's bits. -/
theorem rnd32_finite {q : Rat} (hq : q ≠ 0) (h : |q| < 2 ^ 128 - 2 ^ 103) :
    finitePattern (rnd32 (.val q)) ∧ (rnd32 (.val q)).getLsbD 31 = decide (q < 0)
      ∧ ∃ k m, IsRounded |q| k m ∧ (rnd32 (.val q)).toNat % 2 ^ 31 = k * 2 ^ 23 + m := by
  obtain ⟨k, m, hround, hword⟩ := rnd32_toNat hq
  have hbits := hround.finite_iff.mpr h
  rw [min_eq_right hbits.le] at hword
  have hlow : (rnd32 (.val q)).toNat % 2 ^ 31 = k * 2 ^ 23 + m := by
    rw [hword]
    split_ifs <;> omega
  refine ⟨(finitePattern_iff _).mpr (hlow ▸ hbits), ?_, k, m, hround, hlow⟩
  rw [signBit_eq, decide_eq_decide, hword]
  split_ifs with hneg
  · exact ⟨fun _ => hneg, fun _ => by omega⟩
  · exact ⟨fun hle => by omega, fun hlt => absurd hlt hneg⟩

/-- The rounding is a nearest pattern, with bit 0 clear where another value is equally near. -/
theorem rnd32_nearest {q : Rat} (hq : q ≠ 0) (h : |q| < 2 ^ 128 - 2 ^ 103) (p : Word) :
    |q - patternValue (rnd32 (.val q))| ≤ |q - patternValue p|
      ∧ (|q - patternValue (rnd32 (.val q))| = |q - patternValue p| →
        patternValue p ≠ patternValue (rnd32 (.val q)) → (rnd32 (.val q)).getLsbD 0 = false) := by
  obtain ⟨-, hsign, k, m, hround, hlow⟩ := rnd32_finite hq h
  have hvalue : patternValue (rnd32 (.val q)) = applySign (decide (q < 0)) (fieldsValue (k * 2 ^ 23 + m)) := by
    rw [patternValue_eq, hsign, hlow]
  obtain ⟨hnear, heven⟩ := hround.nearest_fields (p.toNat % 2 ^ 31)
  obtain ⟨hle, htie⟩ := nearest_of_magnitudes (abs_pos.mpr hq) (fieldsValue_nonneg (p.toNat % 2 ^ 31)) (decide (q < 0))
    (p.getLsbD 31) hnear
  rw [applySign_abs, ← hvalue, ← patternValue_eq] at hle htie
  refine ⟨hle, fun heq hne => ?_⟩
  obtain ⟨hmagnitudes, hsigns⟩ := htie heq
  have hbits := heven hmagnitudes fun hsame => hne (by rw [hsigns, hsame, hvalue])
  refine getLsbD_eq_of_toNat ?_
  simp only [Bool.toNat_false]
  omega

/-- Settles O20: the magnitude is rounded on the grid of its exponent, no pattern off the grid is nearer, and the sign takes no
part. -/
theorem roundingIsNearestTiesToEven : Obligations.RoundingIsNearestTiesToEven := by
  refine ⟨fun s => ⟨rfl, rfl, rfl, rfl, rfl, rfl⟩, rfl, rfl, fun q hq => ⟨rnd32_overflow hq, fun h => ?_⟩⟩
  obtain ⟨hfinite, hsign, -⟩ := rnd32_finite hq h
  exact ⟨hfinite, hsign, fun p _ => rnd32_nearest hq h p⟩

/-! ### Writes to RESISTANCE -/

/-- The value of the fields over the one denominator 2^150. -/
theorem fieldsValue_eq_div (b : Nat) :
    fieldsValue b = ((if b / 2 ^ 23 = 0 then 2 * (b % 2 ^ 23) else (2 ^ 23 + b % 2 ^ 23) * 2 ^ (b / 2 ^ 23) : Nat) : Rat)
      / ((2 ^ 150 : Nat) : Rat) := by
  unfold fieldsValue
  split_ifs with h
  · push_cast
    norm_num
    ring
  · rw [zpow_sub₀ two_ne_zero, zpow_natCast]
    push_cast
    norm_num
    ring

theorem exactValue_of_finite {w : Word} (h : finitePattern w) : exactValue w = .val (patternValue w) := by
  rw [finitePattern_iff] at h
  have hexponent : w.toNat / 2 ^ 23 % 256 = w.toNat % 2 ^ 31 / 2 ^ 23 := by omega
  have hfraction : w.toNat % 2 ^ 23 = w.toNat % 2 ^ 31 % 2 ^ 23 := by omega
  have hfield : w.toNat % 2 ^ 31 / 2 ^ 23 ≠ 255 := by omega
  simp only [exactValue, hexponent, hfraction, if_neg hfield]
  rw [← fieldsValue_eq_div, patternValue_eq, applySign]

theorem exactValue_of_not_finite {w : Word} (h : ¬ finitePattern w) : exactValue w = .nan := by
  rw [finitePattern_iff] at h
  have hexponent : w.toNat / 2 ^ 23 % 256 = 255 := by omega
  simp only [exactValue, hexponent, if_true]

theorem abs_patternValue (w : Word) : |patternValue w| = fieldsValue (w.toNat % 2 ^ 31) := by
  rw [patternValue_eq, abs_applySign, abs_of_nonneg (fieldsValue_nonneg _)]

/-- The greatest finite value is below the bound of infinity (R36). -/
theorem abs_patternValue_lt {w : Word} (h : finitePattern w) : |patternValue w| < 2 ^ 128 - 2 ^ 103 := by
  rw [finitePattern_iff] at h
  rw [abs_patternValue]
  calc fieldsValue (w.toNat % 2 ^ 31) ≤ fieldsValue 0x7F7FFFFF := fieldsValue_strictMono.monotone (by omega)
    _ < 2 ^ 128 - 2 ^ 103 := by
      rw [fieldsValue_greatest]
      norm_num

/-- A pattern is its sign and its fields. -/
theorem pattern_ext {v w : Word} (hsign : v.getLsbD 31 = w.getLsbD 31) (hfields : v.toNat % 2 ^ 31 = w.toNat % 2 ^ 31) :
    v = w := by
  rw [signBit_eq, signBit_eq, decide_eq_decide] at hsign
  have hv := v.isLt
  have hw := w.isLt
  apply BitVec.eq_of_toNat_eq
  omega

theorem patternValue_neg_iff {w : Word} (h : patternValue w ≠ 0) : patternValue w < 0 ↔ w.getLsbD 31 = true := by
  have hpos : 0 < fieldsValue (w.toNat % 2 ^ 31) := by
    rw [← abs_patternValue]
    exact abs_pos.mpr h
  rw [patternValue_eq]
  cases w.getLsbD 31
  · exact ⟨fun hneg => absurd hneg (not_lt.mpr hpos.le), fun hfalse => absurd hfalse Bool.false_ne_true⟩
  · exact ⟨fun _ => rfl, fun _ => neg_lt_zero.mpr hpos⟩

/-- The only patterns of value 0 are the two zeros. -/
theorem eq_zero_of_patternValue {w : Word} (h : patternValue w = 0) (hw : w ≠ 0x80000000) : w = 0 := by
  have hfields : w.toNat % 2 ^ 31 = 0 := by
    refine fieldsValue_strictMono.injective ?_
    rw [← abs_patternValue, h, abs_zero, fieldsValue_zero]
  cases hsign : w.getLsbD 31 with
  | false => exact pattern_ext hsign hfields
  | true => exact absurd (pattern_ext hsign hfields) hw

/-- Every finite pattern but negative zero is the rounding of its value. -/
theorem rnd32_patternValue {w : Word} (h : finitePattern w) (hw : w ≠ 0x80000000) : rnd32 (.val (patternValue w)) = w := by
  by_cases hzero : patternValue w = 0
  · rw [hzero, eq_zero_of_patternValue hzero hw]
    rfl
  have hbound := abs_patternValue_lt h
  obtain ⟨-, hsign, -⟩ := rnd32_finite hzero hbound
  obtain ⟨hnear, -⟩ := rnd32_nearest hzero hbound w
  rw [sub_self, abs_zero] at hnear
  have hvalue : patternValue (rnd32 (.val (patternValue w))) = patternValue w :=
    (sub_eq_zero.mp (abs_nonpos_iff.mp hnear)).symm
  refine pattern_ext ?_ (fieldsValue_strictMono.injective ?_)
  · rw [hsign]
    simp only [patternValue_neg_iff hzero, Bool.decide_eq_true]
  · rw [← abs_patternValue, ← abs_patternValue, hvalue]

/-- A read of a register of an idle block. -/
theorem hostReadValue_register (hidle : s.busy = false) {n : Nat} (hn : n < 34) :
    s.hostReadValue (BitVec.ofNat 32 (4 * n)) .w32 = s.readRegister n :=
  hostReadValue_of_target (target_register hn) hidle

/-- Settles O19: the stored value is the pattern's, and a finite pattern is nearest to its own value. -/
theorem resistanceWritesStoreExactly : Obligations.ResistanceWritesStoreExactly := by
  intro s w hidle
  have hwrite : ∀ v : Word, s.hostWrite 0x60 .w32 v = { s with resistance := exactValue v } :=
    hostWrite_register hidle (n := 24) (by norm_num)
  refine ⟨fun h => ?_, fun h => ?_, ?_, fun n hn => ?_, fun h hw => ?_⟩
  · rw [hwrite, exactValue_of_finite h]
  · rw [hwrite, exactValue_of_not_finite h]
  · rw [hwrite, exactValue_of_finite (by unfold finitePattern; decide), patternValue_eq]
    simp [fieldsValue, applySign]
  · simp only [List.mem_cons, List.not_mem_nil, or_false] at hn
    rw [hostWrite_register hidle (by omega)]
    rcases hn with rfl | rfl | rfl | rfl | rfl <;> rfl
  · rw [hwrite, exactValue_of_finite h]
    have hread := hostReadValue_register (s := { s with resistance := .val (patternValue w) }) hidle
      (by norm_num : 24 < 34)
    exact hread.trans (rnd32_patternValue h hw)

end Sys2Proof.Machine
end

section
/-! ## Every step keeps the canonical form of the written bytes (20_memory.md R82, R83) -/

namespace Sys2Proof.Machine

variable {s t : State} {i : Instr}

theorem memoryOk_of_mem (hs : s.memoryOk) (hmem : t.mem = s.mem) : t.memoryOk := by
  rwa [State.memoryOk, hmem]

/-- A faulted command writes no byte and may forget the bytes of EVT and FRM (60_exceptions.md R313). -/
theorem Faulted.memoryOk (h : Faulted s t) (hs : s.memoryOk) : t.memoryOk := by
  cases h with
  | early c => exact hs
  | late c => exact State.raiseLateFault_memoryOk hs c
  | capture => exact State.raiseLateFault_memoryOk hs .captureFailure

/-- The events of a buffer that fits IBUF are written inside EVT. -/
theorem putSamples_extractEvents_memoryOk (hs : s.memoryOk) {buf : List Int} (hfits : buf.length ≤ Config.ibufMax) :
    (s.putSamples (extractEvents buf)).memoryOk :=
  State.putSamples_memoryOk hs (extractEvents_length_lt hfits).le

/-- The frames of an event list are written inside FRM where they fit it. -/
theorem putFrames_framesOf_memoryOk (hs : s.memoryOk) {events : List Sample}
    (hfits : (framesOf events).length ≤ Config.frmMax) : (s.putFrames (framesOf events)).memoryOk :=
  State.putFrames_memoryOk hs (framesOf_length_eight events) hfits

/-- DECODE writes its events inside EVT and its frames inside FRM. -/
theorem synchronized_memoryOk (hs : s.memoryOk) (hfits : s.ilen.toNat ≤ Config.ibufMax) :
    s.counted.synchronized.memoryOk := by
  have hbuffer : s.counted.buffer.length ≤ Config.ibufMax := by rwa [s.counted_buffer, State.buffer_length]
  have hcounted : s.counted.memoryOk := hs
  have hevents := putSamples_extractEvents_memoryOk hcounted hbuffer
  exact memoryOk_of_mem (putFrames_framesOf_memoryOk hevents (framesOf_le_frmMax hbuffer)) s.counted.synchronized_mem

/-- A command that runs to its end writes bytes only inside the memory of the list it stores. -/
theorem Finished.memoryOk (h : Finished s i t) (hs : s.memoryOk) : t.memoryOk := by
  cases h with
  | output _ hfits => exact State.putOutput_memoryOk hs hfits
  | extract hfits => exact putSamples_extractEvents_memoryOk hs (by rwa [State.buffer_length])
  | fsync hfits => exact putFrames_framesOf_memoryOk (s := s.clearXi) hs hfits
  | decodeNoFrames _ hfits | decodeSucceeds _ hfits => exact synchronized_memoryOk hs hfits
  | sdecodeNoExtrema _ a z hleft hright | sdecodeSucceeds _ a z _ _ hleft hright =>
    have htrimmed : (s.clearScratch.putTrim a z).memoryOk := hs
    exact putSamples_extractEvents_memoryOk (putSamples_extractEvents_memoryOk htrimmed hleft) hright
  | _ => exact hs

theorem exec_memoryOk (hs : s.memoryOk) (h : exec i s = .next t) : t.memoryOk := by
  rcases exec_cases h with hfault | hend
  · exact hfault.memoryOk hs
  · exact hend.memoryOk hs

theorem issue_memoryOk (hs : s.memoryOk) (w : Word) : (s.issue w).memoryOk := by
  rcases issue_cases s w with ⟨-, hsame⟩ | ⟨-, -, haccept⟩ | ⟨-, -, hillegal⟩
  · rwa [hsame]
  · rw [haccept]
    exact hs
  · rw [hillegal]
    exact hs

theorem writeRegister_memoryOk (hs : s.memoryOk) (n : Nat) (w : Word) : (s.writeRegister n w).memoryOk := by
  unfold State.writeRegister
  split
  · exact issue_memoryOk hs w
  · split
    · exact State.softReset_memoryOk hs
    · exact hs
  all_goals exact hs

/-- A legal write reaches a register or bytes inside IBUF (20_memory.md R85, R89). -/
theorem writeTarget_memoryOk (hs : s.memoryOk) {a : Nat} {width : Width} {x : Target} (hx : target a width = some x)
    (data : Word) : (s.writeTarget x data).memoryOk := by
  cases x with
  | reg n => exact writeRegister_memoryOk hs n data
  | ibuf j => exact State.putBytes_memoryOk hs ⟨Nat.le_add_right _ _, target_ibuf_bound hx⟩
  | ibufPair j => exact State.putBytes_memoryOk hs ⟨Nat.le_add_right _ _, target_ibufPair_bound hx⟩
  | obuf | obufPair | evt | frm | xi => exact hs

theorem hostAccess_memoryOk (hs : s.memoryOk) (a : Access) : (s.hostAccess a).memoryOk := by
  cases a with
  | read addr width => exact hs
  | write addr width data =>
    simp only [State.hostAccess]
    rcases hostWrite_cases s addr width data with ⟨-, hsame⟩ | ⟨x, hx, ⟨-, -, hhaz⟩ | ⟨-, hwrite⟩⟩
    · rwa [hsame]
    · rw [hhaz]
      exact hs
    · rw [hwrite]
      exact writeTarget_memoryOk hs hx data

theorem completion_memoryOk (hs : s.memoryOk) (h : completion s = .next t) : t.memoryOk := by
  rcases completion_cases h with ⟨-, rfl⟩ | ⟨i, -, -, hexec⟩ | ⟨-, -, rfl⟩
  · exact hs
  · exact exec_memoryOk hs hexec
  · exact hs

/-- Settles O57: whatever a host access or a command writes lies inside one of the four memories, and a reset only takes bytes
out. -/
theorem stepKeepsMemoryForm : Obligations.StepKeepsMemoryForm := by
  intro s t hs h
  have htaken : s.taken.memoryOk := hs
  rcases step_cases h with ⟨a, -, -, rfl⟩ | ⟨-, -, rfl⟩ | ⟨-, hcompletion⟩
  · exact hostAccess_memoryOk htaken a
  · exact State.hardwareReset_memoryOk s.taken
  · exact completion_memoryOk htaken hcompletion

end Sys2Proof.Machine
end

section
/-! ## The byte address map (20_memory.md R82, R83, R85) -/

namespace Sys2Proof.Machine

variable {s : State} {a : Nat} {width : Width} {x : Target}

/-- The bounds of the six spaces as numbers (20_memory.md R82). -/
theorem address_map : 4 * Config.regCount = 0x88
    ∧ Config.ibufBase = 0x00010000 ∧ Config.ibufEnd = 0x00020000 ∧ Config.obufBase = 0x00040000
    ∧ Config.obufEnd = 0x00060000 ∧ Config.evtBase = 0x00100000 ∧ Config.evtEnd = 0x00200000
    ∧ Config.frmBase = 0x00200000 ∧ Config.frmEnd = 0x00204000 ∧ Config.xiBase = 0x00210000
    ∧ Config.xiEnd = 0x00210400 := by decide

/-! ### The legal accesses -/

/-- The legal 16-bit accesses are the aligned ones to IBUF and OBUF. -/
theorem target_w16_ne_none_iff : target a .w16 ≠ none ↔
    a % 2 = 0 ∧ (0x00010000 ≤ a ∧ a < 0x00020000 ∨ 0x00040000 ≤ a ∧ a < 0x00060000) := by
  simp only [target, address_map]
  split_ifs <;> simp <;> omega

/-- The legal 32-bit accesses are the aligned ones to the six spaces. -/
theorem target_w32_ne_none_iff : target a .w32 ≠ none ↔
    a % 4 = 0
      ∧ (a < 0x88 ∨ 0x00010000 ≤ a ∧ a < 0x00020000 ∨ 0x00040000 ≤ a ∧ a < 0x00060000
        ∨ 0x00100000 ≤ a ∧ a < 0x00200000 ∨ 0x00200000 ≤ a ∧ a < 0x00204000 ∨ 0x00210000 ≤ a ∧ a < 0x00210400) := by
  simp only [target, address_map]
  split_ifs <;> simp <;> omega

/-- Every legal access is below 2^32, so a word holds its address. -/
theorem toNat_ofNat_of_target (h : target a width = some x) : (BitVec.ofNat 32 a).toNat = a := by
  have hlegal : target a width ≠ none := by simp [h]
  have hbound : a < 0x00210400 := by
    cases width with
    | w8 => exact absurd rfl hlegal
    | w16 =>
      rw [target_w16_ne_none_iff] at hlegal
      omega
    | w32 =>
      rw [target_w32_ne_none_iff] at hlegal
      omega
  rw [BitVec.toNat_ofNat]
  omega

/-- A read of an idle block at the address of a target. -/
theorem hostReadValue_at (h : target a width = some x) (hidle : s.busy = false) :
    s.hostReadValue (BitVec.ofNat 32 a) width = s.readTarget x :=
  hostReadValue_of_target (by rwa [toNat_ofNat_of_target h]) hidle

/-- A write to an idle block at the address of a target. -/
theorem hostWrite_at (h : target a width = some x) (hidle : s.busy = false) (data : Word) :
    s.hostWrite (BitVec.ofNat 32 a) width data = s.writeTarget x data := by
  simp only [State.hostWrite, toNat_ofNat_of_target h, h, hidle, Bool.false_and, Bool.false_eq_true, if_false]

/-! ### The address of every element -/

theorem target_reg {n : Nat} (hn : n < 34) : target (4 * n) .w32 = some (.reg n) := by
  simpa only [BitVec.toNat_ofNat, Nat.mod_eq_of_lt (show 4 * n < 2 ^ 32 by omega)] using target_register hn

theorem target_ibuf {i : Nat} (hi : i < 32768) : target (0x00010000 + 2 * i) .w16 = some (.ibuf i) := by
  simp only [target, address_map]
  rw [if_neg (by omega), if_pos (by omega)]
  congr 2
  omega

theorem target_obuf {i : Nat} (hi : i < 65536) : target (0x00040000 + 2 * i) .w16 = some (.obuf i) := by
  simp only [target, address_map]
  rw [if_neg (by omega), if_neg (by omega), if_pos (by omega)]
  congr 2
  omega

theorem target_ibufPair {k : Nat} (hk : k < 16384) : target (0x00010000 + 4 * k) .w32 = some (.ibufPair (2 * k)) := by
  simp only [target, address_map]
  rw [if_neg (by omega), if_neg (by omega), if_pos (by omega)]
  congr 2
  omega

theorem target_obufPair {k : Nat} (hk : k < 32768) : target (0x00040000 + 4 * k) .w32 = some (.obufPair (2 * k)) := by
  simp only [target, address_map]
  rw [if_neg (by omega), if_neg (by omega), if_neg (by omega), if_pos (by omega)]
  congr 2
  omega

theorem target_evt {p j : Nat} (hp : p < 65536) (hj : j < 4) :
    target (0x00100000 + 16 * p + 4 * j) .w32 = some (.evt p j) := by
  simp only [target, address_map]
  rw [if_neg (by omega), if_neg (by omega), if_neg (by omega), if_neg (by omega), if_pos (by omega)]
  congr 2 <;> omega

theorem target_frm {f j : Nat} (hf : f < 256) (hj : j < 16) :
    target (0x00200000 + 64 * f + 4 * j) .w32 = some (.frm f j) := by
  simp only [target, address_map]
  rw [if_neg (by omega), if_neg (by omega), if_neg (by omega), if_neg (by omega), if_neg (by omega), if_pos (by omega)]
  congr 2 <;> omega

theorem target_xi {f : Nat} (hf : f < 256) : target (0x00210000 + 4 * f) .w32 = some (.xi f) := by
  simp only [target, address_map]
  rw [if_neg (by omega), if_neg (by omega), if_neg (by omega), if_neg (by omega), if_neg (by omega), if_neg (by omega),
    if_pos (by omega)]
  congr 2
  omega

/-! ### What the host reads at a pair of elements -/

/-- A 32-bit read of IBUF carries the element of lower index in its low half (R85). -/
theorem hostReadValue_ibufPair (hidle : s.busy = false) {k : Nat} (hk : k < 16384) (hvalid : 2 * k + 1 < s.ilen.toNat) :
    s.hostReadValue (BitVec.ofNat 32 (0x00010000 + 4 * k)) .w32 = s.ibufHalf (2 * k + 1) ++ s.ibufHalf (2 * k) := by
  rw [hostReadValue_at (target_ibufPair hk) hidle, State.readTarget, ibufRead_of_lt hvalid, ibufRead_of_lt (by omega)]

/-- A 32-bit read of OBUF carries the element of lower index in its low half (R85). -/
theorem hostReadValue_obufPair (hidle : s.busy = false) {k : Nat} (hk : k < 32768) (hvalid : 2 * k + 1 < s.olen.toNat) :
    s.hostReadValue (BitVec.ofNat 32 (0x00040000 + 4 * k)) .w32 = s.obufHalf (2 * k + 1) ++ s.obufHalf (2 * k) := by
  rw [hostReadValue_at (target_obufPair hk) hidle, State.readTarget, obufRead_of_lt hvalid, obufRead_of_lt (by omega)]

/-- Settles O14: the legal accesses by their width, and what a pair of valid elements reads as. -/
theorem legalAccesses : Obligations.LegalAccesses := by
  refine ⟨fun a width => ?_, fun s k hidle => ⟨fun hvalid hk => hostReadValue_ibufPair hidle hk hvalid,
    fun hvalid hk => hostReadValue_obufPair hidle hk hvalid⟩⟩
  cases width with
  | w8 => simp [target]
  | w16 => simpa using target_w16_ne_none_iff (a := a)
  | w32 => simpa using target_w32_ne_none_iff (a := a)

/-! ### What the host reads at every element -/

/-- The registers of an idle block in the order of the table (10_state.md R31). -/
theorem readRegisters_eq (s : State) : (List.range 34).map s.readRegister =
    [s.cmd, s.statusWord, 0, s.ilen, s.olen, s.ncells, s.ppcell, s.syncidx, s.freq, s.refvol, s.maxvol, s.minvol, s.dur,
      s.tonevol, s.ecnt, s.fcnt, s.synccnt, s.fstart, s.fend, s.clipcnt, rnd32 s.slope, rnd32 s.intercept, rnd32 s.xmed,
      rnd32 s.cancamp, rnd32 s.resistance, rnd32 s.temperature, s.nframes, BitVec.ofNat 32 s.error.number, s.silence,
      s.tonelvl, s.leftamp, s.rightamp, s.trimstart, s.trimend] := rfl

/-- The low half of a 16-bit element's read is the element. -/
theorem extractLsb'_setWidth_half (h : Half) : (h.setWidth 32).extractLsb' 0 16 = h := by
  rw [BitVec.extractLsb'_setWidth_of_le (by norm_num), BitVec.extractLsb'_eq_self]

theorem hostReadValue_ibuf (hidle : s.busy = false) {i : Nat} (hi : i < 32768) (hvalid : i < s.ilen.toNat) :
    s.hostReadValue (BitVec.ofNat 32 (0x00010000 + 2 * i)) .w16 = (s.ibufHalf i).setWidth 32 := by
  rw [hostReadValue_at (target_ibuf hi) hidle, State.readTarget, ibufRead_of_lt hvalid]

theorem hostReadValue_obuf (hidle : s.busy = false) {i : Nat} (hi : i < 65536) (hvalid : i < s.olen.toNat) :
    s.hostReadValue (BitVec.ofNat 32 (0x00040000 + 2 * i)) .w16 = (s.obufHalf i).setWidth 32 := by
  rw [hostReadValue_at (target_obuf hi) hidle, State.readTarget, obufRead_of_lt hvalid]

theorem hostReadValue_evt (hidle : s.busy = false) {p : Nat} (hp : p < 65536) (hvalid : p < s.ecnt.toNat) (j : Nat)
    (hj : j < 4) : s.hostReadValue (BitVec.ofNat 32 (0x00100000 + 16 * p + 4 * j)) .w32 = s.evtWord p j := by
  rw [hostReadValue_at (target_evt hp hj) hidle, readTarget_evt_of_lt hvalid]

theorem hostReadValue_frm (hidle : s.busy = false) {f : Nat} (hf : f < 256) (hvalid : f < s.fcnt.toNat) {j : Nat}
    (hj : j < 16) : s.hostReadValue (BitVec.ofNat 32 (0x00200000 + 64 * f + 4 * j)) .w32 = s.frmWord f j := by
  rw [hostReadValue_at (target_frm hf hj) hidle, readTarget_frm_of_lt hvalid]

/-- A valid event is the record below ECNT at its index. -/
theorem getElem?_samples {p : Nat} {e : Sample} (h : s.samples[p]? = some e) : p < s.ecnt.toNat ∧ s.sampleAt p = e := by
  obtain ⟨hp, he⟩ := List.getElem?_eq_some_iff.mp h
  simp only [State.samples, List.length_map, List.length_range] at hp
  simp only [State.samples, List.getElem_map, List.getElem_range] at he
  exact ⟨hp, he⟩

/-- A cell of a frame is one of its eight records. -/
theorem getElem?_frameAt {f c : Nat} {cell : CalCell} (h : (s.frameAt f)[c]? = some cell) : c < 8 ∧ s.cellAt f c = cell := by
  obtain ⟨hc, he⟩ := List.getElem?_eq_some_iff.mp h
  simp only [State.frameAt, List.length_map, List.length_range, Config.numberOfCells] at hc
  simp only [State.frameAt, List.getElem_map, List.getElem_range] at he
  exact ⟨by omega, he⟩

/-- The kinds by the words they are stored as (R42; a word above 1 is a Min, log 14). -/
theorem sampleKind_ofWord_iff (w : Word) : (w = 0 ↔ SampleKind.ofWord w = .zero) ∧ (w = 1 ↔ SampleKind.ofWord w = .max)
    ∧ (w = 2 → SampleKind.ofWord w = .min) := by
  unfold SampleKind.ofWord
  split_ifs with hzero hone
  · simp [hzero]
  · simp [hone]
  · simpa using And.intro hzero hone

/-- Settles O15: each address is that of its target, and the host reads there what the memory, the register or XI holds. -/
theorem elementAddresses : Obligations.ElementAddresses := by
  refine ⟨fun n => target_reg, fun i => target_ibuf, fun i => target_obuf, fun p j => target_evt, fun f j => target_frm,
    fun f => target_xi, fun s hidle => ⟨?registers, fun i hi hvalid => ?input, fun i hi hvalid => ?output,
      fun p e hp hevent => ?events, fun f c cell hf hvalid hcell => ?frames, fun f hf => ?xi⟩⟩
  case registers =>
    have hreads : (List.range 34).map (fun n => s.hostReadValue (BitVec.ofNat 32 (4 * n)) .w32)
        = (List.range 34).map s.readRegister :=
      List.map_congr_left fun n hn => hostReadValue_register hidle (List.mem_range.mp hn)
    rw [hreads, readRegisters_eq]
    cases s.error <;> rfl
  case input => rw [hostReadValue_ibuf hidle hi hvalid, extractLsb'_setWidth_half, State.ibufSample]
  case output => rw [hostReadValue_obuf hidle hi hvalid, extractLsb'_setWidth_half, State.obufSample]
  case events =>
    obtain ⟨hvalid, rfl⟩ := getElem?_samples hevent
    have hread := hostReadValue_evt hidle hp hvalid
    refine ⟨congrArg BitVec.toInt (hread 0 (by norm_num)), congrArg BitVec.toNat (hread 1 (by norm_num)),
      congrArg BitVec.toNat (hread 2 (by norm_num)), fun k hk => ?_⟩
    rw [hk.trans (hread 3 (by norm_num))]
    exact sampleKind_ofWord_iff (s.evtWord p 3)
  case frames =>
    obtain ⟨hc, rfl⟩ := getElem?_frameAt hcell
    have hamplitude := hostReadValue_frm hidle hf hvalid (show 2 * c < 16 by omega)
    have hindex := hostReadValue_frm hidle hf hvalid (show 2 * c + 1 < 16 by omega)
    rw [show 4 * (2 * c) = 8 * c by omega] at hamplitude
    rw [show 4 * (2 * c + 1) = 8 * c + 4 by omega, ← Nat.add_assoc] at hindex
    exact ⟨congrArg BitVec.toInt hamplitude, congrArg BitVec.toNat hindex⟩
  case xi => exact hostReadValue_at (target_xi hf) hidle

end Sys2Proof.Machine
end

section
/-! ## Host accesses that write IBUF, and those that change nothing (20_memory.md R84, R86, R88, R89, R92) -/

namespace Sys2Proof.Machine

variable {s : State} {addr : Word} {width : Width} {x : Target}

/-! ### Bytes written to IBUF -/

theorem putBytes_sameEpochs (s : State) (a : Nat) (bs : List Byte) : s.sameEpochs (s.putBytes a bs) := ⟨rfl, rfl, rfl, rfl⟩

/-- A byte that was just written. -/
theorem State.putBytes_memByte_of_lt (s : State) (a : Nat) {bs : List Byte} {i : Nat} (hi : i < bs.length) :
    (s.putBytes a bs).memByte (a + i) = bs[i] :=
  State.memByte_put_inside (t := s.putBytes a bs) rfl (putBytes_sameEpochs s a bs) hi

/-- Two adjacent bytes of a word are the half that begins at the lower one. -/
theorem bytes_append {w : Nat} (v : BitVec w) (lo : Nat) :
    v.extractLsb' (lo + 8) 8 ++ v.extractLsb' lo 8 = v.extractLsb' lo 16 :=
  BitVec.extractLsb'_append_extractLsb'_eq_extractLsb' rfl

theorem halves_append (w : Word) : w.extractLsb' 16 16 ++ w.extractLsb' 0 16 = w :=
  (BitVec.extractLsb'_append_extractLsb'_eq_extractLsb' rfl).trans BitVec.extractLsb'_eq_self

/-- The bytes of a half that was just written, lowest address first (R84). -/
theorem memByte_putHalf (s : State) (a : Nat) (h : Half) :
    (s.putBytes a (bytesOfHalf h)).memByte a = h.extractLsb' 0 8
      ∧ (s.putBytes a (bytesOfHalf h)).memByte (a + 1) = h.extractLsb' 8 8 :=
  ⟨s.putBytes_memByte_of_lt a (bs := bytesOfHalf h) (i := 0) (by simp),
    s.putBytes_memByte_of_lt a (bs := bytesOfHalf h) (i := 1) (by simp)⟩

/-- A half reads back as it was written. -/
theorem memHalf_putHalf (s : State) (a : Nat) (h : Half) : (s.putBytes a (bytesOfHalf h)).memHalf a = h := by
  obtain ⟨hlow, hhigh⟩ := memByte_putHalf s a h
  rw [State.memHalf, hlow, hhigh, half_of_bytesOfHalf]

/-- The two halves of a word that was just written, the low half at the lower address (R84). -/
theorem memHalf_putWord (s : State) (a : Nat) (w : Word) :
    (s.putBytes a (bytesOfWord w)).memHalf a = w.extractLsb' 0 16
      ∧ (s.putBytes a (bytesOfWord w)).memHalf (a + 2) = w.extractLsb' 16 16 := by
  have hbyte (i : Nat) (hi : i < 4) : (s.putBytes a (bytesOfWord w)).memByte (a + i) = w.extractLsb' (8 * i) 8 := by
    rw [s.putBytes_memByte_of_lt a hi]
    interval_cases i <;> rfl
  exact ⟨(congrArg₂ (· ++ ·) (hbyte 1 (by norm_num)) (hbyte 0 (by norm_num))).trans (bytes_append w 0),
    (congrArg₂ (· ++ ·) (hbyte 3 (by norm_num)) (hbyte 2 (by norm_num))).trans (bytes_append w 16)⟩

theorem putBytes_keepsBytesOutside (s : State) (a : Nat) (bs : List Byte) :
    s.keepsBytesOutside (s.putBytes a bs) a (a + bs.length) :=
  fun _ => s.putBytes_memByte

/-- A 16-bit write to IBUF. -/
theorem hostWrite_ibuf (hidle : s.busy = false) {i : Nat} (hi : i < 32768) (data : Word) :
    s.hostWrite (BitVec.ofNat 32 (0x00010000 + 2 * i)) .w16 data
      = s.putBytes (Config.ibufBase + 2 * i) (bytesOfHalf (data.extractLsb' 0 16)) :=
  hostWrite_at (target_ibuf hi) hidle data

/-- A 32-bit write to IBUF. -/
theorem hostWrite_ibufPair (hidle : s.busy = false) {k : Nat} (hk : k < 16384) (data : Word) :
    s.hostWrite (BitVec.ofNat 32 (0x00010000 + 4 * k)) .w32 data
      = s.putBytes (Config.ibufBase + 2 * (2 * k)) (bytesOfWord data) :=
  hostWrite_at (target_ibufPair hk) hidle data

/-- Settles O17: the bytes of the element or the pair are the data's, lowest address first, and the host reads them back. -/
theorem inputWritesReadBack : Obligations.InputWritesReadBack := by
  refine fun s data hidle => ⟨fun i hi a t ha ht => ?element, fun k hk a t ha ht => ?pair⟩
  case element =>
    subst ha
    rw [hostWrite_ibuf hidle hi] at ht
    have hhalf : t.ibufHalf i = data.extractLsb' 0 16 := ht ▸ memHalf_putHalf s _ _
    have hread (hvalid : i < s.ilen.toNat) :
        t.hostReadValue (BitVec.ofNat 32 (0x00010000 + 2 * i)) .w16 = (t.ibufHalf i).setWidth 32 :=
      hostReadValue_ibuf (by rwa [ht]) hi (by rwa [ht])
    rw [hhalf] at hread
    obtain ⟨hlow, hhigh⟩ := memByte_putHalf s (Config.ibufBase + 2 * i) (data.extractLsb' 0 16)
    rw [← ht, BitVec.extractLsb'_extractLsb'_of_le (by norm_num)] at hlow hhigh
    exact ⟨by rw [ht]; rfl, hhalf, hlow, hhigh, hread, ht ▸ putBytes_keepsBytesOutside s _ _⟩
  case pair =>
    subst ha
    rw [hostWrite_ibufPair hidle hk] at ht
    obtain ⟨hlow, hhigh⟩ := memHalf_putWord s (Config.ibufBase + 2 * (2 * k)) data
    rw [← ht] at hlow hhigh
    have hlower : t.ibufHalf (2 * k) = data.extractLsb' 0 16 := hlow
    have hupper : t.ibufHalf (2 * k + 1) = data.extractLsb' 16 16 := hhigh
    have hread (hvalid : 2 * k + 1 < s.ilen.toNat) :
        t.hostReadValue (BitVec.ofNat 32 (0x00010000 + 4 * k)) .w32 = t.ibufHalf (2 * k + 1) ++ t.ibufHalf (2 * k) :=
      hostReadValue_ibufPair (by rwa [ht]) hk (by rwa [ht])
    rw [hlower, hupper, halves_append] at hread
    have hframe := putBytes_keepsBytesOutside s (Config.ibufBase + 2 * (2 * k)) (bytesOfWord data)
    rw [← ht, ← Nat.mul_assoc] at hframe
    exact ⟨by rw [ht]; rfl, hlower, hupper, hread, hframe⟩

/-! ### Accesses that change nothing -/

/-- What the host read last does not reach the value of a read. -/
theorem hostReadValue_rdata (hidle : s.busy = false) (w : Word) :
    ({ s with rdata := w } : State).hostReadValue addr width = s.hostReadValue addr width := by
  cases h : target addr.toNat width with
  | none => rw [hostReadValue_of_illegal h, hostReadValue_of_illegal h]; rfl
  | some x =>
    rw [hostReadValue_of_target (s := { s with rdata := w }) h hidle, hostReadValue_of_target h hidle, readTarget_rdata]

/-- The registers that a write changes are none of the read-only ones: only the last case of the table is left (R89). -/
theorem writeRegister_readOnly {n : Nat} (h : (Target.reg n).readOnly = true) (data : Word) :
    s.writeRegister n data = s := by
  unfold State.writeRegister
  split
  case h_14 => rfl
  all_goals exact absurd h (by decide)

/-- A write to a read-only target of an idle block changes nothing (R89). -/
theorem writeTarget_readOnly (h : x.readOnly = true) (data : Word) : s.writeTarget x data = s := by
  cases x with
  | reg n => exact writeRegister_readOnly h data
  | ibuf | ibufPair => cases h
  | obuf | obufPair | evt | frm | xi => rfl

/-- A sample in the buffer does not depend on the draw (10_state.md R51). -/
theorem ibufRead_draws {i : Nat} (hi : i < s.ilen.toNat) (d : Nat) :
    ({ s with draws := d } : State).ibufRead i = s.ibufRead i :=
  (ibufRead_of_lt (s := { s with draws := d }) hi).trans (ibufRead_of_lt hi).symm

/-- A valid sample of OBUF does not depend on the draw (R51). -/
theorem obufRead_draws {i : Nat} (hi : i < s.olen.toNat) (d : Nat) :
    ({ s with draws := d } : State).obufRead i = s.obufRead i :=
  (obufRead_of_lt (s := { s with draws := d }) hi).trans (obufRead_of_lt hi).symm

/-- A specified value does not depend on the draw (R51). -/
theorem readTarget_draws (h : s.specified x = true) (d : Nat) :
    ({ s with draws := d } : State).readTarget x = s.readTarget x := by
  cases x with
  | reg | xi => rfl
  | ibuf i => exact congrArg (BitVec.setWidth 32) (ibufRead_draws (of_decide_eq_true h) d)
  | obuf i => exact congrArg (BitVec.setWidth 32) (obufRead_draws (of_decide_eq_true h) d)
  | ibufPair i =>
    have hi : i + 1 < s.ilen.toNat := of_decide_eq_true h
    exact congrArg₂ (· ++ ·) (ibufRead_draws hi d) (ibufRead_draws (Nat.lt_of_succ_lt hi) d)
  | obufPair i =>
    have hi : i + 1 < s.olen.toNat := of_decide_eq_true h
    exact congrArg₂ (· ++ ·) (obufRead_draws hi d) (obufRead_draws (Nat.lt_of_succ_lt hi) d)
  | evt p j =>
    have hp : p < s.ecnt.toNat := of_decide_eq_true h
    exact (readTarget_evt_of_lt (s := { s with draws := d }) hp j).trans (readTarget_evt_of_lt hp j).symm
  | frm f j =>
    have hf : f < s.fcnt.toNat := of_decide_eq_true h
    exact (readTarget_frm_of_lt (s := { s with draws := d }) hf j).trans (readTarget_frm_of_lt hf j).symm

/-- CTRL holds nothing: a write to it with SRST clear changes nothing of an idle block (10_state.md R34). -/
theorem hostWrite_ctrl_of_srst_clear (hidle : s.busy = false) {data : Word} (hsrst : data.getLsbD 0 = false) :
    s.hostWrite 8 .w32 data = s := by
  rw [show s.hostWrite 8 .w32 data = s.writeRegister 2 data from hostWrite_register hidle (n := 2) (by norm_num) data,
    State.writeRegister, hsrst, if_neg Bool.false_ne_true]

/-- Settles O16: an access is a read, is illegal, or has a target, and none of those named here reaches the block. -/
theorem accessesWithoutEffect : Obligations.AccessesWithoutEffect := by
  refine fun s addr width => ⟨rfl, fun hillegal data => ?illegal, fun hidle => ⟨?again,
    fun x hx => ⟨fun hro data => ?readOnly, fun hspec d => ?specified⟩, fun data hsrst => hostWrite_ctrl_of_srst_clear hidle hsrst⟩⟩
  case illegal => simp only [State.hostAccess, State.hostWrite, hillegal]
  case again => rw [State.hostAccess, hostRead_of_idle addr width hidle, hostReadValue_rdata hidle]
  case readOnly =>
    simp only [State.hostAccess, State.hostWrite, hx, hidle, Bool.false_and, Bool.false_eq_true, if_false,
      writeTarget_readOnly hro]
  case specified =>
    rw [hostReadValue_of_target (s := { s with draws := d }) hx hidle, hostReadValue_of_target hx hidle,
      readTarget_draws hspec]

end Sys2Proof.Machine
end

section
/-! ## Every step keeps the busy protocol, the presence conclusions and the result flags (30_encoding.md R111, 10_state.md R33,
R38, 46_presence.md R283, R286) -/

namespace Sys2Proof.Machine

variable {s t : State} {i : Instr}

/-! ### When a state meets the three -/

/-- The fields from which the presence conclusions and the result flags are read. -/
structure State.sameConclusions (s t : State) : Prop where
  fault : t.fault = s.fault
  pstate : t.pstate = s.pstate
  silence : t.silence = s.silence
  tonelvl : t.tonelvl = s.tonelvl
  error : t.error = s.error
  ut : t.ut = s.ut
  temperature : t.temperature = s.temperature

theorem presenceOk_congr (h : s.presenceOk) (hfault : t.fault = s.fault) (hpstate : t.pstate = s.pstate)
    (hsilence : t.silence = s.silence) (htonelvl : t.tonelvl = s.tonelvl) : t.presenceOk := by
  rwa [State.presenceOk, hfault, hpstate, hsilence, htonelvl]

theorem State.sameConclusions.resultOk (h : s.sameConclusions t) (hs : s.resultOk) : t.resultOk := by
  rwa [State.resultOk, h.error, h.fault, h.ut, h.temperature]

/-- An idle block has no protocol to keep. -/
theorem protocolOk_of_idle (h : t.busy = false) : t.protocolOk := fun hbusy => absurd hbusy (by simp [h])

/-- While a fault is held the levels are unspecified (60_exceptions.md R313). -/
theorem presenceOk_of_fault (h : t.fault ≠ none) : t.presenceOk := fun hnone => absurd hnone h

/-- A detector that is neither armed nor has detected a tone concludes nothing from its levels. -/
theorem presenceOk_of_pstate (harmed : t.pstate ≠ .armed) (hpresent : t.pstate ≠ .present) : t.presenceOk :=
  fun _ => ⟨fun h => absurd h harmed, fun h => absurd h hpresent⟩

/-! ### What a host access leaves of them -/

/-- What a host access can do to the flags and the conclusions: nothing, the acceptance or the rejection of a command word, or a
soft reset. -/
inductive Accessed (s : State) : State → Prop where
  | kept {t : State} (hbusy : t.busy = s.busy) (hdone : t.done = s.done) (hcmd : t.cmd = s.cmd)
      (hsame : s.sameConclusions t) : Accessed s t
  | accepted {w : Word} {i : Instr} (hnone : s.fault = none) (hlegal : decodeWord w = .ok i) : Accessed s (s.accept w)
  | rejected (w : Word) : Accessed s { s with cmd := w, done := true, busy := false, fault := some .illegalCmd }
  | reset : Accessed s s.softReset

theorem issue_accessed (s : State) (w : Word) : Accessed s (s.issue w) := by
  rcases issue_cases s w with ⟨-, hsame⟩ | ⟨hnone, ⟨i, hlegal⟩, haccept⟩ | ⟨-, -, hillegal⟩
  · rw [hsame]
    exact .kept rfl rfl rfl ⟨rfl, rfl, rfl, rfl, rfl, rfl, rfl⟩
  · rw [haccept]
    exact .accepted hnone hlegal
  · rw [hillegal]
    exact .rejected w

theorem writeRegister_accessed (s : State) (n : Nat) (w : Word) : Accessed s (s.writeRegister n w) := by
  unfold State.writeRegister
  split
  · exact issue_accessed s w
  · split
    · exact .reset
    · exact .kept rfl rfl rfl ⟨rfl, rfl, rfl, rfl, rfl, rfl, rfl⟩
  all_goals exact .kept rfl rfl rfl ⟨rfl, rfl, rfl, rfl, rfl, rfl, rfl⟩

theorem hostAccess_accessed (s : State) (a : Access) : Accessed s (s.hostAccess a) := by
  cases a with
  | read addr width => exact .kept rfl rfl rfl ⟨rfl, rfl, rfl, rfl, rfl, rfl, rfl⟩
  | write addr width data =>
    simp only [State.hostAccess]
    rcases hostWrite_cases s addr width data with ⟨-, hsame⟩ | ⟨x, -, ⟨-, -, hhaz⟩ | ⟨-, hwrite⟩⟩
    · rw [hsame]
      exact .kept rfl rfl rfl ⟨rfl, rfl, rfl, rfl, rfl, rfl, rfl⟩
    · rw [hhaz]
      exact .kept rfl rfl rfl ⟨rfl, rfl, rfl, rfl, rfl, rfl, rfl⟩
    · rw [hwrite]
      cases x with
      | reg n => exact writeRegister_accessed s n data
      | _ => exact .kept rfl rfl rfl ⟨rfl, rfl, rfl, rfl, rfl, rfl, rfl⟩

theorem Accessed.protocolOk (h : Accessed s t) (hs : s.protocolOk) : t.protocolOk := by
  cases h with
  | kept hbusy hdone hcmd hsame => rwa [State.protocolOk, hbusy, hdone, hcmd, hsame.fault]
  | accepted hnone hlegal => exact fun _ => ⟨rfl, hnone, _, hlegal⟩
  | rejected | reset => exact protocolOk_of_idle rfl

theorem Accessed.presenceOk (h : Accessed s t) (hs : s.presenceOk) : t.presenceOk := by
  cases h with
  | kept _ _ _ hsame => exact presenceOk_congr hs hsame.fault hsame.pstate hsame.silence hsame.tonelvl
  | accepted => exact hs
  | rejected => exact presenceOk_of_fault (Option.some_ne_none _)
  | reset => exact presenceOk_of_pstate nofun nofun

theorem Accessed.resultOk (h : Accessed s t) (hs : s.resultOk) : t.resultOk := by
  cases h with
  | kept _ _ _ hsame => exact hsame.resultOk hs
  | accepted => exact hs
  | rejected => exact ⟨hs.1, nofun⟩
  | reset => exact ⟨nofun, nofun⟩

/-! ### What a command leaves of them -/

/-- The level of a buffer is a magnitude of one of its samples, so a word holds it (46_presence.md R280). -/
theorem level_le {v : Nat} (h : s.level = some v) : v ≤ 32768 := by
  obtain ⟨-, -, hmem, -⟩ := (trimmedLevel_eq_some_iff _ _ _).mp h
  obtain ⟨x, hx, rfl⟩ := List.mem_map.mp hmem
  have hrange := s.buffer_isI16 x hx
  simp only [mag]
  omega

/-- PRES1 arms the detector only with a level below the threshold (46_presence.md R281). -/
theorem execPres1_presenceOk {e : Bool} (h : execPres1 e s = .next t) : t.presenceOk := by
  simp only [execPres1] at h
  split_ifs at h
  · cases h
    exact presenceOk_of_fault (Option.some_ne_none _)
  · cases h
    exact presenceOk_of_pstate nofun nofun
  · split at h <;> cases h
    · exact presenceOk_of_fault (Option.some_ne_none _)
    · next v hlevel =>
      by_cases hloud : Config.silenceThreshold ≤ v
      · refine presenceOk_of_pstate ?_ ?_ <;> simp [hloud]
      · refine fun _ => ⟨fun _ => ?_, by simp [hloud]⟩
        have hword : (BitVec.ofNat 32 v).toNat ≤ v := BitVec.toNat_ofNat v 32 ▸ Nat.mod_le _ _
        exact hword.trans_lt (Nat.lt_of_not_le hloud)

/-- PRES2 concludes that the tone is present only from a level above the ratio (46_presence.md R284). -/
theorem execPres2_presenceOk {e : Bool} (h : execPres2 e s = .next t) (hs : s.presenceOk) : t.presenceOk := by
  simp only [execPres2] at h
  split_ifs at h
  · cases h
    exact hs
  · cases h
    exact presenceOk_of_fault (Option.some_ne_none _)
  · cases h
    exact presenceOk_of_pstate nofun nofun
  · split at h <;> cases h
    · exact presenceOk_of_fault (Option.some_ne_none _)
    · next v hlevel =>
      by_cases htone : toneDetected v s.silence.toNat
      · refine fun _ => ⟨by simp [htone], fun _ => ?_⟩
        have hword : (BitVec.ofNat 32 v).toNat = v := by
          have := level_le hlevel
          rw [BitVec.toNat_ofNat]
          omega
        rwa [State.complete_tonelvl, State.complete_silence, State.putTone_tonelvl, State.putTone_silence, hword]
      · refine presenceOk_of_pstate ?_ ?_ <;> simp [htone]

theorem exec_presenceOk (hs : s.presenceOk) (h : exec i s = .next t) : t.presenceOk := by
  rcases exec_cases h with hfault | hend
  · exact presenceOk_of_fault hfault.fault_ne_none
  cases hi : writesPresence i with
  | false =>
    obtain ⟨hfault, -⟩ := hend.flags
    obtain ⟨-, hpresence, -⟩ := hend.registers
    obtain ⟨hpstate, hsilence, htonelvl⟩ := hpresence hi
    exact presenceOk_congr hs hfault hpstate hsilence htonelvl
  | true =>
    cases i with
    | pres1 => exact execPres1_presenceOk h
    | pres2 => exact execPres2_presenceOk h hs
    | clear =>
      cases h
      exact presenceOk_of_pstate nofun nofun
    | _ => cases hi

theorem Faulted.resultOk (h : Faulted s t) (hs : s.resultOk) : t.resultOk := by
  obtain ⟨herror, -⟩ := hs
  refine ⟨?_, fun hnone => absurd hnone h.fault_ne_none⟩
  cases h with
  | early => exact herror
  | late => exact freeError_ne s.draws
  | capture => exact nofun

/-- The commands that write TEMPERATURE write UT with it, and no command writes error 4 (10_state.md R33, R38). -/
theorem Finished.resultOk (h : Finished s i t) (hs : s.resultOk) : t.resultOk := by
  obtain ⟨herror, hut⟩ := hs
  cases h with
  | temp => exact ⟨herror, fun _ h => of_decide_eq_true h⟩
  | decodeSucceeds | sdecodeSucceeds => exact ⟨nofun, fun _ h => of_decide_eq_true h⟩
  | clear | decodeClipped | decodeNoFrames | sdecodeNoSignal | sdecodeNoExtrema => exact ⟨nofun, fun _ _ => rfl⟩
  | _ => exact ⟨herror, hut⟩

theorem exec_resultOk (hs : s.resultOk) (h : exec i s = .next t) : t.resultOk := by
  rcases exec_cases h with hfault | hend
  · exact hfault.resultOk hs
  · exact hend.resultOk hs

/-! ### The step -/

/-- A completion leaves the block idle. -/
theorem completion_idle (h : completion s = .next t) : t.busy = false := by
  rcases completion_cases h with ⟨hidle, rfl⟩ | ⟨i, -, -, hexec⟩ | ⟨-, -, rfl⟩
  · exact hidle
  · obtain ⟨-, hidle, -⟩ := commandsKeepTheHostsState i s t hexec
    exact hidle
  · rfl

theorem completion_presenceOk (hs : s.presenceOk) (h : completion s = .next t) : t.presenceOk := by
  rcases completion_cases h with ⟨-, rfl⟩ | ⟨i, -, -, hexec⟩ | ⟨-, -, rfl⟩
  · exact hs
  · exact exec_presenceOk hs hexec
  · exact presenceOk_of_fault (Option.some_ne_none _)

theorem completion_resultOk (hs : s.resultOk) (h : completion s = .next t) : t.resultOk := by
  rcases completion_cases h with ⟨-, rfl⟩ | ⟨i, -, -, hexec⟩ | ⟨-, -, rfl⟩
  · exact hs
  · exact exec_resultOk hs hexec
  · exact (Faulted.early .illegalCmd).resultOk hs

/-- Settles O59: a host access leaves the flags and the conclusions, accepts or rejects a word, or resets; a completion leaves the
block idle with its conclusions drawn from the levels it stores. -/
theorem stepKeepsProtocolAndConclusions : Obligations.StepKeepsProtocolAndConclusions := by
  rintro s t ⟨hprotocol, hpresence, hresult⟩ h
  have hprotocol' : s.taken.protocolOk := hprotocol
  have hpresence' : s.taken.presenceOk := hpresence
  have hresult' : s.taken.resultOk := hresult
  rcases step_cases h with ⟨a, -, -, rfl⟩ | ⟨-, -, rfl⟩ | ⟨-, hcompletion⟩
  · have haccess := hostAccess_accessed s.taken a
    exact ⟨haccess.protocolOk hprotocol', haccess.presenceOk hpresence', haccess.resultOk hresult'⟩
  · exact ⟨protocolOk_of_idle rfl, presenceOk_of_pstate nofun nofun, nofun, nofun⟩
  · exact ⟨protocolOk_of_idle (completion_idle hcompletion), completion_presenceOk hpresence' hcompletion,
      completion_resultOk hresult' hcompletion⟩

end Sys2Proof.Machine
end

section
/-! ## The fields of a command word and the rows of the opcode map (30_encoding.md R110, R112, R113) -/

namespace Sys2Proof

variable {v w : Word} {r r' : OpRow}

/-! ### A word and its fields -/

theorem fields_append (w : Word) : reservedField w ++ (argField w ++ opField w) = w := by
  have hlow : argField w ++ opField w = w.extractLsb' 0 16 := BitVec.extractLsb'_append_extractLsb'_eq_extractLsb' rfl
  have hword : reservedField w ++ w.extractLsb' 0 16 = w.extractLsb' 0 32 :=
    BitVec.extractLsb'_append_extractLsb'_eq_extractLsb' rfl
  rw [hlow, hword, BitVec.extractLsb'_eq_self]

/-- A word is determined by its three fields. -/
theorem word_eq_iff : v = w ↔ opField v = opField w ∧ argField v = argField w ∧ reservedField v = reservedField w := by
  refine ⟨by rintro rfl; exact ⟨rfl, rfl, rfl⟩, fun ⟨hop, harg, hreserved⟩ => ?_⟩
  rw [← fields_append v, ← fields_append w, hop, harg, hreserved]

theorem opField_and (v w : Word) : opField (v &&& w) = opField v &&& opField w := BitVec.extractLsb'_and

theorem argField_and (v w : Word) : argField (v &&& w) = argField v &&& argField w := BitVec.extractLsb'_and

theorem reservedField_and (v w : Word) : reservedField (v &&& w) = reservedField v &&& reservedField w :=
  BitVec.extractLsb'_and

/-- RDERR as a number is ARG where ARG's other bits are zero (R117). -/
theorem argRderr_toNat (h : (argField w).extractLsb' 1 7 = 0) : (argRderr w).toNat = (argField w).toNat := by
  have hbyte : ∀ a : Byte, a.extractLsb' 1 7 = 0 → (a.getLsbD 0).toNat = a.toNat := by decide +kernel
  rw [← hbyte (argField w) h]
  simp [argRderr, argField]

/-! ### The rows of the map -/

/-- The values of ARG that a use of it allows (R112). -/
def ArgUse.Allows : ArgUse → Byte → Prop
  | .none, a => a = 0
  | .frame, _ => True
  | .rderr, a => a.extractLsb' 1 7 = 0

/-- The bits of ARG that a use of it requires to be zero. -/
def ArgUse.zeroBits : ArgUse → Byte
  | .none => 0xFF
  | .frame => 0x00
  | .rderr => 0xFE

theorem ArgUse.allows_iff (u : ArgUse) (a : Byte) : a &&& u.zeroBits = 0 ↔ u.Allows a := by
  cases u with
  | none =>
    change a &&& BitVec.allOnes 8 = 0 ↔ a = 0
    rw [BitVec.and_allOnes]
  | frame => simp [zeroBits, Allows]
  | rderr =>
    simp only [zeroBits, Allows]
    revert a
    decide +kernel

/-- Every row fixes OP and the reserved field, and of ARG the bits that its use requires to be zero. -/
theorem opcodeMap_fields (hr : r ∈ opcodeMap) :
    opField r.mask = BitVec.allOnes 8 ∧ argField r.mask = r.arg.zeroBits ∧ reservedField r.mask = BitVec.allOnes 16
      ∧ argField r.pattern = 0 ∧ reservedField r.pattern = 0 := by
  revert r
  decide

/-- A word selects a row by its three fields. -/
theorem selects_iff (hr : r ∈ opcodeMap) :
    r.selects w = true ↔ opField w = opField r.pattern ∧ r.arg.Allows (argField w) ∧ reservedField w = 0 := by
  obtain ⟨hop, harg, hreserved, hparg, hpreserved⟩ := opcodeMap_fields hr
  rw [OpRow.selects, beq_iff_eq, word_eq_iff, opField_and, argField_and, reservedField_and, hop, harg, hreserved, hparg,
    hpreserved, BitVec.and_allOnes, BitVec.and_allOnes, ArgUse.allows_iff]

/-- No two rows have the same OP. -/
theorem row_eq_of_op (hr : r ∈ opcodeMap) (hr' : r' ∈ opcodeMap) (h : opField r.pattern = opField r'.pattern) : r = r' :=
  List.inj_on_of_nodup_map (f := fun r : OpRow => opField r.pattern) (by decide) hr hr' h

/-- No word selects two rows (R113). -/
theorem row_eq_of_selects (hr : r ∈ opcodeMap) (hr' : r' ∈ opcodeMap) (h : r.selects w = true) (h' : r'.selects w = true) :
    r = r' := by
  obtain ⟨hop, -⟩ := (selects_iff hr).mp h
  obtain ⟨hop', -⟩ := (selects_iff hr').mp h'
  exact row_eq_of_op hr hr' (hop.symm.trans hop')

/-! ### Decoding by a row -/

theorem decodeWord_of_selects (hr : r ∈ opcodeMap) (h : r.selects w = true) : decodeWord w = .ok (r.make w) := by
  unfold decodeWord
  split
  · next r' hfind =>
    have hselects := List.find?_some (p := fun r : OpRow => r.selects w) hfind
    rw [row_eq_of_selects hr (List.mem_of_find?_eq_some hfind) h hselects]
  · next hfind => exact absurd h (List.find?_eq_none.mp hfind r hr)

theorem exists_selects_of_decodeWord {i : Instr} (h : decodeWord w = .ok i) :
    ∃ r ∈ opcodeMap, r.selects w = true ∧ r.make w = i := by
  unfold decodeWord at h
  split at h
  · next r hfind =>
    cases h
    exact ⟨r, List.mem_of_find?_eq_some hfind, List.find?_some (p := fun r : OpRow => r.selects w) hfind, rfl⟩
  · cases h

/-- A word is illegal exactly when it selects no row (R114). -/
theorem decodeWord_error_iff : (∃ e, decodeWord w = .error e) ↔ ∀ r ∈ opcodeMap, r.selects w = false := by
  constructor
  · rintro ⟨e, herror⟩ r hr
    by_contra h
    rw [decodeWord_of_selects hr (Bool.eq_true_of_not_eq_false h)] at herror
    cases herror
  · intro hnone
    cases h : decodeWord w with
    | error e => exact ⟨e, rfl⟩
    | ok i =>
      obtain ⟨r, hr, hselects, -⟩ := exists_selects_of_decodeWord h
      rw [hnone r hr] at hselects
      cases hselects

/-- Settles O3: no two rows of the map have the same OP, so a word that selects a row is decoded by it. -/
theorem decoderFollowsTable : Obligations.DecoderFollowsTable := by
  refine ⟨rfl, fun w => ⟨?unique, fun r hr h => decodeWord_of_selects hr (beq_iff_eq.mpr h), fun h => ?illegal⟩⟩
  case unique =>
    have hops : opcodeMap.Pairwise fun a b => opField a.pattern ≠ opField b.pattern := by decide
    refine hops.imp_of_mem fun {a b} ha hb hne ⟨hwa, hwb⟩ => hne ?_
    rw [row_eq_of_selects ha hb (beq_iff_eq.mpr hwa) (beq_iff_eq.mpr hwb)]
  case illegal => exact decodeWord_error_iff.mpr fun r hr => beq_eq_false_iff_ne.mpr (h r hr)

end Sys2Proof
end

section
/-! ## Encoding and decoding are inverse (30_encoding.md R110, R112, R120) -/

namespace Sys2Proof

open Laws.EncodedFields (op arg)

variable {w : Word} {i : Instr}

/-- The fields of the word of each command. -/
theorem encode_fields (hi : i.wf = true) :
    (opField (encode i)).toNat = op i ∧ (argField (encode i)).toNat = arg i ∧ reservedField (encode i) = 0 := by
  cases i with
  | nop => exact Laws.EncodedFields.nop hi
  | clear => exact Laws.EncodedFields.clear hi
  | sweep => exact Laws.EncodedFields.sweep hi
  | twoph => exact Laws.EncodedFields.twoph hi
  | ttone => exact Laws.EncodedFields.ttone hi
  | clipchk => exact Laws.EncodedFields.clipchk hi
  | extract => exact Laws.EncodedFields.extract hi
  | fsync => exact Laws.EncodedFields.fsync hi
  | fit f => exact Laws.EncodedFields.fit f hi
  | xint f => exact Laws.EncodedFields.xint f hi
  | resist => exact Laws.EncodedFields.resist hi
  | temp => exact Laws.EncodedFields.temp hi
  | decode e => exact Laws.EncodedFields.decode e hi
  | sdecode e => exact Laws.EncodedFields.sdecode e hi
  | pres1 e => exact Laws.EncodedFields.pres1 e hi
  | pres2 e => exact Laws.EncodedFields.pres2 e hi

/-- A word that has the fields of a well-formed command is its word. -/
theorem encode_eq_of_fields (hi : i.wf = true) (hop : op i = (opField w).toNat) (harg : arg i = (argField w).toNat)
    (hreserved : reservedField w = 0) : encode i = w := by
  obtain ⟨hop', harg', hreserved'⟩ := encode_fields hi
  exact word_eq_iff.mpr ⟨BitVec.eq_of_toNat_eq (hop'.trans hop), BitVec.eq_of_toNat_eq (harg'.trans harg),
    hreserved'.trans hreserved.symm⟩

/-! ### The command of each row has the fields of the word -/

/-- The command that a row makes of a word is well-formed, with the row's OP and the word's ARG. -/
def MakesFields (r : OpRow) : Prop :=
  ∀ w, r.arg.Allows (argField w) →
    (r.make w).wf = true ∧ op (r.make w) = (opField r.pattern).toNat ∧ arg (r.make w) = (argField w).toNat

theorem makesFields_none {p m : Word} (i : Instr) (hi : i.wf = true) (hop : op i = (opField p).toNat) (harg : arg i = 0) :
    MakesFields ⟨p, m, .none, fun _ => i⟩ := by
  intro w (hzero : argField w = 0)
  exact ⟨hi, hop, by simp [harg, hzero]⟩

theorem makesFields_frame {p m : Word} (make : Nat → Instr) (hwf : ∀ f, f < 256 → (make f).wf = true)
    (hop : ∀ f, op (make f) = (opField p).toNat) (harg : ∀ f, arg (make f) = f) :
    MakesFields ⟨p, m, .frame, fun w => make (argFrame w)⟩ :=
  fun w _ => ⟨hwf _ (argField w).isLt, hop _, harg _⟩

theorem makesFields_rderr {p m : Word} (make : Bool → Instr) (hwf : ∀ e, (make e).wf = true)
    (hop : ∀ e, op (make e) = (opField p).toNat) (harg : ∀ e, arg (make e) = e.toNat) :
    MakesFields ⟨p, m, .rderr, fun w => make (argRderr w)⟩ :=
  fun _ hbits => ⟨hwf _, hop _, (harg _).trans (argRderr_toNat hbits)⟩

theorem opcodeMap_makesFields : ∀ r ∈ opcodeMap, MakesFields r := by
  simp only [opcodeMap, List.forall_mem_cons]
  exact ⟨makesFields_none .nop rfl rfl rfl, makesFields_none .clear rfl rfl rfl, makesFields_none .sweep rfl rfl rfl,
    makesFields_none .twoph rfl rfl rfl, makesFields_none .ttone rfl rfl rfl, makesFields_none .clipchk rfl rfl rfl,
    makesFields_none .extract rfl rfl rfl, makesFields_none .fsync rfl rfl rfl,
    makesFields_frame .fit (fun _ => decide_eq_true) (fun _ => rfl) fun _ => rfl,
    makesFields_frame .xint (fun _ => decide_eq_true) (fun _ => rfl) fun _ => rfl,
    makesFields_none .resist rfl rfl rfl, makesFields_none .temp rfl rfl rfl,
    makesFields_rderr .decode (fun _ => rfl) (fun _ => rfl) fun _ => rfl,
    makesFields_rderr .sdecode (fun _ => rfl) (fun _ => rfl) fun _ => rfl,
    makesFields_rderr .pres1 (fun _ => rfl) (fun _ => rfl) fun _ => rfl,
    makesFields_rderr .pres2 (fun _ => rfl) (fun _ => rfl) fun _ => rfl, List.forall_mem_nil _⟩

/-- Settles O2: the row that a word selects makes a command with the fields of the word. -/
theorem encodeOfDecode : Obligations.EncodeOfDecode := by
  intro w i h
  obtain ⟨r, hr, hselects, rfl⟩ := exists_selects_of_decodeWord h
  obtain ⟨hop, hallows, hreserved⟩ := (selects_iff hr).mp hselects
  obtain ⟨hwf, hop', harg⟩ := opcodeMap_makesFields r hr w hallows
  exact ⟨hwf, encode_eq_of_fields hwf (by rw [hop', hop]) harg hreserved⟩

/-! ### The word of each command selects its row -/

/-- A command whose OP and ARG are a row's selects that row. -/
theorem selects_encode {r : OpRow} (hr : r ∈ opcodeMap) (hi : i.wf = true) (hop : op i = (opField r.pattern).toNat)
    (harg : r.arg.Allows (BitVec.ofNat 8 (arg i))) : r.selects (encode i) = true := by
  obtain ⟨hop', harg', hreserved⟩ := encode_fields hi
  refine (selects_iff hr).mpr ⟨BitVec.eq_of_toNat_eq (hop'.trans hop), ?_, hreserved⟩
  rwa [← harg', BitVec.ofNat_toNat, BitVec.setWidth_eq] at harg

/-- A command with a frame index is read back with its index. -/
theorem decodeWord_encode_frame {p m : Word} {make : Nat → Instr} {f : Nat}
    (hr : ⟨p, m, .frame, fun w => make (argFrame w)⟩ ∈ opcodeMap) (hi : (make f).wf = true)
    (hop : op (make f) = (opField p).toNat) (harg : arg (make f) = f) : decodeWord (encode (make f)) = .ok (make f) := by
  obtain ⟨-, harg', -⟩ := encode_fields hi
  have hframe : argFrame (encode (make f)) = f := harg'.trans harg
  rw [decodeWord_of_selects hr (selects_encode hr hi hop trivial)]
  exact congrArg (fun f => Except.ok (make f)) hframe

theorem decodeWord_encode (hi : i.wf = true) : decodeWord (encode i) = .ok i := by
  cases i with
  | fit f => exact decodeWord_encode_frame (p := 0x00000023) (m := 0xFFFF00FF) (by simp [opcodeMap]) hi rfl rfl
  | xint f => exact decodeWord_encode_frame (p := 0x00000024) (m := 0xFFFF00FF) (by simp [opcodeMap]) hi rfl rfl
  | decode e | sdecode e | pres1 e | pres2 e => cases e <;> decide
  | _ => decide

/-- Settles O1: a word selects the row of its command, which makes the command of the word's ARG; a word is put together again
from its bytes. -/
theorem decodeOfEncode : Obligations.DecodeOfEncode := by
  intro i hi
  refine ⟨decodeWord_encode hi, ?_⟩
  simp only [decodeBytes, bytesOfWord, Machine.wordOfBytes_bytesOfWord, decodeWord_encode hi, Except.toOption]

end Sys2Proof
end

section
/-! ## Issue of a command word, and the illegal words (30_encoding.md R111, R113, R114) -/

namespace Sys2Proof

variable {w : Word}

/-! ### The illegal words -/

/-- The values of OP of the commands that use ARG in one way (R112). -/
def opsOf (u : ArgUse) : List Byte := (opcodeMap.filter (·.arg = u)).map fun r => opField r.pattern

theorem opsOf_none : opsOf .none = [0x00, 0x01, 0x10, 0x11, 0x12, 0x20, 0x21, 0x22, 0x25, 0x26] := by decide

theorem opsOf_rderr : opsOf .rderr = [0x30, 0x31, 0x40, 0x41] := by decide

/-- A row with the OP of a word and an ARG that the row's use does not allow, by the use. -/
theorem exists_row_not_allows_iff :
    (∃ r ∈ opcodeMap, opField r.pattern = opField w ∧ ¬ r.arg.Allows (argField w))
      ↔ opField w ∈ opsOf .none ∧ argField w ≠ 0
        ∨ opField w ∈ opsOf .rderr ∧ (argField w).extractLsb' 1 7 ≠ 0 := by
  simp only [opsOf, List.mem_map, List.mem_filter, decide_eq_true_eq]
  constructor
  · rintro ⟨r, hr, hop, hnot⟩
    cases harg : r.arg with
    | none => exact .inl ⟨⟨r, ⟨hr, harg⟩, hop⟩, fun h => hnot (by rwa [harg])⟩
    | frame =>
      rw [harg] at hnot
      exact absurd trivial hnot
    | rderr => exact .inr ⟨⟨r, ⟨hr, harg⟩, hop⟩, fun h => hnot (by rwa [harg])⟩
  · rintro (⟨⟨r, ⟨hr, harg⟩, hop⟩, hnot⟩ | ⟨⟨r, ⟨hr, harg⟩, hop⟩, hnot⟩)
    · exact ⟨r, hr, hop, by rwa [harg]⟩
    · exact ⟨r, hr, hop, by rwa [harg]⟩

/-- A word is illegal by its reserved field, by its OP, or by an ARG that its command does not allow (R114). -/
theorem decodeWord_error_iff_fields :
    (∃ e, decodeWord w = .error e) ↔
      reservedField w ≠ 0 ∨ opField w ∉ opcodeMap.map (fun r => opField r.pattern)
        ∨ ∃ r ∈ opcodeMap, opField r.pattern = opField w ∧ ¬ r.arg.Allows (argField w) := by
  rw [decodeWord_error_iff]
  constructor
  · intro hnone
    by_cases hreserved : reservedField w = 0
    · by_cases hop : opField w ∈ opcodeMap.map (fun r => opField r.pattern)
      · obtain ⟨r, hr, hop⟩ := List.mem_map.mp hop
        refine .inr (.inr ⟨r, hr, hop, fun hallows => ?_⟩)
        have hselects := (selects_iff hr).mpr ⟨hop.symm, hallows, hreserved⟩
        exact absurd hselects (by simp [hnone r hr])
      · exact .inr (.inl hop)
    · exact .inl hreserved
  · intro hwrong r hr
    by_contra hselects
    obtain ⟨hop, hallows, hzero⟩ := (selects_iff hr).mp (Bool.eq_true_of_not_eq_false hselects)
    rcases hwrong with hreserved | hunknown | ⟨r', hr', hop', hnot⟩
    · exact hreserved hzero
    · exact hunknown (List.mem_map.mpr ⟨r, hr, hop.symm⟩)
    · rw [row_eq_of_op hr' hr (hop'.trans hop)] at hnot
      exact hnot hallows

/-- Only word 0 is a NOP (R114). -/
theorem decodeWord_nop_iff : decodeWord w = .ok .nop ↔ w = 0 := by
  constructor
  · intro h
    obtain ⟨-, hword⟩ := encodeOfDecode w .nop h
    exact hword.symm
  · rintro rfl
    exact decodeWord_encode (i := .nop) rfl

namespace Machine

variable {s : State}

/-! ### Writes to CMD -/

/-- CMD is register 0 at byte address 0 (20_memory.md R82). -/
theorem hostWrite_cmd (hidle : s.busy = false) (w : Word) : s.hostWrite 0 .w32 w = s.issue w :=
  hostWrite_register hidle (n := 0) (by norm_num) w

theorem hostWrite_cmd_of_busy (hbusy : s.busy = true) (w : Word) : s.hostWrite 0 .w32 w = { s with haz := true } := by
  have htarget : target (0 : Word).toNat .w32 = some (.reg 0) := target_register (n := 0) (by norm_num)
  rw [State.hostWrite, htarget]
  simp [hbusy, isSoftReset]

theorem hostWrite_cmd_of_fault (hidle : s.busy = false) (hfault : s.fault ≠ none) (w : Word) : s.hostWrite 0 .w32 w = s := by
  rw [hostWrite_cmd hidle, State.issue, if_pos (Option.isSome_iff_ne_none.mpr hfault)]

theorem hostWrite_cmd_of_legal {i : Instr} (hidle : s.busy = false) (hnone : s.fault = none) (hlegal : decodeWord w = .ok i) :
    s.hostWrite 0 .w32 w = s.accept w := by
  simp only [hostWrite_cmd hidle, State.issue, hnone, hlegal, Option.isSome_none, Bool.false_eq_true, if_false]

theorem hostWrite_cmd_of_illegal {e : DecodeError} (hidle : s.busy = false) (hnone : s.fault = none)
    (hillegal : decodeWord w = .error e) :
    s.hostWrite 0 .w32 w = { s with cmd := w, busy := false, done := true, fault := some .illegalCmd } := by
  simp only [hostWrite_cmd hidle, State.issue, hnone, hillegal, Option.isSome_none, Bool.false_eq_true, if_false,
    State.raiseFault]

theorem step_of_access {a : Access} {rest : List Event} (h : s.agenda = .access a :: rest) :
    step s = .next ({ s with agenda := rest }.hostAccess a) := by
  simp only [step, h]

end Machine

open Machine

/-- Settles O4: a word that selects no row fails in one of its fields, and issue of it only stores it and raises the fault. -/
theorem illegalWordsRaiseTheFault : Obligations.IllegalWordsRaiseTheFault := by
  refine ⟨fun w => ?_, fun w => decodeWord_nop_iff, fun s w haccepts ⟨e, hillegal⟩ => ?_⟩
  · rw [decodeWord_error_iff_fields, exists_row_not_allows_iff, opsOf_none, opsOf_rderr]
    rfl
  · obtain ⟨hidle, hnone⟩ := (accepts_iff s).mp haccepts
    exact hostWrite_cmd_of_illegal hidle hnone hillegal

/-- Settles O8: a write to CMD is dropped by a busy block, issues at an idle one, and the completion after it runs the word it
stored. -/
theorem issueFollowsTheCases : Obligations.IssueFollowsTheCases := by
  intro s w rest hagenda
  rw [step_of_access hagenda, State.hostAccess]
  refine ⟨fun hbusy => ?busy, fun hidle hfault => ?faulted,
    fun hidle hnone => ⟨fun i hlegal => ⟨?accepted, fun later hlater => ?completes⟩, fun hillegal => ?rejected⟩⟩
  case busy => rw [hostWrite_cmd_of_busy (s := { s with agenda := rest }) hbusy]
  case faulted => rw [hostWrite_cmd_of_fault (s := { s with agenda := rest }) hidle hfault]
  case accepted =>
    rw [hostWrite_cmd_of_legal (s := { s with agenda := rest }) hidle hnone hlegal]
    rfl
  case completes =>
    rw [step_of_completion hlater]
    exact completion_of_running rfl hlegal
  case rejected =>
    cases hword : decodeWord w with
    | ok i => exact absurd hword (hillegal i)
    | error e => rw [hostWrite_cmd_of_illegal (s := { s with agenda := rest }) hidle hnone hword]

/-- Settles O5: each legal word is the encoding of its command, and each illegal word breaks one rule of R114. -/
theorem sampleWordsDecode : Obligations.SampleWordsDecode :=
  ⟨decodeWord_encode (i := .sweep) rfl, decodeWord_encode (i := .fit 255) rfl, decodeWord_encode (i := .xint 1) rfl,
    decodeWord_encode (i := .decode true) rfl, decodeWord_encode (i := .pres2 false) rfl, rfl, rfl, rfl, rfl⟩

end Sys2Proof
end

section
/-! ## The range of the synthesized sample and its exact phases (40_synthesizer.md R158, 00_scope.md R26) -/

namespace Sys2Proof.Machine

/-- Where the enclosure is exact the sample is the round-half-up of the exact product (R20, R25). -/
theorem tone_of_exact {k : Int} {amp v : Rat} (h0 : 0 ≤ amp) (h1 : amp ≤ 32767) (hexact : sineBounds (phase k) = (v, v)) :
    tone k amp = ⌊v * amp + 1 / 2⌋ := by
  have hcandidates : toneCandidates k amp = (rhu (v * amp), rhu (v * amp)) := by rw [toneCandidates, hexact]
  rcases tone_eq_or k h0 h1 with htone | htone <;> rw [htone, hcandidates, rhu_eq_floor]

theorem phase_eq_iff {k : Int} {r : Nat} : phase k = r ↔ k % 44100 = r := by
  have hrate : (Config.sampleRate : Int) = 44100 := rfl
  rw [phase, hrate]
  omega

theorem sineBounds_zero : sineBounds 0 = (0, 0) := rfl

theorem sineBounds_quarter : sineBounds 11025 = (1, 1) := rfl

theorem sineBounds_half : sineBounds 22050 = (0, 0) := rfl

theorem sineBounds_threeQuarters : sineBounds 33075 = (-1, -1) := rfl

/-- Settles O32: a sample is a candidate, which lies in the range; at each quarter of a turn the enclosure is exact. -/
theorem toneRangeAndExactPhases : Obligations.ToneRangeAndExactPhases := by
  intro k amp h0 h1
  obtain ⟨hlow, hhigh⟩ := toneCandidates_range k h0 h1
  obtain ⟨hbelow, habove⟩ := toneCandidates_around k h0
  refine ⟨?least, ?greatest, fun hzero => ?zero, fun hquarter => ?quarter, fun hthree => ?threeQuarters⟩
  case least => rcases tone_eq_or k h0 h1 with htone | htone <;> omega
  case greatest => rcases tone_eq_or k h0 h1 with htone | htone <;> omega
  case zero =>
    have hphase : phase k = 0 ∨ phase k = 22050 := by
      rw [phase_eq_iff, phase_eq_iff]
      omega
    have hexact : sineBounds (phase k) = (0, 0) := by
      rcases hphase with hphase | hphase <;> rw [hphase]
      · exact sineBounds_zero
      · exact sineBounds_half
    rw [tone_of_exact h0 h1 hexact]
    norm_num
  case quarter =>
    have hphase : phase k = 11025 := phase_eq_iff.mpr (by omega)
    rw [tone_of_exact h0 h1 (hphase ▸ sineBounds_quarter), one_mul]
  case threeQuarters =>
    have hphase : phase k = 33075 := phase_eq_iff.mpr (by omega)
    rw [tone_of_exact h0 h1 (hphase ▸ sineBounds_threeQuarters), neg_one_mul]

end Sys2Proof.Machine
end

section
/-! ## The output of the synthesizer (40_synthesizer.md R140 to R147, R152, R156) -/

namespace Sys2Proof.Machine

variable {s : State}

/-! ### Legal operands -/

theorem volume_eq (k : Word) : volume k = (k.toNat : Rat) / 10000 := by
  rw [volume, show Config.volDen = 10000 from rfl]
  norm_num

theorem peak_eq (v : Rat) : peak v = v * 32767 := rfl

/-- A volume operand is legal when its fraction is at most 1 (30_encoding.md R118). -/
theorem volume_le_one_iff (k : Word) : (k.toNat : Rat) / 10000 ≤ 1 ↔ k.toNat ≤ 10000 := by
  rw [div_le_one (by norm_num)]
  norm_cast

theorem execSweep_of_legal (hok : s.sweepOperandsOk = true) (hfits : s.sweepFits = true) :
    exec .sweep s = .next (s.putOutput s.sweepWords).complete := by
  simp [exec, execSweep, hok, hfits]

/-- The operands of TWOPH and TTONE that pass their checks (R153). -/
theorem emitTone_of_legal (hf : s.freq.toNat ≠ 0) (hvol : (s.tonevol.toNat : Rat) / 10000 ≤ 1)
    (hcap : 2 * s.dur.toNat ≤ 65536) (words : List Int) : s.emitTone words = (s.putOutput words).complete := by
  have hok : s.toneOperandsOk = true := (toneOperandsOk_iff s).mpr ⟨hf, (volume_le_one_iff _).mp hvol⟩
  have hfits : s.toneFits = true := (toneFits_iff s).mpr hcap
  simp [State.emitTone, hok, hfits]

/-! ### Samples are 16-bit -/

theorem sat16_isI16 (v : Int) : IsI16 (sat16 v) := by
  unfold IsI16 sat16
  omega

theorem tone_isI16 (k : Int) (amp : Rat) : IsI16 (tone k amp) := sat16_isI16 _

/-! ### The state after the output was written -/

/-- The output commands write OLEN, the completion flags and memory. -/
theorem putOutput_complete_eq (s : State) {words : List Int} {n : Nat} (hlen : words.length = n) :
    (s.putOutput words).complete
      = { s with busy := false, done := true, olen := BitVec.ofNat 32 n, mem := (s.putOutput words).complete.mem } := by
  subst hlen
  rfl

theorem putOutput_complete_keepsBytesOutside (s : State) {words : List Int} {n : Nat} (hlen : words.length = n) :
    s.keepsBytesOutside (s.putOutput words).complete Config.obufBase (Config.obufBase + 2 * n) := by
  intro a ha
  refine State.memByte_put_outside rfl (putOutput_sameEpochs s words) ?_
  rwa [output_flatMap_bytes_length, hlen]

/-- A word of the output reads back as the sample it holds. -/
theorem putOutput_complete_obufSample (s : State) {words : List Int} {i : Nat} {v : Int} (hword : words[i]? = some v)
    (hv : IsI16 v) : (s.putOutput words).complete.obufSample i = v := by
  obtain ⟨hi, rfl⟩ := List.getElem?_eq_some_iff.mp hword
  exact State.obufSample_of_put rfl (putOutput_sameEpochs s words) i hi hv

/-! ### The words by cell and frame -/

/-- Word `j` of block `i` of a list made of blocks of `n` words each. -/
theorem getElem?_flatMap_range {g : Nat → List Int} {n : Nat} (hlen : ∀ i, (g i).length = n) {k i j : Nat} (hi : i < k)
    (hj : j < n) : ((List.range k).flatMap g)[i * n + j]? = (g i)[j]? := by
  have htotal (k : Nat) : ((List.range k).flatMap g).length = k * n := by simp [List.length_flatMap, hlen]
  induction k with
  | zero => exact absurd hi (Nat.not_lt_zero i)
  | succ k ih =>
    rw [List.range_succ, List.flatMap_append, List.flatMap_singleton]
    rcases Nat.lt_succ_iff_lt_or_eq.mp hi with hlt | rfl
    · have hinside : i * n + j < k * n :=
        calc i * n + j < i * n + n := by omega
          _ = (i + 1) * n := (Nat.succ_mul i n).symm
          _ ≤ k * n := Nat.mul_le_mul_right n hlt
      rw [List.getElem?_append_left (by rwa [htotal]), ih hlt]
    · rw [List.getElem?_append_right (by rw [htotal]; omega), htotal, Nat.add_sub_cancel_left]

/-- The two words of stereo frame `n` in a list of frames, the left one first (R140). -/
theorem getElem?_stereo {g : Nat → List Int} {N n : Nat} {l r : Int} (hlen : ∀ i, (g i).length = 2) (hn : n < N)
    (hframe : g n = [l, r]) :
    ((List.range N).flatMap g)[2 * n]? = some l ∧ ((List.range N).flatMap g)[2 * n + 1]? = some r := by
  have hleft := getElem?_flatMap_range hlen hn (j := 0) (by norm_num)
  have hright := getElem?_flatMap_range hlen hn (j := 1) (by norm_num)
  rw [hframe, mul_comm n 2] at hleft hright
  exact ⟨hleft, hright⟩

/-- The words of position `m` of cell `c` (R141). -/
theorem getElem?_sweepWords {c m : Nat} (hc : c < s.ncells.toNat) (hm : m < s.sweepSpc) :
    s.sweepWords[2 * (c * s.sweepSpc + m)]? = some (s.sweepLeft c m)
      ∧ s.sweepWords[2 * (c * s.sweepSpc + m) + 1]? = some (s.sweepRight c m) := by
  have hcell (c : Nat) : ((List.range s.sweepSpc).flatMap fun m => [s.sweepLeft c m, s.sweepRight c m]).length
      = 2 * s.sweepSpc := by
    simp [List.length_flatMap, mul_comm]
  obtain ⟨hleft, hright⟩ := getElem?_stereo (g := fun m => [s.sweepLeft c m, s.sweepRight c m]) (fun _ => rfl) hm rfl
  rw [← getElem?_flatMap_range hcell hc (by omega)] at hleft hright
  rw [show 2 * (c * s.sweepSpc + m) = c * (2 * s.sweepSpc) + 2 * m by ring]
  exact ⟨hleft, hright⟩

/-- The words of frame `n` of TWOPH: the tone and silence, on the side that the half decides (R152). -/
theorem getElem?_twophWords {n : Nat} (hn : n < s.dur.toNat) :
    s.twophWords[2 * n]? = some (if n < s.dur.toNat / 2 then s.toneSample n else 0)
      ∧ s.twophWords[2 * n + 1]? = some (if n < s.dur.toNat / 2 then 0 else s.toneSample n) := by
  refine getElem?_stereo (fun i => ?_) hn ?_
  · split <;> rfl
  · split <;> rfl

/-- The words of frame `n` of TTONE: the tone twice (R156). -/
theorem getElem?_ttoneWords {n : Nat} (hn : n < s.dur.toNat) :
    s.ttoneWords[2 * n]? = some (s.toneSample n) ∧ s.ttoneWords[2 * n + 1]? = some (s.toneSample n) :=
  getElem?_stereo (fun _ => rfl) hn rfl

/-! ### The samples as the statements write them -/

theorem toneSample_isI16 (s : State) (n : Nat) : IsI16 (s.toneSample n) := tone_isI16 _ _

theorem toneSample_eq (s : State) (n : Nat) :
    s.toneSample n = tone (s.freq.toNat * n) ((s.tonevol.toNat : Rat) / 10000 * 32767) := by
  rw [State.toneSample, volume_eq, peak_eq]

theorem sweepLeft_isI16 (s : State) (c m : Nat) : IsI16 (s.sweepLeft c m) := by
  unfold State.sweepLeft
  split <;> exact tone_isI16 _ _

theorem sweepRight_isI16 (s : State) (c m : Nat) : IsI16 (s.sweepRight c m) := by
  unfold State.sweepRight
  split <;> exact tone_isI16 _ _

/-- In the sync cell both channels carry the same sample (R147). -/
theorem sweep_sync (s : State) (m : Nat) :
    s.sweepLeft s.syncidx.toNat m = tone (-2 * s.freq.toNat * m) ((s.refvol.toNat : Rat) / 10000 * 32767)
      ∧ s.sweepRight s.syncidx.toNat m = tone (-2 * s.freq.toNat * m) ((s.refvol.toNat : Rat) / 10000 * 32767) := by
  simp only [State.sweepLeft, State.sweepRight, if_true, volume_eq, peak_eq, and_self]

/-- The left sample of another cell, at the volume of the cell's rank (R144, R145). -/
theorem sweepLeft_of_ne {c : Nat} (hc : c ≠ s.syncidx.toNat) (m : Nat) :
    s.sweepLeft c m = tone (s.freq.toNat * m)
      (((s.maxvol.toNat : Rat) / 10000 - (sweepRank s.syncidx.toNat c : Rat)
        * (((s.maxvol.toNat : Rat) / 10000 - (s.minvol.toNat : Rat) / 10000) / ((s.ncells.toNat : Rat) - 2))) * 32767) := by
  rw [State.sweepLeft, if_neg hc, State.sweepVolume, State.sweepStep, volume_eq, volume_eq, peak_eq]

/-- The right sample of another cell, at the reference volume in the opposite phase (R146). -/
theorem sweepRight_of_ne {c : Nat} (hc : c ≠ s.syncidx.toNat) (m : Nat) :
    s.sweepRight c m = tone (-(s.freq.toNat * m)) ((s.refvol.toNat : Rat) / 10000 * 32767) := by
  rw [State.sweepRight, if_neg hc, volume_eq, peak_eq]

end Sys2Proof.Machine

namespace Sys2Proof

open Machine

/-- Settles O28: legal operands pass the checks, and each word of a cell reads back as the sample at its position. -/
theorem sweepWritesTheSweep : Obligations.SweepWritesTheSweep := by
  rintro s _ _ _ _ spc _ _ _ rfl rfl rfl rfl rfl rfl rfl hf hppc hcells hsync href hmax hmin hspc hcap
  have hdiv : s.sweepSpc = spc := Nat.div_eq_of_eq_mul_right (Nat.pos_of_ne_zero hf) hspc.symm
  subst hdiv
  have hok : s.sweepOperandsOk = true := (sweepOperandsOk_iff s).mpr
    ⟨hf, hppc, hcells, hsync, (volume_le_one_iff _).mp href, (volume_le_one_iff _).mp hmax, (volume_le_one_iff _).mp hmin,
      Nat.mod_eq_zero_of_dvd ⟨_, hspc.symm⟩⟩
  have hfits : s.sweepFits = true := (sweepFits_iff s).mpr hcap
  refine ⟨_, execSweep_of_legal hok hfits, putOutput_complete_eq s (sweepWords_length s),
    putOutput_complete_keepsBytesOutside s (sweepWords_length s), fun c m n hc hm hn => ?_⟩
  subst hn
  obtain ⟨hleft, hright⟩ := getElem?_sweepWords hc hm
  rw [putOutput_complete_obufSample s hleft (sweepLeft_isI16 s c m),
    putOutput_complete_obufSample s hright (sweepRight_isI16 s c m)]
  refine ⟨?sync, fun hne j hj => ?other⟩
  case sync =>
    rintro rfl
    exact sweep_sync s m
  case other =>
    subst hj
    exact ⟨sweepLeft_of_ne hne m, sweepRight_of_ne hne m⟩

/-- Settles O29: the half that a frame lies in decides which of its two words is the tone and which is 0. -/
theorem twophWritesTheTone : Obligations.TwophWritesTheTone := by
  refine ⟨decodeWord_encode (i := .twoph) rfl, ?_⟩
  rintro s _ _ _ rfl rfl rfl hf hvol hcap
  have hexec : exec .twoph s = .next (s.putOutput s.twophWords).complete :=
    congrArg Host.Outcome.next (emitTone_of_legal hf hvol hcap _)
  refine ⟨_, hexec, putOutput_complete_eq s (twophWords_length s),
    putOutput_complete_keepsBytesOutside s (twophWords_length s), fun n hn => ?_⟩
  obtain ⟨hleft, hright⟩ := getElem?_twophWords hn
  rw [← toneSample_eq]
  refine ⟨fun hfirst => ?first, fun hsecond => ?second⟩
  case first =>
    rw [if_pos hfirst] at hleft hright
    exact ⟨putOutput_complete_obufSample s hleft (toneSample_isI16 s n),
      putOutput_complete_obufSample s hright (by decide)⟩
  case second =>
    rw [if_neg (Nat.not_lt.mpr hsecond)] at hleft hright
    exact ⟨putOutput_complete_obufSample s hleft (by decide),
      putOutput_complete_obufSample s hright (toneSample_isI16 s n)⟩

/-- Settles O30: both words of every frame are the tone. -/
theorem ttoneWritesTheTone : Obligations.TtoneWritesTheTone := by
  refine ⟨decodeWord_encode (i := .ttone) rfl, ?_⟩
  rintro s _ _ _ rfl rfl rfl hf hvol hcap
  have hexec : exec .ttone s = .next (s.putOutput s.ttoneWords).complete :=
    congrArg Host.Outcome.next (emitTone_of_legal hf hvol hcap _)
  refine ⟨_, hexec, putOutput_complete_eq s (ttoneWords_length s),
    putOutput_complete_keepsBytesOutside s (ttoneWords_length s), fun n hn => ?_⟩
  obtain ⟨hleft, hright⟩ := getElem?_ttoneWords hn
  rw [← toneSample_eq]
  exact ⟨putOutput_complete_obufSample s hleft (toneSample_isI16 s n),
    putOutput_complete_obufSample s hright (toneSample_isI16 s n)⟩

end Sys2Proof
end

section
/-! ## The extractor's events, crossing by crossing (41_sample_extractor.md R170 to R178, 42_frame_sync_cells.md R207) -/

namespace Sys2Proof.Machine

/-! ### The crossings from an index on -/

/-- The sign at index `i` differs from the one before (R171). -/
def crossesAt (buf : List Int) (i : Nat) : Bool := decide (0 < i) && (neg (buf.getD (i - 1) 0) != neg (buf.getD i 0))

/-- The crossings at index `i` and after it. -/
def crossingsFrom (buf : List Int) (i : Nat) : List Nat := (List.range' i (buf.length - i)).filter (crossesAt buf)

theorem crossingsFrom_of_lt {buf : List Int} {i : Nat} (hi : i < buf.length) :
    crossingsFrom buf i
      = if crossesAt buf i = true then i :: crossingsFrom buf (i + 1) else crossingsFrom buf (i + 1) := by
  have hcount : buf.length - i = buf.length - (i + 1) + 1 := by omega
  rw [crossingsFrom, hcount, List.range'_succ, List.filter_cons, crossingsFrom]

theorem crossingsFrom_of_le {buf : List Int} {i : Nat} (hi : buf.length ≤ i) : crossingsFrom buf i = [] := by
  rw [crossingsFrom, Nat.sub_eq_zero_of_le hi, List.range'_zero, List.filter_nil]

/-- Index 0 has no sample before it and is no crossing. -/
theorem crossingsOf_eq_crossingsFrom_one (buf : List Int) : crossingsOf buf = crossingsFrom buf 1 := by
  have hall : crossingsOf buf = crossingsFrom buf 0 := by
    rw [crossingsFrom, Nat.sub_zero, ← List.range_eq_range']
    rfl
  rw [hall]
  rcases Nat.eq_zero_or_pos buf.length with hempty | hpos
  · rw [crossingsFrom_of_le (by omega), crossingsFrom_of_le (by omega)]
  · exact crossingsFrom_of_lt hpos

/-- Every crossing lies at one of the indices 1 to `len - 1` (R178). -/
theorem crossingsOf_length_le (buf : List Int) : (crossingsOf buf).length ≤ buf.length - 1 := by
  rw [crossingsOf_eq_crossingsFrom_one]
  exact (List.length_filter_le _ _).trans_eq List.length_range'

/-! ### The first greatest magnitude of a span -/

/-- `p` is the least of the indices from `lo` up and below `hi` whose magnitude is the greatest of theirs (R175). -/
structure IsFirstPeak (buf : List Int) (lo hi p : Nat) : Prop where
  lo_le : lo ≤ p
  lt_hi : p < hi
  greatest : ∀ j, lo ≤ j → j < hi → mag (buf.getD j 0) ≤ mag (buf.getD p 0)
  first : ∀ j, lo ≤ j → j < p → mag (buf.getD j 0) < mag (buf.getD p 0)

theorem isFirstPeak_singleton (buf : List Int) (lo : Nat) : IsFirstPeak buf lo (lo + 1) lo where
  lo_le := le_rfl
  lt_hi := Nat.lt_succ_self lo
  greatest j hlo hhi := by rw [Nat.le_antisymm (Nat.lt_succ_iff.mp hhi) hlo]
  first _ hlo hlt := absurd hlo (Nat.not_le.mpr hlt)

/-- A sample of strictly greater magnitude than the peak before it is the new peak. -/
theorem IsFirstPeak.replace {buf : List Int} {lo hi p : Nat} (h : IsFirstPeak buf lo hi p)
    (hgt : mag (buf.getD p 0) < mag (buf.getD hi 0)) : IsFirstPeak buf lo (hi + 1) hi where
  lo_le := h.lo_le.trans h.lt_hi.le
  lt_hi := Nat.lt_succ_self hi
  greatest j hlo hhi := by
    rcases Nat.lt_succ_iff_lt_or_eq.mp hhi with hlt | rfl
    · exact (h.greatest j hlo hlt).trans hgt.le
    · exact le_rfl
  first j hlo hlt := (h.greatest j hlo hlt).trans_lt hgt

/-- A sample of the same or a smaller magnitude leaves the peak (R175). -/
theorem IsFirstPeak.keep {buf : List Int} {lo hi p : Nat} (h : IsFirstPeak buf lo hi p)
    (hle : mag (buf.getD hi 0) ≤ mag (buf.getD p 0)) : IsFirstPeak buf lo (hi + 1) p where
  lo_le := h.lo_le
  lt_hi := Nat.lt_succ_of_lt h.lt_hi
  greatest j hlo hhi := by
    rcases Nat.lt_succ_iff_lt_or_eq.mp hhi with hlt | rfl
    · exact h.greatest j hlo hlt
    · exact hle
  first := h.first

theorem IsFirstPeak.peakIndex_eq {buf : List Int} {lo hi p : Nat} (h : IsFirstPeak buf lo hi p) :
    peakIndex buf lo hi = p := by
  have hfind : (List.range' lo (hi - lo)).find? (fun p => (List.range' lo (hi - lo)).all fun j =>
      decide (mag (buf.getD j 0) ≤ mag (buf.getD p 0))) = some p := by
    rw [List.find?_range'_eq_some]
    have hmem (j : Nat) : j ∈ List.range' lo (hi - lo) ↔ lo ≤ j ∧ j < hi := by
      rw [List.mem_range'_1]
      omega
    refine ⟨?_, (hmem p).mpr ⟨h.lo_le, h.lt_hi⟩, fun j hlo hlt => ?_⟩
    · simp only [List.all_eq_true, decide_eq_true_eq, hmem]
      exact fun j ⟨hlo, hhi⟩ => h.greatest j hlo hhi
    · simp only [Bool.not_eq_true', List.all_eq_false, decide_eq_true_eq]
      exact ⟨p, (hmem p).mpr ⟨h.lo_le, h.lt_hi⟩, Nat.not_le.mpr (h.first j hlo hlt)⟩
  rw [peakIndex, hfind, Option.getD_some]

/-- The samples at the indices from `lo` up and below `hi`. -/
def samplesIn (buf : List Int) (lo hi : Nat) : List Int := (List.range' lo (hi - lo)).map fun j => buf.getD j 0

theorem samplesIn_cons {lo hi : Nat} (buf : List Int) (h : lo < hi) :
    samplesIn buf lo hi = buf.getD lo 0 :: samplesIn buf (lo + 1) hi := by
  have hcount : hi - lo = hi - (lo + 1) + 1 := by omega
  rw [samplesIn, hcount, List.range'_succ, List.map_cons, samplesIn]

theorem samplesIn_concat {lo hi : Nat} (buf : List Int) (h : lo ≤ hi) :
    samplesIn buf lo (hi + 1) = samplesIn buf lo hi ++ [buf.getD hi 0] := by
  have hcount : hi + 1 - lo = hi - lo + 1 := by omega
  rw [samplesIn, hcount, List.range'_1_concat, List.map_append, Nat.add_sub_cancel' h, samplesIn, List.map_singleton]

theorem samplesIn_self (buf : List Int) (i : Nat) : samplesIn buf i i = [] := by
  rw [samplesIn, Nat.sub_self, List.range'_zero, List.map_nil]

/-- The scan that holds the first peak of the samples below `i` ends with that of the samples below `hi`. -/
theorem firstGreatest_of_isFirstPeak {buf : List Int} {lo hi : Nat} (n : Nat) : ∀ (p i : Nat), i + n = hi →
    IsFirstPeak buf lo i p →
      firstGreatest (buf.getD p 0) p i (samplesIn buf i hi) = (buf.getD (peakIndex buf lo hi) 0, peakIndex buf lo hi) := by
  induction n with
  | zero =>
    rintro p i rfl hpeak
    rw [Nat.add_zero, samplesIn_self, firstGreatest, hpeak.peakIndex_eq]
  | succ n ih =>
    intro p i hend hpeak
    rw [samplesIn_cons buf (by omega), firstGreatest]
    split
    case isTrue hgt => exact ih i (i + 1) (by omega) (hpeak.replace hgt)
    case isFalse hle => exact ih p (i + 1) (by omega) (hpeak.keep (Nat.not_lt.mp hle))

/-- The extremum of a span is the event of its first peak (R176). -/
theorem extremum_samplesIn {lo hi : Nat} (buf : List Int) (h : lo < hi) :
    extremum lo (samplesIn buf lo hi)
      = [{ amplitude := buf.getD (peakIndex buf lo hi) 0, bufferIndex := peakIndex buf lo hi
           delta := peakIndex buf lo hi - lo
           kind := if 0 ≤ buf.getD (peakIndex buf lo hi) 0 then .max else .min }] := by
  have hscan := firstGreatest_of_isFirstPeak (hi := hi) (hi - (lo + 1)) lo (lo + 1) (by omega) (isFirstPeak_singleton buf lo)
  rw [samplesIn_cons buf h, extremum, hscan]

/-! ### The pass at an index -/

/-- What the single pass holds when it comes to index `i`: `last` is the sample before `i`, `span` the samples from the last
crossing `prev` on, the latest first, and `rest` the samples from `i` on. -/
structure PassAt (buf : List Int) (prev i : Nat) (last : Int) (span rest : List Int) : Prop where
  prev_lt : prev < i
  last_eq : last = buf.getD (i - 1) 0
  span_eq : span.reverse = samplesIn buf prev i
  rest_eq : buf.drop i = rest

theorem passAt_start (b : Int) (rest : List Int) : PassAt (b :: rest) 0 1 b [b] rest := ⟨Nat.zero_lt_one, rfl, rfl, rfl⟩

section
variable {buf span rest : List Int} {prev i : Nat} {last v : Int}

theorem PassAt.length_le (h : PassAt buf prev i last span []) : buf.length ≤ i := List.drop_eq_nil_iff.mp h.rest_eq

theorem PassAt.lt_length (h : PassAt buf prev i last span (v :: rest)) : i < buf.length := by
  by_contra hge
  exact List.cons_ne_nil v rest (h.rest_eq.symm.trans (List.drop_eq_nil_of_le (Nat.not_lt.mp hge)))

theorem PassAt.getD_eq (h : PassAt buf prev i last span (v :: rest)) : buf.getD i 0 = v := by
  rw [List.getD_eq_getElem?_getD, ← List.head?_drop, h.rest_eq, List.head?_cons, Option.getD_some]

theorem PassAt.drop_succ (h : PassAt buf prev i last span (v :: rest)) : buf.drop (i + 1) = rest := by
  rw [← List.tail_drop, h.rest_eq, List.tail_cons]

/-- The test of the pass is whether index `i` is a crossing. -/
theorem PassAt.crossesAt_eq (h : PassAt buf prev i last span (v :: rest)) : crossesAt buf i = (neg last != neg v) := by
  rw [crossesAt, h.getD_eq, ← h.last_eq, decide_eq_true (Nat.zero_lt_of_lt h.prev_lt), Bool.true_and]

/-- Past a sample that is no crossing the span grows by it. -/
theorem PassAt.extend (h : PassAt buf prev i last span (v :: rest)) : PassAt buf prev (i + 1) v (v :: span) rest where
  prev_lt := Nat.lt_succ_of_lt h.prev_lt
  last_eq := h.getD_eq.symm
  span_eq := by rw [List.reverse_cons, h.span_eq, samplesIn_concat buf h.prev_lt.le, h.getD_eq]
  rest_eq := h.drop_succ

/-- A crossing opens a new span. -/
theorem PassAt.cross (h : PassAt buf prev i last span (v :: rest)) : PassAt buf i (i + 1) v [v] rest where
  prev_lt := Nat.lt_succ_self i
  last_eq := h.getD_eq.symm
  span_eq := by rw [List.reverse_singleton, samplesIn_concat buf le_rfl, samplesIn_self, h.getD_eq, List.nil_append]
  rest_eq := h.drop_succ

/-- What the pass emits at a crossing after the first are the events of the span it closes (R172, R173). -/
theorem PassAt.span_events (h : PassAt buf prev i last span (v :: rest)) :
    (if decide (Config.minSpan ≤ i - prev) = true then extremum prev span.reverse else []) ++ [crossing prev i v]
      = eventsOfSpan buf prev i := by
  simp only [h.span_eq, extremum_samplesIn buf h.prev_lt, crossing, ← h.getD_eq, eventsOfSpan, decide_eq_true_eq]
  rfl

/-- Once a crossing was seen, the pass emits the events of one span for each crossing to come. -/
theorem PassAt.extractFrom_seen (h : PassAt buf prev i last span rest) :
    extractFrom prev true i last span rest
      = ((prev :: crossingsFrom buf i).zip (crossingsFrom buf i)).flatMap fun p => eventsOfSpan buf p.1 p.2 := by
  induction rest generalizing prev i last span with
  | nil => rw [extractFrom, crossingsFrom_of_le h.length_le, List.zip_nil_right, List.flatMap_nil]
  | cons v rest ih =>
    rw [extractFrom, crossingsFrom_of_lt h.lt_length, h.crossesAt_eq, Bool.true_and]
    split
    case isTrue hcross =>
      rw [ih h.cross, List.append_cons, h.span_events, List.zip_cons_cons, List.flatMap_cons]
    case isFalse hsame => exact ih h.extend

theorem eventsOfCrossings_of_cons {cs : List Nat} (h : crossingsOf buf = i :: cs) :
    eventsOfCrossings buf
      = crossing 0 i (buf.getD i 0) :: ((i :: cs).zip cs).flatMap fun p => eventsOfSpan buf p.1 p.2 := by
  rw [eventsOfCrossings, h]
  rfl

/-- Before the first crossing nothing was emitted, and all crossings of the buffer are still to come (R174). -/
theorem PassAt.extractFrom_unseen (h : PassAt buf 0 i last span rest) (hnone : crossingsOf buf = crossingsFrom buf i) :
    extractFrom 0 false i last span rest = eventsOfCrossings buf := by
  induction rest generalizing i last span with
  | nil =>
    rw [crossingsFrom_of_le h.length_le] at hnone
    rw [extractFrom, eventsOfCrossings, hnone]
  | cons v rest ih =>
    rw [crossingsFrom_of_lt h.lt_length, h.crossesAt_eq] at hnone
    rw [extractFrom]
    split
    case isTrue hcross =>
      rw [if_pos hcross] at hnone
      rw [eventsOfCrossings_of_cons hnone, h.getD_eq, h.cross.extractFrom_seen]
      rfl
    case isFalse hsame =>
      rw [if_neg hsame] at hnone
      exact ih h.extend hnone

end

/-- Settles O34: the pass starts before index 1 with every crossing still to come. -/
theorem extractionIsCrossingByCrossing : Obligations.ExtractionIsCrossingByCrossing := by
  intro buf
  cases buf with
  | nil => rfl
  | cons b rest => exact (passAt_start b rest).extractFrom_unseen (crossingsOf_eq_crossingsFrom_one (b :: rest))

/-- Settles O40: crossings lie at the indices from 1 on, each emits at most two events, and a frame takes 229 samples. -/
theorem capacityBounds : Obligations.CapacityBounds := by
  intro buf
  obtain ⟨hevents, -, -⟩ := extractEvents_spec buf
  have hframes := framesOf_cost buf
  exact ⟨crossingsOf_length_le buf, hevents, hframes, fun hfits => ⟨by omega, by omega⟩⟩

/-! ### EXTRACT -/

variable {s : State}

theorem execExtract_of_fits (hfits : s.ilen.toNat ≤ Config.ibufMax) :
    exec .extract s = .next (s.putSamples (extractEvents s.buffer)).complete := by
  have hbuf : s.buffer.length ≤ Config.ibufMax := by rwa [State.buffer_length]
  simp [exec, execExtract, State.ilenOk, hfits, State.extractInto_eq s hbuf]

theorem execExtract_of_overlong (hover : Config.ibufMax < s.ilen.toNat) :
    exec .extract s = .next (s.raiseFault .badOperand) := by
  simp [exec, execExtract, State.ilenOk, hover]

/-- The last word of an event record is the number of its kind (20_memory.md R83). -/
theorem State.evtWord_kind_of_put {s t : State} {l : List Sample} {p : Nat} {x : Sample}
    (hmem : t.mem = s.mem.put Config.evtBase (l.flatMap Sample.bytes)) (hepochs : s.sameEpochs t) (hx : l[p]? = some x) :
    t.evtWord p 3 = BitVec.ofNat 32 x.kind.number := by
  obtain ⟨hp, rfl⟩ := List.getElem?_eq_some_iff.mp hx
  exact State.memWord_record hmem hepochs (fun _ _ => rfl) p 3 hp (by norm_num) _
    (by intro k hk; interval_cases k <;> rfl)

/-- The host reads the kind of a valid event at offset 12 of its record (R42). -/
theorem putSamples_complete_hostReadValue_kind (s : State) {l : List Sample} (hlen : l.length < Config.evtMax) {p : Nat}
    {x : Sample} (hx : l[p]? = some x) :
    (s.putSamples l).complete.hostReadValue (BitVec.ofNat 32 (0x00100000 + 16 * p + 12)) .w32
      = BitVec.ofNat 32 x.kind.number := by
  obtain ⟨hp, -⟩ := List.getElem?_eq_some_iff.mp hx
  have hmax : Config.evtMax = 65536 := rfl
  have hvalid : p < (s.putSamples l).complete.ecnt.toNat := by
    show p < (BitVec.ofNat 32 l.length).toNat
    rw [BitVec.toNat_ofNat, Nat.mod_eq_of_lt (by omega)]
    exact hp
  rw [← State.evtWord_kind_of_put (s := s) (t := (s.putSamples l).complete) rfl (putSamples_sameEpochs s l) hx]
  exact hostReadValue_evt rfl (by omega) hvalid 3 (by norm_num)

/-- Settles O33: a buffer that fits IBUF has events that fit EVT, and its events read back from what was written. -/
theorem extractWritesTheEvents : Obligations.ExtractWritesTheEvents := by
  refine ⟨decodeWord_encode (i := .extract) rfl, fun s => ⟨fun hfits => ?_, fun hover => execExtract_of_overlong hover⟩⟩
  have hbuf : s.buffer.length ≤ Config.ibufMax := by rwa [State.buffer_length]
  refine ⟨_, execExtract_of_fits hfits, rfl, ?samples, fun p x hx => ?kind, ?frame⟩
  case samples => exact State.samples_of_extract s.buffer_isI16 hbuf rfl (putSamples_sameEpochs s (extractEvents s.buffer)) rfl
  case kind =>
    rw [putSamples_complete_hostReadValue_kind s (extractEvents_length_lt hbuf) hx]
    cases x.kind <;> rfl
  case frame => exact State.putSamples_keepsOutside s (extractEvents s.buffer)

end Sys2Proof.Machine
end

section
/-! ## The frame record of nine amplitudes (42_frame_sync_cells.md R202 to R204) -/

namespace Sys2Proof.Machine

theorem correctedCells_getElem? {amps : List Nat} (hlen : amps.length = 9) {c : Nat} (hc : c < 8) :
    (correctedCells amps)[c]? = some
      (if c < minimumCell amps then { amplitude := (amps.getD c 0 : Int), index := c }
      else { amplitude := -(amps.getD (c + 1) 0 : Int), index := c + 1 }) := by
  rw [correctedCells_eq hlen, List.getElem?_map, List.getElem?_range hc, Option.map_some]

/-- Settles O39: the cell is the minimum cell, the first least of the nine. -/
theorem frameRecordShape : Obligations.FrameRecordShape := by
  rintro base events raw rfl
  have hlen := rawAmplitudes_length base events
  have hcap := rawAmplitudes_le base events
  have hne : rawAmplitudes base events ≠ [] := List.ne_nil_of_length_pos (by omega)
  obtain ⟨hlt, hleast, hfirst⟩ := minimumCell_spec hne
  rw [hlen] at hlt hleast
  exact ⟨hlen, hcap, correctedCells_frameRecord hlen hcap, _, hlt, hleast, hfirst,
    fun c hc => correctedCells_getElem? hlen hc⟩

end Sys2Proof.Machine
end

section
/-! ## The state machine of the frame synchronizer (42_frame_sync_cells.md R191 to R195) -/

namespace Sys2Proof.Machine

variable {st : SyncState} {x : Sample} {p : Nat}

/-- The machine takes the events in their order, each with its position. -/
theorem SyncState.over_eq_foldl (st : SyncState) (p : Nat) (events : List Sample) :
    st.over p events = (events.zipIdx p).foldl (fun st y => st.advance y.1 y.2) st := by
  induction events generalizing st p with
  | nil => rfl
  | cons x rest ih => rw [SyncState.over, ih, List.zipIdx_cons, List.foldl_cons]

/-- An extremum is skipped (R192). -/
theorem SyncState.advance_of_extremum (hkind : x.kind ≠ .zero) : st.advance x p = st := by
  rw [SyncState.advance, if_pos hkind]

/-- A crossing of the marker is counted, and marks the tentative end (R194). -/
theorem SyncState.advance_of_sync (hkind : x.kind = .zero) (hsync : isSync x.delta = true) :
    st.advance x p = { st with
      syncCount := st.syncCount + 1
      frameEnd := if st.frameStart ≠ 0 ∧ st.frameEnd = 0 then p else st.frameEnd } := by
  rw [SyncState.advance, if_neg (not_not.mpr hkind), if_pos hsync]

/-- A normal crossing that ends an accepted marker starts a frame and completes the one whose end is marked (R195). -/
theorem SyncState.advance_of_accepted (hkind : x.kind = .zero) (hnormal : ¬ isSync x.delta = true)
    (haccepted : markerAccepted st.syncCount = true) :
    st.advance x p = {
      syncCount := 0, frameStart := p, frameEnd := 0
      spans := if st.frameEnd ≠ 0 then st.spans ++ [(st.frameStart, st.frameEnd)] else st.spans } := by
  rw [SyncState.advance, if_neg (not_not.mpr hkind), if_neg hnormal]
  simp only [haccepted, if_true, true_and]

/-- A normal crossing that ends no accepted marker drops the count and the tentative end (R195, R196). -/
theorem SyncState.advance_of_rejected (hkind : x.kind = .zero) (hnormal : ¬ isSync x.delta = true)
    (hrejected : ¬ markerAccepted st.syncCount = true) :
    st.advance x p = { st with syncCount := 0, frameEnd := 0 } := by
  rw [SyncState.advance, if_neg (not_not.mpr hkind), if_neg hnormal, if_neg hrejected, if_neg fun h => hrejected h.1]

/-- Settles O37: an extremum, a sync crossing, and a normal crossing after an accepted and after a rejected marker. -/
theorem syncMachineTransitions : Obligations.SyncMachineTransitions := by
  refine ⟨fun _ => rfl, isSync_iff, rfl, SyncState.over_eq_foldl, fun st x p =>
    ⟨SyncState.advance_of_extremum, fun hkind hlow hhigh => ?sync, fun hkind hdistance => ?normal⟩⟩
  case sync => exact SyncState.advance_of_sync hkind ((isSync_iff _).mpr ⟨hlow, hhigh⟩)
  case normal =>
    have hnormal : ¬ isSync x.delta = true := by
      rw [isSync_iff]
      omega
    by_cases hmarker : markerAccepted st.syncCount = true
    · rw [SyncState.advance_of_accepted hkind hnormal hmarker]
      obtain ⟨hlow, hhigh⟩ := (markerAccepted_iff _).mp hmarker
      exact ⟨rfl, rfl, fun _ _ => ⟨rfl, fun hend => if_pos hend, fun hend => if_neg (not_not.mpr hend)⟩,
        fun houtside => by omega⟩
    · rw [SyncState.advance_of_rejected hkind hnormal hmarker]
      rw [markerAccepted_iff] at hmarker
      exact ⟨rfl, rfl, fun hlow hhigh => absurd ⟨hlow, hhigh⟩ hmarker, fun _ => ⟨rfl, rfl⟩⟩

end Sys2Proof.Machine
end

section
/-! ## The points of a frame, its buckets, and the amplitude of a cell (42_frame_sync_cells.md R198 to R201) -/

namespace Sys2Proof.Machine

variable {l : List Nat}

/-! ### The buckets -/

/-- The range of rebased indices of a bucket; only bucket 0 holds its own lower end, index 0 (R199). -/
theorem bucketOf_eq_iff (x k : Nat) : bucketOf x = k ↔ (k = 0 ∨ 441 * k < x) ∧ x ≤ 441 * (k + 1) := by
  rw [bucketOf_eq]
  split <;> omega

theorem bucketOf_mono {x y : Nat} (h : x ≤ y) : bucketOf x ≤ bucketOf y := by
  obtain ⟨-, hupper⟩ := (bucketOf_eq_iff y _).mp rfl
  obtain ⟨hlower, -⟩ := (bucketOf_eq_iff x _).mp rfl
  omega

/-! ### The points, position by position -/

/-- The elements at `n` positions from `a` on, position by position. -/
theorem take_drop_eq_filterMap {α : Type} (l : List α) (a n : Nat) :
    (l.drop a).take n = (List.range' a n).filterMap fun p => l[p]? := by
  induction n generalizing a with
  | zero => rfl
  | succ n ih =>
    rw [List.range'_succ, List.filterMap_cons, ← ih]
    cases h : l[a]? with
    | none =>
      have hend := List.getElem?_eq_none_iff.mp h
      rw [List.drop_eq_nil_of_le hend, List.drop_eq_nil_of_le (by omega), List.take_nil, List.take_nil]
    | some x =>
      obtain ⟨ha, rfl⟩ := List.getElem?_eq_some_iff.mp h
      rw [List.drop_eq_getElem_cons ha, List.take_succ_cons]

/-- The capped magnitude of an event that is an extremum of cell `k` of a frame with base `base`, else nothing. -/
def cellPoint (base k : Nat) (x : Sample) : Option Nat :=
  if x.kind ≠ .zero ∧ (k = 0 ∨ base + 441 * k < x.bufferIndex) ∧ x.bufferIndex ≤ base + 441 * (k + 1) then
    some (min x.amplitude.natAbs 32767)
  else none

theorem cellPoint_eq (base k : Nat) (x : Sample) :
    cellPoint base k x
      = if x.kind ≠ .zero ∧ bucketOf (x.bufferIndex - base) = k then some (cellMagnitude x.amplitude) else none := by
  have hrange : bucketOf (x.bufferIndex - base) = k
      ↔ (k = 0 ∨ base + 441 * k < x.bufferIndex) ∧ x.bufferIndex ≤ base + 441 * (k + 1) := by
    rw [bucketOf_eq_iff]
    omega
  simp only [hrange]
  rfl

theorem bucket_eq_filterMap (base k : Nat) (events : List Sample) :
    bucket base events k = events.filterMap (cellPoint base k) := by
  rw [bucket, ← List.filterMap_eq_map, List.filterMap_filter]
  refine List.filterMap_congr fun x _ => ?_
  simp [cellPoint_eq]

theorem cellPoints_of_none {events : List Sample} {fs : Nat} (h : events[fs]? = none) (fe k : Nat) :
    cellPoints events fs fe k = [] := by
  simp [cellPoints, h]

theorem cellPoints_of_some {events : List Sample} {fs : Nat} {first : Sample} (h : events[fs]? = some first) (fe k : Nat) :
    cellPoints events fs fe k
      = (List.range' fs (fe + 1 - fs)).filterMap fun p => events[p]?.bind (cellPoint first.bufferIndex k) := by
  rw [cellPoints, h]
  refine List.filterMap_congr fun p _ => ?_
  cases events[p]? <;> rfl

/-- The bucket of the events of a frame holds the points of its cell. -/
theorem bucket_frameEvents (events : List Sample) (fs fe k : Nat) :
    bucket (frameBase events fs) (frameEvents events fs fe) k = cellPoints events fs fe k := by
  rw [frameEvents]
  cases h : events[fs]? with
  | none => rw [cellPoints_of_none h, List.drop_eq_nil_of_le (List.getElem?_eq_none_iff.mp h), List.take_nil]; rfl
  | some first =>
    have hbase : frameBase events fs = first.bufferIndex := by rw [frameBase, h, Option.map_some, Option.getD_some]
    rw [cellPoints_of_some h, hbase, bucket_eq_filterMap, take_drop_eq_filterMap, List.filterMap_filterMap]

theorem frameCells_eq_cellPoints (events : List Sample) (fs fe : Nat) :
    frameCells events fs fe = correctedCells ((List.range 9).map fun k => cellAmplitude (cellPoints events fs fe k)) := by
  simp only [frameCells, rawAmplitudes, bucket_frameEvents]
  rfl

/-! ### The amplitude of a cell -/

theorem trimEdges_of_short (h : l.length ≤ 3) : trimEdges l = l := if_neg (Nat.not_lt_of_le h)

theorem trimEdges_of_edges (a b : Nat) (h : 2 ≤ l.length) : trimEdges (a :: (l ++ [b])) = l := by
  have hlong : Config.edgeDropMin < (a :: (l ++ [b])).length := by
    simp only [Config.edgeDropMin, List.length_cons, List.length_append, List.length_nil]
    omega
  rw [trimEdges, if_pos hlong, List.tail_cons, List.dropLast_concat]

/-- The amplitude of a cell is the upper median of the points that are kept (00_scope.md R24). -/
theorem cellAmplitude_isAtRank {points : List Nat} (hkept : trimEdges points = l) (hne : l ≠ []) :
    IsAtRank l (l.length / 2) (cellAmplitude points) := by
  obtain ⟨v, hmedian, hrank⟩ := median_isSome hne
  rwa [cellAmplitude, hkept, hmedian, Option.getD_some]

/-- Settles O38: the points are the buckets of the frame's events, and the amplitude is the median of the kept points. -/
theorem bucketsAndCellAmplitudes : Obligations.BucketsAndCellAmplitudes := by
  refine ⟨frameCells_eq_cellPoints, fun x => ?first, fun x k hk => ?later, fun _ _ => bucketOf_mono, fun _ => rfl, rfl,
    fun l hne hshort => cellAmplitude_isAtRank (trimEdges_of_short hshort) hne, fun a b l hlong =>
      cellAmplitude_isAtRank (trimEdges_of_edges a b hlong) (List.ne_nil_of_length_pos (by omega))⟩
  case first | later =>
    rw [bucketOf_eq_iff]
    omega

end Sys2Proof.Machine
end

section
/-! ## FSYNC (42_frame_sync_cells.md R190) -/

namespace Sys2Proof.Machine

variable {s : State}

/-- The state after FSYNC, where its frames fit FRM. -/
def State.fsynced (s : State) : State :=
  ((s.clearXi.putFrames (framesOf s.samples)).putSync (SyncState.start.over 0 s.samples)).complete

theorem execFsync_of_fits (hfits : (framesOf s.samples).length ≤ Config.frmMax) : exec .fsync s = .next s.fsynced := by
  rw [exec, execFsync, State.synchronize_eq s hfits]
  rfl

/-- FSYNC writes FCNT, the registers of the state machine, XI and memory. -/
theorem State.fsynced_eq (s : State) :
    s.fsynced = { s with
      busy := false, done := true, fcnt := BitVec.ofNat 32 (SyncState.start.over 0 s.samples).spans.length
      synccnt := BitVec.ofNat 32 (SyncState.start.over 0 s.samples).syncCount
      fstart := BitVec.ofNat 32 (SyncState.start.over 0 s.samples).frameStart
      fend := BitVec.ofNat 32 (SyncState.start.over 0 s.samples).frameEnd
      xi := s.fsynced.xi, mem := s.fsynced.mem } := by
  rw [← framesOf_length]
  rfl

theorem State.fsynced_mem (s : State) :
    s.fsynced.mem = s.mem.put Config.frmBase ((framesOf s.samples).flatMap (·.flatMap CalCell.bytes)) := rfl

theorem State.fsynced_sameEpochs (s : State) : s.sameEpochs s.fsynced := ⟨rfl, rfl, rfl, rfl⟩

theorem State.fsynced_xiAt (s : State) (f : Nat) : s.fsynced.xiAt f = .nan := State.xiAt_replicate rfl f

theorem State.fsynced_frameAt (s : State) {f : Nat} (h : f < (SyncState.start.over 0 s.samples).spans.length) :
    s.fsynced.frameAt f = frameCells s.samples (SyncState.start.over 0 s.samples).spans[f].1
      (SyncState.start.over 0 s.samples).spans[f].2 := by
  rw [State.frameAt_of_frames s.fsynced_mem s.fsynced_sameEpochs f (by rwa [framesOf_length])]
  exact List.getElem_map _

theorem State.fsynced_keepsOutside (s : State) :
    s.keepsBytesOutside s.fsynced Config.frmBase
      (Config.frmBase + 64 * (SyncState.start.over 0 s.samples).spans.length) := by
  rw [← framesOf_length]
  exact State.putFrames_keepsOutside s (framesOf_length_eight s.samples)

/-- Settles O36: the records are the frames of the events, read back from what was written. -/
theorem fsyncWritesTheFrames : Obligations.FsyncWritesTheFrames := by
  refine ⟨decodeWord_encode (i := .fsync) rfl, ?_⟩
  rintro s st rfl hspans
  have hfits : (framesOf s.samples).length ≤ Config.frmMax := by rwa [framesOf_length]
  exact ⟨s.fsynced, execFsync_of_fits hfits, s.fsynced_eq, fun f _ => s.fsynced_xiAt f, fun f hf => s.fsynced_frameAt hf,
    s.fsynced_keepsOutside⟩

end Sys2Proof.Machine
end

section
/-! ## The least-squares line of a frame (43_calibrator.md R220 to R222) -/

namespace Sys2Proof.Machine

variable {s : State} {f : Nat} {cells : List CalCell} {n Sx Sy Sxy Sxx : Rat}

/-- The abscissa in the numbers of R221. -/
theorem abscissa_eq (c : CalCell) : abscissa c = (c.index : Rat) * 441 + 441 / 2 := rfl

theorem abscissa_lt_iff {c d : CalCell} : abscissa c < abscissa d ↔ c.index < d.index := by
  rw [abscissa_eq, abscissa_eq, ← Nat.cast_lt (α := Rat)]
  constructor <;> intro h <;> linarith

/-! ### The sums over the cells -/

/-- The number of the cells and the sums over them that R220 makes the line of. -/
structure FitSums (cells : List CalCell) (n Sx Sy Sxy Sxx : Rat) : Prop where
  count : n = cells.length
  abscissas : Sx = (cells.map abscissa).sum
  amplitudes : Sy = (cells.map fun c => (c.amplitude : Rat)).sum
  products : Sxy = (cells.map fun c => abscissa c * (c.amplitude : Rat)).sum
  squares : Sxx = (cells.map fun c => abscissa c ^ 2).sum

theorem fitLine_eq (h : FitSums cells n Sx Sy Sxy Sxx) :
    fitLine cells = ((n * Sxy - Sx * Sy) / (n * Sxx - Sx ^ 2),
      (Sy - (n * Sxy - Sx * Sy) / (n * Sxx - Sx ^ 2) * Sx) / n) := by
  obtain ⟨rfl, rfl, rfl, rfl, rfl⟩ := h
  simp only [pow_two]
  rfl

theorem sum_map_sub_combination (u v w : CalCell → Rat) (p q : Rat) (cells : List CalCell) :
    (cells.map fun c => u c - (p * v c + q * w c)).sum
      = (cells.map u).sum - (p * (cells.map v).sum + q * (cells.map w).sum) := by
  induction cells with
  | nil => simp
  | cons c cells ih =>
    simp only [List.map_cons, List.sum_cons, ih]
    ring

/-- The number of the cells as a sum over them. -/
theorem FitSums.sum_one (h : FitSums cells n Sx Sy Sxy Sxx) : (cells.map fun _ => (1 : Rat)).sum = n := by
  simp [h.count]

theorem FitSums.sum_residual (h : FitSums cells n Sx Sy Sxy Sxx) (a b : Rat) :
    (cells.map fun c => (c.amplitude : Rat) - (a * abscissa c + b)).sum = Sy - (a * Sx + b * n) := by
  rw [h.amplitudes, h.abscissas, ← h.sum_one, ← sum_map_sub_combination]
  simp only [mul_one]

theorem FitSums.sum_abscissa_mul_residual (h : FitSums cells n Sx Sy Sxy Sxx) (a b : Rat) :
    (cells.map fun c => abscissa c * ((c.amplitude : Rat) - (a * abscissa c + b))).sum = Sxy - (a * Sxx + b * Sx) := by
  rw [h.products, h.squares, h.abscissas, ← sum_map_sub_combination]
  congr! 3
  ring

theorem FitSums.sum_sq_deviation (h : FitSums cells n Sx Sy Sxy Sxx) (m : Rat) :
    (cells.map fun c => (abscissa c - m) ^ 2).sum = Sxx - (2 * m * Sx + -m ^ 2 * n) := by
  rw [h.squares, h.abscissas, ← h.sum_one, ← sum_map_sub_combination]
  congr! 3
  ring

/-! ### The denominator -/

/-- The denominator is `n` times the sum of the squared deviations from the mean, and of two different abscissas one is not the
mean (R222). -/
theorem FitSums.denominator_pos (h : FitSums cells n Sx Sy Sxy Sxx) {c d : CalCell} (hc : c ∈ cells) (hd : d ∈ cells)
    (hcd : abscissa c ≠ abscissa d) : 0 < n * Sxx - Sx ^ 2 := by
  have hn : 0 < n := by
    rw [h.count]
    exact_mod_cast List.length_pos_of_mem hc
  obtain ⟨e, he, hmean⟩ : ∃ e ∈ cells, abscissa e ≠ Sx / n := by
    by_contra! hall
    exact hcd ((hall c hc).trans (hall d hd).symm)
  have hspread : 0 < (cells.map fun c => (abscissa c - Sx / n) ^ 2).sum :=
    (sq_pos_of_ne_zero (sub_ne_zero.mpr hmean)).trans_le
      (List.single_le_sum (by simp [sq_nonneg]) _ (List.mem_map_of_mem he))
  calc 0 < n * (cells.map fun c => (abscissa c - Sx / n) ^ 2).sum := mul_pos hn hspread
    _ = n * Sxx - Sx ^ 2 := by
      rw [h.sum_sq_deviation]
      field_simp
      ring

/-- Two cells of a frame record have different abscissas. -/
theorem FrameRecord.exists_abscissa_ne (h : FrameRecord cells) : ∃ c ∈ cells, ∃ d ∈ cells, abscissa c ≠ abscissa d := by
  obtain ⟨hlength, hrising, -⟩ := h
  have hlt := abscissa_lt_iff.mpr (List.pairwise_iff_getElem.mp hrising 0 1 (by omega) (by omega) Nat.zero_lt_one)
  exact ⟨_, List.getElem_mem _, _, List.getElem_mem _, hlt.ne⟩

/-- Settles O42: the slope and the intercept solve the two normal equations because the denominator is positive. -/
theorem fitIsLeastSquares : Obligations.FitIsLeastSquares := by
  intro cells n Sx Sy Sxy Sxx a b hrecord hn hSx hSy hSxy hSxx hline
  have h : FitSums cells n Sx Sy Sxy Sxx := ⟨by rw [hn, hrecord.1]; rfl, hSx, hSy, hSxy, hSxx⟩
  obtain ⟨c, hc, d, hd, hcd⟩ := hrecord.exists_abscissa_ne
  have hpos := h.denominator_pos hc hd hcd
  rw [fitLine_eq h, Prod.mk.injEq] at hline
  obtain ⟨ha, hb⟩ := hline
  rw [← ha] at hb
  have hslope : a * (n * Sxx - Sx ^ 2) = n * Sxy - Sx * Sy := by rw [ha, div_mul_cancel₀ _ hpos.ne']
  have hintercept : b * n = Sy - a * Sx := by rw [hb, div_mul_cancel₀ _ (by rw [hn]; norm_num)]
  refine ⟨hpos, ?residuals, ?products, ?flat⟩
  case residuals => rw [h.sum_residual, hintercept]; ring
  case products =>
    rw [h.sum_abscissa_mul_residual]
    have : n * (Sxy - (a * Sxx + b * Sx)) = 0 := by linear_combination -hslope - Sx * hintercept
    exact (mul_eq_zero.mp this).resolve_left (by rw [hn]; norm_num)
  case flat => rw [ha, div_eq_zero_iff, or_iff_left hpos.ne', sub_eq_zero]

/-! ### FIT -/

theorem frameOk_eq_false_iff : s.frameOk f = false ↔ s.fcnt.toNat ≤ f := by
  rw [← Bool.not_eq_true, frameOk_iff, not_lt]

theorem execFit_of_valid (hf : f < s.fcnt.toNat) : exec (.fit f) s = .next (s.fitFrame f).complete := by
  simp [exec, execFit, (frameOk_iff s f).mpr hf]

theorem execFit_of_invalid (hf : s.fcnt.toNat ≤ f) : exec (.fit f) s = .next (s.raiseFault .badOperand) := by
  simp [exec, execFit, frameOk_eq_false_iff.mpr hf]

theorem State.frameAt_length (s : State) (f : Nat) : (s.frameAt f).length = 8 := by
  rw [State.frameAt, List.length_map, List.length_range]
  rfl

/-- A sum over the cells of a frame, by the number of the cell. -/
theorem State.frameAt_map_sum (s : State) (f : Nat) (g : CalCell → Rat) :
    ((s.frameAt f).map g).sum = ∑ c ∈ Finset.range 8, g (s.cellAt f c) := by
  rw [State.frameAt, List.map_map]
  rfl

/-- Settles O41: the sums over the frame's list of cells are the sums over the numbers of the cells. -/
theorem fitWritesTheTrendline : Obligations.FitWritesTheTrendline := by
  refine ⟨fun f hf => decodeWord_encode (i := .fit f) (decide_eq_true hf), ?_⟩
  intro s f x y Sx Sy Sxy Sxx a hx hy hSx hSy hSxy hSxx ha
  obtain rfl : x = fun c => abscissa (s.cellAt f c) := funext hx
  obtain rfl : y = fun c => ((s.cellAt f c).amplitude : Rat) := funext hy
  have h : FitSums (s.frameAt f) 8 Sx Sy Sxy Sxx := by
    refine ⟨by rw [State.frameAt_length]; rfl, ?_, ?_, ?_, ?_⟩ <;> rwa [State.frameAt_map_sum]
  refine ⟨fun hf => ?_, fun hf => execFit_of_invalid hf⟩
  rw [execFit_of_valid hf, State.fitFrame, fitLine_eq h, ← ha]
  rfl

end Sys2Proof.Machine
end

section
/-! ## XINT (43_calibrator.md R224 to R226) -/

namespace Sys2Proof.Machine

variable {s : State} {f : Nat} {a b : Rat}

/-- The corrected intersection in the numbers of R224. -/
theorem intersection_eq (a b : Rat) : intersection a b = (-b / a / 3969 - 1 / 18) / (8 / 9) := by
  have hframe : Config.samplesPerFrame = 3969 := rfl
  have hscale : Config.xcorrScale = 8 / 9 := by norm_num [Config.xcorrScale]
  rw [intersection, hframe, hscale]
  rfl

/-- The correction sends the centre of cell `k` to `k / 8` (R226). -/
theorem intersection_of_zero_at_centre (ha : a ≠ 0) (k : Rat) :
    intersection a (-(a * (441 * k + 441 / 2))) = k / 8 := by
  rw [intersection_eq, neg_neg, mul_div_cancel_left₀ _ ha]
  ring

theorem execXint_of_line (hf : f < s.fcnt.toNat) (hslope : s.slope = .val a) (hintercept : s.intercept = .val b)
    (ha : a ≠ 0) : exec (.xint f) s = .next (s.putXi f (.val (intersection a b))).complete := by
  simp [exec, execXint, (frameOk_iff s f).mpr hf, hslope, hintercept, ha]

theorem execXint_of_flat (hf : f < s.fcnt.toNat) (hslope : s.slope = .val 0) (hintercept : s.intercept = .val b) :
    exec (.xint f) s = .next (s.raiseFault .numeric) := by
  simp [exec, execXint, (frameOk_iff s f).mpr hf, hslope, hintercept]

theorem execXint_of_invalid (hf : s.fcnt.toNat ≤ f) : exec (.xint f) s = .next (s.raiseFault .badOperand) := by
  simp [exec, execXint, frameOk_eq_false_iff.mpr hf]

/-- A line that is NaN raises the fault that a frame that is not valid raises, so the frame does not matter. -/
theorem execXint_of_nan (h : s.slope = .nan ∨ s.intercept = .nan) :
    exec (.xint f) s = .next (s.raiseFault .badOperand) := by
  rw [exec, execXint]
  split
  · rfl
  · split
    case h_1 hslope hintercept => simp [hslope, hintercept] at h
    case h_2 => rfl

/-- Settles O43: one case for each line of R224 and R225. -/
theorem xintWritesTheIntersection : Obligations.XintWritesTheIntersection := by
  refine ⟨fun f hf => decodeWord_encode (i := .xint f) (decide_eq_true hf), ?effect, ?badOperand,
    fun s f b => execXint_of_flat, fun k a ha => intersection_of_zero_at_centre ha k⟩
  case effect =>
    intro s f a b hvalid hf hslope hintercept ha
    have hxi (g : Nat) : (s.putXi f (.val (intersection a b))).complete.xiAt g
        = if f = g ∧ f < Config.frmMax then .val (intersection a b) else s.xiAt g := s.xiAt_putXi f g _
    refine ⟨_, execXint_of_line hvalid hslope hintercept ha, rfl, ?_, fun g hg => ?_⟩
    · rw [hxi, if_pos ⟨rfl, hf⟩, intersection_eq]
    · rw [hxi, if_neg fun h => hg h.1.symm]
  case badOperand =>
    rintro s f (hf | hnan)
    · exact execXint_of_invalid hf
    · exact execXint_of_nan hnan

end Sys2Proof.Machine
end

section
/-! ## RESIST (43_calibrator.md R228) -/

namespace Sys2Proof.Machine

variable {s : State} {t : Rat}

/-- The cancellation amplitude in the numbers of R228. -/
theorem cancellation_eq (t : Rat) : cancellation t = 9 / 10 - t * (9 / 10 - 1 / 10) := rfl

/-- The resistance in the numbers of R228. -/
theorem resistance_of_cancellation (t : Rat) :
    cancellation t / Config.referenceAmplitude * Config.refResistance = 180 - 160 * t := by
  rw [cancellation_eq, Config.referenceAmplitude, Config.refResistance]
  ring

theorem State.medianIntersection_of_rational {xs : List Rat} (h : (List.range s.fcnt.toNat).map s.xiAt = xs.map XR.val) :
    s.medianIntersection = median xs := by
  rw [State.medianIntersection, State.intersections, h, allRational_map_val, Option.bind_some]

/-- There is no median without a frame, nor with an intersection that is not computed. -/
theorem State.medianIntersection_eq_none (h : s.fcnt = 0 ∨ ∃ f, f < s.fcnt.toNat ∧ s.xiAt f = .nan) :
    s.medianIntersection = none := by
  obtain hzero | ⟨f, hf, hnan⟩ := h
  · exact State.medianIntersection_of_rational (xs := []) (by simp [hzero])
  · have hmem : .nan ∈ (List.range s.fcnt.toNat).map s.xiAt := List.mem_map.mpr ⟨f, List.mem_range.mpr hf, hnan⟩
    rw [State.medianIntersection, State.intersections, (allRational_eq_none_iff _).mpr hmem, Option.bind_none]

theorem execResist_of_median (h : s.medianIntersection = some t) : exec .resist s = .next (s.combine t).complete := by
  simp [exec, execResist, h]

theorem execResist_of_none (h : s.medianIntersection = none) : exec .resist s = .next (s.raiseFault .badOperand) := by
  simp [exec, execResist, h]

/-- Settles O44: the median of rationals is the element at the middle rank, and only an empty list has none. -/
theorem resistWritesTheResistance : Obligations.ResistWritesTheResistance := by
  refine ⟨decodeWord_encode (i := .resist) rfl, fun s xs hne hxs => ?effect,
    fun s hnone => execResist_of_none (State.medianIntersection_eq_none hnone)⟩
  case effect =>
    obtain ⟨t, hmedian, hrank⟩ := median_isSome hne
    refine ⟨t, hrank, ?_⟩
    rw [execResist_of_median ((State.medianIntersection_of_rational hxs).trans hmedian), State.combine,
      resistance_of_cancellation, cancellation_eq]
    rfl

end Sys2Proof.Machine
end

section
/-! ## The thermistor table (44_thermistor.md R240 to R246) -/

namespace Sys2Proof.Machine

variable {T : List Rat} {r prev t : Rat} {j k : Nat} {rest : List Rat}

/-! ### The segment on which the scan stops -/

/-- Entry `k + 1` is the first from entry 1 on that is below the resistance: the scan stops on the segment from entry `k`
(R242). -/
structure IsSegment (T : List Rat) (r : Rat) (k : Nat) : Prop where
  inTable : k + 1 < T.length
  below : T.getD (k + 1) 0 < r
  above : ∀ j, 1 ≤ j → j ≤ k → r ≤ T.getD j 0

/-- How far the resistance lies along the segment from entry `k` (R242). -/
def segmentRatio (T : List Rat) (r : Rat) (k : Nat) : Rat :=
  (r - T.getD k 0) / (T.getD (k + 1) 0 - T.getD k 0)

theorem segmentRatio_cons (prev r : Rat) (T : List Rat) (k : Nat) :
    segmentRatio (prev :: T) r (k + 1) = segmentRatio T r k := rfl

theorem segmentRatio_entry (T : List Rat) (k : Nat) : segmentRatio T (T.getD k 0) k = 0 := by
  rw [segmentRatio, sub_self, zero_div]

/-- Past a segment whose end is not below the resistance, the scan is the scan of the tail. -/
theorem IsSegment.tail (h : IsSegment (prev :: T) r (k + 1)) : IsSegment T r k where
  inTable := Nat.lt_of_succ_lt_succ h.inTable
  below := h.below
  above j _ hj := h.above (j + 1) (by omega) (by omega)

theorem scanTable_of_lt (h : t < r) :
    scanTable r prev j (t :: rest) = .val (-40 + (j : Rat) + (r - prev) / (t - prev)) := by
  simp [scanTable, h, Config.minTemp, Config.temperatureInterval]

theorem scanTable_of_le (h : r ≤ t) : scanTable r prev j (t :: rest) = scanTable r t (j + 1) rest :=
  if_neg (not_lt.mpr h)

theorem scanTable_of_isSegment (h : IsSegment (prev :: rest) r k) :
    scanTable r prev j rest = .val (-40 + ((j + k : Nat) : Rat) + segmentRatio (prev :: rest) r k) := by
  induction rest generalizing prev j k with
  | nil => exact absurd h.inTable (by simp)
  | cons t rest ih =>
    cases k with
    | zero => exact scanTable_of_lt h.below
    | succ k =>
      have hle : r ≤ t := h.above 1 le_rfl (by omega)
      rw [scanTable_of_le hle, ih h.tail, segmentRatio_cons, Nat.add_right_comm, Nat.add_assoc]

theorem scanTable_eq_nan_iff : scanTable r prev j rest = .nan ↔ ∀ t ∈ rest, r ≤ t := by
  induction rest generalizing prev j with
  | nil => simp [scanTable]
  | cons t rest ih =>
    rcases lt_or_ge t r with h | h
    · simp [scanTable_of_lt h, h]
    · simp [scanTable_of_le h, ih, h]

/-- The temperature by R242, at any table and any resistance at which the scan stops. -/
theorem temperatureFor_of_isSegment (h : IsSegment T r k) :
    temperatureFor T (.val r) = .val (-40 + (k : Rat) + segmentRatio T r k) := by
  cases T with
  | nil => exact absurd h.inTable (by simp)
  | cons t rest => simpa [temperatureFor] using scanTable_of_isSegment (j := 0) h

/-- The scan finds no entry exactly when none from entry 1 on is below the resistance (R243). -/
theorem temperatureFor_eq_nan_iff :
    temperatureFor T (.val r) = .nan ↔ ∀ i, 1 ≤ i → i < T.length → r ≤ T.getD i 0 := by
  cases T with
  | nil => simp [temperatureFor]
  | cons t rest =>
    rw [temperatureFor, scanTable_eq_nan_iff, List.forall_mem_iff_getElem]
    constructor
    case mp =>
      intro h i hpos hi
      obtain ⟨i, rfl⟩ := Nat.exists_eq_add_of_le' hpos
      have hrest : i < rest.length := Nat.lt_of_succ_lt_succ hi
      rw [List.getD_cons_succ, List.getD_eq_getElem _ _ hrest]
      exact h i hrest
    case mpr =>
      intro h i hi
      have := h (i + 1) (by omega) (Nat.succ_lt_succ hi)
      rwa [List.getD_cons_succ, List.getD_eq_getElem _ _ hi] at this

/-! ### TEMP -/

/-- TEMP stores the temperature of RESISTANCE and reports in UT whether it is NaN. -/
theorem execTemp_of_temperature {s : State} {v : XR} (h : temperatureFor Config.ntcTable s.resistance = v) :
    exec .temp s = .next { s with busy := false, done := true, temperature := v, ut := decide (v = .nan) } := by
  rw [← h]
  rfl

/-- Settles O45: one case for each return of R240. -/
theorem tempWritesTheTemperature : Obligations.TempWritesTheTemperature := by
  refine ⟨decodeWord_encode (i := .temp) rfl, fun s T hT => ?_⟩
  subst hT
  refine ⟨fun hnan => ?nanResistance, fun R hR hnone => ?noEntry, fun R i hR hpos hi hbelow habove => ?segment⟩
  case nanResistance => exact execTemp_of_temperature (congrArg (temperatureFor Config.ntcTable) hnan)
  case noEntry => exact execTemp_of_temperature (by rw [hR, temperatureFor_eq_nan_iff.mpr hnone])
  case segment =>
    obtain ⟨k, rfl⟩ := Nat.exists_eq_add_of_le' hpos
    have hseg : IsSegment Config.ntcTable R k := ⟨hi, hbelow, fun j h1 hk => habove j h1 (Nat.lt_succ_of_le hk)⟩
    rw [execTemp_of_temperature (by rw [hR, temperatureFor_of_isSegment hseg])]
    simp [segmentRatio]

/-! ### The ends of a legal table and its entries -/

section
variable (hT : Config.NtcLegal T)
include hT

/-- An entry of a legal table is above every later one. -/
theorem legal_getD_lt {i : Nat} (hij : i < j) (hj : j < T.length) : T.getD j 0 < T.getD i 0 := by
  obtain ⟨-, -, hdecreasing, -, -⟩ := hT
  rw [List.getD_eq_getElem _ _ hj, List.getD_eq_getElem _ _ (hij.trans hj)]
  exact List.pairwise_iff_getElem.mp hdecreasing i j _ hj hij

theorem legal_getD_le {i : Nat} (hij : i ≤ j) (hj : j < T.length) : T.getD j 0 ≤ T.getD i 0 := by
  rcases hij.eq_or_lt with rfl | h
  · exact le_rfl
  · exact (legal_getD_lt hT h hj).le

theorem legal_reference : T.getD 65 0 = 100 := by
  obtain ⟨-, -, -, hreference, -⟩ := hT
  rw [List.getD_eq_getElem?_getD, hreference, Option.getD_some]

theorem legal_last : T.getD (T.length - 1) 0 = 2522 / 1000 := by
  obtain ⟨-, -, -, -, hlast⟩ := hT
  rw [List.getD_eq_getElem?_getD, ← List.getLast?_eq_getElem?, hlast, Option.getD_some]

/-- The last entry of a legal table is its least, so it decides whether the scan finds an entry. -/
theorem legal_all_above_iff : (∀ i, 1 ≤ i → i < T.length → r ≤ T.getD i 0) ↔ r ≤ 2522 / 1000 := by
  have hlen : 67 ≤ T.length := hT.1
  rw [← legal_last hT]
  constructor
  · intro h
    exact h _ (by omega) (by omega)
  · intro h i _ hi
    exact h.trans (legal_getD_le hT (by omega) (by omega))

/-- An entry of the table is the start of its own segment (R245, R246). -/
theorem isSegment_entry (hk : k + 1 < T.length) : IsSegment T (T.getD k 0) k where
  inTable := hk
  below := legal_getD_lt hT k.lt_succ_self hk
  above _ _ hj := legal_getD_le hT hj (by omega)

theorem temperatureFor_entry (hk : k + 1 < T.length) : temperatureFor T (.val (T.getD k 0)) = .val (-40 + k) := by
  rw [temperatureFor_of_isSegment (isSegment_entry hT hk), segmentRatio_entry, add_zero]

/-- A resistance above the first entry is on the first segment, before its start (R245). -/
theorem temperatureFor_above_first (h : T.getD 0 0 < r) :
    temperatureFor T (.val r) = .val (-40 + segmentRatio T r 0) ∧ segmentRatio T r 0 < 0 := by
  have hlen : 67 ≤ T.length := hT.1
  have hfirst : T.getD 1 0 < T.getD 0 0 := legal_getD_lt hT Nat.zero_lt_one (by omega)
  have hseg : IsSegment T r 0 := ⟨by omega, hfirst.trans h, fun j h1 h0 => by omega⟩
  constructor
  · rw [temperatureFor_of_isSegment hseg, Nat.cast_zero, add_zero]
  · exact div_neg_of_pos_of_neg (sub_pos.mpr h) (sub_neg.mpr hfirst)

end

/-- Settles O46: below the table by its last entry, above it by its first segment, at an entry by the segment the entry
starts. -/
theorem temperatureCornerCases : Obligations.TemperatureCornerCases := by
  intro T hT
  have hlen : 67 ≤ T.length := hT.1
  refine ⟨fun R => temperatureFor_eq_nan_iff.trans (legal_all_above_iff hT), fun R hR => ?above, ?first,
    fun k _ hk => temperatureFor_entry hT hk, ?reference⟩
  case above =>
    obtain ⟨hvalue, hneg⟩ := temperatureFor_above_first hT hR
    exact ⟨_, add_lt_of_neg_right _ hneg, hvalue, rfl⟩
  case first => simpa using temperatureFor_entry hT (k := 0) (by omega)
  case reference =>
    rw [← legal_reference hT, temperatureFor_entry hT (by omega)]
    norm_num

end Sys2Proof.Machine
end

section
/-! ## CLIPCHK (45_decode.md R251) -/

namespace Sys2Proof.Machine

variable {s : State}

/-- A count over the buffer is a count over its indices. -/
theorem tally_buffer (s : State) (p : Int → Bool) :
    tally s.buffer p = tally (List.range s.ilen.toNat) fun i => p (s.ibufSample i) := by
  simp only [State.buffer, tally_eq_countP, List.countP_map]
  rfl

/-- CLIPCNT holds the count of a buffer that fits IBUF (R251). -/
theorem State.countClipping_clipcnt_toNat (hfits : s.ilen.toNat ≤ Config.ibufMax) :
    s.countClipping.clipcnt.toNat = tally s.buffer fun v => decide (32000 < v) := by
  have hle : clipCount s.buffer ≤ s.ilen.toNat := s.buffer_length ▸ tally_le_length _ _
  rw [← clipCount_eq_tally, State.countClipping_clipcnt, BitVec.toNat_ofNat, Nat.mod_eq_of_lt]
  exact (hle.trans hfits).trans_lt (by decide)

theorem execClipchk_of_fits (hfits : s.ilen.toNat ≤ Config.ibufMax) :
    exec .clipchk s = .next s.countClipping.complete := by
  simp [exec, execClipchk, State.ilenOk, hfits]

theorem execClipchk_of_overlong (hover : Config.ibufMax < s.ilen.toNat) :
    exec .clipchk s = .next (s.raiseFault .badOperand) := by
  simp [exec, execClipchk, State.ilenOk, hover]

/-- Settles O47: the count over the buffer fits CLIPCNT, and is the count over the indices below ILEN. -/
theorem clipchkCounts : Obligations.ClipchkCounts := by
  refine ⟨decodeWord_encode (i := .clipchk) rfl, fun s => ⟨fun hfits => ?_, fun hover => execClipchk_of_overlong hover⟩⟩
  refine ⟨_, execClipchk_of_fits hfits, rfl, ?_⟩
  rw [State.complete_clipcnt, State.countClipping_clipcnt_toNat hfits, tally_buffer]

end Sys2Proof.Machine
end

section
/-! ## The windows of SDECODE (45_decode.md R264) -/

namespace Sys2Proof.Machine

variable {buf : List Int} {a e i n j : Nat}

theorem windowLength_eq (t : Nat) : windowLength t = 3 * t / 8 := rfl

theorem windowOffset_eq (t : Nat) : windowOffset t = t / 20 := by
  rw [windowOffset, Config.winOffNum, Config.winOffDen, Nat.one_mul]

theorem window_length (h : i + n ≤ buf.length) : (window buf i n).length = n := by
  rw [window, List.length_take, List.length_drop]
  omega

theorem window_getElem? (hj : j < n) : (window buf i n)[j]? = buf[i + j]? := by
  rw [window, List.getElem?_take_of_lt hj, List.getElem?_drop]

/-- Each window with its offset takes at most 17/40 of a region (R264). -/
theorem windowOffset_add_windowLength_le (t : Nat) : 40 * (windowOffset t + windowLength t) ≤ 17 * t := by
  rw [windowOffset_eq, windowLength_eq]
  omega

/-- The windows of a region inside the buffer lie inside the region, the left one before the right one. -/
theorem windows_inside (hae : a ≤ e) :
    a + windowOffset (e - a + 1) + windowLength (e - a + 1)
        ≤ e + 1 - windowOffset (e - a + 1) - windowLength (e - a + 1)
      ∧ e + 1 - windowOffset (e - a + 1) - windowLength (e - a + 1) + windowLength (e - a + 1) ≤ e + 1 := by
  have hsize := windowOffset_add_windowLength_le (e - a + 1)
  omega

/-- Settles O54: each window and its offset take less than half of the region, and a window's samples are the buffer's. -/
theorem windowsNeverOverlap : Obligations.WindowsNeverOverlap := by
  rintro buf a e T hae he rfl
  obtain ⟨hleft, hright⟩ := windows_inside hae
  exact ⟨windowLength_eq _, windowOffset_eq _, windowOffset_add_windowLength_le _, hleft,
    window_length (by omega), window_length (by omega), fun j hj => ⟨window_getElem? hj, window_getElem? hj⟩⟩

end Sys2Proof.Machine
end

section
/-! ## DECODE (45_decode.md R253 to R258) -/

namespace Sys2Proof.Machine

variable {s : State}

/-! ### The three ways to its end -/

theorem execDecode_of_clipped (hfits : s.ilen.toNat ≤ Config.ibufMax)
    (hclipped : 10 < tally s.buffer fun v => decide (32000 < v)) :
    exec (.decode false) s = .next (s.counted.failError .clippingDetected) := by
  obtain ⟨-, hclip, -⟩ := (execDecode_cases false s).2 hfits
  exact hclip hclipped

theorem execDecode_of_unclipped (hfits : s.ilen.toNat ≤ Config.ibufMax)
    (hunclipped : (tally s.buffer fun v => decide (32000 < v)) ≤ 10) :
    exec (.decode false) s = .next (s.decodeFrames s.counted) := by
  obtain ⟨-, -, hrun⟩ := (execDecode_cases false s).2 hfits
  exact hrun hunclipped

/-- The frames of a buffer are none where the state machine completed no frame. -/
theorem framesOf_eq_nil {events : List Sample} (h : (SyncState.start.over 0 events).spans = []) : framesOf events = [] := by
  rw [framesOf, h, List.map_nil]

theorem execDecode_of_noFrames (hfits : s.ilen.toNat ≤ Config.ibufMax)
    (hunclipped : (tally s.buffer fun v => decide (32000 < v)) ≤ 10)
    (hnone : framesOf (extractEvents s.buffer) = []) :
    exec (.decode false) s = .next (s.counted.synchronized.failError .noFramesFound) := by
  rw [execDecode_of_unclipped hfits hunclipped, State.decodeFrames_noFrames s s.counted hfits hnone]

theorem execDecode_of_flat (hfits : s.ilen.toNat ≤ Config.ibufMax)
    (hunclipped : (tally s.buffer fun v => decide (32000 < v)) ≤ 10)
    (hflat : ∃ cells ∈ framesOf (extractEvents s.buffer), (fitLine cells).1 = 0) :
    exec (.decode false) s = .next (s.raiseLateFault .numeric) := by
  rw [execDecode_of_unclipped hfits hunclipped, State.decodeFrames_numeric s s.counted hfits hflat]

/-- Without a frame the synchronizer writes no byte, and the extractor writes the records of the events. -/
theorem State.synchronized_keepsOutside (c : State) (hnone : framesOf (extractEvents c.buffer) = []) :
    c.keepsBytesOutside c.synchronized Config.evtBase (Config.evtBase + 16 * (extractEvents c.buffer).length) := by
  intro a ha
  rw [← State.putSamples_keepsOutside c _ a ha]
  refine State.memByte_put_outside c.synchronized_mem c.synchronized_epochs ?_
  rw [hnone]
  exact Nat.lt_or_ge a Config.frmBase

theorem State.synchronized_fcnt_of_nil (c : State) (hnone : framesOf (extractEvents c.buffer) = []) :
    c.synchronized.fcnt = 0 := by
  simp [State.synchronized, hnone]

/-- What the stages before the calibration write: the scratch registers, XI and memory. -/
theorem State.counted_synchronized_eq (s : State) {n : Word} (hn : s.counted.synchronized.fcnt = n) :
    s.counted.synchronized = { s with
      ut := true, ecnt := BitVec.ofNat 32 (extractEvents s.buffer).length, fcnt := n
      synccnt := BitVec.ofNat 32 (SyncState.start.over 0 (extractEvents s.buffer)).syncCount
      fstart := BitVec.ofNat 32 (SyncState.start.over 0 (extractEvents s.buffer)).frameStart
      fend := BitVec.ofNat 32 (SyncState.start.over 0 (extractEvents s.buffer)).frameEnd
      clipcnt := BitVec.ofNat 32 (tally s.buffer fun v => decide (32000 < v))
      slope := .nan, intercept := .nan, xmed := .nan, cancamp := .nan, resistance := .nan, temperature := .nan
      nframes := 0, error := .none, leftamp := 0, rightamp := 0, trimstart := 0, trimend := 0
      xi := s.counted.synchronized.xi, mem := s.counted.synchronized.mem } := by
  subst hn
  rfl

theorem execDecode_of_unread (hfits : s.ilen.toNat ≤ Config.ibufMax) :
    exec (.decode true) s = .next s.raiseCaptureFailure := by
  obtain ⟨hunread, -⟩ := (execDecode_cases true s).2 hfits
  exact hunread

/-- What an unreadable capture keeps, whichever decoder reports it (60_exceptions.md R315). -/
theorem raiseCaptureFailure_keeps (s : State) :
    s.raiseCaptureFailure.fault = some .captureFailure ∧ s.raiseCaptureFailure.error = .captureFailure
      ∧ s.keepsHostState s.raiseCaptureFailure ∧ s.keepsOutput s.raiseCaptureFailure
      ∧ s.raiseCaptureFailure.pstate = s.pstate := by
  obtain ⟨hhost, houtput, hpstate, -⟩ := (Faulted.capture (s := s)).keeps
  exact ⟨rfl, rfl, hhost, houtput, hpstate⟩

/-- Settles O49: a clipped buffer ends before extraction, one without a frame after it, an unreadable one in a late fault. -/
theorem decodeFailures : Obligations.DecodeFailures := by
  rintro s events st clipped hfits rfl rfl rfl
  refine ⟨fun hclipped => ?clipped, fun hunclipped hspans => ?noFrames,
    _, execDecode_of_unread hfits, raiseCaptureFailure_keeps s⟩
  case clipped => exact ⟨_, execDecode_of_clipped hfits hclipped, fun f _ => State.xiAt_replicate rfl f, rfl⟩
  case noFrames =>
    have hnone := framesOf_eq_nil hspans
    have hfcnt := s.counted.synchronized_fcnt_of_nil hnone
    refine ⟨_, execDecode_of_noFrames hfits hunclipped hnone, fun f _ => s.counted.xi_synchronized f,
      s.counted.synchronized_samples hfits, fun a ha => ?_, ?_⟩
    · rw [← s.counted_memByte]
      exact s.counted.synchronized_keepsOutside hnone a ha
    · exact congrArg (State.failError .noFramesFound) (s.counted_synchronized_eq hfcnt)

/-! ### The end of a DECODE with frames -/

/-- XI after the calibration of frames: the intersection of each, and NaN beyond them (R253, R256). -/
def frameIntersections (frames : List (List CalCell)) : Vector XR Config.frmMax :=
  Vector.ofFn fun f => (frames[f.val]?.map fun cells => .val (intersection (fitLine cells).1 (fitLine cells).2)).getD .nan

/-- The end of DECODE from the synchronized state, for the last frame and the median of the intersections (R253, R257). -/
def State.decoded (y : State) (frames : List (List CalCell)) (last : List CalCell) (m : Rat) : State :=
  (({ y with
      slope := .val (fitLine last).1, intercept := .val (fitLine last).2, xi := frameIntersections frames }.combine
    m).report y.fcnt).complete

/-- The end of DECODE in the numbers of R228. -/
theorem State.decoded_eq (y : State) (frames : List (List CalCell)) (last : List CalCell) (m : Rat) :
    y.decoded frames last m = { y with
      busy := false, done := true
      ut := decide (temperatureFor Config.ntcTable (.val (180 - 160 * m)) = .nan)
      slope := .val (fitLine last).1, intercept := .val (fitLine last).2
      xmed := .val m, cancamp := .val (9 / 10 - m * (9 / 10 - 1 / 10)), resistance := .val (180 - 160 * m)
      temperature := temperatureFor Config.ntcTable (.val (180 - 160 * m))
      nframes := y.fcnt, error := .none, xi := frameIntersections frames } := by
  rw [← resistance_of_cancellation]
  rfl

theorem State.decoded_temperature (y : State) (frames : List (List CalCell)) (last : List CalCell) (m : Rat) :
    (y.decoded frames last m).temperature = temperatureFor Config.ntcTable (.val (180 - 160 * m)) := by
  rw [State.decoded_eq]

/-- The calibration writes no byte. -/
theorem State.decoded_keepsBytes (y : State) (frames : List (List CalCell)) (last : List CalCell) (m : Rat) :
    y.keepsBytes (y.decoded frames last m) :=
  State.keepsBytes_of_mem rfl ⟨rfl, rfl, rfl, rfl⟩

theorem State.decoded_samples (y : State) (frames : List (List CalCell)) (last : List CalCell) (m : Rat) :
    (y.decoded frames last m).samples = y.samples :=
  State.samples_congr rfl (y.decoded_keepsBytes frames last m)

theorem State.decoded_frameAt (y : State) (frames : List (List CalCell)) (last : List CalCell) (m : Rat) (f : Nat) :
    (y.decoded frames last m).frameAt f = y.frameAt f :=
  State.frameAt_congr (y.decoded_keepsBytes frames last m) f

theorem State.decoded_xi (y : State) (frames : List (List CalCell)) (last : List CalCell) (m : Rat) :
    (y.decoded frames last m).xi = frameIntersections frames := rfl

section
variable {t : State} {frames : List (List CalCell)} {f : Nat}

theorem xiAt_of_lt_frames (hxi : t.xi = frameIntersections frames) (hmax : frames.length ≤ Config.frmMax)
    (hf : f < frames.length) : t.xiAt f = .val (intersection (fitLine frames[f]).1 (fitLine frames[f]).2) := by
  have hlt : f < Config.frmMax := hf.trans_le hmax
  simp [State.xiAt, hxi, frameIntersections, hlt, hf]

theorem xiAt_of_frames_le (hxi : t.xi = frameIntersections frames) (hf : frames.length ≤ f) : t.xiAt f = .nan := by
  by_cases hlt : f < Config.frmMax <;> simp [State.xiAt, hxi, frameIntersections, hlt, hf]

/-- The intersections read from XI determine it. -/
theorem xi_eq_frameIntersections
    (hin : ∀ g (hg : g < frames.length), t.xiAt g = .val (intersection (fitLine frames[g]).1 (fitLine frames[g]).2))
    (hout : ∀ g, frames.length ≤ g → t.xiAt g = .nan) : t.xi = frameIntersections frames := by
  refine Vector.ext fun g hg => ?_
  have hread : t.xi[g] = t.xiAt g := by simp [State.xiAt, hg]
  rw [hread]
  rcases Nat.lt_or_ge g frames.length with hin' | hout'
  · simp [hin g hin', frameIntersections, hin']
  · simp [hout g hout', frameIntersections, hout']

end

/-- DECODE of a buffer with frames and no slope of zero runs to its end (R257). -/
theorem execDecode_of_frames {frames : List (List CalCell)} {last : List CalCell} {m : Rat}
    (hfits : s.ilen.toNat ≤ Config.ibufMax) (hunclipped : (tally s.buffer fun v => decide (32000 < v)) ≤ 10)
    (hframes : frames = framesOf (extractEvents s.buffer)) (hlines : ∀ cells ∈ frames, (fitLine cells).1 ≠ 0)
    (hlast : frames.getLast? = some last) (hm : median (intersectionsOf frames) = some m) :
    exec (.decode false) s = .next (s.counted.synchronized.decoded frames last m) := by
  obtain ⟨x, m', hrun, -, hx, hm', -, hin, hout⟩ :=
    State.decodeFrames_success s s.counted frames last hfits hframes hlines hlast
  obtain rfl : m = m' := Option.some.inj (hm.symm.trans hm')
  rw [xi_eq_frameIntersections hin hout] at hx
  rw [execDecode_of_unclipped hfits hunclipped, hrun, hx]
  rfl

/-- Settles O48: the median of the intersections exists, and each stage's results are read back from what it wrote. -/
theorem decodeSucceeds : Obligations.DecodeSucceeds := by
  rintro s events st frames last hfits hunclipped rfl rfl hframes hlines hlast
  have hne : intersectionsOf frames ≠ [] := by
    rintro hnil
    rw [List.map_eq_nil_iff.mp hnil] at hlast
    cases hlast
  obtain ⟨m, hm, hrank⟩ := median_isSome hne
  have hmax : frames.length ≤ Config.frmMax := by
    rw [hframes]
    exact framesOf_le_frmMax (by rwa [State.buffer_length])
  have hlayout := memory_layout
  have hkeeps : ∀ a, a < Config.obufEnd → s.counted.synchronized.memByte a = s.memByte a := fun a ha =>
    synchronized_memByte hfits (by omega) (by omega)
  have hrun := execDecode_of_frames hfits hunclipped hframes hlines hlast hm
  have hsamples := s.counted.synchronized_samples hfits
  refine ⟨s.counted.synchronized.decoded frames last m, m, hrun, ?rank, (State.decoded_samples ..).trans hsamples, ?frames,
    fun f hf => xiAt_of_lt_frames (State.decoded_xi ..) hmax hf,
    fun f hf => xiAt_of_frames_le (State.decoded_xi ..) hf, fun a _ ha => hkeeps a (by omega), fun a _ ha => hkeeps a ha,
    ?frame⟩
  case rank => simpa [intersectionsOf] using hrank
  case frames =>
    subst hframes
    exact fun f hf => (State.decoded_frameAt ..).trans (s.counted.synchronized_frameAt f hf)
  case frame =>
    subst hframes
    rw [State.decoded_temperature]
    exact (congrArg (State.decoded · _ last m) (s.counted_synchronized_eq rfl)).trans (State.decoded_eq ..)

end Sys2Proof.Machine
end

section
/-! ## SDECODE (45_decode.md R262 to R267) -/

namespace Sys2Proof.Machine

variable {s : State} {buf : List Int} {a e : Nat}

/-! ### The trimmed region (R263) -/

theorem isLoud_eq_false_iff (v : Int) : isLoud v = false ↔ v.natAbs ≤ 1000 := by
  rw [← Bool.not_eq_true, isLoud_iff, Nat.not_lt]

theorem trimRegion_of_quiet (h : ∀ v ∈ buf, v.natAbs ≤ 1000) : trimRegion buf = none := by
  have hnone : buf.findIdx? isLoud = none :=
    List.findIdx?_eq_none_iff.mpr fun v hv => (isLoud_eq_false_iff v).mpr (h v hv)
  rw [trimRegion, hnone]

/-- The first and the last loud sample bound the region. -/
theorem trimRegion_of_bounds (ha : a < buf.length) (he : e < buf.length) (hfirst : 1000 < buf[a].natAbs)
    (hlast : 1000 < buf[e].natAbs)
    (hquiet : ∀ i (hi : i < buf.length), i < a ∨ e < i → buf[i].natAbs ≤ 1000) : trimRegion buf = some (a, e) := by
  have hfront : buf.findIdx? isLoud = some a := by
    refine List.findIdx?_eq_some_iff_getElem.mpr ⟨ha, (isLoud_iff _).mpr hfirst, fun i hi => ?_⟩
    rw [Bool.not_eq_true, isLoud_eq_false_iff]
    exact hquiet i (hi.trans ha) (.inl hi)
  have hback : buf.reverse.findIdx? isLoud = some (buf.length - 1 - e) := by
    refine List.findIdx?_eq_some_iff_getElem.mpr ⟨by rw [List.length_reverse]; omega, ?_, fun i hi => ?_⟩
    · rw [List.getElem_reverse, isLoud_iff]
      simpa only [show buf.length - 1 - (buf.length - 1 - e) = e by omega] using hlast
    · rw [List.getElem_reverse, Bool.not_eq_true, isLoud_eq_false_iff]
      exact hquiet _ _ (.inr (by omega))
  rw [trimRegion, hfront, hback]
  simp only [Option.some.injEq, Prod.mk.injEq, true_and]
  omega

/-- The bounds of the region in the samples of IBUF. -/
theorem trimRegion_buffer (hae : a ≤ e) (he : e < s.ilen.toNat) (hfirst : 1000 < (s.ibufSample a).natAbs)
    (hlast : 1000 < (s.ibufSample e).natAbs)
    (hquiet : ∀ i, i < s.ilen.toNat → i < a ∨ e < i → (s.ibufSample i).natAbs ≤ 1000) :
    trimRegion s.buffer = some (a, e) := by
  have hlen := s.buffer_length
  have hget : ∀ i (hi : i < s.buffer.length), s.buffer[i] = s.ibufSample i := fun i hi => by simp [State.buffer]
  refine trimRegion_of_bounds (by omega) (by omega) ?_ ?_ fun i hi hout => ?_ <;> rw [hget]
  exacts [hfirst, hlast, hquiet i (by omega) hout]

/-! ### The windows as samples of IBUF, and their extrema (R264, R265) -/

theorem window_buffer {i n : Nat} (h : i + n ≤ s.ilen.toNat) :
    window s.buffer i n = (List.range n).map fun j => s.ibufSample (i + j) := by
  have hbuf : i + n ≤ s.buffer.length := by rwa [State.buffer_length]
  refine List.ext_getElem? fun j => ?_
  rcases Nat.lt_or_ge j n with hj | hj
  · have hin : i + j < s.ilen.toNat := by omega
    rw [window_getElem? hj]
    simp [State.buffer, hin, hj]
  · rw [List.getElem?_eq_none (by rwa [window_length hbuf]), List.getElem?_eq_none (by simpa using hj)]

section
variable (hae : a ≤ e) (he : e < s.ilen.toNat)
include hae he

theorem leftWindow_buffer : leftWindow s.buffer a e
    = (List.range (3 * (e - a + 1) / 8)).map fun j => s.ibufSample (a + (e - a + 1) / 20 + j) := by
  obtain ⟨hleft, -⟩ := windows_inside hae
  rw [leftWindow, window_buffer (by omega), windowLength_eq, windowOffset_eq]

theorem rightWindow_buffer : rightWindow s.buffer a e
    = (List.range (3 * (e - a + 1) / 8)).map fun j =>
      s.ibufSample (e + 1 - (e - a + 1) / 20 - 3 * (e - a + 1) / 8 + j) := by
  obtain ⟨-, hright⟩ := windows_inside hae
  rw [rightWindow, window_buffer (by omega), windowLength_eq, windowOffset_eq]

end

/-- A signed extremum is an amplitude of the buffer or its negation. -/
theorem signedExtrema_range {v : Int} (hrange : ∀ x ∈ buf, IsI16 x) (hv : v ∈ signedExtrema (extractEvents buf)) :
    -32768 ≤ v ∧ v ≤ 32768 := by
  obtain ⟨x, hx, hxv⟩ := List.mem_filterMap.mp hv
  obtain ⟨-, -, hevents⟩ := extractEvents_spec buf
  obtain ⟨-, -, hmem⟩ := hevents x hx
  obtain ⟨hlow, hhigh⟩ := hrange _ hmem
  split at hxv <;> cases hxv <;> omega

/-- The amplitudes of a buffer are the medians of the signed extrema of its two windows (R265). -/
theorem windowAmplitudes_eq_some {l r : Int} (h : windowAmplitudes buf = some (l, r)) :
    ∃ a e, trimRegion buf = some (a, e)
      ∧ median (signedExtrema (extractEvents (leftWindow buf a e))) = some l
      ∧ median (signedExtrema (extractEvents (rightWindow buf a e))) = some r := by
  unfold windowAmplitudes at h
  split at h
  next => cases h
  next a e hregion =>
    split at h
    next hl hr =>
      cases h
      exact ⟨a, e, hregion, hl, hr⟩
    next => cases h

/-- A median of signed extrema of 16-bit samples fits LEFTAMP and RIGHTAMP. -/
theorem toInt_ofInt_signedExtremum {i n : Nat} {v : Int}
    (hv : v ∈ signedExtrema (extractEvents (window s.buffer i n))) : (BitVec.ofInt 32 v).toInt = v := by
  obtain ⟨hlow, hhigh⟩ := signedExtrema_range (fun x hx => s.buffer_isI16 x (mem_of_mem_window hx)) hv
  exact toInt_ofInt_word (by omega) (by omega)

/-- The element at the middle rank is the median. -/
theorem median_of_isAtRank {α : Type} [LinearOrder α] {l : List α} {v : α} (h : IsAtRank l (l.length / 2) v) :
    median l = some v :=
  (median_eq_some_iff l v).mpr ⟨List.ne_nil_of_mem h.1, h⟩

/-! ### The ways to its end -/

/-- The state of SDECODE after its two extractions (R262). -/
def State.windowed (s : State) (a e : Nat) : State :=
  ((s.clearScratch.putTrim a e).putSamples (extractEvents (leftWindow s.buffer a e))).putSamples
    (extractEvents (rightWindow s.buffer a e))

theorem execSdecode_of_overlong {rderr : Bool} (hover : Config.ibufMax < s.ilen.toNat) :
    exec (.sdecode rderr) s = .next (s.raiseFault .badOperand) := by
  simp [exec, execSdecode, State.ilenOk, hover]

theorem execSdecode_of_unread (hfits : s.ilen.toNat ≤ Config.ibufMax) :
    exec (.sdecode true) s = .next s.raiseCaptureFailure := by
  simp [exec, execSdecode, State.ilenOk, hfits]

theorem execSdecode_of_noRegion (hfits : s.ilen.toNat ≤ Config.ibufMax) (h : trimRegion s.buffer = none) :
    exec (.sdecode false) s = .next (s.clearScratch.failError .noFramesFound) := by
  simp [exec, execSdecode, State.ilenOk, hfits, h]

theorem execSdecode_of_region (hfits : s.ilen.toNat ≤ Config.ibufMax) (h : trimRegion s.buffer = some (a, e)) :
    exec (.sdecode false) s = .next (s.decodeWindows s.clearScratch a e) := by
  simp [exec, execSdecode, State.ilenOk, hfits, h]

/-- A window without an extremum ends in NoFramesFound (R267). -/
theorem execSdecode_of_noExtrema (hfits : s.ilen.toNat ≤ Config.ibufMax) (hregion : trimRegion s.buffer = some (a, e))
    (h : signedExtrema (extractEvents (leftWindow s.buffer a e)) = []
      ∨ signedExtrema (extractEvents (rightWindow s.buffer a e)) = []) :
    exec (.sdecode false) s = .next ((s.windowed a e).failError .noFramesFound) := by
  have hmedian := h.imp (median_eq_none_iff _).mpr (median_eq_none_iff _).mpr
  rw [execSdecode_of_region hfits hregion, State.decodeWindows]
  split
  next hl hr => simp [hl, hr] at hmedian
  next => rfl

section
variable {l r : Int} (hfits : s.ilen.toNat ≤ Config.ibufMax) (hregion : trimRegion s.buffer = some (a, e))
  (hl : median (signedExtrema (extractEvents (leftWindow s.buffer a e))) = some l)
  (hr : median (signedExtrema (extractEvents (rightWindow s.buffer a e))) = some r)
include hfits hregion hl hr

/-- A left amplitude of 0 ends in NUMERIC (R267). -/
theorem execSdecode_of_zero (h0 : l = 0) : exec (.sdecode false) s = .next (s.raiseLateFault .numeric) := by
  simp only [execSdecode_of_region hfits hregion, State.decodeWindows, hl, hr, h0, if_true]

/-- Two amplitudes, the left one not 0, have a quotient (R266). -/
theorem execSdecode_of_amplitudes (h0 : l ≠ 0) :
    exec (.sdecode false) s = .next (((s.windowed a e).putAmplitudes l r).report 0).complete := by
  simp only [execSdecode_of_region hfits hregion, State.decodeWindows, hl, hr, h0, if_false]
  rfl

end

/-! ### What its stages leave -/

/-- The result of two amplitudes in the numbers of R266. -/
theorem State.putAmplitudes_report_eq (y : State) (l r : Int) :
    ((y.putAmplitudes l r).report 0).complete = { y with
      busy := false, done := true
      ut := decide (temperatureFor Config.ntcTable (.val ((r : Rat) / (l : Rat) * 100)) = .nan)
      leftamp := BitVec.ofInt 32 l, rightamp := BitVec.ofInt 32 r, resistance := .val ((r : Rat) / (l : Rat) * 100)
      temperature := temperatureFor Config.ntcTable (.val ((r : Rat) / (l : Rat) * 100))
      nframes := 0, error := .none } := rfl

section
variable (hfits : s.ilen.toNat ≤ Config.ibufMax)
include hfits

theorem State.windowed_samples (a e : Nat) : (s.windowed a e).samples = extractEvents (rightWindow s.buffer a e) :=
  putSamples_samples _ (fun v hv => s.buffer_isI16 v (mem_of_mem_window hv))
    ((window_length_le _ _ _).trans (s.buffer_length.trans_le hfits))

theorem State.windowed_keepsOutside (a e : Nat) :
    s.keepsBytesOutside (s.windowed a e) Config.evtBase Config.evtEnd := by
  have hwindow : ∀ i n, (window s.buffer i n).length ≤ Config.ibufMax := fun i n =>
    (window_length_le _ _ _).trans (s.buffer_length.trans_le hfits)
  intro x hx
  exact putSamples_twice_memByte (s.clearScratch.putTrim a e) (hwindow _ _) (hwindow _ _) (by omega)

end

/-- Settles O53: without a region nothing is extracted, without an extremum the right window's events stay, and the faults
are late. -/
theorem sdecodeFailures : Obligations.SdecodeFailures := by
  refine ⟨fun s hfits hquiet => ?quiet, ?noExtrema, fun s r hfits h => ?zero,
    fun s hfits => ⟨_, execSdecode_of_unread hfits, raiseCaptureFailure_keeps s⟩⟩
  case quiet =>
    exact ⟨_, execSdecode_of_noRegion hfits (trimRegion_of_quiet hquiet), fun f _ => State.xiAt_replicate rfl f, rfl⟩
  case noExtrema =>
    rintro s a e right hfits hregion rfl hempty
    exact ⟨_, execSdecode_of_noExtrema hfits hregion hempty, fun f _ => State.xiAt_replicate rfl f,
      State.windowed_samples hfits a e, State.windowed_keepsOutside hfits a e, rfl⟩
  case zero =>
    obtain ⟨a, e, hregion, hl, hr⟩ := windowAmplitudes_eq_some h
    obtain ⟨hhost, houtput, hpstate, -, -, hfault⟩ := State.raiseLateFault_keeps s .numeric
    exact ⟨_, execSdecode_of_zero hfits hregion hl hr rfl, hfault, hhost, houtput, hpstate⟩

/-- Settles O52: the bounds are the trimmed region's, its windows are the samples named, and their medians the amplitudes. -/
theorem sdecodeSucceeds : Obligations.SdecodeSucceeds := by
  rintro s a e T W off left right l r hfits hae he hfirst hlast hquiet rfl rfl rfl hleft hright hl hr hl0
  have hregion := trimRegion_buffer hae he hfirst hlast hquiet
  rw [← leftWindow_buffer hae he] at hleft
  rw [← rightWindow_buffer hae he] at hright
  subst hleft hright
  exact ⟨_, execSdecode_of_amplitudes hfits hregion (median_of_isAtRank hl) (median_of_isAtRank hr) hl0,
    State.windowed_samples hfits a e, toInt_ofInt_signedExtremum hl.1, toInt_ofInt_signedExtremum hr.1,
    fun f _ => State.xiAt_replicate rfl f, State.windowed_keepsOutside hfits a e, State.putAmplitudes_report_eq ..⟩

end Sys2Proof.Machine
end

section
/-! ## The result of a decode depends on the buffer alone (45_decode.md R256) -/

namespace Sys2Proof.Machine

variable {s s' t t' c c' y y' : State}

/-! ### The registers and XI, stage by stage -/

/-- Two states agree on the registers that a decode writes and on XI (10_state.md R48). -/
structure SameScratch (t t' : State) : Prop where
  temperature : t'.temperature = t.temperature
  resistance : t'.resistance = t.resistance
  nframes : t'.nframes = t.nframes
  error : t'.error = t.error
  ut : t'.ut = t.ut
  slope : t'.slope = t.slope
  intercept : t'.intercept = t.intercept
  xmed : t'.xmed = t.xmed
  cancamp : t'.cancamp = t.cancamp
  ecnt : t'.ecnt = t.ecnt
  fcnt : t'.fcnt = t.fcnt
  synccnt : t'.synccnt = t.synccnt
  fstart : t'.fstart = t.fstart
  fend : t'.fend = t.fend
  clipcnt : t'.clipcnt = t.clipcnt
  leftamp : t'.leftamp = t.leftamp
  rightamp : t'.rightamp = t.rightamp
  trimstart : t'.trimstart = t.trimstart
  trimend : t'.trimend = t.trimend
  xi : t'.xi = t.xi

/-- The clear leaves nothing of what a decode writes: any two cleared states agree. -/
theorem sameScratch_clearScratch (s s' : State) : SameScratch s.clearScratch s'.clearScratch := by
  constructor <;> rfl

theorem SameScratch.putSamples (h : SameScratch t t') (l : List Sample) : SameScratch (t.putSamples l) (t'.putSamples l) :=
  { h with ecnt := rfl }

theorem SameScratch.clearXi (h : SameScratch t t') : SameScratch t.clearXi t'.clearXi := { h with xi := rfl }

theorem SameScratch.putFrames (h : SameScratch t t') (l : List (List CalCell)) :
    SameScratch (t.putFrames l) (t'.putFrames l) :=
  { h with fcnt := rfl }

theorem SameScratch.putSync (h : SameScratch t t') (st : SyncState) : SameScratch (t.putSync st) (t'.putSync st) :=
  { h with synccnt := rfl, fstart := rfl, fend := rfl }

theorem SameScratch.putTrim (h : SameScratch t t') (a e : Nat) : SameScratch (t.putTrim a e) (t'.putTrim a e) :=
  { h with trimstart := rfl, trimend := rfl }

theorem SameScratch.putAmplitudes (h : SameScratch t t') (l r : Int) :
    SameScratch (t.putAmplitudes l r) (t'.putAmplitudes l r) :=
  { h with leftamp := rfl, rightamp := rfl, resistance := rfl }

theorem SameScratch.combine (h : SameScratch t t') (m : Rat) : SameScratch (t.combine m) (t'.combine m) :=
  { h with xmed := rfl, cancamp := rfl, resistance := rfl }

theorem SameScratch.failError (h : SameScratch t t') (k : ErrorKind) : SameScratch (t.failError k) (t'.failError k) :=
  { h with temperature := rfl, resistance := rfl, nframes := rfl, error := rfl, ut := rfl }

theorem SameScratch.report (h : SameScratch t t') {n n' : Word} (hn : n' = n) :
    SameScratch (t.report n) (t'.report n') :=
  have hresistance := h.resistance
  { h with
    temperature := by rw [State.report_temperature, State.report_temperature, hresistance]
    ut := by rw [State.report_ut, State.report_ut, hresistance]
    nframes := hn, error := rfl }

theorem SameScratch.complete (h : SameScratch t t') : SameScratch t.complete t'.complete := { h with }

theorem SameScratch.countClipping (h : SameScratch t t') (hbuffer : t'.buffer = t.buffer) :
    SameScratch t.countClipping t'.countClipping :=
  { h with clipcnt := by rw [State.countClipping_clipcnt, State.countClipping_clipcnt, hbuffer] }

theorem sameScratch_counted (hbuffer : s'.buffer = s.buffer) : SameScratch s.counted s'.counted :=
  (sameScratch_clearScratch s s').countClipping hbuffer

/-- Extraction and synchronization of equal buffers write equal registers. -/
theorem SameScratch.synchronized (h : SameScratch c c') (hbuffer : c'.buffer = c.buffer) :
    SameScratch c.synchronized c'.synchronized := by
  rw [State.synchronized, State.synchronized, hbuffer]
  exact ((h.putSamples _).clearXi.putFrames _).putSync _

theorem SameScratch.decoded (h : SameScratch y y') (frames : List (List CalCell)) (last : List CalCell) (m : Rat) :
    SameScratch (y.decoded frames last m) (y'.decoded frames last m) := by
  have hlines : SameScratch
      { y with slope := .val (fitLine last).1, intercept := .val (fitLine last).2, xi := frameIntersections frames }
      { y' with slope := .val (fitLine last).1, intercept := .val (fitLine last).2, xi := frameIntersections frames } :=
    { h with slope := rfl, intercept := rfl, xi := rfl }
  exact ((hlines.combine m).report h.fcnt).complete

theorem sameScratch_windowed (hbuffer : s'.buffer = s.buffer) (a e : Nat) :
    SameScratch (s.windowed a e) (s'.windowed a e) := by
  rw [State.windowed, State.windowed, hbuffer]
  exact (((sameScratch_clearScratch s s').putTrim a e).putSamples _).putSamples _

/-! ### What two decodes of one buffer agree on -/

/-- The same fault, and without a fault the same registers, XI, valid events and valid frames (R256). -/
structure SameOutcome (t t' : State) : Prop where
  fault : t'.fault = t.fault
  scratch : t.fault = none → SameScratch t t'
  samples : t.fault = none → t'.samples = t.samples
  frames : t.fault = none → ∀ f, f < t.fcnt.toNat → t'.frameAt f = t.frameAt f

/-- The agreement written out field by field. -/
theorem SameOutcome.result (h : SameOutcome t t') : t'.fault = t.fault
    ∧ (t.fault = none →
      t'.temperature = t.temperature ∧ t'.resistance = t.resistance ∧ t'.nframes = t.nframes ∧ t'.error = t.error
        ∧ t'.ut = t.ut ∧ t'.slope = t.slope ∧ t'.intercept = t.intercept ∧ t'.xmed = t.xmed ∧ t'.cancamp = t.cancamp
        ∧ t'.ecnt = t.ecnt ∧ t'.fcnt = t.fcnt ∧ t'.synccnt = t.synccnt ∧ t'.fstart = t.fstart ∧ t'.fend = t.fend
        ∧ t'.clipcnt = t.clipcnt ∧ t'.leftamp = t.leftamp ∧ t'.rightamp = t.rightamp ∧ t'.trimstart = t.trimstart
        ∧ t'.trimend = t.trimend ∧ t'.xi = t.xi ∧ t'.samples = t.samples
        ∧ ∀ f, f < t.fcnt.toNat → t'.frameAt f = t.frameAt f) := by
  refine ⟨h.fault, fun hnone => ?_⟩
  have r := h.scratch hnone
  exact ⟨r.temperature, r.resistance, r.nframes, r.error, r.ut, r.slope, r.intercept, r.xmed, r.cancamp, r.ecnt, r.fcnt,
    r.synccnt, r.fstart, r.fend, r.clipcnt, r.leftamp, r.rightamp, r.trimstart, r.trimend, r.xi, h.samples hnone,
    h.frames hnone⟩

theorem sameOutcome_of_fault {k : FaultCode} (h : t.fault = some k) (h' : t'.fault = some k) : SameOutcome t t' := by
  have hne : t.fault ≠ none := by simp [h]
  exact ⟨h'.trans h.symm, fun hnone => absurd hnone hne, fun hnone => absurd hnone hne, fun hnone => absurd hnone hne⟩

theorem samples_of_ecnt_zero (h : t.ecnt = 0) : t.samples = [] := by simp [State.samples, h]

theorem State.counted_samples (s : State) : s.counted.samples = [] := samples_of_ecnt_zero rfl

theorem State.clearScratch_samples (s : State) : s.clearScratch.samples = [] := samples_of_ecnt_zero rfl

/-- The amplitudes and the report write no byte. -/
theorem State.putAmplitudes_report_samples (y : State) (l r : Int) :
    ((y.putAmplitudes l r).report 0).complete.samples = y.samples :=
  State.samples_congr rfl (State.keepsBytes_of_mem rfl ⟨rfl, rfl, rfl, rfl⟩)

section
variable (hscratch : SameScratch y y') (hfault : y'.fault = y.fault) (hsamples : y'.samples = y.samples)
include hscratch hfault hsamples

/-- The end of a decode that fails without a frame. -/
theorem sameOutcome_failError (hfcnt : y.fcnt = 0) (k : ErrorKind) : SameOutcome (y.failError k) (y'.failError k) :=
  ⟨hfault, fun _ => hscratch.failError k, fun _ => hsamples, fun _ f hf => by simp [hfcnt] at hf⟩

/-- The end of DECODE: the calibration writes neither events nor frames. -/
theorem sameOutcome_decoded (hframes : ∀ f, f < y.fcnt.toNat → y'.frameAt f = y.frameAt f)
    (frames : List (List CalCell)) (last : List CalCell) (m : Rat) :
    SameOutcome (y.decoded frames last m) (y'.decoded frames last m) := by
  refine ⟨hfault, fun _ => hscratch.decoded frames last m, fun _ => ?_, fun _ f hf => ?_⟩
  · rw [State.decoded_samples, State.decoded_samples, hsamples]
  · rw [State.decoded_frameAt, State.decoded_frameAt, hframes f hf]

/-- The end of SDECODE, which finds no frame. -/
theorem sameOutcome_amplitudes (hfcnt : y.fcnt = 0) (l r : Int) :
    SameOutcome ((y.putAmplitudes l r).report 0).complete ((y'.putAmplitudes l r).report 0).complete := by
  refine ⟨hfault, fun _ => ((hscratch.putAmplitudes l r).report rfl).complete, fun _ => ?_,
    fun _ f hf => by simp [hfcnt] at hf⟩
  rw [State.putAmplitudes_report_samples, State.putAmplitudes_report_samples, hsamples]

end

/-- Frames made of equal buffers read back equal. -/
theorem synchronized_frameAt_congr (hbuffer : c'.buffer = c.buffer) (hfits : c.ilen.toNat ≤ Config.ibufMax) {f : Nat}
    (hf : f < c.synchronized.fcnt.toNat) : c'.synchronized.frameAt f = c.synchronized.frameAt f := by
  rw [State.synchronized_fcnt c hfits] at hf
  rw [State.synchronized_frameAt c f hf, State.synchronized_frameAt c' f (by rwa [hbuffer])]
  simp only [hbuffer]

theorem buffer_eq_of_halves (hilen : s'.ilen = s.ilen) (hhalves : ∀ k, k < s.ilen.toNat → s'.ibufHalf k = s.ibufHalf k) :
    s'.buffer = s.buffer := by
  rw [State.buffer, State.buffer, hilen]
  refine List.map_congr_left fun k hk => ?_
  rw [State.ibufSample, State.ibufSample, hhalves k (List.mem_range.mp hk)]

/-! ### The decoders -/

theorem exec_decoder_of_overlong {i : Instr} (hi : i ∈ [.decode false, .decode true, .sdecode false, .sdecode true])
    (hover : Config.ibufMax < s.ilen.toNat) : exec i s = .next (s.raiseFault .badOperand) := by
  simp only [List.mem_cons, List.not_mem_nil, or_false] at hi
  obtain rfl | rfl | rfl | rfl := hi
  · exact (execDecode_cases false s).1 hover
  · exact (execDecode_cases true s).1 hover
  · exact execSdecode_of_overlong hover
  · exact execSdecode_of_overlong hover

section
variable (hfault : s'.fault = s.fault) (hfits : s.ilen.toNat ≤ Config.ibufMax) (hfits' : s'.ilen.toNat ≤ Config.ibufMax)
  (hbuffer : s'.buffer = s.buffer)
include hfault hfits hfits' hbuffer

/-- DECODE, by its ways to its end. -/
theorem execDecode_sameOutcome (h : exec (.decode false) s = .next t) (h' : exec (.decode false) s' = .next t') :
    SameOutcome t t' := by
  have hcounted : s'.counted.buffer = s.counted.buffer := by rw [s'.counted_buffer, s.counted_buffer, hbuffer]
  have hscratch := (sameScratch_counted hbuffer).synchronized hcounted
  have hsyncfault : s'.counted.synchronized.fault = s.counted.synchronized.fault := by
    simpa [State.counted, State.synchronized] using hfault
  have hsamples : s'.counted.synchronized.samples = s.counted.synchronized.samples := by
    rw [s.counted.synchronized_samples hfits, s'.counted.synchronized_samples hfits', hcounted]
  rcases Nat.lt_or_ge 10 (tally s.buffer fun v => decide (32000 < v)) with hclipped | hunclipped
  · rw [execDecode_of_clipped hfits hclipped] at h
    rw [execDecode_of_clipped hfits' (by rwa [hbuffer])] at h'
    cases h
    cases h'
    exact sameOutcome_failError (sameScratch_counted hbuffer) hfault
      (s'.counted_samples.trans s.counted_samples.symm) rfl _
  by_cases hnone : framesOf (extractEvents s.buffer) = []
  · rw [execDecode_of_noFrames hfits hunclipped hnone] at h
    rw [execDecode_of_noFrames hfits' (by rwa [hbuffer]) (by rwa [hbuffer])] at h'
    cases h
    cases h'
    exact sameOutcome_failError hscratch hsyncfault hsamples (s.counted.synchronized_fcnt_of_nil hnone) _
  by_cases hflat : ∃ cells ∈ framesOf (extractEvents s.buffer), (fitLine cells).1 = 0
  · rw [execDecode_of_flat hfits hunclipped hflat] at h
    rw [execDecode_of_flat hfits' (by rwa [hbuffer]) (by rwa [hbuffer])] at h'
    cases h
    cases h'
    exact sameOutcome_of_fault rfl rfl
  push Not at hflat
  have hlast := List.getLast?_eq_some_getLast hnone
  obtain ⟨m, hm, -⟩ := median_isSome (l := intersectionsOf (framesOf (extractEvents s.buffer)))
    (by simpa [intersectionsOf] using hnone)
  rw [execDecode_of_frames hfits hunclipped rfl hflat hlast hm] at h
  rw [execDecode_of_frames hfits' (by rwa [hbuffer]) (by rw [hbuffer]) hflat hlast hm] at h'
  cases h
  cases h'
  exact sameOutcome_decoded hscratch hsyncfault hsamples (fun f hf => synchronized_frameAt_congr hcounted hfits hf) _ _ m

/-- SDECODE, by its ways to its end. -/
theorem execSdecode_sameOutcome (h : exec (.sdecode false) s = .next t) (h' : exec (.sdecode false) s' = .next t') :
    SameOutcome t t' := by
  rcases hregion : trimRegion s.buffer with _ | ⟨a, e⟩
  · rw [execSdecode_of_noRegion hfits hregion] at h
    rw [execSdecode_of_noRegion hfits' (by rwa [hbuffer])] at h'
    cases h
    cases h'
    exact sameOutcome_failError (sameScratch_clearScratch s s') hfault
      (s'.clearScratch_samples.trans s.clearScratch_samples.symm) rfl _
  have hregion' : trimRegion s'.buffer = some (a, e) := by rwa [hbuffer]
  have hscratch := sameScratch_windowed hbuffer a e
  have hsamples : (s'.windowed a e).samples = (s.windowed a e).samples := by
    rw [State.windowed_samples hfits, State.windowed_samples hfits', hbuffer]
  by_cases hempty : signedExtrema (extractEvents (leftWindow s.buffer a e)) = []
      ∨ signedExtrema (extractEvents (rightWindow s.buffer a e)) = []
  · rw [execSdecode_of_noExtrema hfits hregion hempty] at h
    rw [execSdecode_of_noExtrema hfits' hregion' (by rwa [hbuffer])] at h'
    cases h
    cases h'
    exact sameOutcome_failError hscratch hfault hsamples rfl _
  rw [not_or] at hempty
  obtain ⟨l, hl, -⟩ := median_isSome hempty.1
  obtain ⟨r, hr, -⟩ := median_isSome hempty.2
  by_cases hzero : l = 0
  · rw [execSdecode_of_zero hfits hregion hl hr hzero] at h
    rw [execSdecode_of_zero hfits' hregion' (by rwa [hbuffer]) (by rwa [hbuffer]) hzero] at h'
    cases h
    cases h'
    exact sameOutcome_of_fault rfl rfl
  · rw [execSdecode_of_amplitudes hfits hregion hl hr hzero] at h
    rw [execSdecode_of_amplitudes hfits' hregion' (by rwa [hbuffer]) (by rwa [hbuffer]) hzero] at h'
    cases h
    cases h'
    exact sameOutcome_amplitudes hscratch hfault hsamples rfl l r

end

/-- Settles O51: equal halves are equal buffers, and the checks before the clear depend on ILEN and ARG alone. -/
theorem decodeDependsOnTheBufferAlone : Obligations.DecodeDependsOnTheBufferAlone := by
  intro i s s' t t' hi hnone hnone' hilen hhalves h h'
  have hbuffer := buffer_eq_of_halves hilen hhalves
  have hfault : s'.fault = s.fault := hnone'.trans hnone.symm
  have houtcome : SameOutcome t t' := by
    rcases Nat.lt_or_ge Config.ibufMax s.ilen.toNat with hover | hfits
    · have hraise : ∀ u : State, u.ilen = s.ilen → exec i u = .next (u.raiseFault .badOperand) :=
        fun u hu => exec_decoder_of_overlong hi (by rwa [hu])
      rw [hraise s rfl] at h
      rw [hraise s' hilen] at h'
      cases h
      cases h'
      exact sameOutcome_of_fault rfl rfl
    have hfits' : s'.ilen.toNat ≤ Config.ibufMax := by rwa [hilen]
    simp only [List.mem_cons, List.not_mem_nil, or_false] at hi
    obtain rfl | rfl | rfl | rfl := hi
    · exact execDecode_sameOutcome hfault hfits hfits' hbuffer h h'
    · rw [execDecode_of_unread hfits] at h
      rw [execDecode_of_unread hfits'] at h'
      cases h
      cases h'
      exact sameOutcome_of_fault rfl rfl
    · exact execSdecode_sameOutcome hfault hfits hfits' hbuffer h h'
    · rw [execSdecode_of_unread hfits] at h
      rw [execSdecode_of_unread hfits'] at h'
      cases h
      cases h'
      exact sameOutcome_of_fault rfl rfl
  exact houtcome.result

end Sys2Proof.Machine
end

section
/-! ## The presence detector: the level against the threshold, the tone against the ratio (46_presence.md R280 to R287) -/

namespace Sys2Proof.Machine

variable {s : State} {v : Nat}

/-! ### The level -/

/-- The level is the magnitude at its rank (R280). -/
theorem level_of_isAtRank (hcut : Config.cutSamplesCount ≤ s.ilen.toNat)
    (h : IsAtRank (s.buffer.map Int.natAbs) (s.ilen.toNat - Config.cutSamplesCount) v) : s.level = some v := by
  rw [← s.buffer_length] at hcut h
  exact (trimmedLevel_eq_some_iff _ _ _).mpr ⟨Config.cutSamplesCount_pos, hcut, h⟩

/-- A buffer shorter than CUT_SAMPLES_COUNT has no level (R280). -/
theorem level_of_short (h : s.ilen.toNat < Config.cutSamplesCount) : s.level = none :=
  (trimmedLevel_eq_none_iff _ _).mpr (.inr (s.buffer_length.trans_lt h))

theorem toneDetected_iff (t q : Nat) : toneDetected t q = true ↔ Config.ratioNum * q < t * Config.ratioDen :=
  decide_eq_true_iff

/-! ### PRES1, by its ways to its end -/

theorem execPres1_of_overlong (rderr : Bool) (hover : Config.ibufMax < s.ilen.toNat) :
    exec (.pres1 rderr) s = .next (s.raiseFault .badOperand) := by
  simp [exec, execPres1, State.ilenOk, hover]

section
variable (hfits : s.ilen.toNat ≤ Config.ibufMax)
include hfits

theorem execPres1_of_unread : exec (.pres1 true) s = .next (s.putSilence 0 .absent).complete := by
  simp [exec, execPres1, State.ilenOk, hfits]

theorem execPres1_of_noLevel (h : s.level = none) :
    exec (.pres1 false) s = .next (s.raiseLateFault .badOperand) := by
  simp [exec, execPres1, State.ilenOk, hfits, h]

theorem execPres1_of_level (h : s.level = some v) : exec (.pres1 false) s
    = .next (s.putSilence v (if Config.silenceThreshold ≤ v then .absent else .armed)).complete := by
  simp [exec, execPres1, State.ilenOk, hfits, h]

end

/-- Settles O55: the level at its rank is the silence level, and a buffer without a level ends in a late fault, which keeps
the detector's state. -/
theorem pres1MeasuresSilence : Obligations.Pres1MeasuresSilence := by
  refine fun s => ⟨fun hfits => ⟨execPres1_of_unread hfits, fun v hcut hrank => ?level, fun hshort => ?short⟩,
    fun hover e => execPres1_of_overlong e hover⟩
  case level =>
    have hlevel := level_of_isAtRank hcut hrank
    exact ⟨level_le hlevel, execPres1_of_level hfits hlevel⟩
  case short =>
    exact ⟨_, execPres1_of_noLevel hfits (level_of_short hshort), s.raiseLateFault_fault _, s.raiseLateFault_pstate _⟩

/-! ### PRES2, by its ways to its end -/

theorem execPres2_of_notArmed (rderr : Bool) (h : s.pstate ≠ .armed) : exec (.pres2 rderr) s = .next s.complete := by
  simp [exec, execPres2, h]

section
variable (harmed : s.pstate = .armed)
include harmed

theorem execPres2_of_overlong (rderr : Bool) (hover : Config.ibufMax < s.ilen.toNat) :
    exec (.pres2 rderr) s = .next (s.raiseFault .badOperand) := by
  simp [exec, execPres2, State.ilenOk, harmed, hover]

variable (hfits : s.ilen.toNat ≤ Config.ibufMax)
include hfits

theorem execPres2_of_unread : exec (.pres2 true) s = .next s.putAbsent.complete := by
  simp [exec, execPres2, State.ilenOk, harmed, hfits]

theorem execPres2_of_noLevel (h : s.level = none) :
    exec (.pres2 false) s = .next (s.raiseLateFault .badOperand) := by
  simp [exec, execPres2, State.ilenOk, harmed, hfits, h]

/-- The comparison of R287 in the numbers of the levels. -/
theorem execPres2_of_level (h : s.level = some v) : exec (.pres2 false) s = .next
    (s.putTone v (if Config.ratioNum * s.silence.toNat < v * Config.ratioDen then .present else .absent)).complete := by
  simp [exec, execPres2, State.ilenOk, harmed, hfits, h, toneDetected_iff]

end

/-- Settles O56: an armed detector compares the level at its rank with the silence level, and a buffer without a level ends
in a late fault, which keeps the detector's state. -/
theorem pres2MeasuresTheTone : Obligations.Pres2MeasuresTheTone := by
  refine fun s => ⟨fun hidle e => execPres2_of_notArmed e hidle,
    fun harmed hfits => ⟨execPres2_of_unread harmed hfits, fun v hcut hrank => ?level, fun hshort => ?short⟩,
    fun harmed hover e => execPres2_of_overlong harmed e hover⟩
  case level =>
    have hlevel := level_of_isAtRank hcut hrank
    exact ⟨level_le hlevel, execPres2_of_level harmed hfits hlevel⟩
  case short =>
    exact ⟨_, execPres2_of_noLevel harmed hfits (level_of_short hshort), s.raiseLateFault_fault _,
      s.raiseLateFault_pstate _⟩

/-- An armed detector with one sample more than IBUF holds: both commands end in BAD_OPERAND and keep it armed. -/
theorem witness_presence_overlong :
    let s : State := { State.reset with pstate := .armed, ilen := 32769 }
    exec (.pres1 true) s = .next { s with busy := false, done := true, fault := some .badOperand }
      ∧ exec (.pres2 true) s = .next { s with busy := false, done := true, fault := some .badOperand } :=
  ⟨(pres1MeasuresSilence _).2 (by decide) true, (pres2MeasuresTheTone _).2.2 rfl (by decide) true⟩

end Sys2Proof.Machine
end

section
/-! ## NOP and CLEAR (47_control.md R300 to R302) -/

namespace Sys2Proof.Machine

variable {s : State} {rest : List Event}

/-- NOP issued to an accepting block and completed next leaves its word and DONE. -/
theorem step_of_nop (haccepts : s.accepts = true) (hagenda : s.agenda = .access (.write 0 .w32 0) :: .completion :: rest) :
    ∃ u, step s = .next u ∧ u.busy = true ∧ u.done = false
      ∧ step u = .next { s with cmd := 0, done := true, draws := s.draws + 1, agenda := rest } := by
  obtain ⟨hidle, hnone⟩ := (accepts_iff s).mp haccepts
  have hword : decodeWord 0 = .ok .nop := decodeWord_nop_iff.mpr rfl
  refine ⟨({ s with agenda := .completion :: rest } : State).accept 0, ?issued, rfl, rfl, ?completed⟩
  case issued =>
    rw [step_of_access hagenda, State.hostAccess]
    exact congrArg _ (hostWrite_cmd_of_legal (s := { s with agenda := .completion :: rest }) hidle hnone hword)
  case completed =>
    rw [step_of_completion rfl, completion_of_running rfl hword]
    simp only [hidle]
    rfl

/-- Settles O26: the completion sets the two flags, and the acceptance before it stores the word. -/
theorem nopOnlyIssuesAndCompletes : Obligations.NopOnlyIssuesAndCompletes :=
  ⟨fun _ => rfl, fun _ _ => step_of_nop, fun _ hidle hfault => hostWrite_cmd_of_fault hidle hfault 0, _, rfl, rfl⟩

/-- Settles O27: the clear of the scratch state and the reset of the detector name every register from 14 up, and XI. -/
theorem clearEmptiesTheScratchState : Obligations.ClearEmptiesTheScratchState := by
  refine ⟨decodeWord_encode (i := .clear) rfl,
    fun s => ⟨_, rfl, rfl, fun f _ => State.xiAt_replicate rfl f, fun n hlow hhigh => ?_⟩⟩
  interval_cases n <;> rfl

end Sys2Proof.Machine
end

section
/-! ## Every step and every command answers (60_exceptions.md R310, 70_reset_and_hazards.md R355) -/

namespace Sys2Proof.Machine

/-- No arm of `exec` stops the machine. -/
theorem exec_answers (i : Instr) (s : State) : ∃ t, exec i s = .next t := by
  cases i <;> exact ⟨_, rfl⟩

theorem completion_answers (s : State) : ∃ t, completion s = .next t := by
  unfold completion
  split
  · split
    next i _ => exact exec_answers i s
    next => exact ⟨_, rfl⟩
  · exact ⟨_, rfl⟩

theorem step_answers (s : State) : ∃ t, step s = .next t := by
  unfold step
  split
  · exact completion_answers s
  · exact ⟨_, rfl⟩
  · exact completion_answers _
  · exact ⟨_, rfl⟩

/-- Settles O7: an entry of the agenda is an access or a reset, which answer, or a completion, which runs a command. -/
theorem everyStepAnswers : Obligations.EveryStepAnswers := ⟨step_answers, exec_answers⟩

end Sys2Proof.Machine
end

section
/-! ## Reset (70_reset_and_hazards.md R340, R341, R343) -/

namespace Sys2Proof.Machine

variable {s t : State} {data : Word} {rest : List Event}

/-! ### The registers and XI -/

/-- Every register and XI as after hardware reset; the written bytes, the draws and what is the host's are left open. -/
def State.registersReset (t : State) : Prop :=
  t = { State.reset with
    mem := t.mem, ibufEpoch := t.ibufEpoch, obufEpoch := t.obufEpoch, evtEpoch := t.evtEpoch, frmEpoch := t.frmEpoch
    draws := t.draws, rdata := t.rdata, agenda := t.agenda }

theorem State.reset_registersReset : State.reset.registersReset := rfl

theorem State.softReset_registersReset (s : State) : s.softReset.registersReset := rfl

theorem State.hardwareReset_registersReset (s : State) : s.hardwareReset.registersReset := rfl

theorem State.registersReset.readRegister (h : t.registersReset) {n : Nat} (hn : n < 34) :
    t.readRegister n = resetWords.getD n 0 := by
  rw [h]
  interval_cases n <;> rfl

theorem State.registersReset.xr (h : t.registersReset) :
    ∀ x ∈ [t.slope, t.intercept, t.xmed, t.cancamp, t.resistance, t.temperature], x = .nan := by
  rw [h]
  simp [State.reset]

theorem State.registersReset.xiAt (h : t.registersReset) (f : Nat) : t.xiAt f = .nan :=
  State.xiAt_replicate (congrArg State.xi h) f

theorem State.registersReset.flags (h : t.registersReset) : t.busy = false ∧ t.done = false ∧ t.fault = none :=
  ⟨congrArg State.busy h, congrArg State.done h, congrArg State.fault h⟩

theorem State.registersReset.accepts (h : t.registersReset) : t.accepts = true := by
  obtain ⟨hbusy, -, hfault⟩ := h.flags
  exact (accepts_iff t).mpr ⟨hbusy, hfault⟩

/-! ### The write that resets -/

/-- CTRL is register 2 at byte address 8, and is reached by 32-bit accesses only (20_memory.md R82, R85). -/
theorem target_eq_ctrl_iff {addr : Word} {width : Width} :
    target addr.toNat width = some (.reg 2) ↔ addr = 8 ∧ width = .w32 := by
  constructor
  · intro h
    cases width with
    | w8 => cases h
    | w16 =>
      simp only [target] at h
      split_ifs at h <;> cases h
    | w32 =>
      simp only [target] at h
      split_ifs at h with haligned hreg
      case pos =>
        simp only [Option.some.injEq, Target.reg.injEq] at h
        exact ⟨BitVec.eq_of_toNat_eq (show addr.toNat = 8 by omega), rfl⟩
      all_goals cases h
  · rintro ⟨rfl, rfl⟩
    exact target_register (n := 2) (by norm_num)

/-- The legal write that a busy block does not drop is the entry of the agenda that resets. -/
theorem isSoftReset_eq_isReset {addr : Word} {width : Width} {x : Target} (h : target addr.toNat width = some x)
    (data : Word) : isSoftReset x data = (Event.access (.write addr width data)).isReset := by
  have hctrl : x = .reg 2 ↔ addr = 8 ∧ width = .w32 := by rw [← target_eq_ctrl_iff, h, Option.some.injEq]
  simp only [isSoftReset, Event.isReset, hctrl, Bool.decide_and]

/-- A write to CTRL with SRST set resets a block, busy, faulted or neither (R341). -/
theorem hostWrite_of_srst (s : State) (hsrst : data.getLsbD 0 = true) : s.hostWrite 8 .w32 data = s.softReset := by
  have htarget : target (8 : Word).toNat .w32 = some (.reg 2) := target_eq_ctrl_iff.mpr ⟨rfl, rfl⟩
  have hreset : isSoftReset (.reg 2) data = true := by simp [isSoftReset, hsrst]
  rw [State.hostWrite, htarget]
  simp only [hreset, Bool.not_true, Bool.and_false, Bool.false_eq_true, if_false, State.writeTarget, State.writeRegister, hsrst,
    if_true]

theorem step_of_srst (hagenda : s.agenda = .access (.write 8 .w32 data) :: rest) (hsrst : data.getLsbD 0 = true) :
    step s = .next ({ s with agenda := rest } : State).softReset := by
  rw [step_of_access hagenda, State.hostAccess, hostWrite_of_srst _ hsrst]

theorem step_of_hardwareReset (hagenda : s.agenda = .hardwareReset :: rest) :
    step s = .next ({ s with agenda := rest } : State).hardwareReset := by
  simp only [step, hagenda]

/-- Settles O11: the soft reset gives every register but the model's own its reset value, and keeps the agenda. -/
theorem softResetRestoresTheRegisters : Obligations.SoftResetRestoresTheRegisters := by
  intro s data rest hagenda hsrst
  have hreset := ({ s with agenda := rest } : State).softReset_registersReset
  obtain ⟨hbusy, hdone, hfault⟩ := hreset.flags
  exact ⟨_, step_of_srst hagenda hsrst, fun n => hreset.readRegister, hreset.xr, fun f _ => hreset.xiAt f, hbusy, hdone,
    hfault, rfl⟩

/-- Settles O13: hardware reset and the state a run begins in give every register its reset value. -/
theorem hardwareResetFromAnyState : Obligations.HardwareResetFromAnyState := by
  refine ⟨fun s rest hagenda => ?_, fun n => State.reset_registersReset.readRegister, State.reset_registersReset.xr,
    fun f _ => State.reset_registersReset.xiAt f, State.reset_registersReset.accepts⟩
  have hreset := ({ s with agenda := rest } : State).hardwareReset_registersReset
  exact ⟨_, step_of_hardwareReset hagenda, fun n => hreset.readRegister, hreset.xr, fun f _ => hreset.xiAt f,
    hreset.accepts⟩

/-- Settles O60: after reset no byte is written, no command runs, nothing is valid and nothing is concluded. -/
theorem resetMeetsTheInvariants : Obligations.ResetMeetsTheInvariants :=
  ⟨reset_memory_wf, protocolOk_of_idle rfl, recordsOk_of_empty rfl rfl rfl, presenceOk_of_pstate nofun nofun, nofun, nofun⟩

/-! ### The memories -/

/-- The memory whose epoch names what an unwritten byte at an address holds (log 3). -/
def spaceAt (a : Nat) : Space :=
  if a < Config.ibufEnd then .ibuf
  else if a < Config.obufEnd then .obuf
  else if a < Config.evtEnd then .evt
  else .frm

theorem spaceAt_of_ibuf {a : Nat} (h : a < Config.ibufEnd) : spaceAt a = .ibuf := if_pos h

theorem spaceAt_of_obuf {a : Nat} (hlow : Config.ibufEnd ≤ a) (hhigh : a < Config.obufEnd) : spaceAt a = .obuf := by
  rw [spaceAt, if_neg (by omega), if_pos hhigh]

theorem spaceAt_of_evt {a : Nat} (hlow : Config.obufEnd ≤ a) (hhigh : a < Config.evtEnd) : spaceAt a = .evt := by
  have hlayout := memory_layout
  rw [spaceAt, if_neg (by omega), if_neg (by omega), if_pos hhigh]

theorem spaceAt_of_frm {a : Nat} (hlow : Config.evtEnd ≤ a) : spaceAt a = .frm := by
  have hlayout := memory_layout
  rw [spaceAt, if_neg (by omega), if_neg (by omega), if_neg (by omega)]

/-- A byte of another memory is kept. -/
theorem forgetSpace_memByte_of_ne (s : State) {p : Space} {a : Nat} (h : spaceAt a ≠ p) :
    (s.forgetSpace p).memByte a = s.memByte a := by
  refine s.forgetSpace_memByte p ?_
  cases p with
  | ibuf => exact fun hhigh => h (spaceAt_of_ibuf hhigh)
  | obuf => exact fun ⟨hlow, hhigh⟩ => h (spaceAt_of_obuf hlow hhigh)
  | evt => exact fun ⟨hlow, hhigh⟩ => h (spaceAt_of_evt hlow hhigh)
  | frm => exact fun hlow => h (spaceAt_of_frm hlow)

theorem foldl_forgetSpace_memByte {a : Nat} (l : List Space) : ∀ s : State, spaceAt a ∉ l →
    (l.foldl State.forgetSpace s).memByte a = s.memByte a := by
  induction l with
  | nil => exact fun _ _ => rfl
  | cons p l ih =>
    intro s h
    simp only [List.mem_cons, not_or] at h
    obtain ⟨hp, hl⟩ := h
    exact (ih (s.forgetSpace p) hl).trans (forgetSpace_memByte_of_ne s hp)

/-- A soft reset keeps every byte of a memory that it does not abandon (R343). -/
theorem softReset_memByte {a : Nat} (h : spaceAt a ∉ s.abandoned) : s.softReset.memByte a = s.memByte a :=
  foldl_forgetSpace_memByte s.abandoned s h

theorem abandoned_of_idle (h : s.busy = false) : s.abandoned = [] := by
  simp [State.abandoned, State.running, h]

theorem abandoned_of_running {i : Instr} (hbusy : s.busy = true) (hword : decodeWord s.cmd = .ok i) :
    s.abandoned = writtenSpaces i := by
  simp [State.abandoned, State.running, hbusy, hword, Except.toOption]

/-- Which commands write which memory (20_memory.md R81). -/
theorem mem_writtenSpaces_iff (i : Instr) : .ibuf ∉ writtenSpaces i
    ∧ (.obuf ∈ writtenSpaces i ↔ i ∈ [.sweep, .twoph, .ttone])
    ∧ (.evt ∈ writtenSpaces i ↔ i ∈ [.extract, .decode false, .decode true, .sdecode false, .sdecode true])
    ∧ (.frm ∈ writtenSpaces i ↔ i ∈ [.fsync, .decode false, .decode true]) := by
  cases i with
  | decode e | sdecode e => cases e <;> simp [writtenSpaces]
  | _ => simp [writtenSpaces]

theorem ibuf_not_mem_abandoned (s : State) : .ibuf ∉ s.abandoned := by
  unfold State.abandoned
  cases s.running with
  | none => exact List.not_mem_nil
  | some i =>
    obtain ⟨hibuf, -⟩ := mem_writtenSpaces_iff i
    exact hibuf

/-- Settles O12: each address belongs to one memory, whose bytes stay unless the command that was running writes it. -/
theorem softResetKeepsTheMemories : Obligations.SoftResetKeepsTheMemories := by
  intro s t data rest hagenda hsrst hstep
  rw [step_of_srst hagenda hsrst] at hstep
  cases hstep
  have hlayout := memory_layout
  have hkeep (a : Nat) (h : spaceAt a ∉ s.abandoned) :
      ({ s with agenda := rest } : State).softReset.memByte a = s.memByte a :=
    softReset_memByte (s := { s with agenda := rest }) h
  refine ⟨fun a _ ha => hkeep a ?ibuf, fun hidle a => hkeep a ?idle, fun i hbusy hword =>
    ⟨fun hi a hlow hhigh => hkeep a ?obuf, fun hi a hlow hhigh => hkeep a ?evt, fun hi a hlow hhigh => hkeep a ?frm⟩⟩
  case ibuf =>
    rw [spaceAt_of_ibuf ha]
    exact ibuf_not_mem_abandoned s
  case idle => simp [abandoned_of_idle hidle]
  all_goals
    obtain ⟨-, hobuf, hevt, hfrm⟩ := mem_writtenSpaces_iff i
    rw [abandoned_of_running hbusy hword]
  case obuf => rwa [spaceAt_of_obuf (by omega) hhigh, hobuf]
  case evt => rwa [spaceAt_of_evt (by omega) hhigh, hevt]
  case frm => rwa [spaceAt_of_frm (by omega), hfrm]

end Sys2Proof.Machine
end

section
/-! ## A held fault and a busy block (60_exceptions.md R314, 70_reset_and_hazards.md R350) -/

namespace Sys2Proof.Machine

variable {s t : State} {x : Target} {addr data : Word} {width : Width} {a : Access} {rest : List Event}

/-! ### Writes that neither issue nor reset -/

/-- The fault code, CMD, and the flags that issue and reset change. -/
def State.sameFlags (s t : State) : Prop :=
  t.fault = s.fault ∧ t.cmd = s.cmd ∧ t.busy = s.busy ∧ t.done = s.done ∧ t.haz = s.haz

theorem State.sameFlags_refl (s : State) : s.sameFlags s := ⟨rfl, rfl, rfl, rfl, rfl⟩

theorem srst_clear (h : isSoftReset (.reg 2) data = false) : data.getLsbD 0 = false := by simpa [isSoftReset] using h

theorem writeRegister_sameFlags {n : Nat} (hcmd : n ≠ 0) (hreset : isSoftReset (.reg n) data = false) :
    s.sameFlags (s.writeRegister n data) := by
  unfold State.writeRegister
  split
  · exact absurd rfl hcmd
  · rw [srst_clear hreset, if_neg Bool.false_ne_true]
    exact s.sameFlags_refl
  all_goals exact ⟨rfl, rfl, rfl, rfl, rfl⟩

theorem writeTarget_sameFlags (hcmd : x ≠ .reg 0) (hreset : isSoftReset x data = false) :
    s.sameFlags (s.writeTarget x data) := by
  cases x with
  | reg n => exact writeRegister_sameFlags (fun h => hcmd (congrArg _ h)) hreset
  | _ => exact ⟨rfl, rfl, rfl, rfl, rfl⟩

/-- Such a write does not depend on the fault code. -/
theorem writeRegister_fault {n : Nat} (f : Option FaultCode) (hcmd : n ≠ 0) (hreset : isSoftReset (.reg n) data = false) :
    s.writeRegister n data = { ({ s with fault := f } : State).writeRegister n data with fault := s.fault } := by
  unfold State.writeRegister
  split
  · exact absurd rfl hcmd
  · rw [srst_clear hreset, if_neg Bool.false_ne_true, if_neg Bool.false_ne_true]
  all_goals rfl

theorem writeTarget_fault (f : Option FaultCode) (hcmd : x ≠ .reg 0) (hreset : isSoftReset x data = false) :
    s.writeTarget x data = { ({ s with fault := f } : State).writeTarget x data with fault := s.fault } := by
  cases x with
  | reg n => exact writeRegister_fault f (fun h => hcmd (congrArg _ h)) hreset
  | _ => rfl

/-- A write that is no entry that resets is no soft reset of the block. -/
theorem isSoftReset_of_not_isReset (hx : target addr.toNat width = some x)
    (hreset : (Event.access (.write addr width data)).isReset = false) : isSoftReset x data = false :=
  (isSoftReset_eq_isReset hx data).trans hreset

/-! ### Accesses while a fault is held -/

/-- A faulted block drops what is written to CMD (R314). -/
theorem writeTarget_cmd_of_fault (hfault : s.fault ≠ none) : s.writeTarget (.reg 0) data = s := by
  rw [State.writeTarget, State.writeRegister, State.issue, if_pos (Option.isSome_iff_ne_none.mpr hfault)]

theorem hostAccess_sameFlags (hidle : s.busy = false) (hfault : s.fault ≠ none) (hreset : (Event.access a).isReset = false) :
    s.sameFlags (s.hostAccess a) := by
  cases a with
  | read addr width => exact ⟨rfl, rfl, rfl, rfl, rfl⟩
  | write addr width data =>
    rw [State.hostAccess]
    rcases hostWrite_cases s addr width data with ⟨-, hsame⟩ | ⟨x, hx, ⟨hbusy, -, -⟩ | ⟨-, hwrite⟩⟩
    · rw [hsame]
      exact s.sameFlags_refl
    · simp [hidle] at hbusy
    · rw [hwrite]
      by_cases hcmd : x = .reg 0
      · rw [hcmd, writeTarget_cmd_of_fault hfault]
        exact s.sameFlags_refl
      · exact writeTarget_sameFlags hcmd (isSoftReset_of_not_isReset hx hreset)

theorem hostWrite_of_idle (hidle : s.busy = false) (hx : target addr.toNat width = some x) :
    s.hostWrite addr width data = s.writeTarget x data := by
  simp [State.hostWrite, hx, hidle]

/-- A write to anything but CMD does what it does without the fault (R314). -/
theorem hostWrite_fault (f : Option FaultCode) (hidle : s.busy = false) (hcmd : target addr.toNat width ≠ some (.reg 0))
    (hreset : (Event.access (.write addr width data)).isReset = false) :
    s.hostWrite addr width data
      = { ({ s with fault := f } : State).hostWrite addr width data with fault := s.fault } := by
  cases hx : target addr.toNat width with
  | none => simp only [State.hostWrite, hx]
  | some x =>
    have hne : x ≠ .reg 0 := fun h => hcmd (h ▸ hx)
    rw [hostWrite_of_idle hidle hx, hostWrite_of_idle (s := { s with fault := f }) hidle hx]
    exact writeTarget_fault f hne (isSoftReset_of_not_isReset hx hreset)

/-- Only STATUS shows the fault. -/
theorem readTarget_fault (f : Option FaultCode) (h : x ≠ .reg 1) :
    ({ s with fault := f } : State).readTarget x = s.readTarget x := by
  cases x with
  | reg n =>
    have hn : n ≠ 1 := fun hn => h (congrArg _ hn)
    simp only [State.readTarget]
    unfold State.readRegister
    split
    case h_2 => exact absurd rfl hn
    all_goals rfl
  | _ => rfl

theorem hostReadValue_fault (f : Option FaultCode) (hidle : s.busy = false) (h : target addr.toNat width ≠ some (.reg 1)) :
    s.hostReadValue addr width = ({ s with fault := f } : State).hostReadValue addr width := by
  cases hx : target addr.toNat width with
  | none =>
    rw [hostReadValue_of_illegal hx, hostReadValue_of_illegal hx]
    rfl
  | some x =>
    rw [hostReadValue_of_target hx hidle, hostReadValue_of_target (s := { s with fault := f }) hx hidle,
      readTarget_fault f fun h' => h (h' ▸ hx)]

/-- A block that holds a fault is idle. -/
theorem idle_of_fault (hprotocol : s.protocolOk) (hfault : s.fault ≠ none) : s.busy = false := by
  refine Bool.eq_false_iff.mpr fun hbusy => ?_
  obtain ⟨-, hnone, -⟩ := hprotocol hbusy
  exact hfault hnone

theorem isReset_of_noResetNext {e : Event} (h : s.noResetNext) (hagenda : s.agenda = e :: rest) : e.isReset = false :=
  h e (by simp [hagenda])

theorem step_sameFlags (hidle : s.busy = false) (hfault : s.fault ≠ none) (hnext : s.noResetNext) (h : step s = .next t) :
    s.sameFlags t := by
  rcases step_cases h with ⟨a, rest, hagenda, rfl⟩ | ⟨rest, hagenda, -⟩ | ⟨-, hcompletion⟩
  · exact hostAccess_sameFlags (s := s.taken) hidle hfault (isReset_of_noResetNext hnext hagenda)
  · exact absurd (isReset_of_noResetNext hnext hagenda) (by simp [Event.isReset])
  · rcases completion_cases hcompletion with ⟨-, rfl⟩ | ⟨i, hbusy, -⟩ | ⟨hbusy, -⟩
    · exact ⟨rfl, rfl, rfl, rfl, rfl⟩
    all_goals exact absurd (hidle.symm.trans hbusy) Bool.false_ne_true

/-! ### Entries that reset -/

/-- An entry that resets leaves the registers as after reset, whichever of the two it is (R340, R341). -/
theorem step_of_isReset {e : Event} (hagenda : s.agenda = e :: rest) (hreset : e.isReset = true) (h : step s = .next t) :
    t.registersReset := by
  cases e with
  | completion => cases hreset
  | hardwareReset =>
    rw [step_of_hardwareReset hagenda] at h
    cases h
    exact State.hardwareReset_registersReset _
  | access a =>
    cases a with
    | read addr width => cases hreset
    | write addr width data =>
      simp only [Event.isReset, Bool.and_eq_true, decide_eq_true_eq] at hreset
      obtain ⟨⟨rfl, rfl⟩, hsrst⟩ := hreset
      rw [step_of_srst hagenda hsrst] at h
      cases h
      exact State.softReset_registersReset _

/-- Settles O9: a faulted block is idle, drops what is written to CMD, and no other access reads or writes the fault code. -/
theorem faultHoldsUntilReset : Obligations.FaultHoldsUntilReset := by
  intro s c hprotocol hfault
  have hne : s.fault ≠ none := by simp [hfault]
  have hidle := idle_of_fault hprotocol hne
  refine ⟨hostWrite_cmd_of_fault hidle hne, fun t hstep hnext => ?stays, fun t e rest hstep hagenda hreset => ?resets,
    fun addr width data hcmd hreset => ?writes, fun addr width => hostReadValue_fault none hidle⟩
  case stays =>
    obtain ⟨hsame, hcmd, hbusy, hdone, hhaz⟩ := step_sameFlags hidle hne hnext hstep
    exact ⟨hsame.trans hfault, hcmd, hbusy.trans hidle, hdone, hhaz⟩
  case resets =>
    have hregisters := step_of_isReset hagenda hreset hstep
    obtain ⟨-, -, hnone⟩ := hregisters.flags
    exact ⟨hnone, hregisters.accepts⟩
  case writes =>
    rw [hostWrite_fault none hidle hcmd hreset, hfault]

/-! ### Accesses while the block is busy -/

theorem hostWrite_of_busy (hbusy : s.busy = true) (hx : target addr.toNat width = some x)
    (hreset : isSoftReset x data = false) : s.hostWrite addr width data = { s with haz := true } := by
  simp [State.hostWrite, hx, hbusy, hreset]

/-- STATUS is register 1 at byte address 4, and is read while the block is busy too (R350). -/
theorem hostReadValue_status (s : State) : s.hostReadValue 4 .w32 = s.readRegister 1 := by
  have htarget : target (4 : Word).toNat .w32 = some (.reg 1) := target_register (n := 1) (by norm_num)
  rw [State.hostReadValue, htarget]
  simp only [ne_eq, not_true_eq_false, decide_false, Bool.and_false, Bool.false_eq_true, if_false, State.readTarget]

/-- An access to a busy block changes HAZ alone, and what is the model's own. -/
theorem hostAccess_of_busy (hbusy : s.busy = true) (hreset : (Event.access a).isReset = false) :
    s.hostAccess a = { s with
      haz := (s.hostAccess a).haz, rdata := (s.hostAccess a).rdata, draws := (s.hostAccess a).draws } := by
  cases a with
  | read addr width => rfl
  | write addr width data =>
    rw [State.hostAccess]
    rcases hostWrite_cases s addr width data with ⟨-, hsame⟩ | ⟨x, hx, ⟨-, -, hhaz⟩ | ⟨hwrites, -⟩⟩
    · rw [hsame]
    · rw [hhaz]
    · simp [hbusy, isSoftReset_of_not_isReset hx hreset] at hwrites

/-! ### HAZ stays -/

theorem issue_haz (s : State) (w : Word) : (s.issue w).haz = s.haz := by
  rcases issue_cases s w with ⟨-, hsame⟩ | ⟨-, -, haccept⟩ | ⟨-, -, hillegal⟩
  · rw [hsame]
  · rw [haccept, State.accept_haz]
  · rw [hillegal]

theorem hostAccess_haz (hhaz : s.haz = true) (hreset : (Event.access a).isReset = false) : (s.hostAccess a).haz = true := by
  cases a with
  | read addr width => exact hhaz
  | write addr width data =>
    rw [State.hostAccess]
    rcases hostWrite_cases s addr width data with ⟨-, hsame⟩ | ⟨x, hx, ⟨-, -, hset⟩ | ⟨-, hwrite⟩⟩
    · rwa [hsame]
    · rw [hset]
    · rw [hwrite]
      by_cases hcmd : x = .reg 0
      · subst hcmd
        exact (issue_haz s data).trans hhaz
      · obtain ⟨-, -, -, -, hsame⟩ := writeTarget_sameFlags (s := s) hcmd (isSoftReset_of_not_isReset hx hreset)
        exact hsame.trans hhaz

theorem completion_haz (h : completion s = .next t) : t.haz = s.haz := by
  rcases completion_cases h with ⟨-, rfl⟩ | ⟨i, -, -, hexec⟩ | ⟨-, -, rfl⟩
  · rfl
  · obtain ⟨⟨-, hhaz, -⟩, -⟩ := commandsKeepTheHostsState i s t hexec
    exact hhaz
  · exact s.raiseFault_haz _

theorem step_haz (hhaz : s.haz = true) (hnext : s.noResetNext) (h : step s = .next t) : t.haz = true := by
  rcases step_cases h with ⟨a, rest, hagenda, rfl⟩ | ⟨rest, hagenda, -⟩ | ⟨-, hcompletion⟩
  · exact hostAccess_haz (s := s.taken) hhaz (isReset_of_noResetNext hnext hagenda)
  · exact absurd (isReset_of_noResetNext hnext hagenda) (by simp [Event.isReset])
  · exact (completion_haz hcompletion).trans hhaz

/-- Settles O10: a busy block drops every legal write that is no soft reset, and only a reset clears HAZ. -/
theorem busyBlockDropsWrites : Obligations.BusyBlockDropsWrites := by
  refine fun s hprotocol => ⟨fun hbusy => ⟨fun addr width data x hx hsrst => ?dropped, ?status, ?done,
    fun t a rest hagenda hnext hstep => ?frame⟩, fun t hhaz hnext hstep => step_haz hhaz hnext hstep⟩
  case dropped => exact hostWrite_of_busy hbusy hx (by simpa [isSoftReset] using hsrst)
  case status =>
    obtain ⟨hbit, -⟩ := statusWordFields s _ (hostReadValue_status s)
    rw [hbit, hbusy]
  case done =>
    obtain ⟨-, hbit, -⟩ := statusWordFields s _ (hostReadValue_status s)
    obtain ⟨hdone, -⟩ := hprotocol hbusy
    rw [hbit, hdone]
  case frame =>
    rw [step_of_access hagenda] at hstep
    cases hstep
    exact hostAccess_of_busy (s := { s with agenda := rest }) hbusy (isReset_of_noResetNext hnext hagenda)

end Sys2Proof.Machine
end

section
/-! ## The fault table (60_exceptions.md R312, R313) -/

namespace Sys2Proof.Machine

variable {s t : State} {i : Instr} {c : FaultCode}

/-! ### The ways a command ends, by what the table says -/

/-- How a command ends under a row of the fault table: without a fault, in the fault of a check before every write, in a late
one, or at an unreadable capture. -/
inductive Ended (i : Instr) (s : State) : Option FaultCode → Host.Outcome State Fault Refusal → Prop where
  | ran {t : State} (hfault : t.fault = s.fault) : Ended i s none (.next t)
  | early {c : FaultCode} (hc : c ≠ .captureFailure) : Ended i s (some c) (.next (s.raiseFault c))
  | late {c : FaultCode} (hc : c ≠ .captureFailure)
      (hlate : ¬ (faultsEarly i = true ∨ readsInput i = true ∧ 32768 < s.ilen.toNat)) :
      Ended i s (some c) (.next (s.raiseLateFault c))
  | capture (hlate : ¬ (faultsEarly i = true ∨ readsInput i = true ∧ 32768 < s.ilen.toNat)) :
      Ended i s (some .captureFailure) (.next s.raiseCaptureFailure)

theorem Ended.fault_eq {o : Option FaultCode} (h : Ended i s o (.next t)) (hnone : s.fault = none) : t.fault = o := by
  cases h with
  | ran hfault => exact hfault.trans hnone
  | early | late | capture => rfl

theorem Ended.faulted (h : Ended i s (some c) (.next t)) : Faulted s t := by
  cases h with
  | early => exact .early c
  | late => exact .late c
  | capture => exact .capture

/-- Only an unreadable capture has its code, and it leaves ERROR 3 (R315). -/
theorem Ended.error_eq (h : Ended i s (some .captureFailure) (.next t)) : t.error = .captureFailure := by
  cases h with
  | early hc | late hc => exact absurd rfl hc
  | capture => rfl

/-- A fault of a check before every write is that fault and nothing else (R313). -/
theorem Ended.eq_of_early (h : Ended i s (some c) (.next t))
    (hearly : faultsEarly i = true ∨ readsInput i = true ∧ 32768 < s.ilen.toNat) : t = s.raiseFault c := by
  cases h with
  | early => rfl
  | late _ hlate | capture hlate => exact absurd hearly hlate

/-- A command that is not named as faulting early faults late where ILEN fits IBUF. -/
theorem late_of_fits (hearly : faultsEarly i = false) (hfits : ¬ 32768 < s.ilen.toNat) :
    ¬ (faultsEarly i = true ∨ readsInput i = true ∧ 32768 < s.ilen.toNat) := by
  simp [hearly, hfits]

/-! ### The synthesizer -/

/-- The checks of SWEEP pass exactly where no condition of its BAD_OPERAND row holds. -/
theorem sweepOperandsOk_iff_table : s.sweepOperandsOk = true ↔
    ¬ (s.freq = 0 ∨ s.ppcell = 0 ∨ s.ncells.toNat < 3 ∨ s.ncells.toNat ≤ s.syncidx.toNat ∨ 10000 < s.refvol.toNat
      ∨ 10000 < s.maxvol.toNat ∨ 10000 < s.minvol.toNat ∨ ¬ s.freq.toNat ∣ 44100 * s.ppcell.toNat) := by
  rw [sweepOperandsOk_iff, word_eq_zero_iff, word_eq_zero_iff, Nat.dvd_iff_mod_eq_zero]
  omega

theorem sweepFits_iff_table :
    s.sweepFits = true ↔ ¬ 65536 < 2 * s.ncells.toNat * (44100 * s.ppcell.toNat / s.freq.toNat) :=
  (sweepFits_iff s).trans not_lt.symm

theorem toneOperandsOk_iff_table : s.toneOperandsOk = true ↔ ¬ (s.freq = 0 ∨ 10000 < s.tonevol.toNat) := by
  rw [toneOperandsOk_iff, word_eq_zero_iff]
  omega

theorem toneFits_iff_table : s.toneFits = true ↔ ¬ 65536 < 2 * s.dur.toNat := (toneFits_iff s).trans not_lt.symm

/-- The two checks of an output command in their order, before any write (40_synthesizer.md R142, R153). -/
theorem ended_of_checks {bad tooLong : Prop} [Decidable bad] [Decidable tooLong] {ok fits : Bool} (hok : ok = true ↔ ¬ bad)
    (hfits : fits = true ↔ ¬ tooLong) (hran : t.fault = s.fault) :
    Ended i s (if bad then some .badOperand else if tooLong then some .capacity else none)
      (.next (if !ok then s.raiseFault .badOperand else if !fits then s.raiseFault .capacity else t)) := by
  simp only [Bool.not_eq_true', ← Bool.not_eq_true, hok, hfits, not_not]
  split_ifs
  · exact .early nofun
  · exact .early nofun
  · exact .ran hran

theorem execSweep_ended (s : State) : Ended .sweep s (faultTable .sweep s) (exec .sweep s) :=
  ended_of_checks sweepOperandsOk_iff_table sweepFits_iff_table rfl

/-- TWOPH and TTONE have the same rows. -/
theorem emitTone_ended (i : Instr) (s : State) (words : List Int) :
    Ended i s (faultTable .ttone s) (.next (s.emitTone words)) :=
  ended_of_checks toneOperandsOk_iff_table toneFits_iff_table rfl

/-! ### The clipping check, the extractor and the synchronizer -/

theorem execClipchk_ended (s : State) : Ended .clipchk s (faultTable .clipchk s) (exec .clipchk s) := by
  simp only [faultTable]
  split_ifs with hover
  · rw [execClipchk_of_overlong hover]
    exact .early nofun
  · rw [execClipchk_of_fits (not_lt.mp hover)]
    exact .ran rfl

theorem execExtract_ended (s : State) : Ended .extract s (faultTable .extract s) (exec .extract s) := by
  simp only [faultTable]
  split_ifs with hover
  · rw [execExtract_of_overlong hover]
    exact .early nofun
  · rw [execExtract_of_fits (not_lt.mp hover)]
    exact .ran rfl

theorem execFsync_of_overflow (hover : Config.frmMax < (framesOf s.samples).length) :
    exec .fsync s = .next (s.raiseLateFault .capacity) := by
  rw [exec, execFsync, State.synchronize_none s hover]

theorem execFsync_ended (s : State) : Ended .fsync s (faultTable .fsync s) (exec .fsync s) := by
  simp only [faultTable]
  split_ifs with hover
  · rw [execFsync_of_overflow hover]
    exact .late nofun (by simp [faultsEarly, readsInput])
  · rw [execFsync_of_fits (not_lt.mp hover)]
    exact .ran rfl

/-! ### The calibrator -/

theorem execFit_ended (f : Nat) (s : State) : Ended (.fit f) s (faultTable (.fit f) s) (exec (.fit f) s) := by
  simp only [faultTable]
  split_ifs with hf
  · rw [execFit_of_invalid hf]
    exact .early nofun
  · rw [execFit_of_valid (not_le.mp hf)]
    exact .ran rfl

theorem execXint_ended (f : Nat) (s : State) : Ended (.xint f) s (faultTable (.xint f) s) (exec (.xint f) s) := by
  simp only [faultTable]
  split_ifs with hbad hzero
  · have hrun : exec (.xint f) s = .next (s.raiseFault .badOperand) := hbad.elim execXint_of_invalid execXint_of_nan
    rw [hrun]
    exact .early nofun
  all_goals
    simp only [not_or, not_le] at hbad
    obtain ⟨hf, hslope, hintercept⟩ := hbad
    obtain ⟨b, hb⟩ : ∃ b, s.intercept = .val b := by
      cases h : s.intercept with
      | nan => exact absurd h hintercept
      | val b => exact ⟨b, rfl⟩
  · rw [execXint_of_flat hf hzero hb]
    exact .early nofun
  · cases ha : s.slope with
    | nan => exact absurd ha hslope
    | val a =>
      rw [execXint_of_line hf ha hb fun h => hzero (by rw [ha, h])]
      exact .ran rfl

/-- There is a median of one intersection or more, all computed (43_calibrator.md R228). -/
theorem State.exists_medianIntersection (hne : s.fcnt ≠ 0) (hval : .nan ∉ (List.range s.fcnt.toNat).map s.xiAt) :
    ∃ m, s.medianIntersection = some m := by
  obtain ⟨xs, hxs⟩ := Option.ne_none_iff_exists'.mp (mt (allRational_eq_none_iff _).mp hval)
  have hmap := (allRational_eq_some_iff _ _).mp hxs
  have hxsne : xs ≠ [] := by
    rintro rfl
    exact hne ((word_eq_zero_iff _).mpr (by simpa using hmap))
  obtain ⟨m, hm, -⟩ := median_isSome hxsne
  exact ⟨m, (State.medianIntersection_of_rational hmap).trans hm⟩

theorem execResist_ended (s : State) : Ended .resist s (faultTable .resist s) (exec .resist s) := by
  simp only [faultTable]
  split_ifs with hbad
  · have hnone : s.medianIntersection = none :=
      State.medianIntersection_eq_none (hbad.imp_right fun h => by simpa using h)
    rw [execResist_of_none hnone]
    exact .early nofun
  · obtain ⟨hne, hval⟩ := not_or.mp hbad
    obtain ⟨m, hm⟩ := State.exists_medianIntersection hne hval
    rw [execResist_of_median hm]
    exact .ran rfl

/-! ### The decoders -/

/-- DECODE of an unclipped buffer that fits IBUF and has no frame of slope zero raises no fault. -/
theorem execDecode_ran (hfits : s.ilen.toNat ≤ Config.ibufMax)
    (hunclipped : (tally s.buffer fun v => decide (32000 < v)) ≤ 10)
    (hlines : ∀ cells ∈ framesOf (extractEvents s.buffer), (fitLine cells).1 ≠ 0) :
    Ended (.decode false) s none (exec (.decode false) s) := by
  by_cases hnone : framesOf (extractEvents s.buffer) = []
  · rw [execDecode_of_noFrames hfits hunclipped hnone]
    exact .ran rfl
  · obtain ⟨m, hm, -⟩ := median_isSome (l := intersectionsOf (framesOf (extractEvents s.buffer)))
      (by simpa [intersectionsOf] using hnone)
    rw [execDecode_of_frames hfits hunclipped rfl hlines (List.getLast?_eq_some_getLast hnone) hm]
    exact .ran (by simp [State.decoded, State.synchronized, State.counted])

theorem execDecode_ended (e : Bool) (s : State) : Ended (.decode e) s (faultTable (.decode e) s) (exec (.decode e) s) := by
  simp only [faultTable]
  split_ifs with hover hunread hclipped hflat
  · have hrun : exec (.decode e) s = .next (s.raiseFault .badOperand) := (execDecode_cases e s).1 hover
    rw [hrun]
    exact .early nofun
  · subst hunread
    rw [execDecode_of_unread (not_lt.mp hover)]
    exact .capture (late_of_fits rfl hover)
  all_goals
    obtain rfl : e = false := Bool.eq_false_iff.mpr hunread
  · rw [execDecode_of_clipped (not_lt.mp hover) hclipped]
    exact .ran rfl
  · rw [execDecode_of_flat (not_lt.mp hover) (not_lt.mp hclipped) hflat]
    exact .late nofun (late_of_fits rfl hover)
  · push Not at hflat
    exact execDecode_ran (not_lt.mp hover) (not_lt.mp hclipped) hflat

theorem windowAmplitudes_of_region {buf : List Int} {a e : Nat} {l r : Int} (hregion : trimRegion buf = some (a, e))
    (hl : median (signedExtrema (extractEvents (leftWindow buf a e))) = some l)
    (hr : median (signedExtrema (extractEvents (rightWindow buf a e))) = some r) : windowAmplitudes buf = some (l, r) := by
  simp only [windowAmplitudes, hregion, hl, hr]

/-- SDECODE of a buffer that fits IBUF and has no left amplitude of 0 raises no fault. -/
theorem execSdecode_ran (hfits : s.ilen.toNat ≤ Config.ibufMax) (hne : (windowAmplitudes s.buffer).map (·.1) ≠ some 0) :
    Ended (.sdecode false) s none (exec (.sdecode false) s) := by
  cases hregion : trimRegion s.buffer with
  | none =>
    rw [execSdecode_of_noRegion hfits hregion]
    exact .ran rfl
  | some p =>
    obtain ⟨a, e⟩ := p
    cases hl : median (signedExtrema (extractEvents (leftWindow s.buffer a e))) with
    | none =>
      rw [execSdecode_of_noExtrema hfits hregion (.inl ((median_eq_none_iff _).mp hl))]
      exact .ran rfl
    | some l =>
      cases hr : median (signedExtrema (extractEvents (rightWindow s.buffer a e))) with
      | none =>
        rw [execSdecode_of_noExtrema hfits hregion (.inr ((median_eq_none_iff _).mp hr))]
        exact .ran rfl
      | some r =>
        rw [windowAmplitudes_of_region hregion hl hr] at hne
        rw [execSdecode_of_amplitudes hfits hregion hl hr fun h => hne (by rw [h]; rfl)]
        exact .ran rfl

theorem execSdecode_ended (e : Bool) (s : State) :
    Ended (.sdecode e) s (faultTable (.sdecode e) s) (exec (.sdecode e) s) := by
  simp only [faultTable]
  split_ifs with hover hunread hzero
  · rw [execSdecode_of_overlong hover]
    exact .early nofun
  · subst hunread
    rw [execSdecode_of_unread (not_lt.mp hover)]
    exact .capture (late_of_fits rfl hover)
  all_goals
    obtain rfl : e = false := Bool.eq_false_iff.mpr hunread
  · obtain ⟨⟨l, r⟩, hamplitudes, rfl⟩ := Option.map_eq_some_iff.mp hzero
    obtain ⟨a, e, hregion, hl, hr⟩ := windowAmplitudes_eq_some hamplitudes
    rw [execSdecode_of_zero (not_lt.mp hover) hregion hl hr rfl]
    exact .late nofun (late_of_fits rfl hover)
  · exact execSdecode_ran (not_lt.mp hover) hzero

/-! ### The presence detector -/

/-- A buffer of CUT_SAMPLES_COUNT samples or more has a level (46_presence.md R280). -/
theorem exists_level (h : ¬ s.ilen.toNat < Config.cutSamplesCount) : ∃ v, s.level = some v := by
  refine Option.ne_none_iff_exists'.mp fun hnone => ?_
  rcases (trimmedLevel_eq_none_iff _ _).mp hnone with hzero | hshort
  · exact absurd Config.cutSamplesCount_pos (Nat.not_le.mpr hzero)
  · rw [s.buffer_length] at hshort
    exact h hshort

theorem execPres1_ended (e : Bool) (s : State) : Ended (.pres1 e) s (faultTable (.pres1 e) s) (exec (.pres1 e) s) := by
  simp only [faultTable]
  split_ifs with hover hunread hshort
  · rw [execPres1_of_overlong e hover]
    exact .early nofun
  · subst hunread
    rw [execPres1_of_unread (not_lt.mp hover)]
    exact .ran rfl
  all_goals
    obtain rfl : e = false := Bool.eq_false_iff.mpr hunread
  · rw [execPres1_of_noLevel (not_lt.mp hover) (level_of_short hshort)]
    exact .late nofun (late_of_fits rfl hover)
  · obtain ⟨v, hlevel⟩ := exists_level hshort
    rw [execPres1_of_level (not_lt.mp hover) hlevel]
    exact .ran rfl

theorem execPres2_ended (e : Bool) (s : State) : Ended (.pres2 e) s (faultTable (.pres2 e) s) (exec (.pres2 e) s) := by
  simp only [faultTable]
  split_ifs with hidle hover hunread hshort
  · rw [execPres2_of_notArmed e hidle]
    exact .ran rfl
  all_goals
    have harmed : s.pstate = .armed := not_not.mp hidle
  · rw [execPres2_of_overlong harmed e hover]
    exact .early nofun
  · subst hunread
    rw [execPres2_of_unread harmed (not_lt.mp hover)]
    exact .ran rfl
  all_goals
    obtain rfl : e = false := Bool.eq_false_iff.mpr hunread
  · rw [execPres2_of_noLevel harmed (not_lt.mp hover) (level_of_short hshort)]
    exact .late nofun (late_of_fits rfl hover)
  · obtain ⟨v, hlevel⟩ := exists_level hshort
    rw [execPres2_of_level harmed (not_lt.mp hover) hlevel]
    exact .ran rfl

/-! ### Every command -/

/-- Every command ends as its rows of the table say. -/
theorem exec_ended (i : Instr) (s : State) : Ended i s (faultTable i s) (exec i s) := by
  cases i with
  | nop | clear | temp => exact .ran rfl
  | sweep => exact execSweep_ended s
  | twoph => exact emitTone_ended .twoph s s.twophWords
  | ttone => exact emitTone_ended .ttone s s.ttoneWords
  | clipchk => exact execClipchk_ended s
  | extract => exact execExtract_ended s
  | fsync => exact execFsync_ended s
  | fit f => exact execFit_ended f s
  | xint f => exact execXint_ended f s
  | resist => exact execResist_ended s
  | decode e => exact execDecode_ended e s
  | sdecode e => exact execSdecode_ended e s
  | pres1 e => exact execPres1_ended e s
  | pres2 e => exact execPres2_ended e s

/-- Settles O24: each command ends as its rows say, and a fault that was not held before is the one of the rows. -/
theorem faultsFollowTheTable : Obligations.FaultsFollowTheTable := by
  intro i s t hnone hexec
  have hended := exec_ended i s
  rw [hexec] at hended
  exact hended.fault_eq hnone

/-- Settles O25: the code held after a command is that of its rows, under which the command ended in a fault. -/
theorem faultEffect : Obligations.FaultEffect := by
  refine ⟨fun i s t c hnone hexec hfault => ?command, fun s w haccepts hillegal => ?illegal⟩
  case command =>
    have hended := exec_ended i s
    rw [hexec, ← faultsFollowTheTable i s t hnone hexec, hfault] at hended
    obtain ⟨hhost, houtput, hpstate, hbusy, hdone⟩ := hended.faulted.keeps
    have hdet : t.det = s.det := by rw [State.det, State.det, hpstate]
    exact ⟨hbusy, hdone, hhost, houtput, hpstate, hdet, fun hc => (hc ▸ hended).error_eq, hended.eq_of_early⟩
  case illegal =>
    obtain ⟨hidle, hnone⟩ := (accepts_iff s).mp haccepts
    cases hword : decodeWord w with
    | ok i => exact absurd hword (hillegal i)
    | error e => exact hostWrite_cmd_of_illegal hidle hnone hword

end Sys2Proof.Machine
end

section
/-! ## DECODE against its stages (47_control.md R303, 45_decode.md R253) -/

namespace Sys2Proof.Machine

variable {s t u d : State} {i : Instr}

/-! ### Commands one after the other -/

theorem runCommands_cons (h : exec i s = .next t) (l : List Instr) : runCommands (i :: l) s = runCommands l t := by
  simp only [runCommands, h]

theorem runCommands_append (l m : List Instr) : ∀ {s t : State}, runCommands l s = some t →
    runCommands (l ++ m) s = runCommands m t := by
  induction l with
  | nil =>
    rintro s t ⟨⟩
    rfl
  | cons i l ih =>
    intro s t h
    obtain ⟨u, hu⟩ := exec_answers i s
    rw [runCommands_cons hu] at h
    rw [List.cons_append, runCommands_cons hu, ih h]

/-- FIT and XINT of each frame of a list do what DECODE does with the list, and leave the block idle after each. -/
theorem runCommands_calibrate (fs : List Nat) : ∀ y x : State, (∀ f ∈ fs, f < y.fcnt.toNat) →
    y.calibrateFrames fs = some x →
    runCommands (fs.flatMap fun f => [.fit f, .xint f]) y.complete = some x.complete := by
  induction fs with
  | nil =>
    rintro y x - ⟨⟩
    rfl
  | cons f fs ih =>
    intro y x hvalid hcalibrate
    simp only [State.calibrateFrames] at hcalibrate
    split_ifs at hcalibrate with hflat
    have hf : f < y.fcnt.toNat := hvalid f List.mem_cons_self
    have hfit : exec (.fit f) y.complete = .next (y.fitFrame f).complete := execFit_of_valid hf
    have hxint : exec (.xint f) (y.fitFrame f).complete = .next ((y.fitFrame f).putXi f
        (.val (intersection (fitLine (y.frameAt f)).1 (fitLine (y.frameAt f)).2))).complete :=
      execXint_of_line hf rfl rfl hflat
    rw [List.flatMap_cons, List.cons_append, List.cons_append, List.nil_append, runCommands_cons hfit,
      runCommands_cons hxint]
    exact ih _ x (fun g hg => hvalid g (List.mem_cons_of_mem f hg)) hcalibrate

/-! ### The two ways to the result -/

/-- Where DECODE ends without a fault and without a result error, each of its checks passed. -/
theorem execDecode_succeeded (h : exec (.decode false) s = .next d) (hfault : d.fault = none) (herror : d.error = .none) :
    s.ilen.toNat ≤ Config.ibufMax ∧ (tally s.buffer fun v => decide (32000 < v)) ≤ 10
      ∧ framesOf (extractEvents s.buffer) ≠ []
      ∧ ∀ cells ∈ framesOf (extractEvents s.buffer), (fitLine cells).1 ≠ 0 := by
  have hfits : s.ilen.toNat ≤ Config.ibufMax := by
    by_contra hover
    cases ((execDecode_cases false s).1 (not_le.mp hover)).symm.trans h
    cases hfault
  have hunclipped : (tally s.buffer fun v => decide (32000 < v)) ≤ 10 := by
    by_contra hclipped
    cases (execDecode_of_clipped hfits (not_le.mp hclipped)).symm.trans h
    cases herror
  refine ⟨hfits, hunclipped, fun hnone => ?noFrames, fun cells hcells hflat => ?flat⟩
  case noFrames =>
    cases (execDecode_of_noFrames hfits hunclipped hnone).symm.trans h
    cases herror
  case flat =>
    cases (execDecode_of_flat hfits hunclipped ⟨cells, hcells, hflat⟩).symm.trans h
    cases hfault

/-- The state after CLEAR. -/
def State.cleared (s : State) : State := s.clearScratch.resetPresence.complete

theorem State.cleared_buffer (s : State) : s.cleared.buffer = s.buffer :=
  State.buffer_of_mem rfl rfl ⟨rfl, rfl, rfl, rfl⟩

/-- CLEAR, EXTRACT and FSYNC by hand: DECODE's extraction and synchronization, from the cleared state. -/
theorem runCommands_synchronize (hfits : s.ilen.toNat ≤ Config.ibufMax) :
    runCommands [.clear, .extract, .fsync] s = some s.cleared.synchronized.complete := by
  have hclear : exec .clear s = .next s.cleared := rfl
  have hextract : exec .extract s.cleared = .next (s.cleared.putSamples (extractEvents s.cleared.buffer)) :=
    execExtract_of_fits (s := s.cleared) hfits
  have hfsync : exec .fsync (s.cleared.putSamples (extractEvents s.cleared.buffer))
      = .next s.cleared.synchronized.complete := by
    rw [exec, execFsync, s.cleared.synchronize_extracted hfits]
  rw [runCommands_cons hclear, runCommands_cons hextract, runCommands_cons hfsync]
  rfl

/-- CLEAR resets the detector where DECODE counts the clipped samples; both then extract and synchronize one buffer. -/
theorem State.cleared_synchronized_eq (s : State) : s.cleared.synchronized = { s.counted.synchronized with
    busy := false, done := true, clipcnt := 0, pstate := .idle, silence := 0, tonelvl := 0 } := by
  rw [State.synchronized, State.synchronized, s.cleared_buffer, s.counted_buffer]
  rfl

/-- The end of the stages by hand from the synchronized state, for the last frame and the median of the intersections. -/
def State.staged (y : State) (frames : List (List CalCell)) (last : List CalCell) (m : Rat) : State :=
  ({ y with
      slope := .val (fitLine last).1, intercept := .val (fitLine last).2, xi := frameIntersections frames }.combine
    m).lookUp.complete

theorem State.decoded_fcnt (y : State) (frames : List (List CalCell)) (last : List CalCell) (m : Rat) :
    (y.decoded frames last m).fcnt = y.fcnt := rfl

/-- The two ends agree but for what CLEAR, the clipping count and the report write. -/
theorem State.decoded_eq_staged {y : State} (herror : y.error = .none) (frames : List (List CalCell)) (last : List CalCell)
    (m : Rat) : y.decoded frames last m
      = { ({ y with
            busy := false, done := true, clipcnt := 0, pstate := .idle, silence := 0, tonelvl := 0 } : State).staged
          frames last m with
        clipcnt := (y.decoded frames last m).clipcnt, nframes := (y.decoded frames last m).nframes
        pstate := y.pstate, silence := y.silence, tonelvl := y.tonelvl } := by
  cases y
  cases herror
  rfl

/-- The stages by hand, from the frames and the median of their intersections: the calibration that DECODE makes, the
resistance and the temperature. -/
theorem runCommands_stages {frames : List (List CalCell)} {last : List CalCell} {m : Rat}
    (hfits : s.ilen.toNat ≤ Config.ibufMax) (hframes : frames = framesOf (extractEvents s.buffer))
    (hlines : ∀ cells ∈ frames, (fitLine cells).1 ≠ 0) (hlast : frames.getLast? = some last)
    (hm : median (intersectionsOf frames) = some m) :
    runCommands ([.clear, .extract, .fsync] ++ (List.range frames.length).flatMap (fun f => [.fit f, .xint f])
        ++ [.resist, .temp]) s
      = some (s.cleared.synchronized.staged frames last m) := by
  rw [← s.cleared_buffer] at hframes
  obtain ⟨x, m', -, hcalibrate, hx, hm', hmedian, hin, hout⟩ :=
    State.decodeFrames_success s s.cleared frames last hfits hframes hlines hlast
  obtain rfl : m = m' := Option.some.inj (hm.symm.trans hm')
  have hfcnt : s.cleared.synchronized.fcnt.toNat = frames.length := by rw [hframes, s.cleared.synchronized_fcnt hfits]
  have hlinesRun := runCommands_calibrate _ s.cleared.synchronized x (fun f hf => by rwa [hfcnt, ← List.mem_range])
    hcalibrate
  have hresist : exec .resist x.complete = .next (x.combine m).complete := execResist_of_median hmedian
  have htemp : exec .temp (x.combine m).complete = .next (x.combine m).lookUp.complete := rfl
  rw [List.append_assoc, runCommands_append _ _ (runCommands_synchronize hfits), runCommands_append _ _ hlinesRun,
    runCommands_cons hresist, runCommands_cons htemp, runCommands, State.staged, hx,
    xi_eq_frameIntersections hin hout]

/-- Settles O50: both ways calibrate the frames of one buffer and combine their intersections, so they end in states that
differ where CLEAR, the clipping count and the report do. -/
theorem decodeEqualsTheStages : Obligations.DecodeEqualsTheStages := by
  intro s d _ hdecode hfault herror
  obtain ⟨hfits, hunclipped, hne, hlines⟩ := execDecode_succeeded hdecode hfault herror
  generalize hframes : framesOf (extractEvents s.buffer) = frames at hne hlines
  obtain ⟨m, hm, -⟩ := median_isSome (l := intersectionsOf frames) (by simpa [intersectionsOf] using hne)
  obtain ⟨last, hlast⟩ : ∃ last, frames.getLast? = some last := ⟨_, List.getLast?_eq_some_getLast hne⟩
  have hrun := execDecode_of_frames hfits hunclipped hframes.symm hlines hlast hm
  obtain rfl := Host.Outcome.next.inj (hrun.symm.trans hdecode)
  have hfcnt : s.counted.synchronized.fcnt.toNat = frames.length := by
    rw [s.counted.synchronized_fcnt hfits, s.counted_buffer, hframes]
  refine ⟨s.cleared.synchronized.staged frames last m, ?run, ?same⟩
  case run =>
    rw [State.decoded_fcnt, hfcnt]
    exact runCommands_stages hfits hframes.symm hlines hlast hm
  case same =>
    rw [s.cleared_synchronized_eq]
    exact State.decoded_eq_staged rfl frames last m

end Sys2Proof.Machine
end
